-- ==== Sys2Proof/Word.lean ====
section
/-! DEFINITION. The two word types of the machine: the 8-bit datum and the 16-bit address
(20_memory.md R70, 00_scope.md R6). -/

namespace Sys2Proof

/-- A byte: the only datum that moves on a bus (20_memory.md R71). -/
abbrev Byte := BitVec 8

/-- A CPU address; the PPU bus reduces it modulo 0x4000 (20_memory.md R70, 65_ppu.md R510). -/
abbrev Addr := BitVec 16

end Sys2Proof
end

