-- ==== Sys2Proof/Config.lean ====
section
/-! DEFINITION. What is fixed for the machine: the parameters of 00_scope.md R6. A constant with a value
is one the spec fixes; a constant with no body is one the spec leaves OPEN, so that nothing can be proved
about its value. -/

namespace Sys2Proof

/-- The two readings of the parameter `P_UNDOC_NOPS` (92_eei_decisions.md D12). -/
inductive UndocNops where
  | execute
  | fault
deriving DecidableEq, Repr

/-- One RGB colour of the host's picture (10_state.md R56). The spec gives no width for its components; eight bits each
is the model's choice (DESIGN CHOICE, log 15). -/
structure Rgb where
  red : Byte
  green : Byte
  blue : Byte
deriving DecidableEq, Repr, Inhabited

/-- The state of a cartridge whose board the model does not know: any finite string of bytes
(20_memory.md R84; DESIGN CHOICE, log 10). -/
abbrev CartState := List Byte

namespace Config

/-- `P_OPEN_BUS`: what a read that nothing drives returns (00_scope.md R6; 93 U5). -/
def openBus : Byte := 0xFF

/-- `P_LXA_CONST` (00_scope.md R6; 93 U3). -/
def lxaConst : Byte := 0xFF

/-- `P_UNDOC_NOPS` (00_scope.md R6, 30_encoding.md R123; DESIGN CHOICE of the spec's default, log 18). -/
def undocNops : UndocNops := .execute

/-- `P_DOTS_PER_CPU_CYCLE` (00_scope.md R6, 65_ppu.md R505). -/
def dotsPerCpuCycle : Nat := 4

/-- `P_PPU_FETCH_LAST_DOT` (00_scope.md R6, 65_ppu.md R544). -/
def ppuFetchLastDot : Nat := 340

/-- `P_PPU_STATUS_READ_CLEARS_VBL`, OPEN (65_ppu.md R523, D33; log 14). -/
opaque ppuStatusReadClearsVbl : Bool

/-- `P_PALETTE_RGB`, OPEN: the colour of each 6-bit colour code (65_ppu.md R545, D38; log 15). -/
opaque paletteRgb : BitVec 6 → Rgb

/-- The host's button snapshots of the two ports at the n-th strobe, a free input
(20_memory.md R82, 93 U8; log 13). -/
opaque freeButtons : Nat → Byte × Byte

/-! The four methods of an unknown cartridge, `Cart`, OPEN (20_memory.md R84, 93 U7; log 10). A read has a
value and, when its side effects are not suppressed, a next state of the cartridge. -/

/-- The value of `Cart.CpuReadByte`. -/
opaque cartCpuRead : CartState → Addr → Byte

/-- The cartridge after a `Cart.CpuReadByte` whose side effects are not suppressed. -/
opaque cartCpuAfterRead : CartState → Addr → CartState

/-- The cartridge after a `Cart.CpuWriteByte`. -/
opaque cartCpuAfterWrite : CartState → Addr → Byte → CartState

/-- The value of `Cart.PpuReadByte`. -/
opaque cartPpuRead : CartState → Addr → Byte

/-- The cartridge after a `Cart.PpuReadByte` whose side effects are not suppressed. -/
opaque cartPpuAfterRead : CartState → Addr → CartState

/-- The cartridge after a `Cart.PpuWriteByte`. -/
opaque cartPpuAfterWrite : CartState → Addr → Byte → CartState

end Config

end Sys2Proof
end

