-- ==== Sys2Proof/Syntax.lean ====
section
/-! DEFINITION. The instruction syntax: an instruction is what one entry of the opcode table says, a kind and an
addressing mode (30_encoding.md R110, R118; 10_state.md R31). The operand bytes are no part of it: the
instruction's own cycles fetch them through the bus (40_cycle_engine.md R143, R149; DEDUCED, log 2). -/

namespace Sys2Proof

/-- The thirteen addressing-mode tags of 30_encoding.md R112. -/
inductive Mode where
  | imp | acc | imm | zp | zpx | zpy | abs | abx | aby | ind | izx | izy | rel
deriving DecidableEq, Repr

/-- The six operation classes of 30_encoding.md R117. -/
inductive OpClass where
  | read | write | rmw | implied | branch | special
deriving DecidableEq, Repr

/-- The instructions: one constructor for every mnemonic of the opcode table, with the addressing mode where the
table has several rows for the mnemonic. Where the table gives one (mnemonic, mode) pair several bytes, the
argument `variant` counts them upwards from the documented byte, or from the lowest byte where none is documented
(DESIGN CHOICE, log 3). -/
inductive Instr where
  -- loads, stores, transfers (41_load_store_transfer.md)
  | lda (m : Mode)
  | ldx (m : Mode)
  | ldy (m : Mode)
  | sta (m : Mode)
  | stx (m : Mode)
  | sty (m : Mode)
  | tax
  | tay
  | txa
  | tya
  | tsx
  | txs
  -- arithmetic, logic, compare (42_alu_compare.md); SBC variant 1 is the byte EB (47_undocumented.md R346)
  | adc (m : Mode)
  | sbc (m : Mode) (variant : Nat)
  | and (m : Mode)
  | ora (m : Mode)
  | eor (m : Mode)
  | cmp (m : Mode)
  | cpx (m : Mode)
  | cpy (m : Mode)
  | bit (m : Mode)
  -- shifts, rotates, increments, decrements (43_shift_incdec.md)
  | asl (m : Mode)
  | lsr (m : Mode)
  | rol (m : Mode)
  | ror (m : Mode)
  | inc (m : Mode)
  | dec (m : Mode)
  | inx
  | iny
  | dex
  | dey
  -- flags and no-operations (44_flag_nop.md, 47_undocumented.md R345)
  | clc
  | sec
  | cli
  | sei
  | clv
  | cld
  | sed
  | nop (m : Mode) (variant : Nat)
  -- branches, jumps, subroutines (45_branch_jump.md)
  | bpl
  | bmi
  | bvc
  | bvs
  | bcc
  | bcs
  | bne
  | beq
  | jmp (m : Mode)
  | jsr
  | rts
  -- stack and system (46_stack_system.md)
  | pha
  | php
  | pla
  | plp
  | brk
  | rti
  -- undocumented instructions (47_undocumented.md)
  | slo (m : Mode)
  | rla (m : Mode)
  | sre (m : Mode)
  | rra (m : Mode)
  | sax (m : Mode)
  | lax (m : Mode)
  | dcp (m : Mode)
  | isc (m : Mode)
  | anc (variant : Nat)
  | alr
  | arr
  | lxa
  | sbx
  | shy
  | shx
  -- the "not implemented" sentinel entries (30_encoding.md R122, 47_undocumented.md R347)
  | jam (variant : Nat)
  | ane
  | sha (variant : Nat)
  | tas
  | las
deriving DecidableEq, Repr

end Sys2Proof
end

