-- ==== Sys2Proof/WellFormed.lean ====
section
/-! DEFINITION. Which instructions are entries of the opcode table: two checks, the addressing mode
(30_encoding.md R119 to R123) and the number of bytes that stand for one (kind, mode) pair. -/

namespace Sys2Proof

/-- The modes that ORA, AND, EOR, ADC, LDA, CMP and SBC have (30_encoding.md R120). -/
def Mode.alu : List Mode := [.izx, .zp, .imm, .abs, .izy, .zpx, .aby, .abx]

/-- The modes that SLO, RLA, SRE, RRA, DCP and ISC have (30_encoding.md R121). -/
def Mode.composite : List Mode := [.izx, .zp, .abs, .izy, .zpx, .aby, .abx]

/-- The modes that ASL, LSR, ROL and ROR have (30_encoding.md R120). -/
def Mode.shift : List Mode := [.zp, .acc, .abs, .zpx, .abx]

/-- How many bytes of the table stand for an undocumented or documented NOP of a mode
(30_encoding.md R120, R123). -/
def Mode.nopCount : Mode → Nat
  | .imp => 7
  | .imm => 5
  | .zp => 3
  | .zpx => 6
  | .abs => 1
  | .abx => 6
  | _ => 0

/-- The mode check: the table has an entry of this kind with this mode (30_encoding.md R120, R121, R123). -/
def Instr.modeOk : Instr → Bool
  | .lda m | .adc m | .and m | .ora m | .eor m | .cmp m | .sbc m _ => Mode.alu.contains m
  | .ldx m => [Mode.imm, .zp, .abs, .zpy, .aby].contains m
  | .ldy m => [Mode.imm, .zp, .abs, .zpx, .abx].contains m
  | .sta m => [Mode.izx, .zp, .abs, .izy, .zpx, .aby, .abx].contains m
  | .stx m => [Mode.zp, .abs, .zpy].contains m
  | .sty m => [Mode.zp, .abs, .zpx].contains m
  | .cpx m | .cpy m => [Mode.imm, .zp, .abs].contains m
  | .bit m => [Mode.zp, .abs].contains m
  | .asl m | .lsr m | .rol m | .ror m => Mode.shift.contains m
  | .inc m | .dec m => [Mode.zp, .abs, .zpx, .abx].contains m
  | .nop m _ => 0 < m.nopCount
  | .jmp m => [Mode.abs, .ind].contains m
  | .slo m | .rla m | .sre m | .rra m | .dcp m | .isc m => Mode.composite.contains m
  | .sax m => [Mode.izx, .zp, .abs, .zpy].contains m
  | .lax m => [Mode.izx, .zp, .abs, .izy, .zpy, .aby].contains m
  | .tax | .tay | .txa | .tya | .tsx | .txs | .inx | .iny | .dex | .dey | .clc | .sec | .cli | .sei | .clv
  | .cld | .sed | .bpl | .bmi | .bvc | .bvs | .bcc | .bcs | .bne | .beq | .jsr | .rts | .pha | .php | .pla
  | .plp | .brk | .rti | .anc _ | .alr | .arr | .lxa | .sbx | .shy | .shx | .jam _ | .ane | .sha _ | .tas
  | .las => true

/-- How many bytes of the table stand for this (kind, mode) pair. -/
def Instr.variantCount : Instr → Nat
  | .sbc .imm _ => 2
  | .sbc _ _ => 1
  | .nop m _ => m.nopCount
  | .anc _ => 2
  | .jam _ => 12
  | .sha _ => 2
  | _ => 1

/-- Which of those bytes this instruction is; 0 where there is only one. -/
def Instr.variant : Instr → Nat
  | .sbc _ v | .nop _ v | .anc v | .jam v | .sha v => v
  | _ => 0

/-- The instruction is an entry of the opcode table. -/
abbrev WellFormed (i : Instr) : Prop := i.modeOk = true ∧ i.variant < i.variantCount

end Sys2Proof
end

