-- ==== Sys2Proof/Decode.lean ====
section
/-! DEFINITION. The decoder, which is the static table `OPTABLE` (30_encoding.md R110, R118) written as the grid of
R119, and the encoder, written from the lists by kind of R120 to R123. The two are transcribed from different
passages of the spec, so that each checks the other. -/

namespace Sys2Proof

/-! ## The opcode matrix (30_encoding.md R119) -/

/-- Row 0x of the opcode matrix. -/
def optableRow0 : List Instr :=
  [.brk, .ora .izx, .jam 0, .slo .izx, .nop .zp 0, .ora .zp, .asl .zp, .slo .zp,
   .php, .ora .imm, .asl .acc, .anc 0, .nop .abs 0, .ora .abs, .asl .abs, .slo .abs]

/-- Row 1x of the opcode matrix. -/
def optableRow1 : List Instr :=
  [.bpl, .ora .izy, .jam 1, .slo .izy, .nop .zpx 0, .ora .zpx, .asl .zpx, .slo .zpx,
   .clc, .ora .aby, .nop .imp 1, .slo .aby, .nop .abx 0, .ora .abx, .asl .abx, .slo .abx]

/-- Row 2x of the opcode matrix. -/
def optableRow2 : List Instr :=
  [.jsr, .and .izx, .jam 2, .rla .izx, .bit .zp, .and .zp, .rol .zp, .rla .zp,
   .plp, .and .imm, .rol .acc, .anc 1, .bit .abs, .and .abs, .rol .abs, .rla .abs]

/-- Row 3x of the opcode matrix. -/
def optableRow3 : List Instr :=
  [.bmi, .and .izy, .jam 3, .rla .izy, .nop .zpx 1, .and .zpx, .rol .zpx, .rla .zpx,
   .sec, .and .aby, .nop .imp 2, .rla .aby, .nop .abx 1, .and .abx, .rol .abx, .rla .abx]

/-- Row 4x of the opcode matrix. -/
def optableRow4 : List Instr :=
  [.rti, .eor .izx, .jam 4, .sre .izx, .nop .zp 1, .eor .zp, .lsr .zp, .sre .zp,
   .pha, .eor .imm, .lsr .acc, .alr, .jmp .abs, .eor .abs, .lsr .abs, .sre .abs]

/-- Row 5x of the opcode matrix. -/
def optableRow5 : List Instr :=
  [.bvc, .eor .izy, .jam 5, .sre .izy, .nop .zpx 2, .eor .zpx, .lsr .zpx, .sre .zpx,
   .cli, .eor .aby, .nop .imp 3, .sre .aby, .nop .abx 2, .eor .abx, .lsr .abx, .sre .abx]

/-- Row 6x of the opcode matrix. -/
def optableRow6 : List Instr :=
  [.rts, .adc .izx, .jam 6, .rra .izx, .nop .zp 2, .adc .zp, .ror .zp, .rra .zp,
   .pla, .adc .imm, .ror .acc, .arr, .jmp .ind, .adc .abs, .ror .abs, .rra .abs]

/-- Row 7x of the opcode matrix. -/
def optableRow7 : List Instr :=
  [.bvs, .adc .izy, .jam 7, .rra .izy, .nop .zpx 3, .adc .zpx, .ror .zpx, .rra .zpx,
   .sei, .adc .aby, .nop .imp 4, .rra .aby, .nop .abx 3, .adc .abx, .ror .abx, .rra .abx]

/-- Row 8x of the opcode matrix. -/
def optableRow8 : List Instr :=
  [.nop .imm 0, .sta .izx, .nop .imm 1, .sax .izx, .sty .zp, .sta .zp, .stx .zp, .sax .zp,
   .dey, .nop .imm 2, .txa, .ane, .sty .abs, .sta .abs, .stx .abs, .sax .abs]

/-- Row 9x of the opcode matrix. -/
def optableRow9 : List Instr :=
  [.bcc, .sta .izy, .jam 8, .sha 0, .sty .zpx, .sta .zpx, .stx .zpy, .sax .zpy,
   .tya, .sta .aby, .txs, .tas, .shy, .sta .abx, .shx, .sha 1]

/-- Row Ax of the opcode matrix. -/
def optableRowA : List Instr :=
  [.ldy .imm, .lda .izx, .ldx .imm, .lax .izx, .ldy .zp, .lda .zp, .ldx .zp, .lax .zp,
   .tay, .lda .imm, .tax, .lxa, .ldy .abs, .lda .abs, .ldx .abs, .lax .abs]

/-- Row Bx of the opcode matrix. -/
def optableRowB : List Instr :=
  [.bcs, .lda .izy, .jam 9, .lax .izy, .ldy .zpx, .lda .zpx, .ldx .zpy, .lax .zpy,
   .clv, .lda .aby, .tsx, .las, .ldy .abx, .lda .abx, .ldx .aby, .lax .aby]

/-- Row Cx of the opcode matrix. -/
def optableRowC : List Instr :=
  [.cpy .imm, .cmp .izx, .nop .imm 3, .dcp .izx, .cpy .zp, .cmp .zp, .dec .zp, .dcp .zp,
   .iny, .cmp .imm, .dex, .sbx, .cpy .abs, .cmp .abs, .dec .abs, .dcp .abs]

/-- Row Dx of the opcode matrix. -/
def optableRowD : List Instr :=
  [.bne, .cmp .izy, .jam 10, .dcp .izy, .nop .zpx 4, .cmp .zpx, .dec .zpx, .dcp .zpx,
   .cld, .cmp .aby, .nop .imp 5, .dcp .aby, .nop .abx 4, .cmp .abx, .dec .abx, .dcp .abx]

/-- Row Ex of the opcode matrix. -/
def optableRowE : List Instr :=
  [.cpx .imm, .sbc .izx 0, .nop .imm 4, .isc .izx, .cpx .zp, .sbc .zp 0, .inc .zp, .isc .zp,
   .inx, .sbc .imm 0, .nop .imp 0, .sbc .imm 1, .cpx .abs, .sbc .abs 0, .inc .abs, .isc .abs]

/-- Row Fx of the opcode matrix. -/
def optableRowF : List Instr :=
  [.beq, .sbc .izy 0, .jam 11, .isc .izy, .nop .zpx 5, .sbc .zpx 0, .inc .zpx, .isc .zpx,
   .sed, .sbc .aby 0, .nop .imp 6, .isc .aby, .nop .abx 5, .sbc .abx 0, .inc .abx, .isc .abx]

/-- A row of the matrix, by the high nibble of the opcode byte. -/
def optableRow : Nat → List Instr
  | 0 => optableRow0
  | 1 => optableRow1
  | 2 => optableRow2
  | 3 => optableRow3
  | 4 => optableRow4
  | 5 => optableRow5
  | 6 => optableRow6
  | 7 => optableRow7
  | 8 => optableRow8
  | 9 => optableRow9
  | 10 => optableRowA
  | 11 => optableRowB
  | 12 => optableRowC
  | 13 => optableRowD
  | 14 => optableRowE
  | _ => optableRowF

/-- `OPTABLE`: the entry of an opcode byte, total on the 256 bytes (30_encoding.md R118). A sentinel entry is an
entry of its own name, so that the instruction it stands for is rejected by name when it runs (R122). -/
def optable (b : Byte) : Instr := (optableRow (b.toNat / 16)).getD (b.toNat % 16) .brk

/-! ## What the table says of an entry -/

/-- The addressing mode of an entry; a sentinel entry has none (30_encoding.md R118, R112). -/
def Instr.mode : Instr → Option Mode
  | .lda m | .ldx m | .ldy m | .sta m | .stx m | .sty m | .adc m | .sbc m _ | .and m | .ora m | .eor m | .cmp m
  | .cpx m | .cpy m | .bit m | .asl m | .lsr m | .rol m | .ror m | .inc m | .dec m | .nop m _ | .jmp m | .slo m
  | .rla m | .sre m | .rra m | .sax m | .lax m | .dcp m | .isc m => some m
  | .tax | .tay | .txa | .tya | .tsx | .txs | .inx | .iny | .dex | .dey | .clc | .sec | .cli | .sei | .clv | .cld
  | .sed | .rts | .pha | .php | .pla | .plp | .brk | .rti => some .imp
  | .bpl | .bmi | .bvc | .bvs | .bcc | .bcs | .bne | .beq => some .rel
  | .jsr => some .abs
  | .anc _ | .alr | .arr | .lxa | .sbx => some .imm
  | .shy => some .abx
  | .shx => some .aby
  | .jam _ | .ane | .sha _ | .tas | .las => none

/-- The operation class of an entry, a function of its kind and mode (30_encoding.md R117); a sentinel entry has
none. -/
def Instr.opClass : Instr → Option OpClass
  | .lda _ | .ldx _ | .ldy _ | .adc _ | .sbc _ _ | .and _ | .ora _ | .eor _ | .cmp _ | .cpx _ | .cpy _ | .bit _
  | .lax _ | .anc _ | .alr | .arr | .lxa | .sbx => some .read
  | .sta _ | .stx _ | .sty _ | .sax _ | .shx | .shy => some .write
  | .asl m | .lsr m | .rol m | .ror m => some (if m = .acc then .implied else .rmw)
  | .inc _ | .dec _ | .slo _ | .rla _ | .sre _ | .rra _ | .dcp _ | .isc _ => some .rmw
  | .tax | .tay | .txa | .tya | .tsx | .txs | .inx | .iny | .dex | .dey | .clc | .sec | .cli | .sei | .clv | .cld
  | .sed => some .implied
  | .nop m _ => some (if m = .imp then .implied else .read)
  | .bpl | .bmi | .bvc | .bvs | .bcc | .bcs | .bne | .beq => some .branch
  | .brk | .rti | .rts | .pha | .php | .pla | .plp | .jmp _ | .jsr => some .special
  | .jam _ | .ane | .sha _ | .tas | .las => none

/-- The `undocumented` flag of an entry (30_encoding.md R118, R121, R123); it has no effect on execution
(47_undocumented.md). The flag of a sentinel entry is that of its rows in opcode_table.json, where all 17 have it. -/
def Instr.undocumented : Instr → Bool
  | .slo _ | .rla _ | .sre _ | .rra _ | .sax _ | .lax _ | .dcp _ | .isc _ | .anc _ | .alr | .arr | .lxa | .sbx
  | .shy | .shx | .jam _ | .ane | .sha _ | .tas | .las => true
  | .sbc _ v => v ≠ 0
  | .nop m v => ¬ (m = .imp ∧ v = 0)
  | _ => false

/-- The entry is the "not implemented" sentinel (30_encoding.md R122); with `P_UNDOC_NOPS = fault` the 28 bytes of
R123 are sentinel entries too. -/
def Instr.sentinel : Instr → Bool
  | .jam _ | .ane | .sha _ | .tas | .las => true
  | .nop m v => Config.undocNops = .fault ∧ (Instr.nop m v).undocumented
  | .sbc m v => Config.undocNops = .fault ∧ (Instr.sbc m v).undocumented
  | _ => false

/-- How many operand bytes follow the opcode in a mode (30_encoding.md R111). -/
def Mode.operandBytes : Mode → Nat
  | .imp | .acc => 0
  | .imm | .zp | .zpx | .zpy | .izx | .izy | .rel => 1
  | .abs | .abx | .aby | .ind => 2

/-- How many operand bytes follow the opcode of an instruction: the mode alone fixes it (30_encoding.md R110); a
sentinel entry has none. -/
def Instr.operandBytes (i : Instr) : Nat := (i.mode.map Mode.operandBytes).getD 0

/-! ## Decoding a string of bytes -/

/-- Why a string of bytes is no instruction: it is empty, or it ends before the operand bytes of the instruction
do. Every opcode byte has an entry (30_encoding.md R118, R124). -/
inductive Reject where
  | noBytes
  | truncated (i : Instr)
deriving DecidableEq, Repr

/-- An instruction read from a string of bytes: its table entry, its operand bytes, and the bytes after it. -/
structure Decoded where
  instr : Instr
  operands : List Byte
  rest : List Byte
deriving DecidableEq, Repr

/-- The decoder: the first byte selects the entry, the entry's mode the number of operand bytes
(30_encoding.md R110, R111). -/
def decode : List Byte → Except Reject Decoded
  | [] => .error .noBytes
  | op :: bs =>
    if bs.length < (optable op).operandBytes then .error (.truncated (optable op))
    else .ok ⟨optable op, bs.take (optable op).operandBytes, bs.drop (optable op).operandBytes⟩

/-! ## Encoding -/

/-- The byte a list by mode gives for a mode; 0 for a mode that is not in the list. -/
def Mode.pick (rows : List (Mode × Byte)) (m : Mode) : Byte := (rows.lookup m).getD 0

/-- The byte of a list by variant; 0 past its end. -/
def pickVariant (bytes : List Byte) (v : Nat) : Byte := bytes.getD v 0

/-- The bytes of the no-operations by mode: EA and those of R123 (30_encoding.md R120, R123). -/
def Mode.nopBytes : Mode → List Byte
  | .imp => [0xEA, 0x1A, 0x3A, 0x5A, 0x7A, 0xDA, 0xFA]
  | .imm => [0x80, 0x82, 0x89, 0xC2, 0xE2]
  | .zp => [0x04, 0x44, 0x64]
  | .zpx => [0x14, 0x34, 0x54, 0x74, 0xD4, 0xF4]
  | .abs => [0x0C]
  | .abx => [0x1C, 0x3C, 0x5C, 0x7C, 0xDC, 0xFC]
  | _ => []

/-- The seven bytes of an undocumented read-modify-write kind: "(zp,X) +03, zp +07, abs +0F, (zp),Y +13, zp,X +17,
abs,Y +1B, abs,X +1F, added to the base" (47_undocumented.md section 1). -/
def Mode.compositeByte (base : Byte) (m : Mode) : Byte :=
  base + Mode.pick [(.izx, 0x03), (.zp, 0x07), (.abs, 0x0F), (.izy, 0x13), (.zpx, 0x17), (.aby, 0x1B), (.abx, 0x1F)] m

/-- The opcode byte of an instruction (30_encoding.md R120 to R123). -/
def Instr.opcode : Instr → Byte
  | .lda m => Mode.pick
      [(.izx, 0xA1), (.zp, 0xA5), (.imm, 0xA9), (.abs, 0xAD), (.izy, 0xB1), (.zpx, 0xB5), (.aby, 0xB9), (.abx, 0xBD)] m
  | .ldx m => Mode.pick
      [(.imm, 0xA2), (.zp, 0xA6), (.abs, 0xAE), (.zpy, 0xB6), (.aby, 0xBE)] m
  | .ldy m => Mode.pick
      [(.imm, 0xA0), (.zp, 0xA4), (.abs, 0xAC), (.zpx, 0xB4), (.abx, 0xBC)] m
  | .sta m => Mode.pick
      [(.izx, 0x81), (.zp, 0x85), (.abs, 0x8D), (.izy, 0x91), (.zpx, 0x95), (.aby, 0x99), (.abx, 0x9D)] m
  | .stx m => Mode.pick
      [(.zp, 0x86), (.abs, 0x8E), (.zpy, 0x96)] m
  | .sty m => Mode.pick
      [(.zp, 0x84), (.abs, 0x8C), (.zpx, 0x94)] m
  | .adc m => Mode.pick
      [(.izx, 0x61), (.zp, 0x65), (.imm, 0x69), (.abs, 0x6D), (.izy, 0x71), (.zpx, 0x75), (.aby, 0x79), (.abx, 0x7D)] m
  | .and m => Mode.pick
      [(.izx, 0x21), (.zp, 0x25), (.imm, 0x29), (.abs, 0x2D), (.izy, 0x31), (.zpx, 0x35), (.aby, 0x39), (.abx, 0x3D)] m
  | .ora m => Mode.pick
      [(.izx, 0x01), (.zp, 0x05), (.imm, 0x09), (.abs, 0x0D), (.izy, 0x11), (.zpx, 0x15), (.aby, 0x19), (.abx, 0x1D)] m
  | .eor m => Mode.pick
      [(.izx, 0x41), (.zp, 0x45), (.imm, 0x49), (.abs, 0x4D), (.izy, 0x51), (.zpx, 0x55), (.aby, 0x59), (.abx, 0x5D)] m
  | .cmp m => Mode.pick
      [(.izx, 0xC1), (.zp, 0xC5), (.imm, 0xC9), (.abs, 0xCD), (.izy, 0xD1), (.zpx, 0xD5), (.aby, 0xD9), (.abx, 0xDD)] m
  | .cpx m => Mode.pick
      [(.imm, 0xE0), (.zp, 0xE4), (.abs, 0xEC)] m
  | .cpy m => Mode.pick
      [(.imm, 0xC0), (.zp, 0xC4), (.abs, 0xCC)] m
  | .bit m => Mode.pick
      [(.zp, 0x24), (.abs, 0x2C)] m
  | .asl m => Mode.pick
      [(.zp, 0x06), (.acc, 0x0A), (.abs, 0x0E), (.zpx, 0x16), (.abx, 0x1E)] m
  | .lsr m => Mode.pick
      [(.zp, 0x46), (.acc, 0x4A), (.abs, 0x4E), (.zpx, 0x56), (.abx, 0x5E)] m
  | .rol m => Mode.pick
      [(.zp, 0x26), (.acc, 0x2A), (.abs, 0x2E), (.zpx, 0x36), (.abx, 0x3E)] m
  | .ror m => Mode.pick
      [(.zp, 0x66), (.acc, 0x6A), (.abs, 0x6E), (.zpx, 0x76), (.abx, 0x7E)] m
  | .inc m => Mode.pick
      [(.zp, 0xE6), (.abs, 0xEE), (.zpx, 0xF6), (.abx, 0xFE)] m
  | .dec m => Mode.pick
      [(.zp, 0xC6), (.abs, 0xCE), (.zpx, 0xD6), (.abx, 0xDE)] m
  | .jmp m => Mode.pick
      [(.abs, 0x4C), (.ind, 0x6C)] m
  | .sax m => Mode.pick
      [(.izx, 0x83), (.zp, 0x87), (.abs, 0x8F), (.zpy, 0x97)] m
  | .lax m => Mode.pick
      [(.izx, 0xA3), (.zp, 0xA7), (.abs, 0xAF), (.izy, 0xB3), (.zpy, 0xB7), (.aby, 0xBF)] m
  | .sbc m 1 => Mode.pick [(.imm, 0xEB)] m
  | .sbc m _ => Mode.pick
      [(.izx, 0xE1), (.zp, 0xE5), (.imm, 0xE9), (.abs, 0xED), (.izy, 0xF1), (.zpx, 0xF5), (.aby, 0xF9), (.abx, 0xFD)] m
  | .nop m v => pickVariant m.nopBytes v
  | .slo m => m.compositeByte 0x00
  | .rla m => m.compositeByte 0x20
  | .sre m => m.compositeByte 0x40
  | .rra m => m.compositeByte 0x60
  | .dcp m => m.compositeByte 0xC0
  | .isc m => m.compositeByte 0xE0
  | .bcc => 0x90
  | .bcs => 0xB0
  | .beq => 0xF0
  | .bmi => 0x30
  | .bne => 0xD0
  | .bpl => 0x10
  | .bvc => 0x50
  | .bvs => 0x70
  | .brk => 0x00
  | .clc => 0x18
  | .cld => 0xD8
  | .cli => 0x58
  | .clv => 0xB8
  | .dex => 0xCA
  | .dey => 0x88
  | .inx => 0xE8
  | .iny => 0xC8
  | .jsr => 0x20
  | .pha => 0x48
  | .php => 0x08
  | .pla => 0x68
  | .plp => 0x28
  | .rti => 0x40
  | .rts => 0x60
  | .sec => 0x38
  | .sed => 0xF8
  | .sei => 0x78
  | .tax => 0xAA
  | .tay => 0xA8
  | .tsx => 0xBA
  | .txa => 0x8A
  | .txs => 0x9A
  | .tya => 0x98
  | .anc v => pickVariant [0x0B, 0x2B] v
  | .alr => 0x4B
  | .arr => 0x6B
  | .lxa => 0xAB
  | .sbx => 0xCB
  | .shy => 0x9C
  | .shx => 0x9E
  | .jam v => pickVariant [0x02, 0x12, 0x22, 0x32, 0x42, 0x52, 0x62, 0x72, 0x92, 0xB2, 0xD2, 0xF2] v
  | .ane => 0x8B
  | .sha v => pickVariant [0x93, 0x9F] v
  | .tas => 0x9B
  | .las => 0xBB

/-- The bytes of an instruction with its operand bytes (30_encoding.md R111, R113). -/
def encode (i : Instr) (operands : List Byte) : List Byte := i.opcode :: operands

/-! ## The host's question -/

/-- The bytes of an instruction whose bits are `w`, the first byte in the low bits; three are the longest
(30_encoding.md R110). -/
def bytesOfWord (w : Nat) : List Byte :=
  [BitVec.ofNat 8 w, BitVec.ofNat 8 (w / 256), BitVec.ofNat 8 (w / 65536)]

/-- The instruction the decoder reads from an instruction whose bits are `w`, numbered as the opcode table numbers
them; the bits above `nbits` are 0. -/
def decodeTableWord (nbits w : Nat) : Option Instr :=
  match decode (bytesOfWord (w % 2 ^ nbits)) with
  | .ok d => some d.instr
  | .error _ => none

end Sys2Proof
end

