-- ==== Sys2Proof/Machine/Bits.lean ====
section
/-! DEFINITION. The notation of 00_scope.md R7: low and high byte, concatenation, sign extension, and masked update of a
bit field. -/

namespace Sys2Proof.Machine

/-- `lo(w)`. -/
def lo (w : Addr) : Byte := w.setWidth 8

/-- `hi(w)`. -/
def hi (w : Addr) : Byte := (w >>> 8).setWidth 8

/-- The concatenation `h:l`. -/
def word (h l : Byte) : Addr := h ++ l

/-- `00:b`, the zero-page address (40_cycle_engine.md R149). -/
def zeroPage (b : Byte) : Addr := word 0 b

/-- The stack address `0x0100 | S` (10_state.md R23). -/
def stackAddr (s : Byte) : Addr := word 1 s

/-- `sext_16(b)`. -/
def sext16 (b : Byte) : Addr := b.signExtend 16

/-- A Boolean as the number 0 or 1. -/
def bitNat (b : Bool) : Nat := if b then 1 else 0

/-- The bits of `w` selected by `mask` replaced by those of `val`. -/
def setBits {n : Nat} (w mask val : BitVec n) : BitVec n := (w &&& ~~~mask) ||| (val &&& mask)

/-- Bit `j` of a byte. -/
def bitOf (b : Byte) (j : Nat) : Bool := b.getLsbD j

/-- The index addition of 40_cycle_engine.md R155: the 9-bit sum of a low address byte and an index, as its carry and
its low byte. -/
def indexLow (l idx : Byte) : Bool × Byte := (decide (256 ≤ l.toNat + idx.toNat), l + idx)

end Sys2Proof.Machine
end

