-- ==== Sys2Proof/Machine/State.lean ====
section
/-! DEFINITION. The state of the machine as plain data, its values at construction and after reset, and the reasons a
step can stop (10_state.md). -/

namespace Sys2Proof.Machine

/-- A memory of bytes: the cells that do not read as the unlisted byte, by strictly rising address (log 9). -/
abbrev Memory := List Host.Cell

/-- `CpuState`: the programmer-visible registers and the six flags (10_state.md R20 to R25). -/
structure Cpu where
  pc : Addr
  a : Byte
  x : Byte
  y : Byte
  s : Byte
  c : Bool
  z : Bool
  i : Bool
  d : Bool
  v : Bool
  n : Bool
deriving DecidableEq, Repr

/-- `CpuMicroOpState`: the instruction in progress, the number of its next cycle, and the latches
(10_state.md R31 to R33). -/
structure Micro where
  curOp : Option Instr
  cyc : Nat
  al : Addr
  ol : Byte
  bx : Bool
deriving DecidableEq, Repr

/-- The interrupt lines: the pending, armed and servicing flags (10_state.md R35 to R37). -/
structure Lines where
  pendReset : Bool
  pendNmi : Bool
  pendIrq : Bool
  armReset : Bool
  armNmi : Bool
  armIrq : Bool
  servicing : Bool
deriving DecidableEq, Repr

/-- The PPU: every register, latch, shifter and memory of 10_state.md R46 to R57. The framebuffer holds one 6-bit
colour code a pixel, keyed by `256 * row + column` (92_eei_decisions.md D38, log 15); `atBits` is the separate
latch 65_ppu.md R540 allows (log 16). -/
structure Ppu where
  scanline : Nat
  dot : Nat
  oddFrame : Bool
  vblank : Bool
  sprite0Hit : Bool
  spriteOverflow : Bool
  incr32 : Bool
  bgTable : Bool
  spTable : Bool
  sprite16 : Bool
  masterSlave : Bool
  nmiEnable : Bool
  greyscale : Bool
  showBgLeft : Bool
  showSpLeft : Bool
  showBg : Bool
  showSp : Bool
  emphR : Bool
  emphG : Bool
  emphB : Bool
  v : BitVec 15
  t : BitVec 15
  x : BitVec 3
  w : Bool
  ntByte : Byte
  atByte : Byte
  atBits : BitVec 2
  patLo : Byte
  patHi : Byte
  shPatLo : BitVec 16
  shPatHi : BitVec 16
  shPalCur : BitVec 2
  shPalNext : BitVec 2
  readBuffer : Byte
  oamAddr : Byte
  oam : Memory
  palette : Memory
  framebuffer : Memory
  nmiRequested : Bool
  frameComplete : Bool
deriving DecidableEq, Repr

/-- The cartridge: none inserted (20_memory.md R74), the "flat" board of 20_memory.md R84 with the PPU side of
95_test_vectors.md's conventions (log 21), or a board the model does not know, whose four methods are constants of
Config with no body (R84; log 10). -/
inductive Cart where
  | absent
  | flat (prg : Memory) (vram : Memory)
  | mapper (st : CartState)
deriving DecidableEq, Repr

/-- The controller collaborator (20_memory.md R82): the strobe, the latched snapshots and the read counters of the two
ports, bit n of a snapshot being button n in the order A to Right; and the model's own feed of host snapshots
(log 13). -/
structure Ctl where
  strobe : Bool
  latched0 : Byte
  latched1 : Byte
  count0 : Nat
  count1 : Nat
  hostButtons : List (Byte × Byte)
  strobes : Nat
deriving DecidableEq, Repr

/-- One CPU bus access: what one `Tick()` shows outside (40_cycle_engine.md R140, R141). -/
inductive BusAccess where
  | read (a : Addr) (v : Byte)
  | write (a : Addr) (v : Byte)
deriving DecidableEq, Repr

/-- The machine. `faultOpcode` is the argument of the raised `UnimplementedOpcode(op)` (40_cycle_engine.md R145,
log 4); `k` is the tick loop's counter (65_ppu.md R505); `frames` counts the frame-complete notifications given to
the host (65_ppu.md R506, log 17); `busLog` is the CPU's bus accesses so far, newest first (40_cycle_engine.md R140,
log 5). -/
structure State where
  cpu : Cpu
  micro : Micro
  lines : Lines
  faulted : Bool
  faultOpcode : Byte
  ram : Memory
  ppu : Ppu
  ctl : Ctl
  cart : Cart
  k : Nat
  frames : Nat
  busLog : List BusAccess
deriving DecidableEq, Repr

/-- Why the machine stops. -/
inductive Fault where
  /-- Raised by `step`, and by one `Tick()`, on a machine whose `faulted` bit is set: the hard stop after a sentinel
  opcode (60_exceptions.md R420, 40_cycle_engine.md R142(a)). The argument is the opcode that was fetched. Safe: the
  spec says the machine has no further step. -/
  | unimplementedOpcode (op : Byte)
deriving DecidableEq, Repr

/-- Why an instruction has no meaning. -/
inductive Refusal where
  /-- Raised by `exec`'s arm of an instruction that has no meaning yet. Safe: nothing can be proved of it. -/
  | notModelled (mnemonic : String)
  /-- Raised by every meaning on a term that is no entry of the opcode table: "a model's dispatch should refuse any
  other combination" (40_cycle_engine.md R147, 93 U15). Safe: no fetch gives such a term. -/
  | notInOpcodeTable
  /-- Raised by `step`, and by one `Tick()`, on a state whose `cyc` is no cycle of its `curOp`
  (40_cycle_engine.md R147, 93 U15). Safe: no run reaches such a state. -/
  | noSuchCycle
deriving DecidableEq, Repr

/-- The PPU at construction: every register, latch and counter zero (65_ppu.md R573); the contents of OAM, palette and
framebuffer are the model's choice (DESIGN CHOICE, log 9). -/
def Ppu.construction : Ppu where
  scanline := 0
  dot := 0
  oddFrame := false
  vblank := false
  sprite0Hit := false
  spriteOverflow := false
  incr32 := false
  bgTable := false
  spTable := false
  sprite16 := false
  masterSlave := false
  nmiEnable := false
  greyscale := false
  showBgLeft := false
  showSpLeft := false
  showBg := false
  showSp := false
  emphR := false
  emphG := false
  emphB := false
  v := 0
  t := 0
  x := 0
  w := false
  ntByte := 0
  atByte := 0
  atBits := 0
  patLo := 0
  patHi := 0
  shPatLo := 0
  shPatHi := 0
  shPalCur := 0
  shPalNext := 0
  readBuffer := 0
  oamAddr := 0
  oam := []
  palette := []
  framebuffer := []
  nmiRequested := false
  frameComplete := false

/-- The controllers before the first strobe; the spec gives no values (DESIGN CHOICE, log 13). -/
def Ctl.construction : Ctl where
  strobe := false
  latched0 := 0
  latched1 := 0
  count0 := 0
  count1 := 0
  hostButtons := []
  strobes := 0

/-- The machine at construction, with no cartridge inserted (10_state.md R44, first column). The values of `PC`, `A`,
`X`, `Y`, `S`, the flags and the latches are the model's choice, since the spec leaves them unspecified
(DESIGN CHOICE, log 6); RAM likewise (DESIGN CHOICE, log 9). -/
def State.construction : State where
  cpu := { pc := 0, a := 0, x := 0, y := 0, s := 0, c := false, z := false, i := false, d := false, v := false,
           n := false }
  micro := { curOp := none, cyc := 0, al := 0, ol := 0, bx := false }
  lines := { pendReset := false, pendNmi := false, pendIrq := false, armReset := false, armNmi := false,
             armIrq := false, servicing := false }
  faulted := false
  faultOpcode := 0
  ram := []
  ppu := Ppu.construction
  ctl := Ctl.construction
  cart := .absent
  k := 0
  frames := 0
  busLog := []

/-- The machine right after reset: the state after `Reset()` and the seven `Tick()`s of the reset sequence, "about to
fetch at the reset vector's target" (10_state.md R44, second column; 70_reset_and_hazards.md R601). With no
cartridge the vector reads 0xFFFF; `S` is the construction value less 3; the tick loop has worked 28 dots (log 7). -/
def State.reset : State where
  cpu := { pc := 0xFFFF, a := 0, x := 0, y := 0, s := 0xFD, c := false, z := false, i := true, d := false,
           v := false, n := false }
  micro := { curOp := none, cyc := 0, al := 0xFFFC, ol := 0xFF, bx := false }
  lines := { pendReset := false, pendNmi := false, pendIrq := false, armReset := false, armNmi := false,
             armIrq := false, servicing := false }
  faulted := false
  faultOpcode := 0
  ram := []
  ppu := { Ppu.construction with dot := 28 }
  ctl := Ctl.construction
  cart := .absent
  k := 0
  frames := 0
  busLog := []

end Sys2Proof.Machine
end

