-- ==== Sys2Proof/Machine/Memory.lean ====
section
/-! DEFINITION. The operations of a memory of bytes and its canonical form. -/

namespace Sys2Proof.Machine

namespace Memory

/-- What an address that is not listed reads as. The spec gives no power-on contents of RAM, OAM, palette or framebuffer
(10_state.md R44), and the unlisted bytes of the flat test cartridge are 00 (95_test_vectors.md conventions);
DESIGN CHOICE, log 9. -/
def unlisted : Byte := 0

/-- The byte at an address. -/
def read : Memory → Nat → Byte
  | [], _ => unlisted
  | (key, byte) :: rest, a => if key = a then byte else read rest a

/-- The memory with no cell at an address. -/
def erase (m : Memory) (a : Nat) : Memory := m.filter fun cell => cell.1 ≠ a

/-- A cell put where its address belongs in the rising order. -/
def insert (a : Nat) (byte : Byte) : Memory → Memory
  | [] => [(a, byte)]
  | cell :: rest => if a < cell.1 then (a, byte) :: cell :: rest else cell :: insert a byte rest

/-- The memory with a byte written; writing the unlisted byte removes the cell. -/
def write (m : Memory) (a : Nat) (byte : Byte) : Memory :=
  if byte = unlisted then m.erase a else insert a byte (m.erase a)

/-- The canonical form: strictly rising addresses, and no cell holds the unlisted byte. -/
abbrev wf (m : Memory) : Prop := m.Pairwise (fun c c' => c.1 < c'.1) ∧ ∀ c ∈ m, c.2 ≠ unlisted

end Memory

end Sys2Proof.Machine
end

