-- ==== Sys2Proof/Machine/Cart.lean ====
section
/-! DEFINITION. The cartridge's four methods (20_memory.md R84). A read's value does not depend on whether its side
effects are suppressed (60_exceptions.md R434; log 11); a suppressed read changes no state. With no cartridge a read
is `P_OPEN_BUS` and a write is lost (20_memory.md R74, R81; 65_ppu.md R513). -/

namespace Sys2Proof.Machine

namespace Cart

/-- The value of `Cart.CpuReadByte(a, _)`; the flat board gives its bytes from 0x4020 up and 0xFF below. -/
def cpuValue : Cart → Addr → Byte
  | .absent, _ => Config.openBus
  | .flat prg _, a => if 0x4020 ≤ a.toNat then prg.read a.toNat else Config.openBus
  | .mapper st, a => Config.cartCpuRead st a

/-- The cartridge after a `Cart.CpuReadByte(a, false)`. -/
def cpuAfterRead : Cart → Addr → Cart
  | .mapper st, a => .mapper (Config.cartCpuAfterRead st a)
  | cart, _ => cart

/-- The cartridge after a `Cart.CpuWriteByte(a, v)`; the flat board ignores writes. -/
def cpuAfterWrite : Cart → Addr → Byte → Cart
  | .mapper st, a, byte => .mapper (Config.cartCpuAfterWrite st a byte)
  | cart, _, _ => cart

/-- The value of `Cart.PpuReadByte(a, _)`; the flat board is 12 KiB of RAM. -/
def ppuValue : Cart → Addr → Byte
  | .absent, _ => Config.openBus
  | .flat _ vram, a => vram.read a.toNat
  | .mapper st, a => Config.cartPpuRead st a

/-- The cartridge after a `Cart.PpuReadByte(a, false)`. -/
def ppuAfterRead : Cart → Addr → Cart
  | .mapper st, a => .mapper (Config.cartPpuAfterRead st a)
  | cart, _ => cart

/-- The cartridge after a `Cart.PpuWriteByte(a, v)`. -/
def ppuAfterWrite : Cart → Addr → Byte → Cart
  | .absent, _, _ => .absent
  | .flat prg vram, a, byte => .flat prg (vram.write a.toNat byte)
  | .mapper st, a, byte => .mapper (Config.cartPpuAfterWrite st a byte)

end Cart

end Sys2Proof.Machine
end

