-- ==== Sys2Proof/Machine/PpuBus.lean ====
section
/-! DEFINITION. The PPU bus: 14-bit addresses, palette RAM, the mirror above 0x3000, the cartridge below it
(65_ppu.md R510 to R513). -/

namespace Sys2Proof.Machine

/-- Where a PPU bus address leads (65_ppu.md R510). -/
inductive PpuTarget where
  | palette (index : Nat)
  | cartridge (a : Addr)
deriving DecidableEq, Repr

/-- The index of a palette address: 32 bytes, with 0x10, 0x14, 0x18 and 0x1C aliasing the entries 0x10 below
(65_ppu.md R512). -/
def paletteIndex (a : Addr) : Nat :=
  let i := a.toNat % 32
  if i = 0x10 ∨ i = 0x14 ∨ i = 0x18 ∨ i = 0x1C then i - 0x10 else i

/-- The decode of a PPU bus address, reduced modulo 0x4000 first (65_ppu.md R510, R511). -/
def ppuTarget (a : Addr) : PpuTarget :=
  let masked := a &&& 0x3FFF
  if 0x3F00 ≤ masked.toNat then .palette (paletteIndex masked)
  else if 0x3000 ≤ masked.toNat then .cartridge (masked - 0x1000)
  else .cartridge masked

/-- The value of `PpuBus.ReadByte(a, _)`. -/
def ppuBusValue (s : State) (a : Addr) : Byte :=
  match ppuTarget a with
  | .palette i => s.ppu.palette.read i
  | .cartridge b => s.cart.ppuValue b

/-- The machine after a `PpuBus.ReadByte(a, false)`. -/
def ppuBusAfterRead (s : State) (a : Addr) : State :=
  match ppuTarget a with
  | .palette _ => s
  | .cartridge b => { s with cart := s.cart.ppuAfterRead b }

/-- `PpuBus.ReadByte(a, suppress)` (65_ppu.md R510). -/
def ppuBusRead (a : Addr) (suppress : Bool) (s : State) : Byte × State :=
  (ppuBusValue s a, if suppress then s else ppuBusAfterRead s a)

/-- `PpuBus.WriteByte(a, v)`: the palette keeps all eight bits (65_ppu.md R510, R512). -/
def ppuBusWrite (a : Addr) (byte : Byte) (s : State) : State :=
  match ppuTarget a with
  | .palette i => { s with ppu := { s.ppu with palette := s.ppu.palette.write i byte } }
  | .cartridge b => { s with cart := s.cart.ppuAfterWrite b byte }

end Sys2Proof.Machine
end

