-- ==== Sys2Proof/Machine/PpuRegs.lean ====
section
/-! DEFINITION. The eight PPU registers as the CPU bus sees them (65_ppu.md R520 to R529). -/

namespace Sys2Proof.Machine

/-- `renderingEnabled` (65_ppu.md R522). -/
def Ppu.renderingEnabled (p : Ppu) : Bool := p.showBg || p.showSp

/-- The write of PPUCTRL: the nametable bits go to `t[11:10]`, the others to their booleans; `nmiRequested` is produced
when `nmiEnable` goes from 0 to 1 while `vblank` is set (65_ppu.md R520, R563). -/
def Ppu.writeCtrl (p : Ppu) (val : Byte) : Ppu :=
  { p with
    t := setBits p.t 0x0C00 (val.setWidth 15 <<< 10)
    incr32 := bitOf val 2
    spTable := bitOf val 3
    bgTable := bitOf val 4
    sprite16 := bitOf val 5
    masterSlave := bitOf val 6
    nmiEnable := bitOf val 7
    nmiRequested := p.nmiRequested || (!p.nmiEnable && bitOf val 7 && p.vblank) }

/-- The write of PPUMASK: its eight booleans (65_ppu.md R521). -/
def Ppu.writeMask (p : Ppu) (val : Byte) : Ppu :=
  { p with
    greyscale := bitOf val 0
    showBgLeft := bitOf val 1
    showSpLeft := bitOf val 2
    showBg := bitOf val 3
    showSp := bitOf val 4
    emphR := bitOf val 5
    emphG := bitOf val 6
    emphB := bitOf val 7 }

/-- The value of PPUSTATUS: bits 4 to 0 read 0 (65_ppu.md R523). -/
def Ppu.statusValue (p : Ppu) : Byte :=
  BitVec.ofNat 8 (bitNat p.vblank * 128 + bitNat p.sprite0Hit * 64 + bitNat p.spriteOverflow * 32)

/-- What reading PPUSTATUS changes: `w` is cleared, and `vblank` where the OPEN parameter says so (65_ppu.md R523,
D33; log 14). -/
def Ppu.afterStatusRead (p : Ppu) : Ppu :=
  { p with w := false, vblank := p.vblank && !Config.ppuStatusReadClearsVbl }

/-- The write of OAMADDR (65_ppu.md R524). -/
def Ppu.writeOamAddr (p : Ppu) (val : Byte) : Ppu := { p with oamAddr := val }

/-- The write of OAMDATA: the address register advances (65_ppu.md R525). -/
def Ppu.writeOamData (p : Ppu) (val : Byte) : Ppu :=
  { p with oam := p.oam.write p.oamAddr.toNat val, oamAddr := p.oamAddr + 1 }

/-- The write of PPUSCROLL, two writes gated by `w` (65_ppu.md R526). -/
def Ppu.writeScroll (p : Ppu) (val : Byte) : Ppu :=
  if p.w then
    { p with
      t := setBits (setBits p.t 0x7000 (val.setWidth 15 <<< 12)) 0x03E0 ((val >>> 3).setWidth 15 <<< 5)
      w := false }
  else
    { p with t := setBits p.t 0x001F ((val >>> 3).setWidth 15), x := val.setWidth 3, w := true }

/-- The write of PPUADDR, two writes gated by the same `w`; the second copies `t` into `v` (65_ppu.md R527). -/
def Ppu.writeAddr (p : Ppu) (val : Byte) : Ppu :=
  if p.w then
    let t := setBits p.t 0x00FF (val.setWidth 15)
    { p with t := t, v := t, w := false }
  else
    { p with t := setBits p.t 0x7F00 ((val &&& 0x3F).setWidth 15 <<< 8), w := true }

/-- `v` after a PPUDATA access (65_ppu.md R528). -/
def Ppu.nextV (p : Ppu) : BitVec 15 := p.v + (if p.incr32 then 32 else 1)

/-- The PPU bus address of a PPUDATA access: `v & 0x3FFF` (65_ppu.md R528). -/
def Ppu.dataAddr (p : Ppu) : Addr := p.v.setWidth 16 &&& 0x3FFF

/-- The address whose byte a PPUDATA read puts into the read buffer: the addressed byte, or on a palette read the
nametable byte under the palette (65_ppu.md R528). -/
def Ppu.bufferAddr (p : Ppu) : Addr :=
  if 0x3F00 ≤ p.dataAddr.toNat then p.dataAddr - 0x1000 else p.dataAddr

/-- The value of a PPUDATA read: buffered below the palette, direct in it (65_ppu.md R528). -/
def ppuDataValue (s : State) : Byte :=
  if 0x3F00 ≤ s.ppu.dataAddr.toNat then ppuBusValue s s.ppu.dataAddr else s.ppu.readBuffer

/-- What reading PPUDATA changes: the read buffer and `v` (65_ppu.md R528). -/
def ppuDataAfterRead (s : State) : State :=
  let (byte, s') := ppuBusRead s.ppu.bufferAddr false s
  { s' with ppu := { s'.ppu with readBuffer := byte, v := s'.ppu.nextV } }

/-- The write of PPUDATA (65_ppu.md R528). -/
def ppuDataWrite (val : Byte) (s : State) : State :=
  let s' := ppuBusWrite s.ppu.dataAddr val s
  { s' with ppu := { s'.ppu with v := s'.ppu.nextV } }

/-- The value of a read of PPU register `n`; the write-only registers give `P_OPEN_BUS` (65_ppu.md R523, R525, R528,
R529). -/
def ppuRegValue (n : Nat) (s : State) : Byte :=
  match n with
  | 2 => s.ppu.statusValue
  | 4 => s.ppu.oam.read s.ppu.oamAddr.toNat
  | 7 => ppuDataValue s
  | _ => Config.openBus

/-- The machine after a read of PPU register `n` whose side effects are not suppressed (65_ppu.md R523, R525, R528,
R529). -/
def ppuRegAfterRead (n : Nat) (s : State) : State :=
  match n with
  | 2 => { s with ppu := s.ppu.afterStatusRead }
  | 7 => ppuDataAfterRead s
  | _ => s

/-- The write of PPU register `n`; register 2 is read-only (65_ppu.md R520 to R528). -/
def ppuRegWrite (n : Nat) (val : Byte) (s : State) : State :=
  match n with
  | 0 => { s with ppu := s.ppu.writeCtrl val }
  | 1 => { s with ppu := s.ppu.writeMask val }
  | 3 => { s with ppu := s.ppu.writeOamAddr val }
  | 4 => { s with ppu := s.ppu.writeOamData val }
  | 5 => { s with ppu := s.ppu.writeScroll val }
  | 6 => { s with ppu := s.ppu.writeAddr val }
  | 7 => ppuDataWrite val s
  | _ => s

end Sys2Proof.Machine
end

