-- ==== Sys2Proof/Machine/Bus.lean ====
section
/-! DEFINITION. The CPU bus: the address map, the controllers, the OAM DMA (20_memory.md R70 to R84). -/

namespace Sys2Proof.Machine

/-- The regions of the CPU address map (20_memory.md R74, R75). -/
inductive Region where
  | ram (index : Nat)
  | ppu (reg : Nat)
  | oamDma
  | port0
  | port1
  | open'
deriving DecidableEq, Repr

/-- The region of an address: 2 KiB of RAM mirrored four times, eight PPU registers mirrored every 8 bytes, the DMA
port, the two controller ports, and no internal device elsewhere (20_memory.md R74 to R81). -/
def region (a : Addr) : Region :=
  if a.toNat < 0x2000 then .ram (a.toNat % 0x800)
  else if a.toNat < 0x4000 then .ppu (a.toNat % 8)
  else if a = 0x4014 then .oamDma
  else if a = 0x4016 then .port0
  else if a = 0x4017 then .port1
  else .open'

/-! ## Controllers (20_memory.md R79, R80, R82) -/

/-- Button number `count` of a latched snapshot, and the constant 1 past the eighth (20_memory.md R82). -/
def buttonBit (latched : Byte) (count : Nat) : Bool := if count < 8 then bitOf latched count else true

/-- The serial read of a controller port: the button in bit 0, zeros in bits 7 to 1 (20_memory.md R79). -/
def buttonByte (latched : Byte) (count : Nat) : Byte := BitVec.ofNat 8 (bitNat (buttonBit latched count))

/-- A port's read counter after a read whose side effects are not suppressed: it advances unless the strobe is held
high (20_memory.md R82). -/
def Ctl.nextCount (c : Ctl) (count : Nat) : Nat := if c.strobe then count else count + 1

/-- The snapshots the host presents at this strobe: the next of the host's feed, or a free value where the feed is
used up (20_memory.md R82, 93 U8; log 13). -/
def Ctl.snapshot (c : Ctl) : Byte × Byte := c.hostButtons.headD (Config.freeButtons c.strobes)

/-- `Ctl.Strobe(b)`: every strobe write latches the snapshots and resets the counters (20_memory.md R80, R82). -/
def Ctl.writeStrobe (c : Ctl) (b : Bool) : Ctl :=
  { strobe := b, latched0 := c.snapshot.1, latched1 := c.snapshot.2, count0 := 0, count1 := 0,
    hostButtons := c.hostButtons.tail, strobes := c.strobes + 1 }

/-! ## Reads (20_memory.md R74) -/

/-- The internal contribution to a read (20_memory.md R74, R76, R77, R79, R81). -/
def internalValue (s : State) (a : Addr) : Byte :=
  match region a with
  | .ram i => s.ram.read i
  | .ppu n => ppuRegValue n s
  | .port0 => buttonByte s.ctl.latched0 s.ctl.count0
  | .port1 => buttonByte s.ctl.latched1 s.ctl.count1
  | .oamDma | .open' => Config.openBus

/-- The internal device after a read whose side effects are not suppressed (20_memory.md R88). -/
def internalAfterRead (s : State) (a : Addr) : State :=
  match region a with
  | .ppu n => ppuRegAfterRead n s
  | .port0 => { s with ctl := { s.ctl with count0 := s.ctl.nextCount s.ctl.count0 } }
  | .port1 => { s with ctl := { s.ctl with count1 := s.ctl.nextCount s.ctl.count1 } }
  | .ram _ | .oamDma | .open' => s

/-- `CpuBus.ReadByte(a, true)`, the host's read for debuggers, which changes nothing, and the value every read returns:
the internal contribution AND the cartridge's (20_memory.md R72, R74; 60_exceptions.md R434; log 11, log 12). -/
def State.peek (s : State) (a : Addr) : Byte := internalValue s a &&& s.cart.cpuValue a

/-- The machine after a CPU bus read with its side effects: the internal device first, then the cartridge
(20_memory.md R74, R88; the order is a DESIGN CHOICE, log 12). -/
def busAfterRead (s : State) (a : Addr) : State :=
  let s := internalAfterRead s a
  { s with cart := s.cart.cpuAfterRead a }

/-- `CpuBus.ReadByte(a, false)` (20_memory.md R72, R74). -/
def busRead (a : Addr) (s : State) : Byte × State := (s.peek a, busAfterRead s a)

/-! ## Writes (20_memory.md R75) -/

/-- One byte of the OAM DMA: a side-effecting read of the page, stored at `oamAddr + i` (20_memory.md R78). -/
def oamDmaByte (page : Byte) (s : State) (i : Nat) : State :=
  let (byte, s) := busRead (word page (BitVec.ofNat 8 i)) s
  { s with ppu := { s.ppu with oam := s.ppu.oam.write ((s.ppu.oamAddr.toNat + i) % 256) byte } }

/-- The OAM DMA: 256 bytes in order, in one batch; `oamAddr` is unchanged (20_memory.md R78). -/
def oamDma (page : Byte) (s : State) : State := (List.range 256).foldl (oamDmaByte page) s

/-- The internal action of a write (20_memory.md R75, R76, R77, R78, R80, R81). -/
def internalWrite (a : Addr) (byte : Byte) (s : State) : State :=
  match region a with
  | .ram i => { s with ram := s.ram.write i byte }
  | .ppu n => ppuRegWrite n byte s
  | .oamDma => oamDma byte s
  | .port0 => { s with ctl := s.ctl.writeStrobe (bitOf byte 0) }
  | .port1 | .open' => s

/-- `CpuBus.WriteByte(a, v)`: the internal action, then the cartridge (20_memory.md R75; log 12). -/
def busWrite (a : Addr) (byte : Byte) (s : State) : State :=
  let s := internalWrite a byte s
  { s with cart := s.cart.cpuAfterWrite a byte }

end Sys2Proof.Machine
end

