-- ==== Sys2Proof/Machine/Flags.lean ====
section
/-! DEFINITION. Every flag computation: `setNZ`, the status byte, the binary addition, the comparison, the shifts. -/

namespace Sys2Proof.Machine

/-- Bit 7 of a byte. -/
def negative (b : Byte) : Bool := bitOf b 7

/-- `setNZ(v)` (10_state.md R30). -/
def Cpu.setNZ (r : Cpu) (v : Byte) : Cpu := { r with z := v = 0, n := negative v }

/-- `packP(b)`: N V 1 b D I Z C from bit 7 to bit 0 (10_state.md R27). -/
def Cpu.packP (r : Cpu) (b : Bool) : Byte :=
  BitVec.ofNat 8 (bitNat r.n * 128 + bitNat r.v * 64 + 32 + bitNat b * 16 + bitNat r.d * 8 + bitNat r.i * 4
    + bitNat r.z * 2 + bitNat r.c)

/-- `unpackP(v)`: bits 5 and 4 are ignored (10_state.md R27). -/
def Cpu.unpackP (r : Cpu) (v : Byte) : Cpu :=
  { r with n := bitOf v 7, v := bitOf v 6, d := bitOf v 3, i := bitOf v 2, z := bitOf v 1, c := bitOf v 0 }

/-- `ADD8(m)`: binary add with carry into `A` (42_alu_compare.md R220). -/
def Cpu.add8 (r : Cpu) (m : Byte) : Cpu :=
  let t := r.a.toNat + m.toNat + bitNat r.c
  let sum := BitVec.ofNat 8 t
  { r with v := negative (~~~(r.a ^^^ m) &&& (r.a ^^^ sum)), c := decide (255 < t), a := sum }.setNZ sum

/-- `CMP8(r, m)` (42_alu_compare.md R221). -/
def Cpu.cmp8 (r : Cpu) (reg m : Byte) : Cpu := { r with c := decide (m.toNat ≤ reg.toNat) }.setNZ (reg - m)

/-- The shift of ASL without its `setNZ` (43_shift_incdec.md R240). -/
def Cpu.shiftLeft (r : Cpu) (m : Byte) : Byte × Cpu := (m <<< 1, { r with c := bitOf m 7 })

/-- The shift of LSR without its `setNZ` (43_shift_incdec.md R241). -/
def Cpu.shiftRight (r : Cpu) (m : Byte) : Byte × Cpu := (m >>> 1, { r with c := bitOf m 0 })

/-- The rotate of ROL without its `setNZ` (43_shift_incdec.md R242). -/
def Cpu.rotateLeft (r : Cpu) (m : Byte) : Byte × Cpu :=
  ((m <<< 1) ||| BitVec.ofNat 8 (bitNat r.c), { r with c := bitOf m 7 })

/-- The rotate of ROR without its `setNZ` (43_shift_incdec.md R243). -/
def Cpu.rotateRight (r : Cpu) (m : Byte) : Byte × Cpu :=
  ((m >>> 1) ||| BitVec.ofNat 8 (bitNat r.c * 128), { r with c := bitOf m 0 })

/-- A `modify` hook's result with `setNZ` of the new byte. -/
def withNZ (res : Byte × Cpu) : Byte × Cpu := (res.1, res.2.setNZ res.1)

end Sys2Proof.Machine
end

