-- ==== Sys2Proof/Machine/PpuDots.lean ====
section
/-! DEFINITION. The dot machine of the PPU: position, background pipeline, scroll updates, vblank, sprites
(65_ppu.md R530 to R571). -/

namespace Sys2Proof.Machine

/-! ## Scroll arithmetic on `v` (65_ppu.md section 6) -/

/-- The coarse-X increment with nametable wrap (65_ppu.md R546). -/
def incCoarseX (v : BitVec 15) : BitVec 15 :=
  if v &&& 0x001F = 31 then (v &&& ~~~0x001F) ^^^ 0x0400 else v + 1

/-- The Y increment: fine Y, then coarse Y, which wraps at 29 with a nametable flip and at 31 without
(65_ppu.md R550). -/
def incY (v : BitVec 15) : BitVec 15 :=
  if v &&& 0x7000 ≠ 0x7000 then v + 0x1000
  else
    let v := v &&& ~~~0x7000
    if v &&& 0x03E0 = 29 <<< 5 then (v &&& ~~~0x03E0) ^^^ 0x0800
    else if v &&& 0x03E0 = 31 <<< 5 then v &&& ~~~0x03E0
    else v + 0x0020

/-- The horizontal copy: `v[4:0]` and `v[10]` from `t` (65_ppu.md R551). -/
def copyHorizontal (v t : BitVec 15) : BitVec 15 := setBits v 0x041F t

/-- The vertical copy: `v[9:5]`, `v[11]` and `v[14:12]` from `t` (65_ppu.md R552). -/
def copyVertical (v t : BitVec 15) : BitVec 15 := setBits v 0x7BE0 t

/-! ## Background pipeline (65_ppu.md section 5) -/

/-- The nametable fetch address (65_ppu.md R540, offset 0). -/
def nametableAddr (v : BitVec 15) : Addr := 0x2000 ||| (v.setWidth 16 &&& 0x0FFF)

/-- The attribute fetch address (65_ppu.md R540, offset 2). -/
def attributeAddr (v : BitVec 15) : Addr :=
  let v := v.setWidth 16
  0x23C0 ||| (v &&& 0x0C00) ||| ((v >>> 4) &&& 0x38) ||| ((v >>> 2) &&& 0x07)

/-- The tile's two bits of an attribute byte (65_ppu.md R540, offset 2). -/
def attributeBits (v : BitVec 15) (at' : Byte) : BitVec 2 :=
  (at' >>> (((v >>> 4) &&& 4) ||| (v &&& 2)).toNat).setWidth 2

/-- The address of a background tile's low pattern byte (65_ppu.md R540, offset 4). -/
def patternAddr (p : Ppu) : Addr :=
  BitVec.ofNat 16 (bitNat p.bgTable * 0x1000 + p.ntByte.toNat * 16 + (p.v >>> 12).toNat)

/-- The reload of the shifters at offset 7 (65_ppu.md R542, R543). -/
def Ppu.reload (p : Ppu) : Ppu :=
  { p with
    shPatLo := setBits p.shPatLo 0x00FF (p.patLo.setWidth 16)
    shPatHi := setBits p.shPatHi 0x00FF (p.patHi.setWidth 16)
    shPalCur := p.shPalNext
    shPalNext := p.atBits }

/-- The shift of the pattern shifters (65_ppu.md R544). -/
def Ppu.shift (p : Ppu) : Ppu := { p with shPatLo := p.shPatLo <<< 1, shPatHi := p.shPatHi <<< 1 }

/-- The fetch step of dot `d`, by its offset in the group of eight (65_ppu.md R540, R542, R543, R546). -/
def fetchStep (d : Nat) (s : State) : State :=
  match (d - 1) % 8 with
  | 0 =>
    let (byte, s) := ppuBusRead (nametableAddr s.ppu.v) false s
    { s with ppu := { s.ppu with ntByte := byte } }
  | 2 =>
    let (byte, s) := ppuBusRead (attributeAddr s.ppu.v) false s
    { s with ppu := { s.ppu with atByte := byte, atBits := attributeBits s.ppu.v byte } }
  | 4 =>
    let (byte, s) := ppuBusRead (patternAddr s.ppu) false s
    { s with ppu := { s.ppu with patLo := byte } }
  | 6 =>
    let (byte, s) := ppuBusRead (patternAddr s.ppu + 8) false s
    { s with ppu := { s.ppu with patHi := byte } }
  | 7 => { s with ppu := { s.ppu.reload with v := incCoarseX s.ppu.v } }
  | _ => s

/-- A 6-bit colour code out of palette RAM, through the PPU bus with no side effect (65_ppu.md R545, R570). -/
def colourCode (s : State) (a : Addr) : Byte := ppuBusValue s a &&& 0x3F

/-- The framebuffer cell of a pixel (10_state.md R56). -/
def pixelKey (row column : Nat) : Nat := row * 256 + column

/-- One framebuffer pixel written (65_ppu.md R545). -/
def writePixel (row column : Nat) (code : Byte) (s : State) : State :=
  { s with ppu := { s.ppu with framebuffer := s.ppu.framebuffer.write (pixelKey row column) code } }

/-- The palette index of the background pixel: bit `15 - x` of the two shifters and the current palette selector
(65_ppu.md R545). -/
def backgroundIndex (p : Ppu) : Nat :=
  let bit := 15 - p.x.toNat
  let pattern := bitNat (p.shPatHi.getLsbD bit) * 2 + bitNat (p.shPatLo.getLsbD bit)
  if pattern = 0 ∨ p.showBg = false then 0 else p.shPalCur.toNat * 4 + pattern

/-- The pixel of a visible dot with rendering enabled (65_ppu.md R545). -/
def backgroundPixel (sl d : Nat) (s : State) : State :=
  writePixel sl (d - 1) (colourCode s (BitVec.ofNat 16 (0x3F00 + backgroundIndex s.ppu))) s

/-- The pixel of a visible dot with rendering disabled: the backdrop (65_ppu.md R545, R531 item 4). -/
def backdropPixel (sl d : Nat) (s : State) : State := writePixel sl (d - 1) (colourCode s 0x3F00) s

/-! ## Sprites (65_ppu.md section 8) -/

/-- One OAM entry: Y, tile, attributes, X (65_ppu.md R570). -/
structure Sprite where
  y : Byte
  tile : Byte
  attr : Byte
  x : Byte
deriving DecidableEq, Repr

/-- The n-th OAM entry. -/
def Ppu.sprite (p : Ppu) (n : Nat) : Sprite :=
  ⟨p.oam.read (4 * n), p.oam.read (4 * n + 1), p.oam.read (4 * n + 2), p.oam.read (4 * n + 3)⟩

/-- The sprite height (65_ppu.md R570). -/
def Ppu.spriteHeight (p : Ppu) : Nat := if p.sprite16 then 16 else 8

/-- The pattern address of a sprite's row `rr` after the vertical flip (65_ppu.md R570). -/
def spritePatternAddr (p : Ppu) (o : Sprite) (rr : Nat) : Addr :=
  let base :=
    if p.sprite16 then (o.tile.toNat % 2) * 0x1000 + (o.tile.toNat / 2 * 2 + rr / 8) * 16
    else bitNat p.spTable * 0x1000 + o.tile.toNat * 16
  BitVec.ofNat 16 (base + rr % 8)

/-- The pattern value 0 to 3 of a sprite's pixel at row `r`, column `c`, both flips applied (65_ppu.md R570). -/
def spritePattern (s : State) (o : Sprite) (r c : Nat) : Nat :=
  let rr := if bitOf o.attr 7 then s.ppu.spriteHeight - 1 - r else r
  let cc := if bitOf o.attr 6 then 7 - c else c
  let a := spritePatternAddr s.ppu o rr
  bitNat (bitOf (ppuBusValue s (a + 8)) (7 - cc)) * 2 + bitNat (bitOf (ppuBusValue s a) (7 - cc))

/-- One pixel of a sprite painted, unless it is transparent or off the picture (65_ppu.md R570). -/
def paintSpritePixel (o : Sprite) (r c : Nat) (s : State) : State :=
  let pattern := spritePattern s o r c
  let px := o.x.toNat + c
  let py := o.y.toNat + 1 + r
  if pattern ≠ 0 ∧ px ≤ 255 ∧ py ≤ 239 then
    writePixel py px (colourCode s (BitVec.ofNat 16 (0x3F10 + (o.attr.toNat % 4) * 4 + pattern))) s
  else s

/-- One sprite painted, row by row. -/
def paintSprite (s : State) (n : Nat) : State :=
  (List.range s.ppu.spriteHeight).foldl (fun s r =>
    (List.range 8).foldl (fun s c => paintSpritePixel (s.ppu.sprite n) r c s) s) s

/-- The sprite pass: entries 63 down to 0, so that entry 0 is painted last; only if `showSp` (65_ppu.md R570). -/
def spritePass (s : State) : State :=
  if s.ppu.showSp then (List.range 64).reverse.foldl paintSprite s else s

/-! ## The work of one dot (65_ppu.md R531) -/

/-- Dot (241, 1): vblank starts, the sprite pass runs, the event is produced (65_ppu.md R560). -/
def vblankStart (s : State) : State :=
  let s := spritePass { s with ppu := { s.ppu with vblank := true } }
  { s with ppu := { s.ppu with
      frameComplete := true, nmiRequested := s.ppu.nmiRequested || s.ppu.nmiEnable } }

/-- Dot (261, 1): the three status latches are cleared (65_ppu.md R561). -/
def vblankEnd (s : State) : State :=
  { s with ppu := { s.ppu with vblank := false, sprite0Hit := false, spriteOverflow := false } }

/-- The fetch window: dots 1 to 256 and 321 to the last fetch dot (65_ppu.md R531, R540). -/
def inFetchWindow (d : Nat) : Bool := (1 ≤ d ∧ d ≤ 256) ∨ (321 ≤ d ∧ d ≤ Config.ppuFetchLastDot)

/-- The scroll updates of a render line (65_ppu.md R531 item 3b, R550, R551, R552). -/
def scrollUpdate (sl d : Nat) (p : Ppu) : Ppu :=
  if d = 256 then { p with v := incY p.v }
  else if d = 257 then { p with v := copyHorizontal p.v p.t }
  else if sl = 261 ∧ 280 ≤ d ∧ d ≤ 304 then { p with v := copyVertical p.v p.t }
  else p

/-- A dot of a render line with rendering enabled: pixel, shift, fetch, then the scroll updates
(65_ppu.md R531 item 3). -/
def renderDot (sl d : Nat) (s : State) : State :=
  let s :=
    if inFetchWindow d then
      let s := if sl ≤ 239 ∧ d ≤ 256 then backgroundPixel sl d s else s
      fetchStep d { s with ppu := s.ppu.shift }
    else s
  { s with ppu := scrollUpdate sl d s.ppu }

/-- The work of the current position (65_ppu.md R531). -/
def dotWork (s : State) : State :=
  let sl := s.ppu.scanline
  let d := s.ppu.dot
  let s := if sl = 241 ∧ d = 1 then vblankStart s else s
  let s := if sl = 261 ∧ d = 1 then vblankEnd s else s
  if s.ppu.renderingEnabled then
    if sl ≤ 239 ∨ sl = 261 then renderDot sl d s else s
  else
    if sl ≤ 239 ∧ 1 ≤ d ∧ d ≤ 256 then backdropPixel sl d s else s

/-- The advance to the next position, with the dot that odd frames skip (65_ppu.md R530, R562). -/
def Ppu.advance (p : Ppu) : Ppu :=
  if p.scanline = 261 ∧ p.dot = 339 ∧ p.oddFrame ∧ p.renderingEnabled then
    { p with dot := 0, scanline := 0, oddFrame := !p.oddFrame }
  else if p.dot = 340 then
    if p.scanline = 261 then { p with dot := 0, scanline := 0, oddFrame := !p.oddFrame }
    else { p with dot := 0, scanline := p.scanline + 1 }
  else { p with dot := p.dot + 1 }

/-- The PPU's `Tick()`: the work of the current position, then the advance (65_ppu.md R530). -/
def ppuTick (s : State) : State :=
  let s := dotWork s
  { s with ppu := s.ppu.advance }

/-! ## The picture (10_state.md R56, 65_ppu.md R572) -/

/-- The RGB pixel the host sees at a row and column: the OPEN colour table applied to the stored code
(65_ppu.md R545, D38; log 15). -/
def State.pixel (s : State) (row column : Nat) : Rgb :=
  Config.paletteRgb ((s.ppu.framebuffer.read (pixelKey row column)).setWidth 6)

end Sys2Proof.Machine
end

