-- ==== Sys2Proof/Machine/Ops.lean ====
section
/-! DEFINITION. The named operations: bus accesses of the CPU, the stack, the interrupt lines, the opcode fetch with its
interrupt substitution, `retire`, the tick loop's dots and events between two CPU `Tick()`s, the running of an
instruction's cycles, and the sequence that every exception shares with the return from it. -/

namespace Sys2Proof.Machine

/-! ## CPU bus accesses (20_memory.md R72, R73) -/

/-- A bus access entered in the record of them (40_cycle_engine.md R140; log 5). -/
def State.record (s : State) (access : BusAccess) : State := { s with busLog := access :: s.busLog }

/-- `MemRead(addr, 1)` (20_memory.md R72). -/
def memRead (a : Addr) (s : State) : Byte × State :=
  let (byte, s) := busRead a s
  (byte, s.record (.read a byte))

/-- `MemWrite(addr, 1, v)` (20_memory.md R73). -/
def memWrite (a : Addr) (byte : Byte) (s : State) : State := (busWrite a byte s).record (.write a byte)

/-- A read whose value is discarded (40_cycle_engine.md R149). -/
def dummyRead (a : Addr) (s : State) : State := (memRead a s).2

/-- `fetch()`: a read at `PC`, which is then incremented (40_cycle_engine.md R149). -/
def fetchByte (s : State) : Byte × State :=
  let (byte, s) := memRead s.cpu.pc s
  (byte, { s with cpu := { s.cpu with pc := s.cpu.pc + 1 } })

/-- The registers and flags replaced by a function of themselves. -/
def State.mapCpu (s : State) (f : Cpu → Cpu) : State := { s with cpu := f s.cpu }

/-- The write of `AL` (10_state.md R33). -/
def State.setAl (s : State) (a : Addr) : State := { s with micro := { s.micro with al := a } }

/-- The write of `OL` (10_state.md R33). -/
def State.setOl (s : State) (b : Byte) : State := { s with micro := { s.micro with ol := b } }

/-- The write of `BX` (10_state.md R33). -/
def State.setBx (s : State) (b : Bool) : State := { s with micro := { s.micro with bx := b } }

/-- The write of `PC` as a whole (10_state.md R24). -/
def State.setPc (s : State) (a : Addr) : State := s.mapCpu fun r => { r with pc := a }

/-! ## The stack (10_state.md R23) -/

/-- `S <- S - 1`, modulo 256. -/
def State.decS (s : State) : State := s.mapCpu fun r => { r with s := r.s - 1 }

/-- `S <- S + 1`, modulo 256. -/
def State.incS (s : State) : State := s.mapCpu fun r => { r with s := r.s + 1 }

/-- A push: the write at `0x0100 | S`, then the decrement (10_state.md R23). -/
def push (byte : Byte) (s : State) : State := (memWrite (stackAddr s.cpu.s) byte s).decS

/-- The read of the stack byte at `0x0100 | S`. -/
def stackRead (s : State) : Byte × State := memRead (stackAddr s.cpu.s) s

/-- The read of the stack byte with its value discarded. -/
def stackDummy (s : State) : State := (stackRead s).2

/-! ## Interrupt lines (60_exceptions.md R401 to R403) -/

/-- `Reset()`: called between two `Tick()`s (60_exceptions.md R401). -/
def State.callReset (s : State) : State :=
  { s with
    lines := { s.lines with pendReset := true, armReset := true, servicing := false }
    micro := { s.micro with curOp := none, cyc := 0 } }

/-- `RaiseNmi()` (60_exceptions.md R402). -/
def State.raiseNmi (s : State) : State := { s with lines := { s.lines with pendNmi := true } }

/-- `RaiseIrq()` (60_exceptions.md R403). -/
def State.raiseIrq (s : State) : State := { s with lines := { s.lines with pendIrq := true } }

/-- Some interrupt is armed (40_cycle_engine.md R144). -/
def Lines.armed (l : Lines) : Bool := l.armReset || l.armNmi || l.armIrq

/-- The poll: the pending flags copied to the armed ones, IRQ gated by the flag `I` (40_cycle_engine.md R146). -/
def Lines.poll (l : Lines) (iPoll : Bool) : Lines :=
  { l with armReset := l.pendReset, armNmi := l.pendNmi, armIrq := l.pendIrq && !iPoll }

/-- `raise UnimplementedOpcode(op)` (40_cycle_engine.md R145, 60_exceptions.md R420; log 4). -/
def State.raiseUnimplemented (s : State) (op : Byte) : State := { s with faulted := true, faultOpcode := op }

/-! ## The tick loop between two CPU `Tick()`s (65_ppu.md R505, R506) -/

/-- `deliver_event()`: a requested NMI is raised, a complete frame is notified to the host, both outputs are cleared
(65_ppu.md R506). -/
def deliver (s : State) : State :=
  { s with
    lines := { s.lines with pendNmi := s.lines.pendNmi || s.ppu.nmiRequested }
    frames := if s.ppu.frameComplete then s.frames + 1 else s.frames
    ppu := { s.ppu with nmiRequested := false, frameComplete := false } }

/-- One iteration of the tick loop up to its test of `k`: a PPU `Tick()`, the event, `k <- k + 1`
(65_ppu.md R505). -/
def dotIteration (s : State) : State :=
  let s := deliver (ppuTick s)
  { s with k := s.k + 1 }

/-- `n` such iterations. -/
def dotIterations : Nat → State → State
  | 0, s => s
  | n + 1, s => dotIterations n (dotIteration s)

/-- The tick loop from here to the point where it calls the CPU's `Tick()`: the dots that are left of the four, then
`k <- 0` (65_ppu.md R505). -/
def dotsToCpuTick (s : State) : State :=
  let s := dotIterations (Config.dotsPerCpuCycle - s.k) s
  { s with k := 0 }

/-! ## The opcode fetch (40_cycle_engine.md R143 to R145) -/

/-- T1 up to the sentinel check: the opcode fetch, and the substitution of BRK when an interrupt is armed, which rolls
the `PC` increment back unless the fetched opcode is itself BRK (40_cycle_engine.md R143, R144, D13). The result is
the entry to execute and the machine. -/
def fetchOpcode (s : State) : Instr × State :=
  let (op, s) := fetchByte s
  if s.lines.armed then
    let s := if optable op = .brk then s else s.setPc (s.cpu.pc - 1)
    (.brk, { s with lines := { s.lines with servicing := true } })
  else (optable op, s)

/-- The end of T1: `curOp <- entry; cyc <- 2; BX <- 0` (40_cycle_engine.md R143). -/
def State.begin (s : State) (i : Instr) : State :=
  { s with micro := { s.micro with curOp := some i, cyc := 2, bx := false } }

/-! ## Cycles (40_cycle_engine.md R142, R146, R148) -/

/-- How a cycle ends: the instruction goes on to the next cycle, or it retires. -/
inductive CycleEnd where
  | go (s : State)
  | retire (s : State)

/-- A cycle: its bus access, then its internal action, then perhaps `retire` (40_cycle_engine.md R148). -/
abbrev Cycle := State → CycleEnd

/-- `cyc <- cyc + 1` (40_cycle_engine.md R142(c)). -/
def State.nextCycle (s : State) : State := { s with micro := { s.micro with cyc := s.micro.cyc + 1 } }

/-- `retire`: the poll, unless the instruction is the BRK/interrupt/reset sequence, then `curOp <- none; cyc <- 0`.
`iPoll` is the flag `I` at the start of the `Tick()` (40_cycle_engine.md R146). -/
def State.retire (s : State) (i : Instr) (iPoll : Bool) : State :=
  { s with
    lines := if i = .brk then s.lines else s.lines.poll iPoll
    micro := { s.micro with curOp := none, cyc := 0 } }

/-- One cycle `Tn`, n ≥ 2, of an instruction as a CPU `Tick()` (40_cycle_engine.md R142(c)). -/
def cpuCycle (i : Instr) (c : Cycle) (s : State) : State :=
  match c s with
  | .go s' => s'.nextCycle
  | .retire s' => s'.retire i s.cpu.i

/-- The cycles of an instruction, each preceded by the dots of the tick loop and followed by the delivery of the event
(65_ppu.md R505), up to the one that retires it. -/
def runCycles (i : Instr) : List Cycle → State → Host.Outcome State Fault Refusal
  | [], _ => .refused .noSuchCycle
  | c :: cs, s =>
    let s := dotsToCpuTick s
    match c s with
    | .go s' => runCycles i cs (deliver s'.nextCycle)
    | .retire s' => .next (deliver (s'.retire i s.cpu.i))

/-- The rest of an instruction whose T1 has fetched it: the end of T1, then its cycles (40_cycle_engine.md R143, R147).
A term that is no entry of the table is refused (R147). -/
def runInstr (i : Instr) (cycles : List Cycle) (s : State) : Host.Outcome State Fault Refusal :=
  if WellFormed i then runCycles i cycles (deliver (s.begin i)) else .refused .notInOpcodeTable

/-- The rest of T1 of a sentinel entry: `raise UnimplementedOpcode(op)`; `curOp` stays none (40_cycle_engine.md R145,
60_exceptions.md R420). -/
def runSentinel (i : Instr) (s : State) : Host.Outcome State Fault Refusal :=
  if WellFormed i then .next (deliver (s.raiseUnimplemented i.opcode)) else .refused .notInOpcodeTable

/-- A cycle that does not retire. -/
def goes (f : State → State) : Cycle := fun s => .go (f s)

/-- A cycle that retires. -/
def retires (f : State → State) : Cycle := fun s => .retire (f s)

/-! ## Taking an exception and returning from it (46_stack_system.md R314, R315; 60_exceptions.md R410 to R416) -/

/-- The sequence in progress is the reset sequence (46_stack_system.md R314). -/
def Lines.isReset (l : Lines) : Bool := l.servicing && l.armReset

/-- A stack cycle of the sequence: a push, or during reset a dummy read with the same decrement
(46_stack_system.md R314). -/
def exceptionPush (byte : Byte) (s : State) : State :=
  if s.lines.isReset then (stackDummy s).decS else push byte s

/-- The vector address: reset, then NMI, then IRQ or BRK (60_exceptions.md R412, R413). -/
def Lines.vector (l : Lines) : Addr :=
  if l.servicing && l.armReset then 0xFFFC else if l.servicing && l.armNmi then 0xFFFA else 0xFFFE

/-- The clearing at the start of T6: the pending flag of the interrupt being serviced, and all the armed flags
(60_exceptions.md R412). -/
def Lines.acknowledge (l : Lines) : Lines :=
  let l' := { l with armReset := false, armNmi := false, armIrq := false }
  if l.servicing && l.armReset then { l' with pendReset := false }
  else if l.servicing && l.armNmi then { l' with pendNmi := false }
  else if l.servicing then { l' with pendIrq := false }
  else l'

/-- T2: the dummy read of the padding byte; only the BRK instruction steps over it (46_stack_system.md R314). -/
def exceptionPadding (s : State) : State :=
  let s := dummyRead s.cpu.pc s
  if s.lines.servicing then s else s.setPc (s.cpu.pc + 1)

/-- T6: the vector is chosen and the interrupt acknowledged, the low vector byte is read, `I <- 1`
(46_stack_system.md R314). -/
def exceptionVectorLow (s : State) : State :=
  let s := { s.setAl s.lines.vector with lines := s.lines.acknowledge }
  let (byte, s) := memRead s.micro.al s
  (s.setOl byte).mapCpu fun r => { r with i := true }

/-- T7: the high vector byte is read, `PC` is loaded, `servicing <- 0` (46_stack_system.md R314). -/
def exceptionVectorHigh (s : State) : State :=
  let (byte, s) := memRead (s.micro.al + 1) s
  let s := s.setPc (word byte s.micro.ol)
  { s with lines := { s.lines with servicing := false } }

/-- TAKING AN EXCEPTION: the sequence shared by BRK, NMI, IRQ and reset, cycles T2 to T7 (46_stack_system.md R314). It
pushes `PC` and the status with the break bit clear when it was entered by an interrupt, and loads `PC` from the
vector. -/
def exceptionEntry : List Cycle :=
  [goes exceptionPadding,
   goes fun s => exceptionPush (hi s.cpu.pc) s,
   goes fun s => exceptionPush (lo s.cpu.pc) s,
   goes fun s => exceptionPush (s.cpu.packP (!s.lines.servicing)) s,
   goes exceptionVectorLow,
   retires exceptionVectorHigh]

/-- RETURNING FROM AN EXCEPTION: cycles T2 to T6 of RTI (46_stack_system.md R315). -/
def exceptionReturn : List Cycle :=
  [goes fun s => dummyRead s.cpu.pc s,
   goes fun s => (stackDummy s).incS,
   goes fun s => let (byte, s) := stackRead s; (s.mapCpu fun r => r.unpackP byte).incS,
   goes fun s => let (byte, s) := stackRead s; (s.setOl byte).incS,
   retires fun s => let (byte, s) := stackRead s; s.setPc (word byte s.micro.ol)]

end Sys2Proof.Machine
end

