-- ==== Sys2Proof/Machine/Operands.lean ====
section
/-! DEFINITION. The addressing modes: for every mode and class the bus access and the internal action of each cycle after
T1 (40_cycle_engine.md R150 to R163), around the hooks of R165. A sequence is the list of its cycles from T2 on. -/

namespace Sys2Proof.Machine

/-! ## The hooks (40_cycle_engine.md R165) -/

/-- `exec_read(M)`. -/
abbrev ReadHook := Byte → Cpu → Cpu

/-- `store_value()`. -/
abbrev StoreHook := Cpu → Byte

/-- `modify(M)`. -/
abbrev ModifyHook := Byte → Cpu → Byte × Cpu

/-- `exec_implied()`. -/
abbrev ImpliedHook := Cpu → Cpu

/-! ## Address cycles -/

/-- The index register of a mode: `X`, or `Y` for the modes indexed by it (40_cycle_engine.md R149, R162). -/
def indexReg (m : Mode) (r : Cpu) : Byte :=
  match m with
  | .zpy | .aby | .izy => r.y
  | _ => r.x

/-- T2 of zero page and absolute: `AL <- 00:fetch()` (40_cycle_engine.md R152, R154). -/
def fetchLow (s : State) : State :=
  let (byte, s) := fetchByte s
  s.setAl (zeroPage byte)

/-- T3 of zero page indexed: a dummy read of the unindexed address, then the index added inside the zero page
(40_cycle_engine.md R153). -/
def indexZeroPage (m : Mode) (s : State) : State :=
  let s := dummyRead s.micro.al s
  s.setAl (zeroPage (lo s.micro.al + indexReg m s.cpu))

/-- T3 of absolute: `AL <- fetch():lo(AL)` (40_cycle_engine.md R154). -/
def fetchHigh (s : State) : State :=
  let (byte, s) := fetchByte s
  s.setAl (word byte (lo s.micro.al))

/-- The index added to the low address byte: `BX` is the carry, the high byte is not corrected yet
(40_cycle_engine.md R155, R162). -/
def indexAddr (m : Mode) (high : Byte) (s : State) : State :=
  let sum := indexLow (lo s.micro.al) (indexReg m s.cpu)
  (s.setBx sum.1).setAl (word high sum.2)

/-- T3 of absolute indexed: the high byte is fetched and kept in `OL`, the index is added
(40_cycle_engine.md R155, R156, R157). -/
def fetchHighIndexed (m : Mode) (s : State) : State :=
  let (byte, s) := fetchByte s
  (indexAddr m byte s).setOl byte

/-- The dummy read at the uncorrected address, then the carry into the high byte (40_cycle_engine.md R155 to R157,
R162, R163). -/
def fixHigh (s : State) : State :=
  let s := dummyRead s.micro.al s
  if s.micro.bx then s.setAl (s.micro.al + 0x100) else s

/-- T2 of the two indirect zero-page modes: `OL <- fetch()` (40_cycle_engine.md R160, R162). -/
def fetchPointer (s : State) : State :=
  let (byte, s) := fetchByte s
  s.setOl byte

/-- T3 of (zero page,X): a dummy read of the unindexed pointer, then the index added (40_cycle_engine.md R160). -/
def indexPointer (s : State) : State :=
  let s := dummyRead (zeroPage s.micro.ol) s
  s.setOl (s.micro.ol + s.cpu.x)

/-- The pointer's low byte (40_cycle_engine.md R160, R162). -/
def pointerLow (s : State) : State :=
  let (byte, s) := memRead (zeroPage s.micro.ol) s
  s.setAl (zeroPage byte)

/-- The pointer's high byte, from the zero page (40_cycle_engine.md R160). -/
def pointerHigh (s : State) : State :=
  let (byte, s) := memRead (zeroPage (s.micro.ol + 1)) s
  s.setAl (word byte (lo s.micro.al))

/-- The pointer's high byte, with `Y` added to the low one (40_cycle_engine.md R162). -/
def pointerHighIndexed (s : State) : State :=
  let (byte, s) := memRead (zeroPage (s.micro.ol + 1)) s
  indexAddr .izy byte s

/-- The address cycles of a mode before its operand access: those that classes `read`, `write` and `rmw` share
(40_cycle_engine.md R152 to R163). Modes without a memory operand have none. -/
def addrSteps : Mode → List (State → State)
  | .zp => [fetchLow]
  | .zpx => [fetchLow, indexZeroPage .zpx]
  | .zpy => [fetchLow, indexZeroPage .zpy]
  | .abs => [fetchLow, fetchHigh]
  | .abx => [fetchLow, fetchHighIndexed .abx]
  | .aby => [fetchLow, fetchHighIndexed .aby]
  | .izx => [fetchPointer, indexPointer, pointerLow, pointerHigh]
  | .izy => [fetchPointer, pointerLow, pointerHighIndexed]
  | .imp | .acc | .imm | .ind | .rel => []

/-- The mode adds an index that can carry into the high byte (40_cycle_engine.md R155, R162). -/
def crosses : Mode → Bool
  | .abx | .aby | .izy => true
  | _ => false

/-- The address cycles of a store or read-modify-write: the correcting cycle always runs (40_cycle_engine.md R156, R157,
R163). -/
def storeAddrSteps (m : Mode) : List (State → State) :=
  if crosses m then addrSteps m ++ [fixHigh] else addrSteps m

/-- Address cycles run as the tick loop runs them: each after its dots, and followed by the delivery of the event. -/
def runAddrSteps : List (State → State) → State → State
  | [], s => s
  | f :: fs, s => runAddrSteps fs (deliver (f (dotsToCpuTick s)).nextCycle)

/-- The address a store or read-modify-write of mode `m` accesses: `AL` after its address cycles, in the machine that T1
leaves. -/
def storeAddr (i : Instr) (m : Mode) (s : State) : Addr :=
  (runAddrSteps (storeAddrSteps m) (deliver (s.begin i))).micro.al

/-! ## Operand cycles -/

/-- The operand read at `AL` (40_cycle_engine.md R152 to R162). -/
def readOperand (hook : ReadHook) : Cycle :=
  retires fun s => let (byte, s) := memRead s.micro.al s; s.mapCpu (hook byte)

/-- The cycle that is the operand read when no carry is owed, and the correcting cycle when one is
(40_cycle_engine.md R155, R162). -/
def readOperandOrFix (hook : ReadHook) : Cycle := fun s =>
  if s.micro.bx then .go (fixHigh s) else readOperand hook s

/-- T2 of immediate (40_cycle_engine.md R151). -/
def readImmediate (hook : ReadHook) : Cycle :=
  retires fun s => let (byte, s) := fetchByte s; s.mapCpu (hook byte)

/-- Class `read` (40_cycle_engine.md R151 to R155, R160, R162). -/
def readCycles (m : Mode) (hook : ReadHook) : List Cycle :=
  if m = .imm then [readImmediate hook]
  else if crosses m then (addrSteps m).map goes ++ [readOperandOrFix hook, readOperand hook]
  else (addrSteps m).map goes ++ [readOperand hook]

/-- The write of a store (40_cycle_engine.md R152 to R163). -/
def writeOperand (value : StoreHook) : Cycle := retires fun s => memWrite s.micro.al (value s.cpu) s

/-- Class `write` (40_cycle_engine.md R152 to R154, R156, R160, R163). -/
def writeCycles (m : Mode) (value : StoreHook) : List Cycle :=
  (storeAddrSteps m).map goes ++ [writeOperand value]

/-- The read of the old byte of a read-modify-write. -/
def rmwRead (s : State) : State :=
  let (byte, s) := memRead s.micro.al s
  s.setOl byte

/-- The write back of the old byte, and the modification (40_cycle_engine.md R152, 90_conflicts.md C6). -/
def rmwWriteOld (hook : ModifyHook) (s : State) : State :=
  let s := memWrite s.micro.al s.micro.ol s
  let (byte, r) := hook s.micro.ol s.cpu
  { s.setOl byte with cpu := r }

/-- The write of the new byte. -/
def rmwWriteNew (s : State) : State := memWrite s.micro.al s.micro.ol s

/-- Class `rmw` (40_cycle_engine.md R152 to R154, R157, R160, R163). -/
def rmwCycles (m : Mode) (hook : ModifyHook) : List Cycle :=
  (storeAddrSteps m).map goes ++ [goes rmwRead, goes (rmwWriteOld hook), retires rmwWriteNew]

/-- Class `implied`: a dummy read of `PC`, then the hook (40_cycle_engine.md R150). -/
def impliedCycles (hook : ImpliedHook) : List Cycle :=
  [retires fun s => (dummyRead s.cpu.pc s).mapCpu hook]

/-- The accumulator form of a shift: `A <- modify(A)` (40_cycle_engine.md R150). -/
def onAccumulator (hook : ModifyHook) : ImpliedHook := fun r =>
  let (byte, r) := hook r.a r
  { r with a := byte }

/-- The cycles of a shift or rotate: class `implied` in mode `acc`, class `rmw` otherwise (43_shift_incdec.md). -/
def shiftCycles (m : Mode) (hook : ModifyHook) : List Cycle :=
  if m = .acc then impliedCycles (onAccumulator hook) else rmwCycles m hook

/-- The last cycle of SHX and SHY: the stored byte is the register AND the operand's high byte plus 1, and on a page
crossing that byte also replaces the high byte of the address (47_undocumented.md R343, R344, D19). -/
def writeHighAnd (reg : StoreHook) : Cycle := retires fun s =>
  let byte := reg s.cpu &&& (s.micro.ol + 1)
  memWrite (if s.micro.bx then word byte (lo s.micro.al) else s.micro.al) byte s

/-- The cycles of SHX and SHY (47_undocumented.md R343, R344). -/
def highAndCycles (m : Mode) (reg : StoreHook) : List Cycle :=
  (storeAddrSteps m).map goes ++ [writeHighAnd reg]

end Sys2Proof.Machine
end

