-- ==== Sys2Proof/Machine/Alu.lean ====
section
/-! DEFINITION. Arithmetic, logic, compare and bit test (42_alu_compare.md). -/

namespace Sys2Proof.Machine

/-- `ADD8(M)` (42_alu_compare.md R222). -/
def hookAdc : ReadHook :=
  fun byte r => r.add8 byte

/-- The cycles of ADC (42_alu_compare.md R222). -/
def cyclesAdc (m : Mode) : List Cycle := readCycles m hookAdc

/-- ADC (42_alu_compare.md R222). -/
def execAdc (m : Mode) (s : State) : Host.Outcome State Fault Refusal :=
  runInstr (.adc m) (cyclesAdc m) s

/-- `ADD8(M ^ 0xFF)`; variant 1 is the undocumented duplicate of 47_undocumented.md R346 (42_alu_compare.md R223). -/
def hookSbc : ReadHook :=
  fun byte r => r.add8 (byte ^^^ 0xFF)

/-- The cycles of SBC (42_alu_compare.md R223). -/
def cyclesSbc (m : Mode) : List Cycle := readCycles m hookSbc

/-- SBC (42_alu_compare.md R223), and the duplicate EB (47_undocumented.md R346), which `P_UNDOC_NOPS = fault` would make
a sentinel entry (30_encoding.md R123; log 18). -/
def execSbc (m : Mode) (variant : Nat) (s : State) : Host.Outcome State Fault Refusal :=
  if (Instr.sbc m variant).sentinel then runSentinel (.sbc m variant) s
  else runInstr (.sbc m variant) (cyclesSbc m) s

/-- `A <- A & M; setNZ(A)` (42_alu_compare.md R224). -/
def hookAnd : ReadHook :=
  fun byte r => { r with a := r.a &&& byte }.setNZ (r.a &&& byte)

/-- The cycles of AND (42_alu_compare.md R224). -/
def cyclesAnd (m : Mode) : List Cycle := readCycles m hookAnd

/-- AND (42_alu_compare.md R224). -/
def execAnd (m : Mode) (s : State) : Host.Outcome State Fault Refusal :=
  runInstr (.and m) (cyclesAnd m) s

/-- `A <- A | M; setNZ(A)` (42_alu_compare.md R225). -/
def hookOra : ReadHook :=
  fun byte r => { r with a := r.a ||| byte }.setNZ (r.a ||| byte)

/-- The cycles of ORA (42_alu_compare.md R225). -/
def cyclesOra (m : Mode) : List Cycle := readCycles m hookOra

/-- ORA (42_alu_compare.md R225). -/
def execOra (m : Mode) (s : State) : Host.Outcome State Fault Refusal :=
  runInstr (.ora m) (cyclesOra m) s

/-- `A <- A ^ M; setNZ(A)` (42_alu_compare.md R226). -/
def hookEor : ReadHook :=
  fun byte r => { r with a := r.a ^^^ byte }.setNZ (r.a ^^^ byte)

/-- The cycles of EOR (42_alu_compare.md R226). -/
def cyclesEor (m : Mode) : List Cycle := readCycles m hookEor

/-- EOR (42_alu_compare.md R226). -/
def execEor (m : Mode) (s : State) : Host.Outcome State Fault Refusal :=
  runInstr (.eor m) (cyclesEor m) s

/-- `CMP8(A, M)` (42_alu_compare.md R227). -/
def hookCmp : ReadHook :=
  fun byte r => r.cmp8 r.a byte

/-- The cycles of CMP (42_alu_compare.md R227). -/
def cyclesCmp (m : Mode) : List Cycle := readCycles m hookCmp

/-- CMP (42_alu_compare.md R227). -/
def execCmp (m : Mode) (s : State) : Host.Outcome State Fault Refusal :=
  runInstr (.cmp m) (cyclesCmp m) s

/-- `CMP8(X, M)` (42_alu_compare.md R228). -/
def hookCpx : ReadHook :=
  fun byte r => r.cmp8 r.x byte

/-- The cycles of CPX (42_alu_compare.md R228). -/
def cyclesCpx (m : Mode) : List Cycle := readCycles m hookCpx

/-- CPX (42_alu_compare.md R228). -/
def execCpx (m : Mode) (s : State) : Host.Outcome State Fault Refusal :=
  runInstr (.cpx m) (cyclesCpx m) s

/-- `CMP8(Y, M)` (42_alu_compare.md R229). -/
def hookCpy : ReadHook :=
  fun byte r => r.cmp8 r.y byte

/-- The cycles of CPY (42_alu_compare.md R229). -/
def cyclesCpy (m : Mode) : List Cycle := readCycles m hookCpy

/-- CPY (42_alu_compare.md R229). -/
def execCpy (m : Mode) (s : State) : Host.Outcome State Fault Refusal :=
  runInstr (.cpy m) (cyclesCpy m) s

/-- `Z <- ((A & M) = 0); N <- M[7]; V <- M[6]` (42_alu_compare.md R230). -/
def hookBit : ReadHook :=
  fun byte r => { r with z := r.a &&& byte = 0, n := bitOf byte 7, v := bitOf byte 6 }

/-- The cycles of BIT (42_alu_compare.md R230). -/
def cyclesBit (m : Mode) : List Cycle := readCycles m hookBit

/-- BIT (42_alu_compare.md R230). -/
def execBit (m : Mode) (s : State) : Host.Outcome State Fault Refusal :=
  runInstr (.bit m) (cyclesBit m) s

end Sys2Proof.Machine
end

