-- ==== Sys2Proof/Machine/BranchJump.lean ====
section
/-! DEFINITION. Branches, jumps, subroutine call and return (45_branch_jump.md). -/

namespace Sys2Proof.Machine

/-! ## Conditional branches (45_branch_jump.md R280) -/

/-- T2 of a branch: the offset is fetched; a branch that is not taken retires. -/
def branchFetch (cond : Cpu → Bool) : Cycle := fun s =>
  let (byte, s) := fetchByte s
  let s := s.setOl byte
  if cond s.cpu then .go s else .retire s

/-- T3 of a taken branch: a dummy read of the next opcode; the target goes to `AL`, its low byte to `PC`; a branch inside
the page retires. -/
def branchTaken : Cycle := fun s =>
  let s := dummyRead s.cpu.pc s
  let target := s.cpu.pc + sext16 s.micro.ol
  let crossed := hi target ≠ hi s.cpu.pc
  let s := ((s.setAl target).setBx crossed).setPc (word (hi s.cpu.pc) (lo target))
  if crossed then .go s else .retire s

/-- T4 of a branch across a page: a dummy read at the uncorrected address, then `PC <- AL`. -/
def branchFix : Cycle := retires fun s =>
  let s := dummyRead s.cpu.pc s
  s.setPc s.micro.al

/-- Class `branch` (45_branch_jump.md R280). -/
def branchCycles (cond : Cpu → Bool) : List Cycle := [branchFetch cond, branchTaken, branchFix]

/-- The cycles of BPL, taken when `N = 0` (45_branch_jump.md R281). -/
def cyclesBpl : List Cycle := branchCycles fun r => !r.n

/-- BPL, taken when `N = 0` (45_branch_jump.md R281). -/
def execBpl (s : State) : Host.Outcome State Fault Refusal :=
  runInstr .bpl cyclesBpl s

/-- The cycles of BMI, taken when `N = 1` (45_branch_jump.md R282). -/
def cyclesBmi : List Cycle := branchCycles fun r => r.n

/-- BMI, taken when `N = 1` (45_branch_jump.md R282). -/
def execBmi (s : State) : Host.Outcome State Fault Refusal :=
  runInstr .bmi cyclesBmi s

/-- The cycles of BVC, taken when `V = 0` (45_branch_jump.md R283). -/
def cyclesBvc : List Cycle := branchCycles fun r => !r.v

/-- BVC, taken when `V = 0` (45_branch_jump.md R283). -/
def execBvc (s : State) : Host.Outcome State Fault Refusal :=
  runInstr .bvc cyclesBvc s

/-- The cycles of BVS, taken when `V = 1` (45_branch_jump.md R284). -/
def cyclesBvs : List Cycle := branchCycles fun r => r.v

/-- BVS, taken when `V = 1` (45_branch_jump.md R284). -/
def execBvs (s : State) : Host.Outcome State Fault Refusal :=
  runInstr .bvs cyclesBvs s

/-- The cycles of BCC, taken when `C = 0` (45_branch_jump.md R285). -/
def cyclesBcc : List Cycle := branchCycles fun r => !r.c

/-- BCC, taken when `C = 0` (45_branch_jump.md R285). -/
def execBcc (s : State) : Host.Outcome State Fault Refusal :=
  runInstr .bcc cyclesBcc s

/-- The cycles of BCS, taken when `C = 1` (45_branch_jump.md R286). -/
def cyclesBcs : List Cycle := branchCycles fun r => r.c

/-- BCS, taken when `C = 1` (45_branch_jump.md R286). -/
def execBcs (s : State) : Host.Outcome State Fault Refusal :=
  runInstr .bcs cyclesBcs s

/-- The cycles of BNE, taken when `Z = 0` (45_branch_jump.md R287). -/
def cyclesBne : List Cycle := branchCycles fun r => !r.z

/-- BNE, taken when `Z = 0` (45_branch_jump.md R287). -/
def execBne (s : State) : Host.Outcome State Fault Refusal :=
  runInstr .bne cyclesBne s

/-- The cycles of BEQ, taken when `Z = 1` (45_branch_jump.md R288). -/
def cyclesBeq : List Cycle := branchCycles fun r => r.z

/-- BEQ, taken when `Z = 1` (45_branch_jump.md R288). -/
def execBeq (s : State) : Host.Outcome State Fault Refusal :=
  runInstr .beq cyclesBeq s

/-! ## Jumps and subroutines -/

/-- The cycles of JMP absolute (45_branch_jump.md R289). -/
def jumpAbsoluteCycles : List Cycle :=
  [goes fun s => let (byte, s) := fetchByte s; s.setOl byte,
   retires fun s => let (byte, s) := memRead s.cpu.pc s; s.setPc (word byte s.micro.ol)]

/-- The cycles of JMP indirect: the pointer's high byte comes from the same page as its low byte
(45_branch_jump.md R290). -/
def jumpIndirectCycles : List Cycle :=
  [goes fetchLow,
   goes fetchHigh,
   goes fun s => let (byte, s) := memRead s.micro.al s; s.setOl byte,
   retires fun s =>
     let (byte, s) := memRead (word (hi s.micro.al) (lo s.micro.al + 1)) s
     s.setPc (word byte s.micro.ol)]

/-- The cycles of JMP (45_branch_jump.md R289, R290). -/
def cyclesJmp (m : Mode) : List Cycle := if m = .ind then jumpIndirectCycles else jumpAbsoluteCycles

/-- JMP (45_branch_jump.md R289, R290). -/
def execJmp (m : Mode) (s : State) : Host.Outcome State Fault Refusal := runInstr (.jmp m) (cyclesJmp m) s

/-- The cycles of JSR: the high operand byte is read after the two pushes (45_branch_jump.md R291). -/
def cyclesJsr : List Cycle :=
  [goes fun s => let (byte, s) := fetchByte s; s.setOl byte,
   goes stackDummy,
   goes fun s => push (hi s.cpu.pc) s,
   goes fun s => push (lo s.cpu.pc) s,
   retires fun s => let (byte, s) := memRead s.cpu.pc s; s.setPc (word byte s.micro.ol)]

/-- JSR (45_branch_jump.md R291). -/
def execJsr (s : State) : Host.Outcome State Fault Refusal := runInstr .jsr cyclesJsr s

/-- The cycles of RTS: the pulled address plus 1 (45_branch_jump.md R292). -/
def cyclesRts : List Cycle :=
  [goes fun s => dummyRead s.cpu.pc s,
   goes fun s => (stackDummy s).incS,
   goes fun s => let (byte, s) := stackRead s; (s.setOl byte).incS,
   goes fun s => let (byte, s) := stackRead s; s.setPc (word byte s.micro.ol),
   retires fun s => let s := dummyRead s.cpu.pc s; s.setPc (s.cpu.pc + 1)]

/-- RTS (45_branch_jump.md R292). -/
def execRts (s : State) : Host.Outcome State Fault Refusal := runInstr .rts cyclesRts s

end Sys2Proof.Machine
end

