-- ==== Sys2Proof/Machine/FlagNop.lean ====
section
/-! DEFINITION. The flag instructions and NOP (44_flag_nop.md; 47_undocumented.md R345). -/

namespace Sys2Proof.Machine

/-- `C <- 0` (44_flag_nop.md R260). -/
def hookClc : ImpliedHook :=
  fun r => { r with c := false }

/-- The cycles of CLC (44_flag_nop.md R260). -/
def cyclesClc : List Cycle := impliedCycles hookClc

/-- CLC (44_flag_nop.md R260). -/
def execClc (s : State) : Host.Outcome State Fault Refusal :=
  runInstr .clc cyclesClc s

/-- `C <- 1` (44_flag_nop.md R261). -/
def hookSec : ImpliedHook :=
  fun r => { r with c := true }

/-- The cycles of SEC (44_flag_nop.md R261). -/
def cyclesSec : List Cycle := impliedCycles hookSec

/-- SEC (44_flag_nop.md R261). -/
def execSec (s : State) : Host.Outcome State Fault Refusal :=
  runInstr .sec cyclesSec s

/-- `I <- 0` (44_flag_nop.md R262). -/
def hookCli : ImpliedHook :=
  fun r => { r with i := false }

/-- The cycles of CLI (44_flag_nop.md R262). -/
def cyclesCli : List Cycle := impliedCycles hookCli

/-- CLI (44_flag_nop.md R262). -/
def execCli (s : State) : Host.Outcome State Fault Refusal :=
  runInstr .cli cyclesCli s

/-- `I <- 1` (44_flag_nop.md R263). -/
def hookSei : ImpliedHook :=
  fun r => { r with i := true }

/-- The cycles of SEI (44_flag_nop.md R263). -/
def cyclesSei : List Cycle := impliedCycles hookSei

/-- SEI (44_flag_nop.md R263). -/
def execSei (s : State) : Host.Outcome State Fault Refusal :=
  runInstr .sei cyclesSei s

/-- `V <- 0` (44_flag_nop.md R264). -/
def hookClv : ImpliedHook :=
  fun r => { r with v := false }

/-- The cycles of CLV (44_flag_nop.md R264). -/
def cyclesClv : List Cycle := impliedCycles hookClv

/-- CLV (44_flag_nop.md R264). -/
def execClv (s : State) : Host.Outcome State Fault Refusal :=
  runInstr .clv cyclesClv s

/-- `D <- 0` (44_flag_nop.md R265). -/
def hookCld : ImpliedHook :=
  fun r => { r with d := false }

/-- The cycles of CLD (44_flag_nop.md R265). -/
def cyclesCld : List Cycle := impliedCycles hookCld

/-- CLD (44_flag_nop.md R265). -/
def execCld (s : State) : Host.Outcome State Fault Refusal :=
  runInstr .cld cyclesCld s

/-- `D <- 1` (44_flag_nop.md R266). -/
def hookSed : ImpliedHook :=
  fun r => { r with d := true }

/-- The cycles of SED (44_flag_nop.md R266). -/
def cyclesSed : List Cycle := impliedCycles hookSed

/-- SED (44_flag_nop.md R266). -/
def execSed (s : State) : Host.Outcome State Fault Refusal :=
  runInstr .sed cyclesSed s

/-- The cycles of NOP: class `implied` in mode `imp`, class `read` in the operand modes, where the byte read is discarded
(44_flag_nop.md R267, 47_undocumented.md R345). -/
def cyclesNop (m : Mode) : List Cycle :=
  if m = .imp then impliedCycles fun r => r else readCycles m fun _ r => r

/-- NOP, the documented one and the 27 undocumented ones (44_flag_nop.md R267, 47_undocumented.md R345), which
`P_UNDOC_NOPS = fault` would make sentinel entries (30_encoding.md R123; log 18). -/
def execNop (m : Mode) (variant : Nat) (s : State) : Host.Outcome State Fault Refusal :=
  if (Instr.nop m variant).sentinel then runSentinel (.nop m variant) s
  else runInstr (.nop m variant) (cyclesNop m) s

end Sys2Proof.Machine
end

