-- ==== Sys2Proof/Machine/LoadStore.lean ====
section
/-! DEFINITION. Loads, stores and transfers (41_load_store_transfer.md). -/

namespace Sys2Proof.Machine

/-- `A <- M; setNZ(A)` (41_load_store_transfer.md R200). -/
def hookLda : ReadHook :=
  fun byte r => { r with a := byte }.setNZ byte

/-- The cycles of LDA (41_load_store_transfer.md R200). -/
def cyclesLda (m : Mode) : List Cycle := readCycles m hookLda

/-- LDA (41_load_store_transfer.md R200). -/
def execLda (m : Mode) (s : State) : Host.Outcome State Fault Refusal :=
  runInstr (.lda m) (cyclesLda m) s

/-- `X <- M; setNZ(X)` (41_load_store_transfer.md R201). -/
def hookLdx : ReadHook :=
  fun byte r => { r with x := byte }.setNZ byte

/-- The cycles of LDX (41_load_store_transfer.md R201). -/
def cyclesLdx (m : Mode) : List Cycle := readCycles m hookLdx

/-- LDX (41_load_store_transfer.md R201). -/
def execLdx (m : Mode) (s : State) : Host.Outcome State Fault Refusal :=
  runInstr (.ldx m) (cyclesLdx m) s

/-- `Y <- M; setNZ(Y)` (41_load_store_transfer.md R202). -/
def hookLdy : ReadHook :=
  fun byte r => { r with y := byte }.setNZ byte

/-- The cycles of LDY (41_load_store_transfer.md R202). -/
def cyclesLdy (m : Mode) : List Cycle := readCycles m hookLdy

/-- LDY (41_load_store_transfer.md R202). -/
def execLdy (m : Mode) (s : State) : Host.Outcome State Fault Refusal :=
  runInstr (.ldy m) (cyclesLdy m) s

/-- The cycles of STA (41_load_store_transfer.md R203). -/
def cyclesSta (m : Mode) : List Cycle := writeCycles m fun r => r.a

/-- STA (41_load_store_transfer.md R203). -/
def execSta (m : Mode) (s : State) : Host.Outcome State Fault Refusal :=
  runInstr (.sta m) (cyclesSta m) s

/-- The cycles of STX (41_load_store_transfer.md R204). -/
def cyclesStx (m : Mode) : List Cycle := writeCycles m fun r => r.x

/-- STX (41_load_store_transfer.md R204). -/
def execStx (m : Mode) (s : State) : Host.Outcome State Fault Refusal :=
  runInstr (.stx m) (cyclesStx m) s

/-- The cycles of STY (41_load_store_transfer.md R205). -/
def cyclesSty (m : Mode) : List Cycle := writeCycles m fun r => r.y

/-- STY (41_load_store_transfer.md R205). -/
def execSty (m : Mode) (s : State) : Host.Outcome State Fault Refusal :=
  runInstr (.sty m) (cyclesSty m) s

/-- `X <- A; setNZ(X)` (41_load_store_transfer.md R206). -/
def hookTax : ImpliedHook :=
  fun r => { r with x := r.a }.setNZ r.a

/-- The cycles of TAX (41_load_store_transfer.md R206). -/
def cyclesTax : List Cycle := impliedCycles hookTax

/-- TAX (41_load_store_transfer.md R206). -/
def execTax (s : State) : Host.Outcome State Fault Refusal :=
  runInstr .tax cyclesTax s

/-- `Y <- A; setNZ(Y)` (41_load_store_transfer.md R207). -/
def hookTay : ImpliedHook :=
  fun r => { r with y := r.a }.setNZ r.a

/-- The cycles of TAY (41_load_store_transfer.md R207). -/
def cyclesTay : List Cycle := impliedCycles hookTay

/-- TAY (41_load_store_transfer.md R207). -/
def execTay (s : State) : Host.Outcome State Fault Refusal :=
  runInstr .tay cyclesTay s

/-- `A <- X; setNZ(A)` (41_load_store_transfer.md R208). -/
def hookTxa : ImpliedHook :=
  fun r => { r with a := r.x }.setNZ r.x

/-- The cycles of TXA (41_load_store_transfer.md R208). -/
def cyclesTxa : List Cycle := impliedCycles hookTxa

/-- TXA (41_load_store_transfer.md R208). -/
def execTxa (s : State) : Host.Outcome State Fault Refusal :=
  runInstr .txa cyclesTxa s

/-- `A <- Y; setNZ(A)` (41_load_store_transfer.md R209). -/
def hookTya : ImpliedHook :=
  fun r => { r with a := r.y }.setNZ r.y

/-- The cycles of TYA (41_load_store_transfer.md R209). -/
def cyclesTya : List Cycle := impliedCycles hookTya

/-- TYA (41_load_store_transfer.md R209). -/
def execTya (s : State) : Host.Outcome State Fault Refusal :=
  runInstr .tya cyclesTya s

/-- `X <- S; setNZ(X)` (41_load_store_transfer.md R210). -/
def hookTsx : ImpliedHook :=
  fun r => { r with x := r.s }.setNZ r.s

/-- The cycles of TSX (41_load_store_transfer.md R210). -/
def cyclesTsx : List Cycle := impliedCycles hookTsx

/-- TSX (41_load_store_transfer.md R210). -/
def execTsx (s : State) : Host.Outcome State Fault Refusal :=
  runInstr .tsx cyclesTsx s

/-- `S <- X`, no flag (41_load_store_transfer.md R211). -/
def hookTxs : ImpliedHook :=
  fun r => { r with s := r.x }

/-- The cycles of TXS (41_load_store_transfer.md R211). -/
def cyclesTxs : List Cycle := impliedCycles hookTxs

/-- TXS (41_load_store_transfer.md R211). -/
def execTxs (s : State) : Host.Outcome State Fault Refusal :=
  runInstr .txs cyclesTxs s

end Sys2Proof.Machine
end

