-- ==== Sys2Proof/Machine/Shift.lean ====
section
/-! DEFINITION. Shifts, rotates, increments and decrements (43_shift_incdec.md). -/

namespace Sys2Proof.Machine

/-- `C <- M[7]; M' <- M << 1; setNZ(M')` (43_shift_incdec.md R240). -/
def hookAsl : ModifyHook :=
  fun byte r => withNZ (r.shiftLeft byte)

/-- The cycles of ASL (43_shift_incdec.md R240). -/
def cyclesAsl (m : Mode) : List Cycle := shiftCycles m hookAsl

/-- ASL (43_shift_incdec.md R240). -/
def execAsl (m : Mode) (s : State) : Host.Outcome State Fault Refusal :=
  runInstr (.asl m) (cyclesAsl m) s

/-- `C <- M[0]; M' <- M >> 1; setNZ(M')` (43_shift_incdec.md R241). -/
def hookLsr : ModifyHook :=
  fun byte r => withNZ (r.shiftRight byte)

/-- The cycles of LSR (43_shift_incdec.md R241). -/
def cyclesLsr (m : Mode) : List Cycle := shiftCycles m hookLsr

/-- LSR (43_shift_incdec.md R241). -/
def execLsr (m : Mode) (s : State) : Host.Outcome State Fault Refusal :=
  runInstr (.lsr m) (cyclesLsr m) s

/-- `M' <- (M << 1) | C; C <- M[7]; setNZ(M')` (43_shift_incdec.md R242). -/
def hookRol : ModifyHook :=
  fun byte r => withNZ (r.rotateLeft byte)

/-- The cycles of ROL (43_shift_incdec.md R242). -/
def cyclesRol (m : Mode) : List Cycle := shiftCycles m hookRol

/-- ROL (43_shift_incdec.md R242). -/
def execRol (m : Mode) (s : State) : Host.Outcome State Fault Refusal :=
  runInstr (.rol m) (cyclesRol m) s

/-- `M' <- (M >> 1) | (C << 7); C <- M[0]; setNZ(M')` (43_shift_incdec.md R243). -/
def hookRor : ModifyHook :=
  fun byte r => withNZ (r.rotateRight byte)

/-- The cycles of ROR (43_shift_incdec.md R243). -/
def cyclesRor (m : Mode) : List Cycle := shiftCycles m hookRor

/-- ROR (43_shift_incdec.md R243). -/
def execRor (m : Mode) (s : State) : Host.Outcome State Fault Refusal :=
  runInstr (.ror m) (cyclesRor m) s

/-- `M' <- (M + 1) & 0xFF; setNZ(M')` (43_shift_incdec.md R244). -/
def hookInc : ModifyHook :=
  fun byte r => withNZ (byte + 1, r)

/-- The cycles of INC (43_shift_incdec.md R244). -/
def cyclesInc (m : Mode) : List Cycle := rmwCycles m hookInc

/-- INC (43_shift_incdec.md R244). -/
def execInc (m : Mode) (s : State) : Host.Outcome State Fault Refusal :=
  runInstr (.inc m) (cyclesInc m) s

/-- `M' <- (M - 1) & 0xFF; setNZ(M')` (43_shift_incdec.md R245). -/
def hookDec : ModifyHook :=
  fun byte r => withNZ (byte - 1, r)

/-- The cycles of DEC (43_shift_incdec.md R245). -/
def cyclesDec (m : Mode) : List Cycle := rmwCycles m hookDec

/-- DEC (43_shift_incdec.md R245). -/
def execDec (m : Mode) (s : State) : Host.Outcome State Fault Refusal :=
  runInstr (.dec m) (cyclesDec m) s

/-- `X <- (X + 1) & 0xFF; setNZ(X)` (43_shift_incdec.md R246). -/
def hookInx : ImpliedHook :=
  fun r => { r with x := r.x + 1 }.setNZ (r.x + 1)

/-- The cycles of INX (43_shift_incdec.md R246). -/
def cyclesInx : List Cycle := impliedCycles hookInx

/-- INX (43_shift_incdec.md R246). -/
def execInx (s : State) : Host.Outcome State Fault Refusal :=
  runInstr .inx cyclesInx s

/-- `Y <- (Y + 1) & 0xFF; setNZ(Y)` (43_shift_incdec.md R247). -/
def hookIny : ImpliedHook :=
  fun r => { r with y := r.y + 1 }.setNZ (r.y + 1)

/-- The cycles of INY (43_shift_incdec.md R247). -/
def cyclesIny : List Cycle := impliedCycles hookIny

/-- INY (43_shift_incdec.md R247). -/
def execIny (s : State) : Host.Outcome State Fault Refusal :=
  runInstr .iny cyclesIny s

/-- `X <- (X - 1) & 0xFF; setNZ(X)` (43_shift_incdec.md R248). -/
def hookDex : ImpliedHook :=
  fun r => { r with x := r.x - 1 }.setNZ (r.x - 1)

/-- The cycles of DEX (43_shift_incdec.md R248). -/
def cyclesDex : List Cycle := impliedCycles hookDex

/-- DEX (43_shift_incdec.md R248). -/
def execDex (s : State) : Host.Outcome State Fault Refusal :=
  runInstr .dex cyclesDex s

/-- `Y <- (Y - 1) & 0xFF; setNZ(Y)` (43_shift_incdec.md R249). -/
def hookDey : ImpliedHook :=
  fun r => { r with y := r.y - 1 }.setNZ (r.y - 1)

/-- The cycles of DEY (43_shift_incdec.md R249). -/
def cyclesDey : List Cycle := impliedCycles hookDey

/-- DEY (43_shift_incdec.md R249). -/
def execDey (s : State) : Host.Outcome State Fault Refusal :=
  runInstr .dey cyclesDey s

end Sys2Proof.Machine
end

