-- ==== Sys2Proof/Machine/StackSystem.lean ====
section
/-! DEFINITION. The stack and system instructions (46_stack_system.md). -/

namespace Sys2Proof.Machine

/-- The cycles of PHA (46_stack_system.md R310). -/
def cyclesPha : List Cycle :=
  [goes fun s => dummyRead s.cpu.pc s, retires fun s => push s.cpu.a s]

/-- PHA (46_stack_system.md R310). -/
def execPha (s : State) : Host.Outcome State Fault Refusal :=
  runInstr .pha cyclesPha s

/-- The cycles of PHP: bits 5 and 4 of the pushed byte are 1 (46_stack_system.md R311). -/
def cyclesPhp : List Cycle :=
  [goes fun s => dummyRead s.cpu.pc s, retires fun s => push (s.cpu.packP true) s]

/-- PHP: bits 5 and 4 of the pushed byte are 1 (46_stack_system.md R311). -/
def execPhp (s : State) : Host.Outcome State Fault Refusal :=
  runInstr .php cyclesPhp s

/-- The cycles of PLA (46_stack_system.md R312). -/
def cyclesPla : List Cycle :=
  [goes fun s => dummyRead s.cpu.pc s,
   goes fun s => (stackDummy s).incS,
   retires fun s => let (byte, s) := stackRead s; s.mapCpu fun r => { r with a := byte }.setNZ byte]

/-- PLA (46_stack_system.md R312). -/
def execPla (s : State) : Host.Outcome State Fault Refusal :=
  runInstr .pla cyclesPla s

/-- The cycles of PLP (46_stack_system.md R313). -/
def cyclesPlp : List Cycle :=
  [goes fun s => dummyRead s.cpu.pc s,
   goes fun s => (stackDummy s).incS,
   retires fun s => let (byte, s) := stackRead s; s.mapCpu fun r => r.unpackP byte]

/-- PLP (46_stack_system.md R313). -/
def execPlp (s : State) : Host.Outcome State Fault Refusal :=
  runInstr .plp cyclesPlp s

/-- BRK, and the interrupt and reset sequences that T1 substitutes for it (46_stack_system.md R314, 60_exceptions.md R410,
R411). -/
def execBrk (s : State) : Host.Outcome State Fault Refusal := runInstr .brk exceptionEntry s

/-- RTI (46_stack_system.md R315, 60_exceptions.md R416). -/
def execRti (s : State) : Host.Outcome State Fault Refusal := runInstr .rti exceptionReturn s

end Sys2Proof.Machine
end

