-- ==== Sys2Proof/Machine/Undocumented.lean ====
section
/-! DEFINITION. The undocumented instructions and the sentinel opcodes (47_undocumented.md). -/

namespace Sys2Proof.Machine

/-! ## Read-modify-write composites -/

/-- A shift without its `setNZ` followed by an operation on `A` and the shifted byte (47_undocumented.md section 1). -/
def composite (shifted : Byte × Cpu) (op : Byte → Cpu → Cpu) : Byte × Cpu := (shifted.1, op shifted.1 shifted.2)

/-- ASL then ORA (47_undocumented.md R330). -/
def hookSlo : ModifyHook :=
  fun byte r => composite (r.shiftLeft byte) hookOra

/-- The cycles of SLO (47_undocumented.md R330). -/
def cyclesSlo (m : Mode) : List Cycle := rmwCycles m hookSlo

/-- SLO (47_undocumented.md R330). -/
def execSlo (m : Mode) (s : State) : Host.Outcome State Fault Refusal :=
  runInstr (.slo m) (cyclesSlo m) s

/-- ROL then AND (47_undocumented.md R331). -/
def hookRla : ModifyHook :=
  fun byte r => composite (r.rotateLeft byte) hookAnd

/-- The cycles of RLA (47_undocumented.md R331). -/
def cyclesRla (m : Mode) : List Cycle := rmwCycles m hookRla

/-- RLA (47_undocumented.md R331). -/
def execRla (m : Mode) (s : State) : Host.Outcome State Fault Refusal :=
  runInstr (.rla m) (cyclesRla m) s

/-- LSR then EOR (47_undocumented.md R332). -/
def hookSre : ModifyHook :=
  fun byte r => composite (r.shiftRight byte) hookEor

/-- The cycles of SRE (47_undocumented.md R332). -/
def cyclesSre (m : Mode) : List Cycle := rmwCycles m hookSre

/-- SRE (47_undocumented.md R332). -/
def execSre (m : Mode) (s : State) : Host.Outcome State Fault Refusal :=
  runInstr (.sre m) (cyclesSre m) s

/-- ROR then ADC, which consumes the carry of the rotate (47_undocumented.md R333). -/
def hookRra : ModifyHook :=
  fun byte r => composite (r.rotateRight byte) hookAdc

/-- The cycles of RRA (47_undocumented.md R333). -/
def cyclesRra (m : Mode) : List Cycle := rmwCycles m hookRra

/-- RRA (47_undocumented.md R333). -/
def execRra (m : Mode) (s : State) : Host.Outcome State Fault Refusal :=
  runInstr (.rra m) (cyclesRra m) s

/-- DEC then CMP (47_undocumented.md R336). -/
def hookDcp : ModifyHook :=
  fun byte r => composite (byte - 1, r) hookCmp

/-- The cycles of DCP (47_undocumented.md R336). -/
def cyclesDcp (m : Mode) : List Cycle := rmwCycles m hookDcp

/-- DCP (47_undocumented.md R336). -/
def execDcp (m : Mode) (s : State) : Host.Outcome State Fault Refusal :=
  runInstr (.dcp m) (cyclesDcp m) s

/-- INC then SBC (47_undocumented.md R337). -/
def hookIsc : ModifyHook :=
  fun byte r => composite (byte + 1, r) hookSbc

/-- The cycles of ISC (47_undocumented.md R337). -/
def cyclesIsc (m : Mode) : List Cycle := rmwCycles m hookIsc

/-- ISC (47_undocumented.md R337). -/
def execIsc (m : Mode) (s : State) : Host.Outcome State Fault Refusal :=
  runInstr (.isc m) (cyclesIsc m) s

/-! ## Load and store composites -/

/-- The cycles of SAX (47_undocumented.md R334). -/
def cyclesSax (m : Mode) : List Cycle := writeCycles m fun r => r.a &&& r.x

/-- SAX (47_undocumented.md R334). -/
def execSax (m : Mode) (s : State) : Host.Outcome State Fault Refusal :=
  runInstr (.sax m) (cyclesSax m) s

/-- `A <- M; X <- M; setNZ(M)` (47_undocumented.md R335). -/
def hookLax : ReadHook :=
  fun byte r => { r with a := byte, x := byte }.setNZ byte

/-- The cycles of LAX (47_undocumented.md R335). -/
def cyclesLax (m : Mode) : List Cycle := readCycles m hookLax

/-- LAX (47_undocumented.md R335). -/
def execLax (m : Mode) (s : State) : Host.Outcome State Fault Refusal :=
  runInstr (.lax m) (cyclesLax m) s

/-! ## Immediate composites -/

/-- `A <- A & M; setNZ(A); C <- N` (47_undocumented.md R338). -/
def hookAnc : ReadHook :=
  fun byte r => { hookAnd byte r with c := negative (r.a &&& byte) }

/-- The cycles of ANC (47_undocumented.md R338). -/
def cyclesAnc : List Cycle := readCycles .imm hookAnc

/-- ANC, bytes 0B and 2B (47_undocumented.md R338). -/
def execAnc (variant : Nat) (s : State) : Host.Outcome State Fault Refusal :=
  runInstr (.anc variant) cyclesAnc s

/-- `t <- A & M; C <- t[0]; A <- t >> 1; setNZ(A)` (47_undocumented.md R339). -/
def hookAlr : ReadHook :=
  fun byte r => let t := r.a &&& byte; { r with a := t >>> 1, c := bitOf t 0 }.setNZ (t >>> 1)

/-- The cycles of ALR (47_undocumented.md R339). -/
def cyclesAlr : List Cycle := readCycles .imm hookAlr

/-- ALR (47_undocumented.md R339). -/
def execAlr (s : State) : Host.Outcome State Fault Refusal :=
  runInstr .alr cyclesAlr s

/-- `r <- ((A & M) >> 1) | (C << 7); A <- r; setNZ(r); C <- r[6]; V <- r[6] ^ r[5]` (47_undocumented.md R340). -/
def hookArr : ReadHook :=
  fun byte r =>
    let t := ((r.a &&& byte) >>> 1) ||| BitVec.ofNat 8 (bitNat r.c * 128)
    { r with a := t, c := bitOf t 6, v := bitOf t 6 ^^ bitOf t 5 }.setNZ t

/-- The cycles of ARR (47_undocumented.md R340). -/
def cyclesArr : List Cycle := readCycles .imm hookArr

/-- ARR (47_undocumented.md R340). -/
def execArr (s : State) : Host.Outcome State Fault Refusal :=
  runInstr .arr cyclesArr s

/-- `A <- (A | P_LXA_CONST) & M; X <- A; setNZ(A)` (47_undocumented.md R341). -/
def hookLxa : ReadHook :=
  fun byte r =>
    let t := (r.a ||| Config.lxaConst) &&& byte
    { r with a := t, x := t }.setNZ t

/-- The cycles of LXA (47_undocumented.md R341). -/
def cyclesLxa : List Cycle := readCycles .imm hookLxa

/-- LXA (47_undocumented.md R341). -/
def execLxa (s : State) : Host.Outcome State Fault Refusal :=
  runInstr .lxa cyclesLxa s

/-- `t <- A & X; C <- (t >= M); X <- t - M; setNZ(X)` (47_undocumented.md R342). -/
def hookSbx : ReadHook :=
  fun byte r =>
    let t := r.a &&& r.x
    { r with x := t - byte, c := decide (byte.toNat ≤ t.toNat) }.setNZ (t - byte)

/-- The cycles of SBX (47_undocumented.md R342). -/
def cyclesSbx : List Cycle := readCycles .imm hookSbx

/-- SBX (47_undocumented.md R342). -/
def execSbx (s : State) : Host.Outcome State Fault Refusal :=
  runInstr .sbx cyclesSbx s

/-! ## SHY and SHX -/

/-- The cycles of SHY (47_undocumented.md R343). -/
def cyclesShy : List Cycle := highAndCycles .abx fun r => r.y

/-- SHY (47_undocumented.md R343). -/
def execShy (s : State) : Host.Outcome State Fault Refusal :=
  runInstr .shy cyclesShy s

/-- The cycles of SHX (47_undocumented.md R344). -/
def cyclesShx : List Cycle := highAndCycles .aby fun r => r.x

/-- SHX (47_undocumented.md R344). -/
def execShx (s : State) : Host.Outcome State Fault Refusal :=
  runInstr .shx cyclesShx s

/-! ## Sentinel opcodes: `UnimplementedOpcode` (47_undocumented.md R347, 60_exceptions.md R420; log 4) -/

/-- The twelve JAM bytes (47_undocumented.md R347). -/
def execJam (variant : Nat) (s : State) : Host.Outcome State Fault Refusal := runSentinel (.jam variant) s

/-- ANE (47_undocumented.md R347). -/
def execAne (s : State) : Host.Outcome State Fault Refusal := runSentinel .ane s

/-- SHA, two bytes (47_undocumented.md R347). -/
def execSha (variant : Nat) (s : State) : Host.Outcome State Fault Refusal := runSentinel (.sha variant) s

/-- TAS (47_undocumented.md R347). -/
def execTas (s : State) : Host.Outcome State Fault Refusal := runSentinel .tas s

/-- LAS (47_undocumented.md R347). -/
def execLas (s : State) : Host.Outcome State Fault Refusal := runSentinel .las s

end Sys2Proof.Machine
end

