-- ==== Sys2Proof/Machine/Dispatch.lean ====
section
/-! DEFINITION. The dispatch of every instruction to its meaning (40_cycle_engine.md R147): `exec i s` is the instruction
`i` from the end of its T1 to the cycle that retires it, in the machine `s` that T1's fetch leaves, with the dots of the
tick loop in between. -/

namespace Sys2Proof.Machine

def exec (i : Instr) (s : State) : Host.Outcome State Fault Refusal :=
  match i with
  | .lda m => Sys2Proof.Machine.execLda m s
  | .ldx m => Sys2Proof.Machine.execLdx m s
  | .ldy m => Sys2Proof.Machine.execLdy m s
  | .sta m => Sys2Proof.Machine.execSta m s
  | .stx m => Sys2Proof.Machine.execStx m s
  | .sty m => Sys2Proof.Machine.execSty m s
  | .tax => Sys2Proof.Machine.execTax s
  | .tay => Sys2Proof.Machine.execTay s
  | .txa => Sys2Proof.Machine.execTxa s
  | .tya => Sys2Proof.Machine.execTya s
  | .tsx => Sys2Proof.Machine.execTsx s
  | .txs => Sys2Proof.Machine.execTxs s
  | .adc m => Sys2Proof.Machine.execAdc m s
  | .sbc m variant => Sys2Proof.Machine.execSbc m variant s
  | .and m => Sys2Proof.Machine.execAnd m s
  | .ora m => Sys2Proof.Machine.execOra m s
  | .eor m => Sys2Proof.Machine.execEor m s
  | .cmp m => Sys2Proof.Machine.execCmp m s
  | .cpx m => Sys2Proof.Machine.execCpx m s
  | .cpy m => Sys2Proof.Machine.execCpy m s
  | .bit m => Sys2Proof.Machine.execBit m s
  | .asl m => Sys2Proof.Machine.execAsl m s
  | .lsr m => Sys2Proof.Machine.execLsr m s
  | .rol m => Sys2Proof.Machine.execRol m s
  | .ror m => Sys2Proof.Machine.execRor m s
  | .inc m => Sys2Proof.Machine.execInc m s
  | .dec m => Sys2Proof.Machine.execDec m s
  | .inx => Sys2Proof.Machine.execInx s
  | .iny => Sys2Proof.Machine.execIny s
  | .dex => Sys2Proof.Machine.execDex s
  | .dey => Sys2Proof.Machine.execDey s
  | .clc => Sys2Proof.Machine.execClc s
  | .sec => Sys2Proof.Machine.execSec s
  | .cli => Sys2Proof.Machine.execCli s
  | .sei => Sys2Proof.Machine.execSei s
  | .clv => Sys2Proof.Machine.execClv s
  | .cld => Sys2Proof.Machine.execCld s
  | .sed => Sys2Proof.Machine.execSed s
  | .nop m variant => Sys2Proof.Machine.execNop m variant s
  | .bpl => Sys2Proof.Machine.execBpl s
  | .bmi => Sys2Proof.Machine.execBmi s
  | .bvc => Sys2Proof.Machine.execBvc s
  | .bvs => Sys2Proof.Machine.execBvs s
  | .bcc => Sys2Proof.Machine.execBcc s
  | .bcs => Sys2Proof.Machine.execBcs s
  | .bne => Sys2Proof.Machine.execBne s
  | .beq => Sys2Proof.Machine.execBeq s
  | .jmp m => Sys2Proof.Machine.execJmp m s
  | .jsr => Sys2Proof.Machine.execJsr s
  | .rts => Sys2Proof.Machine.execRts s
  | .pha => Sys2Proof.Machine.execPha s
  | .php => Sys2Proof.Machine.execPhp s
  | .pla => Sys2Proof.Machine.execPla s
  | .plp => Sys2Proof.Machine.execPlp s
  | .brk => Sys2Proof.Machine.execBrk s
  | .rti => Sys2Proof.Machine.execRti s
  | .slo m => Sys2Proof.Machine.execSlo m s
  | .rla m => Sys2Proof.Machine.execRla m s
  | .sre m => Sys2Proof.Machine.execSre m s
  | .rra m => Sys2Proof.Machine.execRra m s
  | .sax m => Sys2Proof.Machine.execSax m s
  | .lax m => Sys2Proof.Machine.execLax m s
  | .dcp m => Sys2Proof.Machine.execDcp m s
  | .isc m => Sys2Proof.Machine.execIsc m s
  | .anc variant => Sys2Proof.Machine.execAnc variant s
  | .alr => Sys2Proof.Machine.execAlr s
  | .arr => Sys2Proof.Machine.execArr s
  | .lxa => Sys2Proof.Machine.execLxa s
  | .sbx => Sys2Proof.Machine.execSbx s
  | .shy => Sys2Proof.Machine.execShy s
  | .shx => Sys2Proof.Machine.execShx s
  | .jam variant => Sys2Proof.Machine.execJam variant s
  | .ane => Sys2Proof.Machine.execAne s
  | .sha variant => Sys2Proof.Machine.execSha variant s
  | .tas => Sys2Proof.Machine.execTas s
  | .las => Sys2Proof.Machine.execLas s

end Sys2Proof.Machine
end

