-- ==== Sys2Proof/Machine/Tick.lean ====
section
/-! DEFINITION. The machine one `Tick()` at a time: the CPU's `Tick()` (40_cycle_engine.md R142) and one iteration of the
tick loop (65_ppu.md R505). -/

namespace Sys2Proof.Machine

/-- The cycles T2, T3, ... of an instruction, by its kind and mode (40_cycle_engine.md R147); a sentinel entry has
none. -/
def cyclesOf : Instr → List Cycle
  | .lda m => cyclesLda m
  | .ldx m => cyclesLdx m
  | .ldy m => cyclesLdy m
  | .sta m => cyclesSta m
  | .stx m => cyclesStx m
  | .sty m => cyclesSty m
  | .tax => cyclesTax
  | .tay => cyclesTay
  | .txa => cyclesTxa
  | .tya => cyclesTya
  | .tsx => cyclesTsx
  | .txs => cyclesTxs
  | .adc m => cyclesAdc m
  | .sbc m _ => cyclesSbc m
  | .and m => cyclesAnd m
  | .ora m => cyclesOra m
  | .eor m => cyclesEor m
  | .cmp m => cyclesCmp m
  | .cpx m => cyclesCpx m
  | .cpy m => cyclesCpy m
  | .bit m => cyclesBit m
  | .asl m => cyclesAsl m
  | .lsr m => cyclesLsr m
  | .rol m => cyclesRol m
  | .ror m => cyclesRor m
  | .inc m => cyclesInc m
  | .dec m => cyclesDec m
  | .inx => cyclesInx
  | .iny => cyclesIny
  | .dex => cyclesDex
  | .dey => cyclesDey
  | .clc => cyclesClc
  | .sec => cyclesSec
  | .cli => cyclesCli
  | .sei => cyclesSei
  | .clv => cyclesClv
  | .cld => cyclesCld
  | .sed => cyclesSed
  | .nop m _ => cyclesNop m
  | .bpl => cyclesBpl
  | .bmi => cyclesBmi
  | .bvc => cyclesBvc
  | .bvs => cyclesBvs
  | .bcc => cyclesBcc
  | .bcs => cyclesBcs
  | .bne => cyclesBne
  | .beq => cyclesBeq
  | .jmp m => cyclesJmp m
  | .jsr => cyclesJsr
  | .rts => cyclesRts
  | .pha => cyclesPha
  | .php => cyclesPhp
  | .pla => cyclesPla
  | .plp => cyclesPlp
  | .brk => exceptionEntry
  | .rti => exceptionReturn
  | .slo m => cyclesSlo m
  | .rla m => cyclesRla m
  | .sre m => cyclesSre m
  | .rra m => cyclesRra m
  | .sax m => cyclesSax m
  | .lax m => cyclesLax m
  | .dcp m => cyclesDcp m
  | .isc m => cyclesIsc m
  | .anc _ => cyclesAnc
  | .alr => cyclesAlr
  | .arr => cyclesArr
  | .lxa => cyclesLxa
  | .sbx => cyclesSbx
  | .shy => cyclesShy
  | .shx => cyclesShx
  | .jam _ => []
  | .ane => []
  | .sha _ => []
  | .tas => []
  | .las => []

/-- The cycles left to an instruction from cycle `Tn` on; none where the instruction is no entry of the table or `Tn`,
n ≥ 2, is no cycle of it (40_cycle_engine.md R147, 93 U15). -/
def cyclesFrom (i : Instr) (n : Nat) : List Cycle :=
  if WellFormed i ∧ 2 ≤ n then (cyclesOf i).drop (n - 2) else []

/-- The CPU's `Tick()`: no step when faulted; the opcode fetch with the substitution and the sentinel check when no
instruction is in progress; else the cycle `T(cyc)` of the instruction (40_cycle_engine.md R142 to R147). -/
def cpuTick (s : State) : Host.Outcome State Fault Refusal :=
  if s.faulted then .fault (.unimplementedOpcode s.faultOpcode)
  else
    match s.micro.curOp with
    | none =>
      let (i, s) := fetchOpcode s
      .next (if i.sentinel then s.raiseUnimplemented i.opcode else s.begin i)
    | some i =>
      match cyclesFrom i s.micro.cyc with
      | [] => .refused .noSuchCycle
      | c :: _ => .next (cpuCycle i c s)

/-- One iteration of the tick loop: a PPU `Tick()` and its event, and on every fourth iteration a CPU `Tick()` and its
event (65_ppu.md R505). On a faulted machine the loop still works its PPU dots up to the CPU `Tick()` that comes next,
which is the fault; the spec does not say when the environment stops ticking the PPU (60_exceptions.md R420; DESIGN
CHOICE, log 22). -/
def loopStep (s : State) : Host.Outcome State Fault Refusal :=
  let s := dotIteration s
  if s.k = Config.dotsPerCpuCycle then
    match cpuTick { s with k := 0 } with
    | .next s' => .next (deliver s')
    | .fault r => .fault r
    | .refused r => .refused r
  else .next s

/-- `n` iterations of the tick loop, stopping at the first fault or refusal. -/
def loopSteps : Nat → State → Host.Outcome State Fault Refusal
  | 0, s => .next s
  | n + 1, s =>
    match loopStep s with
    | .next s' => loopSteps n s'
    | .fault r => .fault r
    | .refused r => .refused r

/-- The CPU `Tick()` that comes next in the tick loop, with the dots before it and the event after it. -/
def tick (s : State) : Host.Outcome State Fault Refusal :=
  match cpuTick (dotsToCpuTick s) with
  | .next s' => .next (deliver s')
  | .fault r => .fault r
  | .refused r => .refused r

end Sys2Proof.Machine
end

