-- ==== Sys2Proof/Machine/Step.lean ====
section
/-! DEFINITION. One step of the machine: the instruction at the program counter, or the rest of the instruction in progress,
with the tick loop's dots around each of its cycles (log 1); and the placing of an instruction where the next step
fetches it. -/

namespace Sys2Proof.Machine

/-- The rest of an instruction in progress, resumed at its cycle `cyc`: "`Tick()` must resume it, never re-fetch"
(10_state.md R31, 40_cycle_engine.md R142(c)). -/
def resume (i : Instr) (s : State) : Host.Outcome State Fault Refusal := runCycles i (cyclesFrom i s.micro.cyc) s

/-- One step: a faulted machine has none (60_exceptions.md R420); an instruction in progress is resumed; else the dots
before the fetch, T1's fetch with its interrupt substitution, and the instruction it gives
(40_cycle_engine.md R142 to R147, 65_ppu.md R505; log 1). -/
def step (s : State) : Host.Outcome State Fault Refusal :=
  if s.faulted then .fault (.unimplementedOpcode s.faultOpcode)
  else
    match s.micro.curOp with
    | some i => resume i s
    | none =>
      let (i, s) := fetchOpcode (dotsToCpuTick s)
      exec i s

/-! ## Placing an instruction (log 8) -/

/-- The cartridge as a flat board, so that program bytes can be placed in it: a flat board stays what it is, any other
is replaced by an empty one. -/
def Cart.asFlat : Cart → Cart
  | .flat prg vram => .flat prg vram
  | .absent | .mapper _ => .flat [] []

/-- A byte that a fetch reads can be placed here: RAM, or the cartridge's region of the flat board. -/
def placeable (a : Addr) : Bool := a.toNat < 0x2000 ∨ 0x4020 ≤ a.toNat

/-- The byte placed at an address of RAM or of the flat board. -/
def State.place (s : State) (a : Addr) (byte : Byte) : State :=
  if a.toNat < 0x2000 then { s with ram := s.ram.write (a.toNat % 0x800) byte }
  else
    match s.cart with
    | .flat prg vram => { s with cart := .flat (prg.write a.toNat byte) vram }
    | _ => s

/-- The program counter, moved to RAM where the three bytes from it on cannot be placed. -/
def State.fetchPlace (s : State) : Addr :=
  if placeable s.cpu.pc && placeable (s.cpu.pc + 1) && placeable (s.cpu.pc + 2) then s.cpu.pc else 0x0200

/-- The machine with an instruction's bytes stored where the next step fetches: at the program counter, with no
instruction in progress, nothing armed and no fault, and a flat board in place of a cartridge that holds no bytes
(log 8). -/
def State.withFetchWord (s : State) (nbits w : Nat) : State :=
  let at' := s.fetchPlace
  let s : State :=
    { s with
      cpu := { s.cpu with pc := at' }
      micro := { s.micro with curOp := none, cyc := 0 }
      lines := { s.lines with armReset := false, armNmi := false, armIrq := false, servicing := false }
      faulted := false
      cart := s.cart.asFlat }
  match bytesOfWord (w % 2 ^ nbits) with
  | [b0, b1, b2] => ((s.place at' b0).place (at' + 1) b1).place (at' + 2) b2
  | _ => s

end Sys2Proof.Machine
end

