-- ==== Sys2Proof/Safety.lean ====
section
/-! DEFINITION. What counts as a safe run, and the terms the statements use: the invariant of the machine, the bus
traces of the addressing modes as the tables of 40_cycle_engine.md give them, what a retired instruction leaves, and
what one that stores nothing, or stores at one address, leaves unchanged. None of it is used by the machine. -/

namespace Sys2Proof.Machine

/-! ## The invariant -/

/-- Every listed cell lies in a range and the memory is in canonical form. -/
def Memory.Within (m : Memory) (low high : Nat) : Prop := m.wf ∧ ∀ c ∈ m, low ≤ c.1 ∧ c.1 < high

/-- The invariant between two steps, and inside an instruction (10_state.md R31, R32, R35 to R38, R45, R46, R54 to R56;
65_ppu.md R505, R506, R512, R571). -/
structure Inv (s : State) : Prop where
  ram : s.ram.Within 0 0x800
  oam : s.ppu.oam.Within 0 0x100
  palette : s.ppu.palette.Within 0 0x20
  paletteAlias : ∀ c ∈ s.ppu.palette, c.1 ≠ 0x10 ∧ c.1 ≠ 0x14 ∧ c.1 ≠ 0x18 ∧ c.1 ≠ 0x1C
  framebuffer : s.ppu.framebuffer.Within 0 (240 * 256)
  codes : ∀ c ∈ s.ppu.framebuffer, c.2.toNat < 64
  flat : ∀ prg vram, s.cart = .flat prg vram → prg.Within 0x4020 0x10000 ∧ vram.Within 0 0x3000
  scanline : s.ppu.scanline ≤ 261
  dot : s.ppu.dot ≤ 340
  stubs : s.ppu.sprite0Hit = false ∧ s.ppu.spriteOverflow = false
  delivered : s.ppu.nmiRequested = false ∧ s.ppu.frameComplete = false
  loopCounter : s.k < Config.dotsPerCpuCycle
  idle : s.micro.curOp = none → s.micro.cyc = 0
  inProgress : ∀ i, s.micro.curOp = some i → WellFormed i ∧ 2 ≤ s.micro.cyc ∧ cyclesFrom i s.micro.cyc ≠ []
  servicing : s.lines.servicing = true → s.micro.curOp = some .brk
  armed : (s.lines.armReset = true → s.lines.pendReset = true) ∧ (s.lines.armNmi = true → s.lines.pendNmi = true) ∧
    (s.lines.armIrq = true → s.lines.pendIrq = true)
  faulted : s.faulted = true → (optable s.faultOpcode).sentinel = true

/-- A step that can be taken: the machine has not met a sentinel opcode (60_exceptions.md R420). -/
def Live (s : State) : Prop := Inv s ∧ s.faulted = false

/-! ## Bus traces (40_cycle_engine.md R140, R150 to R163) -/

/-- The bus accesses the CPU made between two machines, oldest first. -/
def Trace (s t : State) (l : List BusAccess) : Prop := t.busLog = l.reverse ++ s.busLog

/-- The sum `(h:l + index) mod 2^16` of an indexed mode. -/
def indexedAddr (low high index : Byte) : Addr := (high ++ low) + index.setWidth 16

/-- The indexed address before the carry reaches its high byte. -/
def uncarriedAddr (low high index : Byte) : Addr := high ++ (low + index)

/-- The index addition carries into the high byte. -/
def carries (low index : Byte) : Prop := 256 ≤ low.toNat + index.toNat

/-- Zero-page address `00:b`. -/
def zpAddr (b : Byte) : Addr := (0 : Byte) ++ b

/-- The accesses that fetch the operand bytes and form the effective address `ea` in the modes with no page-crossing
cycle; `r` is the register file with `PC` at the first operand byte (R151 to R154, R160). -/
def PlainTrace (m : Mode) (r : Cpu) (l : List BusAccess) (ea : Addr) : Prop :=
  match m with
  | .imm => l = [] ∧ ea = r.pc
  | .zp => ∃ b, l = [.read r.pc b] ∧ ea = zpAddr b
  | .zpx => ∃ b d, l = [.read r.pc b, .read (zpAddr b) d] ∧ ea = zpAddr (b + r.x)
  | .zpy => ∃ b d, l = [.read r.pc b, .read (zpAddr b) d] ∧ ea = zpAddr (b + r.y)
  | .abs => ∃ low high, l = [.read r.pc low, .read (r.pc + 1) high] ∧ ea = high ++ low
  | .izx => ∃ b d low high,
      l = [.read r.pc b, .read (zpAddr b) d, .read (zpAddr (b + r.x)) low, .read (zpAddr (b + r.x + 1)) high] ∧
      ea = high ++ low
  | _ => False

/-- The accesses that fetch the base address `high:low` of an indexed mode, and its index (R155, R162). -/
def BaseTrace (m : Mode) (r : Cpu) (l : List BusAccess) (low high index : Byte) : Prop :=
  match m with
  | .abx => l = [.read r.pc low, .read (r.pc + 1) high] ∧ index = r.x
  | .aby => l = [.read r.pc low, .read (r.pc + 1) high] ∧ index = r.y
  | .izy => ∃ b, l = [.read r.pc b, .read (zpAddr b) low, .read (zpAddr (b + 1)) high] ∧ index = r.y
  | _ => False

/-- The address accesses of class `read`: the dummy read at the uncarried address only when the index addition carries
(R155, R162). -/
def ReadTrace (m : Mode) (r : Cpu) (l : List BusAccess) (ea : Addr) : Prop :=
  PlainTrace m r l ea ∨
  ∃ base low high index, BaseTrace m r base low high index ∧ ea = indexedAddr low high index ∧
    ((carries low index ∧ ∃ d, l = base ++ [.read (uncarriedAddr low high index) d]) ∨
     (¬ carries low index ∧ l = base))

/-- The address accesses of classes `write` and `rmw`: the dummy read is always made (R156, R157, R163). -/
def WriteTrace (m : Mode) (r : Cpu) (l : List BusAccess) (ea : Addr) : Prop :=
  PlainTrace m r l ea ∨
  ∃ base low high index d, BaseTrace m r base low high index ∧ ea = indexedAddr low high index ∧
    l = base ++ [.read (uncarriedAddr low high index) d]

/-- The address `0x0100 | S` of the stack (10_state.md R23). -/
def stackSlot (s : Byte) : Addr := 0x0100 ||| s.setWidth 16

/-! ## Plain memory -/

/-- The cartridge's board is known: none, or the flat board. -/
def State.KnownBoard (s : State) : Prop := ∀ st, s.cart ≠ .mapper st

/-- An address behind which there is memory only: RAM with its mirrors, or the cartridge's region, on a board the model
knows (20_memory.md R74, R76, R81). -/
def State.PlainAt (s : State) (a : Addr) : Prop := s.KnownBoard ∧ (a.toNat < 0x2000 ∨ 0x4020 ≤ a.toNat)

/-- Every read of a trace at a plain address gave the byte memory holds there in `s`. -/
def ReadsMemory (s : State) (l : List BusAccess) : Prop := ∀ a v, .read a v ∈ l → s.PlainAt a → v = s.peek a

/-- The address is in the window of the PPU registers (20_memory.md R77). -/
def InPpuWindow (a : Addr) : Prop := 0x2000 ≤ a.toNat ∧ a.toNat < 0x4000

/-- The address selects PPU register `n` (20_memory.md R77). -/
def SelectsPpuReg (a : Addr) (n : Nat) : Prop := InPpuWindow a ∧ a.toNat % 8 = n

/-! ## What instructions leave unchanged -/

/-- The PPUCTRL booleans are the same (10_state.md R48). -/
def SameCtrl (s t : State) : Prop :=
  t.ppu.incr32 = s.ppu.incr32 ∧ t.ppu.bgTable = s.ppu.bgTable ∧ t.ppu.spTable = s.ppu.spTable ∧
  t.ppu.sprite16 = s.ppu.sprite16 ∧ t.ppu.masterSlave = s.ppu.masterSlave ∧ t.ppu.nmiEnable = s.ppu.nmiEnable

/-- The PPUMASK booleans are the same (10_state.md R49). -/
def SameMask (s t : State) : Prop :=
  t.ppu.greyscale = s.ppu.greyscale ∧ t.ppu.showBgLeft = s.ppu.showBgLeft ∧ t.ppu.showSpLeft = s.ppu.showSpLeft ∧
  t.ppu.showBg = s.ppu.showBg ∧ t.ppu.showSp = s.ppu.showSp ∧ t.ppu.emphR = s.ppu.emphR ∧
  t.ppu.emphG = s.ppu.emphG ∧ t.ppu.emphB = s.ppu.emphB

/-- The PPU fields that only a write to a PPU register changes are the same (65_ppu.md R520, R521, R524 to R527). -/
structure SamePpuControls (s t : State) : Prop where
  ctrl : SameCtrl s t
  mask : SameMask s t
  oamAddr : t.ppu.oamAddr = s.ppu.oamAddr
  scroll : t.ppu.t = s.ppu.t
  fineX : t.ppu.x = s.ppu.x

/-- The strobe, the latched snapshots and the host's feed of the controllers are the same. -/
def SamePads (s t : State) : Prop :=
  t.ctl.strobe = s.ctl.strobe ∧ t.ctl.latched0 = s.ctl.latched0 ∧ t.ctl.latched1 = s.ctl.latched1 ∧
  t.ctl.hostButtons = s.ctl.hostButtons ∧ t.ctl.strobes = s.ctl.strobes

/-- Nothing was stored but in the RAM cells of a list: every other byte of RAM, every byte of OAM and palette, a known
cartridge, and every register that only a write changes are as before. -/
structure StoresCells (cells : List Nat) (s t : State) : Prop where
  ram : ∀ a, a ∉ cells → t.ram.read a = s.ram.read a
  oam : ∀ a, t.ppu.oam.read a = s.ppu.oam.read a
  palette : ∀ a, t.ppu.palette.read a = s.ppu.palette.read a
  cart : s.KnownBoard → t.cart = s.cart
  pads : SamePads s t
  controls : SamePpuControls s t

/-- Nothing was stored. -/
abbrev StoresNothing (s t : State) : Prop := StoresCells [] s t

/-- The registers that a read can change are as before where the trace has no read of them: the write toggle, the read
buffer and, while the PPU is not rendering, the VRAM address (20_memory.md R88); the controllers' counters. -/
structure ReadEffects (s t : State) (l : List BusAccess) : Prop where
  ppu : (∀ a v, .read a v ∈ l → ¬ InPpuWindow a) →
    t.ppu.w = s.ppu.w ∧ t.ppu.readBuffer = s.ppu.readBuffer ∧ (s.ppu.renderingEnabled = false → t.ppu.v = s.ppu.v)
  count0 : (∀ v, .read 0x4016 v ∉ l) → t.ctl.count0 = s.ctl.count0
  count1 : (∀ v, .read 0x4017 v ∉ l) → t.ctl.count1 = s.ctl.count1

/-- The one address stored to is `ea`, the byte left there `byte`; `l` is the trace. Every other byte of RAM, and every
other memory and register that a store at `ea` does not reach, is as before (20_memory.md R75 to R81, 65_ppu.md R520
to R528). -/
structure StoresAt (ea : Addr) (byte : Byte) (s t : State) (l : List BusAccess) : Prop where
  stored : ea.toNat < 0x2000 → t.ram.read (ea.toNat % 0x800) = byte
  ram : ∀ a, (ea.toNat < 0x2000 → a ≠ ea.toNat % 0x800) → t.ram.read a = s.ram.read a
  oam : ea ≠ 0x4014 → ¬ SelectsPpuReg ea 4 → ∀ a, t.ppu.oam.read a = s.ppu.oam.read a
  palette : ¬ SelectsPpuReg ea 7 → ∀ a, t.ppu.palette.read a = s.ppu.palette.read a
  cart : ¬ SelectsPpuReg ea 7 → s.KnownBoard → t.cart = s.cart
  pads : ea ≠ 0x4016 → SamePads s t
  ctrl : ¬ SelectsPpuReg ea 0 → SameCtrl s t
  mask : ¬ SelectsPpuReg ea 1 → SameMask s t
  oamAddr : ¬ SelectsPpuReg ea 3 → ¬ SelectsPpuReg ea 4 → t.ppu.oamAddr = s.ppu.oamAddr
  scroll : ¬ SelectsPpuReg ea 0 → ¬ SelectsPpuReg ea 5 → ¬ SelectsPpuReg ea 6 → t.ppu.t = s.ppu.t
  fineX : ¬ SelectsPpuReg ea 5 → t.ppu.x = s.ppu.x
  reads : ¬ InPpuWindow ea → ea ≠ 0x4014 → ea ≠ 0x4016 → ReadEffects s t l

/-! ## What a retired instruction leaves (40_cycle_engine.md R146) -/

/-- An instruction other than the BRK sequence has retired: no instruction is in progress, and the pending flags have
been polled with `iPoll` as the flag `I`. NMI may have been requested by the PPU meanwhile. -/
structure Retired (iPoll : Bool) (s t : State) : Prop where
  curOp : t.micro.curOp = none ∧ t.micro.cyc = 0
  armReset : t.lines.armReset = s.lines.pendReset
  armIrq : t.lines.armIrq = (s.lines.pendIrq && !iPoll)
  armNmi : (s.lines.pendNmi = true → t.lines.armNmi = true) ∧ (t.lines.armNmi = true → t.lines.pendNmi = true)
  pending : t.lines.pendReset = s.lines.pendReset ∧ t.lines.pendIrq = s.lines.pendIrq ∧
    (s.lines.pendNmi = true → t.lines.pendNmi = true)
  servicing : t.lines.servicing = s.lines.servicing
  faulted : t.faulted = s.faulted ∧ t.faultOpcode = s.faultOpcode
  loopCounter : t.k = 0
  frames : s.frames ≤ t.frames

/-! ## What each class of instruction leaves -/

/-- What an instruction of class `read` in mode `m` leaves when it has computed `result` from its operand byte: its bus
trace, its registers and flags, the poll, and nothing stored. -/
def ReadDone (m : Mode) (result : Byte → Cpu → Cpu) (s t : State) : Prop :=
  ∃ l ea operand,
    ReadTrace m s.cpu l ea ∧ Trace s t (l ++ [.read ea operand]) ∧
    t.cpu = result operand { s.cpu with pc := s.cpu.pc + BitVec.ofNat 16 m.operandBytes } ∧
    ReadsMemory s (l ++ [.read ea operand]) ∧ ReadEffects s t (l ++ [.read ea operand]) ∧
    StoresNothing s t ∧ Retired s.cpu.i s t

/-- What an instruction of class `write` in mode `m` leaves when it has stored `byte` at `ea`; no register and no flag
but `PC` changes. -/
def WriteDone (m : Mode) (ea : Addr) (byte : Byte) (s t : State) : Prop :=
  ∃ l, WriteTrace m s.cpu l ea ∧ Trace s t (l ++ [.write ea byte]) ∧
    t.cpu = { s.cpu with pc := s.cpu.pc + BitVec.ofNat 16 m.operandBytes } ∧
    ReadsMemory s l ∧ StoresAt ea byte s t l ∧ Retired s.cpu.i s t

/-- What an instruction of class `rmw` in mode `m` leaves when `result` is the new byte and the register file it computes
from the old byte: the old byte is written back, then the new one. -/
def RmwDone (m : Mode) (ea : Addr) (result : Byte → Cpu → Byte × Cpu) (s t : State) : Prop :=
  ∃ l old,
    WriteTrace m s.cpu l ea ∧
    Trace s t (l ++ [.read ea old, .write ea old,
      .write ea (result old { s.cpu with pc := s.cpu.pc + BitVec.ofNat 16 m.operandBytes }).1]) ∧
    t.cpu = (result old { s.cpu with pc := s.cpu.pc + BitVec.ofNat 16 m.operandBytes }).2 ∧
    ReadsMemory s (l ++ [.read ea old]) ∧
    StoresAt ea (result old { s.cpu with pc := s.cpu.pc + BitVec.ofNat 16 m.operandBytes }).1 s t
      (l ++ [.read ea old]) ∧
    Retired s.cpu.i s t

/-- What an instruction of class `implied` leaves: one dummy read of the byte after the opcode, the registers and flags
`result`, nothing stored. -/
def ImpliedDone (result : Cpu → Cpu) (s t : State) : Prop :=
  ∃ d, Trace s t [.read s.cpu.pc d] ∧ t.cpu = result s.cpu ∧ ReadsMemory s [.read s.cpu.pc d] ∧
    ReadEffects s t [.read s.cpu.pc d] ∧ StoresNothing s t ∧ Retired s.cpu.i s t

/-- The page of an address. -/
def page (a : Addr) : Byte := a.extractLsb' 8 8

/-- What a branch leaves (45_branch_jump.md R280): not taken, only its operand byte is read; taken, the byte after it too,
and across a page one more, at the new low byte in the old page. `PC` is at the operand byte before. -/
def BranchDone (taken : Bool) (s t : State) : Prop :=
  ∃ offset l,
    let next := s.cpu.pc + 1
    let target := next + offset.signExtend 16
    t.cpu = { s.cpu with pc := if taken then target else next } ∧
    (if taken then
       if page target = page next then ∃ d, l = [.read s.cpu.pc offset, .read next d]
       else ∃ d d', l = [.read s.cpu.pc offset, .read next d, .read (page next ++ target.setWidth 8) d']
     else l = [.read s.cpu.pc offset]) ∧
    Trace s t l ∧ ReadsMemory s l ∧ ReadEffects s t l ∧ StoresNothing s t ∧ Retired s.cpu.i s t

/-! ## Exceptions (46_stack_system.md R314, 60_exceptions.md R411, R412) -/

/-- The status byte N V 1 b D I Z C, bit 7 first (10_state.md R27). -/
def statusByte (r : Cpu) (b : Bool) : Byte :=
  BitVec.ofBool r.n ++ BitVec.ofBool r.v ++ 1#1 ++ BitVec.ofBool b ++ BitVec.ofBool r.d ++ BitVec.ofBool r.i ++
    BitVec.ofBool r.z ++ BitVec.ofBool r.c

/-- The flags as a pulled status byte gives them: bits 5 and 4 are ignored (10_state.md R27). -/
def withStatus (r : Cpu) (v : Byte) : Cpu :=
  { r with n := v.getLsbD 7, v := v.getLsbD 6, d := v.getLsbD 3, i := v.getLsbD 2, z := v.getLsbD 1, c := v.getLsbD 0 }

/-- The exception sequence has ended: no instruction is in progress, no interrupt is armed or being serviced, and the
poll has not run. -/
structure SequenceEnded (s t : State) : Prop where
  curOp : t.micro.curOp = none ∧ t.micro.cyc = 0
  armed : t.lines.armReset = false ∧ t.lines.armNmi = false ∧ t.lines.armIrq = false
  servicing : t.lines.servicing = false
  faulted : t.faulted = s.faulted ∧ t.faultOpcode = s.faultOpcode
  loopCounter : t.k = 0
  frames : s.frames ≤ t.frames

/-- What taking an exception leaves, T2 to T7: `pc` is the address pushed, `status` the byte pushed after it, `vector` the
vector's address. `PC` is at the byte after the opcode before. -/
def ExceptionTaken (pc : Addr) (status : Byte) (vector : Addr) (s t : State) : Prop :=
  ∃ d low high,
    let l := [.read s.cpu.pc d, .write (stackSlot s.cpu.s) (page pc), .write (stackSlot (s.cpu.s - 1)) (pc.setWidth 8),
      .write (stackSlot (s.cpu.s - 2)) status, .read vector low, .read (vector + 1) high]
    Trace s t l ∧ t.cpu = { s.cpu with pc := high ++ low, s := s.cpu.s - 3, i := true } ∧
    (s.KnownBoard → low = s.peek vector ∧ high = s.peek (vector + 1)) ∧
    t.ram.read (stackSlot s.cpu.s).toNat = page pc ∧ t.ram.read (stackSlot (s.cpu.s - 1)).toNat = pc.setWidth 8 ∧
    t.ram.read (stackSlot (s.cpu.s - 2)).toNat = status ∧
    StoresCells [(stackSlot s.cpu.s).toNat, (stackSlot (s.cpu.s - 1)).toNat, (stackSlot (s.cpu.s - 2)).toNat] s t ∧
    ReadEffects s t l ∧ SequenceEnded s t

/-! ## The two arithmetic primitives, as 42_alu_compare.md writes them -/

/-- `ADD8(m)` (42_alu_compare.md R220). -/
def addWithCarry (r : Cpu) (m : Byte) : Cpu :=
  let t := r.a.toNat + m.toNat + r.c.toNat
  let sum := BitVec.ofNat 8 t
  { r with v := decide (~~~(r.a ^^^ m) &&& (r.a ^^^ sum) &&& 0x80 ≠ 0), c := decide (0xFF < t), a := sum,
           z := decide (sum = 0), n := sum.getLsbD 7 }

/-- `CMP8(reg, m)` (42_alu_compare.md R221). -/
def compareWith (r : Cpu) (reg m : Byte) : Cpu :=
  { r with c := decide (m.toNat ≤ reg.toNat), z := decide (reg - m = 0), n := (reg - m).getLsbD 7 }

/-! ## Dots -/

/-- The position is on a render line, and rendering is enabled (65_ppu.md R522, R531 item 3). -/
abbrev Rendering (p : Ppu) : Prop :=
  (p.scanline ≤ 239 ∨ p.scanline = 261) ∧ (p.showBg = true ∨ p.showSp = true)

/-- The dots of a line in which the background is fetched and shifted (65_ppu.md R531 item 3a). -/
abbrev InFetchDots (d : Nat) : Prop := (1 ≤ d ∧ d ≤ 256) ∨ (321 ≤ d ∧ d ≤ 340)

/-! ## Sprites -/

/-- Sprite `n` has the pattern value `p`, not transparent, at a row and column of the picture
(65_ppu.md R570). -/
def SpriteCovers (s : State) (n row column p : Nat) : Prop :=
  let y := (s.ppu.oam.read (4 * n)).toNat
  let tile := (s.ppu.oam.read (4 * n + 1)).toNat
  let attr := s.ppu.oam.read (4 * n + 2)
  let x := (s.ppu.oam.read (4 * n + 3)).toNat
  let h := if s.ppu.sprite16 then 16 else 8
  ∃ r c, r < h ∧ c < 8 ∧ row = y + 1 + r ∧ column = x + c ∧ row ≤ 239 ∧ column ≤ 255 ∧ p ≠ 0 ∧
    let rr := if attr.getLsbD 7 then h - 1 - r else r
    let cc := if attr.getLsbD 6 then 7 - c else c
    let base :=
      if s.ppu.sprite16 then tile % 2 * 0x1000 + (tile / 2 * 2 + rr / 8) * 16
      else (if s.ppu.spTable then 0x1000 else 0) + tile * 16
    let low := ppuBusValue s (BitVec.ofNat 16 (base + rr % 8))
    let high := ppuBusValue s (BitVec.ofNat 16 (base + rr % 8 + 8))
    p = (high.getLsbD (7 - cc)).toNat * 2 + (low.getLsbD (7 - cc)).toNat

end Sys2Proof.Machine
end

