-- ==== Sys2Proof/Certificates/Slice0/Obligations.lean ====
section
/-! DEFINITION. The statements about the machine for the provers. `exec i s` is the instruction `i` in the machine `s` that
its opcode fetch leaves: `PC` is at the byte after the opcode. The terms are those of Safety.lean. -/

section

open Sys2Proof Sys2Proof.Machine

/-! ## Encoding -/

/-- Words written out from the tables of 30_encoding.md decode to the instructions they stand for, one or more of every
family. -/
def Obligations.DecodeOfWrittenWords : Prop :=
  decode [0xA9, 0x05, 0xEA] = .ok ⟨.lda .imm, [0x05], [0xEA]⟩ ∧
  decode [0x9D, 0x00, 0x02] = .ok ⟨.sta .abx, [0x00, 0x02], []⟩ ∧
  decode [0xBA] = .ok ⟨.tsx, [], []⟩ ∧
  decode [0x71, 0x20] = .ok ⟨.adc .izy, [0x20], []⟩ ∧
  decode [0xEB, 0x01] = .ok ⟨.sbc .imm 1, [0x01], []⟩ ∧
  decode [0x2C, 0x02, 0x20] = .ok ⟨.bit .abs, [0x02, 0x20], []⟩ ∧
  decode [0x0A] = .ok ⟨.asl .acc, [], []⟩ ∧
  decode [0xF6, 0x10] = .ok ⟨.inc .zpx, [0x10], []⟩ ∧
  decode [0x78] = .ok ⟨.sei, [], []⟩ ∧
  decode [0x1C, 0xFF, 0x20] = .ok ⟨.nop .abx 0, [0xFF, 0x20], []⟩ ∧
  decode [0xF0, 0xFC] = .ok ⟨.beq, [0xFC], []⟩ ∧
  decode [0x6C, 0xFF, 0x02] = .ok ⟨.jmp .ind, [0xFF, 0x02], []⟩ ∧
  decode [0x20, 0x34, 0x12] = .ok ⟨.jsr, [0x34, 0x12], []⟩ ∧
  decode [0x00, 0x34] = .ok ⟨.brk, [], [0x34]⟩ ∧
  decode [0x40] = .ok ⟨.rti, [], []⟩ ∧
  decode [0x1B, 0xFF, 0x02] = .ok ⟨.slo .aby, [0xFF, 0x02], []⟩ ∧
  decode [0x9E, 0x00, 0x03] = .ok ⟨.shx, [0x00, 0x03], []⟩ ∧
  decode [0xF2] = .ok ⟨.jam 11, [], []⟩

/-- Decoding an encoded instruction gives it back, with every operand at every value and whatever bytes follow. -/
def Obligations.DecodeOfEncode : Prop :=
  ∀ (i : Instr) (operands rest : List Byte), WellFormed i → operands.length = i.operandBytes →
    decode (encode i operands ++ rest) = .ok ⟨i, operands, rest⟩

/-- Every string of bytes that decodes is the encoding of what it decodes to, which is an entry of the table; and a string
that does not decode is empty or ends before its operand bytes do. -/
def Obligations.EncodeOfDecode : Prop :=
  (∀ (bytes : List Byte) (d : Decoded), decode bytes = .ok d →
    WellFormed d.instr ∧ d.operands.length = d.instr.operandBytes ∧ encode d.instr d.operands ++ d.rest = bytes) ∧
  (∀ (op : Byte) (bytes : List Byte) (r : Reject),
    decode (op :: bytes) = .error r ↔ bytes.length < (optable op).operandBytes ∧ r = .truncated (optable op))

/-- The sentinel entries are exactly the 17 bytes of R122. Which bytes these are is the spec's decision D11. -/
def Obligations.SentinelBytes : Prop :=
  ∀ b : Byte, (optable b).sentinel = true ↔
    b ∈ ([0x02, 0x12, 0x22, 0x32, 0x42, 0x52, 0x62, 0x72, 0x92, 0xB2, 0xD2, 0xF2, 0x8B, 0x93, 0x9F, 0x9B, 0xBB] :
      List Byte)

/-! ## The step -/

/-- When no interrupt is armed, a step between two instructions is `exec` of the instruction that the bytes at `PC` decode
to, in the machine that the dots before the fetch, the fetch and the increment of `PC` leave. -/
def Obligations.StepRunsDecodedInstruction : Prop :=
  ∀ (s : State) (d : Decoded), s.faulted = false → s.micro.curOp = none →
    s.lines.armReset = false → s.lines.armNmi = false → s.lines.armIrq = false →
    let u := dotsToCpuTick s
    decode [u.peek s.cpu.pc, u.peek (s.cpu.pc + 1), u.peek (s.cpu.pc + 2)] = .ok d →
    WellFormed d.instr ∧
    step s = exec d.instr { (memRead s.cpu.pc u).2 with cpu := { s.cpu with pc := s.cpu.pc + 1 } }

/-- When an interrupt is armed, a step reads the opcode byte, discards it and runs the BRK sequence with `servicing`
set, `PC` being back at the discarded byte unless that byte is itself 0x00. What becomes of `PC` when the byte is 0x00
is the spec's decision D13. -/
def Obligations.StepSubstitutesArmedInterrupt : Prop :=
  ∀ s : State, s.faulted = false → s.micro.curOp = none →
    s.lines.armReset = true ∨ s.lines.armNmi = true ∨ s.lines.armIrq = true →
    ∃ op u, step s = exec .brk u ∧ Trace s u [.read s.cpu.pc op] ∧ (s.PlainAt s.cpu.pc → op = s.peek s.cpu.pc) ∧
      u.cpu = { s.cpu with pc := if op = 0x00 then s.cpu.pc + 1 else s.cpu.pc } ∧
      u.lines = { s.lines with servicing := true, pendNmi := u.lines.pendNmi } ∧
      (s.lines.pendNmi = true → u.lines.pendNmi = true) ∧ StoresNothing s u

/-- A faulted machine has no step and no `Tick()`, and `Reset()` does not change that. That nothing, `Reset()`
included, ends it is the spec's decision D15. -/
def Obligations.FaultedMachineHasNoStep : Prop :=
  ∀ s : State, s.faulted = true →
    step s = .fault (.unimplementedOpcode s.faultOpcode) ∧ cpuTick s = .fault (.unimplementedOpcode s.faultOpcode) ∧
    step s.callReset = .fault (.unimplementedOpcode s.faultOpcode)

/-- A step is the tick loop run until the instruction has retired: four iterations for each of its `n` bus accesses,
less the dots that the loop had already worked. The place of the CPU's tick in the loop is the spec's decision D30, the
delivery of the event after each tick D31; that the model's step is a whole instruction is log 1. -/
def Obligations.StepIsTheTickLoop : Prop :=
  ∀ s t : State, s.k < 4 → step s = .next t →
    ∃ n, t.busLog.length = s.busLog.length + n ∧ 1 ≤ n ∧ loopSteps (4 * n - s.k) s = .next t

/-- Every `Tick()` of the CPU makes exactly one bus access. That it is never zero and never two is the spec's decision
D1. -/
def Obligations.EveryTickMakesOneBusAccess : Prop :=
  ∀ s t : State, cpuTick s = .next t → ∃ access, t.busLog = access :: s.busLog

/-- The state after reset meets the invariant; `I` is set, no instruction is in progress, nothing is pending or armed, and
`PC` is the word at the reset vector. (`A`, `X`, `Y`, `S` and the flags but `I` are the model's choice, log 6, and
nothing is said of them.) -/
def Obligations.InvAtReset : Prop :=
  Inv State.reset ∧ State.reset.faulted = false ∧ State.reset.cpu.i = true ∧ State.reset.micro.curOp = none ∧
  State.reset.lines = ⟨false, false, false, false, false, false, false⟩ ∧
  State.reset.cpu.pc = State.reset.peek 0xFFFD ++ State.reset.peek 0xFFFC

/-- Every step keeps the invariant, from every state that has it. -/
def Obligations.StepKeepsInv : Prop := ∀ s t : State, Inv s → step s = .next t → Inv t

/-- Every step of a machine that has not already faulted completes: nothing else faults, and nothing is refused. The step
that itself fetches a sentinel byte completes too, in a next state with `faulted` set: that this is a next state, and
the fault the step after it, is log 4; what a sentinel's fetch leaves is the spec's decision D15. -/
def Obligations.LiveStepsComplete : Prop := ∀ s : State, Live s → ∃ t, step s = .next t

/-! ## Loads, stores, transfers -/

/-- LDA, LDX and LDY, in every encoding: the operand byte goes to the register, `N` and `Z` describe it, and nothing else
changes. -/
def Obligations.LoadsCopyTheOperand : Prop :=
  (∀ e ∈ [((0xA9 : Byte), Mode.imm), (0xA5, .zp), (0xB5, .zpx), (0xAD, .abs), (0xBD, .abx), (0xB9, .aby), (0xA1, .izx),
      (0xB1, .izy)], optable e.1 = .lda e.2 ∧ ∀ s, ∃ t, exec (.lda e.2) s = .next t ∧
    ReadDone e.2 (fun M r => { r with a := M, z := decide (M = 0), n := M.getLsbD 7 }) s t) ∧
  (∀ e ∈ [((0xA2 : Byte), Mode.imm), (0xA6, .zp), (0xB6, .zpy), (0xAE, .abs), (0xBE, .aby)],
    optable e.1 = .ldx e.2 ∧ ∀ s, ∃ t, exec (.ldx e.2) s = .next t ∧
    ReadDone e.2 (fun M r => { r with x := M, z := decide (M = 0), n := M.getLsbD 7 }) s t) ∧
  (∀ e ∈ [((0xA0 : Byte), Mode.imm), (0xA4, .zp), (0xB4, .zpx), (0xAC, .abs), (0xBC, .abx)],
    optable e.1 = .ldy e.2 ∧ ∀ s, ∃ t, exec (.ldy e.2) s = .next t ∧
    ReadDone e.2 (fun M r => { r with y := M, z := decide (M = 0), n := M.getLsbD 7 }) s t)

/-- STA, STX and STY, in every encoding: the register is stored at the effective address, and no register or flag
changes. -/
def Obligations.StoresWriteTheRegister : Prop :=
  (∀ e ∈ [((0x85 : Byte), Mode.zp), (0x95, .zpx), (0x8D, .abs), (0x9D, .abx), (0x99, .aby), (0x81, .izx), (0x91, .izy)],
    optable e.1 = .sta e.2 ∧ ∀ s, ∃ t, exec (.sta e.2) s = .next t ∧
    WriteDone e.2 (storeAddr (.sta e.2) e.2 s) s.cpu.a s t) ∧
  (∀ e ∈ [((0x86 : Byte), Mode.zp), (0x96, .zpy), (0x8E, .abs)],
    optable e.1 = .stx e.2 ∧ ∀ s, ∃ t, exec (.stx e.2) s = .next t ∧
    WriteDone e.2 (storeAddr (.stx e.2) e.2 s) s.cpu.x s t) ∧
  (∀ e ∈ [((0x84 : Byte), Mode.zp), (0x94, .zpx), (0x8C, .abs)],
    optable e.1 = .sty e.2 ∧ ∀ s, ∃ t, exec (.sty e.2) s = .next t ∧
    WriteDone e.2 (storeAddr (.sty e.2) e.2 s) s.cpu.y s t)

/-- The six register transfers; TXS alone leaves `N` and `Z`. -/
def Obligations.TransfersCopyARegister : Prop :=
  (optable 0xAA = .tax ∧ ∀ s, ∃ t, exec .tax s = .next t ∧
    ImpliedDone (fun r => { r with x := r.a, z := decide (r.a = 0), n := r.a.getLsbD 7 }) s t) ∧
  (optable 0xA8 = .tay ∧ ∀ s, ∃ t, exec .tay s = .next t ∧
    ImpliedDone (fun r => { r with y := r.a, z := decide (r.a = 0), n := r.a.getLsbD 7 }) s t) ∧
  (optable 0x8A = .txa ∧ ∀ s, ∃ t, exec .txa s = .next t ∧
    ImpliedDone (fun r => { r with a := r.x, z := decide (r.x = 0), n := r.x.getLsbD 7 }) s t) ∧
  (optable 0x98 = .tya ∧ ∀ s, ∃ t, exec .tya s = .next t ∧
    ImpliedDone (fun r => { r with a := r.y, z := decide (r.y = 0), n := r.y.getLsbD 7 }) s t) ∧
  (optable 0xBA = .tsx ∧ ∀ s, ∃ t, exec .tsx s = .next t ∧
    ImpliedDone (fun r => { r with x := r.s, z := decide (r.s = 0), n := r.s.getLsbD 7 }) s t) ∧
  (optable 0x9A = .txs ∧ ∀ s, ∃ t, exec .txs s = .next t ∧ ImpliedDone (fun r => { r with s := r.x }) s t)

/-! ## Arithmetic, logic, compare -/

/-- ADC and SBC, in every encoding with the duplicate EB: binary addition with carry, and the same addition of the
complemented operand. That EB executes as SBC is the spec's decision D12, whose default the model takes, log 18. -/
def Obligations.AdcAndSbcAddWithCarry : Prop :=
  (∀ e ∈ [((0x69 : Byte), Mode.imm), (0x65, .zp), (0x75, .zpx), (0x6D, .abs), (0x7D, .abx), (0x79, .aby), (0x61, .izx),
      (0x71, .izy)], optable e.1 = .adc e.2 ∧ ∀ s, ∃ t, exec (.adc e.2) s = .next t ∧
    ReadDone e.2 (fun M r => addWithCarry r M) s t) ∧
  (∀ e ∈ [((0xE9 : Byte), Mode.imm, 0), (0xE5, .zp, 0), (0xF5, .zpx, 0), (0xED, .abs, 0), (0xFD, .abx, 0),
      (0xF9, .aby, 0), (0xE1, .izx, 0), (0xF1, .izy, 0), (0xEB, .imm, 1)],
    optable e.1 = .sbc e.2.1 e.2.2 ∧ ∀ s, ∃ t, exec (.sbc e.2.1 e.2.2) s = .next t ∧
    ReadDone e.2.1 (fun M r => addWithCarry r (M ^^^ 0xFF)) s t)

/-- AND, ORA and EOR, in every encoding. -/
def Obligations.LogicCombinesBitwise : Prop :=
  (∀ e ∈ [((0x29 : Byte), Mode.imm), (0x25, .zp), (0x35, .zpx), (0x2D, .abs), (0x3D, .abx), (0x39, .aby), (0x21, .izx),
      (0x31, .izy)], optable e.1 = .and e.2 ∧ ∀ s, ∃ t, exec (.and e.2) s = .next t ∧
    ReadDone e.2 (fun M r =>
      { r with a := r.a &&& M, z := decide (r.a &&& M = 0), n := (r.a &&& M).getLsbD 7 }) s t) ∧
  (∀ e ∈ [((0x09 : Byte), Mode.imm), (0x05, .zp), (0x15, .zpx), (0x0D, .abs), (0x1D, .abx), (0x19, .aby), (0x01, .izx),
      (0x11, .izy)], optable e.1 = .ora e.2 ∧ ∀ s, ∃ t, exec (.ora e.2) s = .next t ∧
    ReadDone e.2 (fun M r =>
      { r with a := r.a ||| M, z := decide (r.a ||| M = 0), n := (r.a ||| M).getLsbD 7 }) s t) ∧
  (∀ e ∈ [((0x49 : Byte), Mode.imm), (0x45, .zp), (0x55, .zpx), (0x4D, .abs), (0x5D, .abx), (0x59, .aby), (0x41, .izx),
      (0x51, .izy)], optable e.1 = .eor e.2 ∧ ∀ s, ∃ t, exec (.eor e.2) s = .next t ∧
    ReadDone e.2 (fun M r =>
      { r with a := r.a ^^^ M, z := decide (r.a ^^^ M = 0), n := (r.a ^^^ M).getLsbD 7 }) s t)

/-- CMP, CPX and CPY, in every encoding: the flags of the 8-bit difference; no register changes. -/
def Obligations.ComparesSetTheFlags : Prop :=
  (∀ e ∈ [((0xC9 : Byte), Mode.imm), (0xC5, .zp), (0xD5, .zpx), (0xCD, .abs), (0xDD, .abx), (0xD9, .aby), (0xC1, .izx),
      (0xD1, .izy)], optable e.1 = .cmp e.2 ∧ ∀ s, ∃ t, exec (.cmp e.2) s = .next t ∧
    ReadDone e.2 (fun M r => compareWith r r.a M) s t) ∧
  (∀ e ∈ [((0xE0 : Byte), Mode.imm), (0xE4, .zp), (0xEC, .abs)], optable e.1 = .cpx e.2 ∧
    ∀ s, ∃ t, exec (.cpx e.2) s = .next t ∧ ReadDone e.2 (fun M r => compareWith r r.x M) s t) ∧
  (∀ e ∈ [((0xC0 : Byte), Mode.imm), (0xC4, .zp), (0xCC, .abs)], optable e.1 = .cpy e.2 ∧
    ∀ s, ∃ t, exec (.cpy e.2) s = .next t ∧ ReadDone e.2 (fun M r => compareWith r r.y M) s t)

/-- BIT, in both encodings: `N` and `V` come from the operand byte, `Z` from the AND; no register changes. -/
def Obligations.BitTestsTheOperand : Prop :=
  ∀ e ∈ [((0x24 : Byte), Mode.zp), (0x2C, .abs)], optable e.1 = .bit e.2 ∧ ∀ s, ∃ t, exec (.bit e.2) s = .next t ∧
    ReadDone e.2 (fun M r => { r with z := decide (r.a &&& M = 0), n := M.getLsbD 7, v := M.getLsbD 6 }) s t

/-! ## Shifts, increments, decrements -/

/-- ASL, LSR, ROL and ROR, in the memory encodings (the old byte is written back, then the new one) and on the
accumulator. -/
def Obligations.ShiftsMoveOneBit : Prop :=
  let asl : Byte → Cpu → Byte × Cpu := fun M r =>
    (M <<< 1, { r with c := M.getLsbD 7, z := decide (M <<< 1 = 0), n := (M <<< 1).getLsbD 7 })
  let lsr : Byte → Cpu → Byte × Cpu := fun M r =>
    (M >>> 1, { r with c := M.getLsbD 0, z := decide (M >>> 1 = 0), n := (M >>> 1).getLsbD 7 })
  let rol : Byte → Cpu → Byte × Cpu := fun M r =>
    let M' := (M <<< 1) ||| (if r.c then 1 else 0)
    (M', { r with c := M.getLsbD 7, z := decide (M' = 0), n := M'.getLsbD 7 })
  let ror : Byte → Cpu → Byte × Cpu := fun M r =>
    let M' := (M >>> 1) ||| (if r.c then 0x80 else 0)
    (M', { r with c := M.getLsbD 0, z := decide (M' = 0), n := M'.getLsbD 7 })
  let onA : (Byte → Cpu → Byte × Cpu) → Cpu → Cpu := fun f r => { (f r.a r).2 with a := (f r.a r).1 }
  (∀ e ∈ [((0x06 : Byte), Mode.zp), (0x16, .zpx), (0x0E, .abs), (0x1E, .abx)], optable e.1 = .asl e.2 ∧
    ∀ s, ∃ t, exec (.asl e.2) s = .next t ∧ RmwDone e.2 (storeAddr (.asl e.2) e.2 s) asl s t) ∧
  (optable 0x0A = .asl .acc ∧ ∀ s, ∃ t, exec (.asl .acc) s = .next t ∧ ImpliedDone (onA asl) s t) ∧
  (∀ e ∈ [((0x46 : Byte), Mode.zp), (0x56, .zpx), (0x4E, .abs), (0x5E, .abx)], optable e.1 = .lsr e.2 ∧
    ∀ s, ∃ t, exec (.lsr e.2) s = .next t ∧ RmwDone e.2 (storeAddr (.lsr e.2) e.2 s) lsr s t) ∧
  (optable 0x4A = .lsr .acc ∧ ∀ s, ∃ t, exec (.lsr .acc) s = .next t ∧ ImpliedDone (onA lsr) s t) ∧
  (∀ e ∈ [((0x26 : Byte), Mode.zp), (0x36, .zpx), (0x2E, .abs), (0x3E, .abx)], optable e.1 = .rol e.2 ∧
    ∀ s, ∃ t, exec (.rol e.2) s = .next t ∧ RmwDone e.2 (storeAddr (.rol e.2) e.2 s) rol s t) ∧
  (optable 0x2A = .rol .acc ∧ ∀ s, ∃ t, exec (.rol .acc) s = .next t ∧ ImpliedDone (onA rol) s t) ∧
  (∀ e ∈ [((0x66 : Byte), Mode.zp), (0x76, .zpx), (0x6E, .abs), (0x7E, .abx)], optable e.1 = .ror e.2 ∧
    ∀ s, ∃ t, exec (.ror e.2) s = .next t ∧ RmwDone e.2 (storeAddr (.ror e.2) e.2 s) ror s t) ∧
  (optable 0x6A = .ror .acc ∧ ∀ s, ∃ t, exec (.ror .acc) s = .next t ∧ ImpliedDone (onA ror) s t)

/-- INC and DEC, in every encoding: the old byte is written back, then the new one; `C` and `V` are unchanged. -/
def Obligations.IncAndDecChangeMemory : Prop :=
  (∀ e ∈ [((0xE6 : Byte), Mode.zp), (0xF6, .zpx), (0xEE, .abs), (0xFE, .abx)], optable e.1 = .inc e.2 ∧
    ∀ s, ∃ t, exec (.inc e.2) s = .next t ∧ RmwDone e.2 (storeAddr (.inc e.2) e.2 s)
      (fun M r => (M + 1, { r with z := decide (M + 1 = 0), n := (M + 1).getLsbD 7 })) s t) ∧
  (∀ e ∈ [((0xC6 : Byte), Mode.zp), (0xD6, .zpx), (0xCE, .abs), (0xDE, .abx)], optable e.1 = .dec e.2 ∧
    ∀ s, ∃ t, exec (.dec e.2) s = .next t ∧ RmwDone e.2 (storeAddr (.dec e.2) e.2 s)
      (fun M r => (M - 1, { r with z := decide (M - 1 = 0), n := (M - 1).getLsbD 7 })) s t)

/-- INX, INY, DEX and DEY. -/
def Obligations.IndexRegistersCount : Prop :=
  (optable 0xE8 = .inx ∧ ∀ s, ∃ t, exec .inx s = .next t ∧
    ImpliedDone (fun r => { r with x := r.x + 1, z := decide (r.x + 1 = 0), n := (r.x + 1).getLsbD 7 }) s t) ∧
  (optable 0xC8 = .iny ∧ ∀ s, ∃ t, exec .iny s = .next t ∧
    ImpliedDone (fun r => { r with y := r.y + 1, z := decide (r.y + 1 = 0), n := (r.y + 1).getLsbD 7 }) s t) ∧
  (optable 0xCA = .dex ∧ ∀ s, ∃ t, exec .dex s = .next t ∧
    ImpliedDone (fun r => { r with x := r.x - 1, z := decide (r.x - 1 = 0), n := (r.x - 1).getLsbD 7 }) s t) ∧
  (optable 0x88 = .dey ∧ ∀ s, ∃ t, exec .dey s = .next t ∧
    ImpliedDone (fun r => { r with y := r.y - 1, z := decide (r.y - 1 = 0), n := (r.y - 1).getLsbD 7 }) s t)

/-! ## Flags and no-operations -/

/-- The seven flag instructions: the named flag alone changes, and the poll uses the flag `I` of before. For CLI and
SEI the poll's use of the old `I` is the spec's decision D16. -/
def Obligations.FlagInstructionsSetOneFlag : Prop :=
  (optable 0x18 = .clc ∧ ∀ s, ∃ t, exec .clc s = .next t ∧ ImpliedDone (fun r => { r with c := false }) s t) ∧
  (optable 0x38 = .sec ∧ ∀ s, ∃ t, exec .sec s = .next t ∧ ImpliedDone (fun r => { r with c := true }) s t) ∧
  (optable 0x58 = .cli ∧ ∀ s, ∃ t, exec .cli s = .next t ∧ ImpliedDone (fun r => { r with i := false }) s t) ∧
  (optable 0x78 = .sei ∧ ∀ s, ∃ t, exec .sei s = .next t ∧ ImpliedDone (fun r => { r with i := true }) s t) ∧
  (optable 0xB8 = .clv ∧ ∀ s, ∃ t, exec .clv s = .next t ∧ ImpliedDone (fun r => { r with v := false }) s t) ∧
  (optable 0xD8 = .cld ∧ ∀ s, ∃ t, exec .cld s = .next t ∧ ImpliedDone (fun r => { r with d := false }) s t) ∧
  (optable 0xF8 = .sed ∧ ∀ s, ∃ t, exec .sed s = .next t ∧ ImpliedDone (fun r => { r with d := true }) s t)

/-- NOP, the documented one and the 27 undocumented ones: the bus accesses of the addressing mode, and no register or
flag but `PC` changes. That the undocumented ones execute is the spec's decision D12. -/
def Obligations.NopsChangeNothing : Prop :=
  (∀ e ∈ [((0xEA : Byte), 0), (0x1A, 1), (0x3A, 2), (0x5A, 3), (0x7A, 4), (0xDA, 5), (0xFA, 6)],
    optable e.1 = .nop .imp e.2 ∧ ∀ s, ∃ t, exec (.nop .imp e.2) s = .next t ∧ ImpliedDone (fun r => r) s t) ∧
  (∀ e ∈ [((0x80 : Byte), Mode.imm, 0), (0x82, .imm, 1), (0x89, .imm, 2), (0xC2, .imm, 3), (0xE2, .imm, 4),
      (0x04, .zp, 0), (0x44, .zp, 1), (0x64, .zp, 2), (0x14, .zpx, 0), (0x34, .zpx, 1), (0x54, .zpx, 2),
      (0x74, .zpx, 3), (0xD4, .zpx, 4), (0xF4, .zpx, 5), (0x0C, .abs, 0), (0x1C, .abx, 0), (0x3C, .abx, 1),
      (0x5C, .abx, 2), (0x7C, .abx, 3), (0xDC, .abx, 4), (0xFC, .abx, 5)],
    optable e.1 = .nop e.2.1 e.2.2 ∧ ∀ s, ∃ t, exec (.nop e.2.1 e.2.2) s = .next t ∧
    ReadDone e.2.1 (fun _ r => r) s t)

/-! ## Branches, jumps, subroutines -/

/-- The eight branches: each is taken on its flag, and a taken one goes to the byte after it plus the signed offset.
That a branch polls in its final cycle whichever that is, is the spec's decision D17. -/
def Obligations.BranchesFollowTheirFlag : Prop :=
  (optable 0x10 = .bpl ∧ ∀ s, ∃ t, exec .bpl s = .next t ∧ BranchDone (s.cpu.n == false) s t) ∧
  (optable 0x30 = .bmi ∧ ∀ s, ∃ t, exec .bmi s = .next t ∧ BranchDone (s.cpu.n == true) s t) ∧
  (optable 0x50 = .bvc ∧ ∀ s, ∃ t, exec .bvc s = .next t ∧ BranchDone (s.cpu.v == false) s t) ∧
  (optable 0x70 = .bvs ∧ ∀ s, ∃ t, exec .bvs s = .next t ∧ BranchDone (s.cpu.v == true) s t) ∧
  (optable 0x90 = .bcc ∧ ∀ s, ∃ t, exec .bcc s = .next t ∧ BranchDone (s.cpu.c == false) s t) ∧
  (optable 0xB0 = .bcs ∧ ∀ s, ∃ t, exec .bcs s = .next t ∧ BranchDone (s.cpu.c == true) s t) ∧
  (optable 0xD0 = .bne ∧ ∀ s, ∃ t, exec .bne s = .next t ∧ BranchDone (s.cpu.z == false) s t) ∧
  (optable 0xF0 = .beq ∧ ∀ s, ∃ t, exec .beq s = .next t ∧ BranchDone (s.cpu.z == true) s t)

/-- JMP absolute and JMP indirect; the pointer's high byte comes from the page of its low byte. For the cycles of JMP
indirect the spec names its decision D1. -/
def Obligations.JumpsLoadThePc : Prop :=
  (optable 0x4C = .jmp .abs ∧ ∀ s, ∃ t low high,
    let l := [.read s.cpu.pc low, .read (s.cpu.pc + 1) high]
    exec (.jmp .abs) s = .next t ∧ Trace s t l ∧ t.cpu = { s.cpu with pc := high ++ low } ∧ ReadsMemory s l ∧
    ReadEffects s t l ∧ StoresNothing s t ∧ Retired s.cpu.i s t) ∧
  (optable 0x6C = .jmp .ind ∧ ∀ s, ∃ t low high pcl pch,
    let l := [.read s.cpu.pc low, .read (s.cpu.pc + 1) high, .read (high ++ low) pcl, .read (high ++ (low + 1)) pch]
    exec (.jmp .ind) s = .next t ∧ Trace s t l ∧ t.cpu = { s.cpu with pc := pch ++ pcl } ∧ ReadsMemory s l ∧
    ReadEffects s t l ∧ StoresNothing s t ∧ Retired s.cpu.i s t)

/-- JSR: the address of its third byte is pushed, high byte first; the third byte is read after the two pushes, so it is
what memory holds then. -/
def Obligations.JsrPushesAndJumps : Prop :=
  optable 0x20 = .jsr ∧ ∀ s, ∃ t low d high,
    let p := s.cpu.pc + 1
    let l := [.read s.cpu.pc low, .read (stackSlot s.cpu.s) d, .write (stackSlot s.cpu.s) (page p),
      .write (stackSlot (s.cpu.s - 1)) (p.setWidth 8), .read p high]
    exec .jsr s = .next t ∧ Trace s t l ∧ t.cpu = { s.cpu with pc := high ++ low, s := s.cpu.s - 2 } ∧
    ReadsMemory s [.read s.cpu.pc low, .read (stackSlot s.cpu.s) d] ∧ (s.PlainAt p → high = t.peek p) ∧
    t.ram.read (stackSlot s.cpu.s).toNat = page p ∧ t.ram.read (stackSlot (s.cpu.s - 1)).toNat = p.setWidth 8 ∧
    StoresCells [(stackSlot s.cpu.s).toNat, (stackSlot (s.cpu.s - 1)).toNat] s t ∧ ReadEffects s t l ∧
    Retired s.cpu.i s t

/-- RTS: the pulled address plus 1. -/
def Obligations.RtsPullsAndAddsOne : Prop :=
  optable 0x60 = .rts ∧ ∀ s, ∃ t d d' low high d'',
    let l := [.read s.cpu.pc d, .read (stackSlot s.cpu.s) d', .read (stackSlot (s.cpu.s + 1)) low,
      .read (stackSlot (s.cpu.s + 2)) high, .read (high ++ low) d'']
    exec .rts s = .next t ∧ Trace s t l ∧ t.cpu = { s.cpu with pc := (high ++ low) + 1, s := s.cpu.s + 2 } ∧
    ReadsMemory s l ∧ ReadEffects s t l ∧ StoresNothing s t ∧ Retired s.cpu.i s t

/-- RTS after JSR comes back to the byte after the JSR, with every register as before, on every board the model knows. -/
def Obligations.RtsReturnsWhereJsrCameFrom : Prop :=
  ∀ s : State, s.KnownBoard → ∃ t u, exec .jsr s = .next t ∧ exec .rts t = .next u ∧
    u.cpu = { s.cpu with pc := s.cpu.pc + 2 }

/-! ## Stack and exceptions -/

/-- PHA and PHP: one byte is pushed; PHP's has bits 5 and 4 set. -/
def Obligations.PushesStoreOneByte : Prop :=
  let pushed : Byte → State → State → Prop := fun v s t => ∃ d,
    Trace s t [.read s.cpu.pc d, .write (stackSlot s.cpu.s) v] ∧ t.cpu = { s.cpu with s := s.cpu.s - 1 } ∧
    t.ram.read (stackSlot s.cpu.s).toNat = v ∧ StoresCells [(stackSlot s.cpu.s).toNat] s t ∧
    ReadsMemory s [.read s.cpu.pc d] ∧ ReadEffects s t [.read s.cpu.pc d] ∧ Retired s.cpu.i s t
  (optable 0x48 = .pha ∧ ∀ s, ∃ t, exec .pha s = .next t ∧ pushed s.cpu.a s t) ∧
  (optable 0x08 = .php ∧ ∀ s, ∃ t, exec .php s = .next t ∧ pushed (statusByte s.cpu true) s t)

/-- PLA and PLP: one byte is pulled, into `A` with `N` and `Z`, or into the six flags; the poll uses the flag `I` of
before. For PLP that is the spec's decision D16. -/
def Obligations.PullsLoadOneByte : Prop :=
  let pulled : (Byte → Cpu → Cpu) → State → State → Prop := fun result s t => ∃ d d' v,
    let l := [.read s.cpu.pc d, .read (stackSlot s.cpu.s) d', .read (stackSlot (s.cpu.s + 1)) v]
    Trace s t l ∧ t.cpu = result v { s.cpu with s := s.cpu.s + 1 } ∧ ReadsMemory s l ∧ ReadEffects s t l ∧
    StoresNothing s t ∧ Retired s.cpu.i s t
  (optable 0x68 = .pla ∧ ∀ s, ∃ t, exec .pla s = .next t ∧
    pulled (fun v r => { r with a := v, z := decide (v = 0), n := v.getLsbD 7 }) s t) ∧
  (optable 0x28 = .plp ∧ ∀ s, ∃ t, exec .plp s = .next t ∧ pulled (fun v r => withStatus r v) s t)

/-- The BRK instruction takes its exception: the address after the padding byte and the status with the break bit set
are pushed, `PC` is loaded from 0xFFFE, and no pending flag is cleared. That BRK clears no pending flag is the spec's
decision D18. -/
def Obligations.BrkTakesItsException : Prop :=
  optable 0x00 = .brk ∧ ∀ s : State, s.lines.servicing = false → ∃ t, exec .brk s = .next t ∧
    ExceptionTaken (s.cpu.pc + 1) (statusByte s.cpu true) 0xFFFE s t ∧
    t.lines.pendReset = s.lines.pendReset ∧ t.lines.pendIrq = s.lines.pendIrq ∧
    (s.lines.pendNmi = true → t.lines.pendNmi = true)

/-- The NMI and IRQ sequences: the discarded opcode's address and the status with the break bit clear are pushed, `PC`
is loaded from the vector, NMI before IRQ, and the pending flag of the one serviced is cleared (that of NMI stays
clear unless the PPU requests another, which it cannot while `nmiEnable` is clear). Priority and the clearing of the
pending flags are the spec's decision D18. -/
def Obligations.NmiAndIrqAreTaken : Prop :=
  ∀ s : State, s.lines.servicing = true → s.lines.armReset = false →
    (s.lines.armNmi = true → ∃ t, exec .brk s = .next t ∧
      ExceptionTaken s.cpu.pc (statusByte s.cpu false) 0xFFFA s t ∧ t.lines.pendReset = s.lines.pendReset ∧
      t.lines.pendIrq = s.lines.pendIrq ∧ (s.ppu.nmiEnable = false → t.lines.pendNmi = false)) ∧
    (s.lines.armNmi = false → ∃ t, exec .brk s = .next t ∧
      ExceptionTaken s.cpu.pc (statusByte s.cpu false) 0xFFFE s t ∧ t.lines.pendReset = s.lines.pendReset ∧
      t.lines.pendIrq = false ∧ (s.lines.pendNmi = true → t.lines.pendNmi = true))

/-- The reset sequence: after `Reset()` a step makes seven reads and no write, `S` drops by 3, `I` is set and `PC` is
loaded from 0xFFFC; every other register and flag, and every memory, is as before. The sequence of reads is the spec's
decision D21. -/
def Obligations.ResetSequenceRuns : Prop :=
  ∀ s : State, s.faulted = false → ∃ t op d0 d1 d2 d3 low high,
    let a := s.cpu.pc
    let pc := if op = 0x00 then a + 1 else a
    let l := [.read a op, .read pc d0, .read (stackSlot s.cpu.s) d1, .read (stackSlot (s.cpu.s - 1)) d2,
      .read (stackSlot (s.cpu.s - 2)) d3, .read 0xFFFC low, .read 0xFFFD high]
    step s.callReset = .next t ∧ Trace s t l ∧ t.cpu = { s.cpu with pc := high ++ low, s := s.cpu.s - 3, i := true } ∧
    (s.KnownBoard → low = s.peek 0xFFFC ∧ high = s.peek 0xFFFD) ∧ StoresNothing s t ∧ ReadEffects s t l ∧
    SequenceEnded s t ∧ t.lines.pendReset = false ∧ t.lines.pendIrq = s.lines.pendIrq ∧
    (s.lines.pendNmi = true → t.lines.pendNmi = true)

/-- RTI: the six flags, then the return address, are pulled; the poll uses the restored flag `I`. -/
def Obligations.RtiRestoresFlagsAndPc : Prop :=
  optable 0x40 = .rti ∧ ∀ s, ∃ t d d' p low high,
    let l := [.read s.cpu.pc d, .read (stackSlot s.cpu.s) d', .read (stackSlot (s.cpu.s + 1)) p,
      .read (stackSlot (s.cpu.s + 2)) low, .read (stackSlot (s.cpu.s + 3)) high]
    exec .rti s = .next t ∧ Trace s t l ∧ t.cpu = { withStatus s.cpu p with pc := high ++ low, s := s.cpu.s + 3 } ∧
    ReadsMemory s l ∧ ReadEffects s t l ∧ StoresNothing s t ∧ Retired (p.getLsbD 2) s t

/-- RTI after an exception gives back every register and flag of the moment before it, with `PC` at the address pushed, on
every board the model knows. -/
def Obligations.RtiUndoesTheException : Prop :=
  ∀ s : State, s.KnownBoard → s.lines.servicing = false ∨ s.lines.armReset = false →
    ∃ t u, exec .brk s = .next t ∧ exec .rti t = .next u ∧
      u.cpu = { s.cpu with pc := if s.lines.servicing then s.cpu.pc else s.cpu.pc + 1 }

/-! ## Undocumented instructions -/

/-- SLO, RLA, SRE, RRA, DCP and ISC, in every encoding: the shifted or counted byte is written back, and the second
operation runs on `A` and that byte. -/
def Obligations.CompositesModifyThenOperate : Prop :=
  let modes : List (Byte × Mode) :=
    [(0x03, .izx), (0x07, .zp), (0x0F, .abs), (0x13, .izy), (0x17, .zpx), (0x1B, .aby), (0x1F, .abx)]
  let setA : Cpu → Byte → Cpu := fun r v => { r with a := v, z := decide (v = 0), n := v.getLsbD 7 }
  (∀ e ∈ modes, optable (0x00 + e.1) = .slo e.2 ∧ ∀ s, ∃ t, exec (.slo e.2) s = .next t ∧
    RmwDone e.2 (storeAddr (.slo e.2) e.2 s)
      (fun M r => (M <<< 1, setA { r with c := M.getLsbD 7 } (r.a ||| M <<< 1))) s t) ∧
  (∀ e ∈ modes, optable (0x20 + e.1) = .rla e.2 ∧ ∀ s, ∃ t, exec (.rla e.2) s = .next t ∧
    RmwDone e.2 (storeAddr (.rla e.2) e.2 s)
      (fun M r =>
        let M' := (M <<< 1) ||| (if r.c then 1 else 0)
        (M', setA { r with c := M.getLsbD 7 } (r.a &&& M'))) s t) ∧
  (∀ e ∈ modes, optable (0x40 + e.1) = .sre e.2 ∧ ∀ s, ∃ t, exec (.sre e.2) s = .next t ∧
    RmwDone e.2 (storeAddr (.sre e.2) e.2 s)
      (fun M r => (M >>> 1, setA { r with c := M.getLsbD 0 } (r.a ^^^ M >>> 1))) s t) ∧
  (∀ e ∈ modes, optable (0x60 + e.1) = .rra e.2 ∧ ∀ s, ∃ t, exec (.rra e.2) s = .next t ∧
    RmwDone e.2 (storeAddr (.rra e.2) e.2 s)
      (fun M r =>
        let M' := (M >>> 1) ||| (if r.c then 0x80 else 0)
        (M', addWithCarry { r with c := M.getLsbD 0 } M')) s t) ∧
  (∀ e ∈ modes, optable (0xC0 + e.1) = .dcp e.2 ∧ ∀ s, ∃ t, exec (.dcp e.2) s = .next t ∧
    RmwDone e.2 (storeAddr (.dcp e.2) e.2 s) (fun M r => (M - 1, compareWith r r.a (M - 1))) s t) ∧
  (∀ e ∈ modes, optable (0xE0 + e.1) = .isc e.2 ∧ ∀ s, ∃ t, exec (.isc e.2) s = .next t ∧
    RmwDone e.2 (storeAddr (.isc e.2) e.2 s) (fun M r => (M + 1, addWithCarry r ((M + 1) ^^^ 0xFF))) s t)

/-- SAX and LAX, in every encoding. -/
def Obligations.SaxStoresAndLaxLoadsBoth : Prop :=
  (∀ e ∈ [((0x87 : Byte), Mode.zp), (0x97, .zpy), (0x8F, .abs), (0x83, .izx)], optable e.1 = .sax e.2 ∧
    ∀ s, ∃ t, exec (.sax e.2) s = .next t ∧
    WriteDone e.2 (storeAddr (.sax e.2) e.2 s) (s.cpu.a &&& s.cpu.x) s t) ∧
  (∀ e ∈ [((0xA7 : Byte), Mode.zp), (0xB7, .zpy), (0xAF, .abs), (0xBF, .aby), (0xA3, .izx), (0xB3, .izy)],
    optable e.1 = .lax e.2 ∧ ∀ s, ∃ t, exec (.lax e.2) s = .next t ∧
    ReadDone e.2 (fun M r => { r with a := M, x := M, z := decide (M = 0), n := M.getLsbD 7 }) s t)

/-- ANC (both bytes), ALR, ARR, LXA and SBX. The formulas are the spec's decision D22. -/
def Obligations.ImmediateComposites : Prop :=
  (∀ e ∈ [((0x0B : Byte), 0), (0x2B, 1)], optable e.1 = .anc e.2 ∧ ∀ s, ∃ t, exec (.anc e.2) s = .next t ∧
    ReadDone .imm (fun M r => { r with a := r.a &&& M, z := decide (r.a &&& M = 0), n := (r.a &&& M).getLsbD 7,
                                       c := (r.a &&& M).getLsbD 7 }) s t) ∧
  (optable 0x4B = .alr ∧ ∀ s, ∃ t, exec .alr s = .next t ∧
    ReadDone .imm (fun M r =>
      let x := r.a &&& M
      { r with a := x >>> 1, c := x.getLsbD 0, z := decide (x >>> 1 = 0), n := (x >>> 1).getLsbD 7 }) s t) ∧
  (optable 0x6B = .arr ∧ ∀ s, ∃ t, exec .arr s = .next t ∧
    ReadDone .imm (fun M r =>
      let x := ((r.a &&& M) >>> 1) ||| (if r.c then 0x80 else 0)
      { r with a := x, z := decide (x = 0), n := x.getLsbD 7, c := x.getLsbD 6,
               v := x.getLsbD 6 ^^ x.getLsbD 5 }) s t) ∧
  (optable 0xAB = .lxa ∧ ∀ s, ∃ t, exec .lxa s = .next t ∧
    ReadDone .imm (fun M r =>
      let x := (r.a ||| 0xFF) &&& M
      { r with a := x, x := x, z := decide (x = 0), n := x.getLsbD 7 }) s t) ∧
  (optable 0xCB = .sbx ∧ ∀ s, ∃ t, exec .sbx s = .next t ∧
    ReadDone .imm (fun M r =>
      let x := r.a &&& r.x
      { r with x := x - M, c := decide (M.toNat ≤ x.toNat), z := decide (x - M = 0), n := (x - M).getLsbD 7 }) s t)

/-- SHY and SHX: the register AND the operand's high byte plus 1 is stored; on a page crossing that byte also replaces
the high byte of the address. The formula is the spec's decision D19. -/
def Obligations.ShyAndShxStoreHighAnd : Prop :=
  let done : Mode → Byte → State → State → Prop := fun m reg s t => ∃ base low high index d,
    let v := reg &&& (high + 1)
    let ea := if 256 ≤ low.toNat + index.toNat then v ++ (low + index) else indexedAddr low high index
    let l := base ++ [.read (uncarriedAddr low high index) d]
    BaseTrace m s.cpu base low high index ∧ Trace s t (l ++ [.write ea v]) ∧
    t.cpu = { s.cpu with pc := s.cpu.pc + 2 } ∧ ReadsMemory s l ∧ StoresAt ea v s t l ∧ Retired s.cpu.i s t
  (optable 0x9C = .shy ∧ ∀ s, ∃ t, exec .shy s = .next t ∧ done .abx s.cpu.y s t) ∧
  (optable 0x9E = .shx ∧ ∀ s, ∃ t, exec .shx s = .next t ∧ done .aby s.cpu.x s t)

/-- The 17 sentinel bytes: the machine is faulted with the opcode as its argument, makes no further bus access, and
has no next step; no register and no memory changes. The bytes and the hard stop are the spec's decisions D11, D14 and
D15; that the stop is a next state with `faulted` set is log 4. -/
def Obligations.SentinelsStopTheMachine : Prop :=
  ∀ e ∈ [((0x02 : Byte), Instr.jam 0), (0x12, .jam 1), (0x22, .jam 2), (0x32, .jam 3), (0x42, .jam 4), (0x52, .jam 5),
      (0x62, .jam 6), (0x72, .jam 7), (0x92, .jam 8), (0xB2, .jam 9), (0xD2, .jam 10), (0xF2, .jam 11), (0x8B, .ane),
      (0x93, .sha 0), (0x9F, .sha 1), (0x9B, .tas), (0xBB, .las)],
    optable e.1 = e.2 ∧ ∀ s : State, ∃ t, exec e.2 s = .next t ∧ t.faulted = true ∧ t.faultOpcode = e.1 ∧
      t.cpu = s.cpu ∧ t.micro = s.micro ∧ Trace s t [] ∧ StoresNothing s t ∧
      t.lines = { s.lines with pendNmi := t.lines.pendNmi } ∧ (s.lines.pendNmi = true → t.lines.pendNmi = true) ∧
      step t = .fault (.unimplementedOpcode e.1)

/-! ## Whole-machine rules -/

/-- The overflow and carry of ADC and SBC, read as signed and unsigned arithmetic: `V` is set exactly when the signed sum
or difference does not fit a byte, `C` when the unsigned sum does not, or the difference needs no borrow. -/
def Obligations.OverflowIsSignedOverflow : Prop :=
  ∀ m ∈ [Mode.imm, .zp, .zpx, .abs, .abx, .aby, .izx, .izy], ∀ s,
    (∃ t l ea M, exec (.adc m) s = .next t ∧ Trace s t (l ++ [.read ea M]) ∧
      let sum : Int := s.cpu.a.toInt + M.toInt + s.cpu.c.toNat
      (t.cpu.v = true ↔ sum < -128 ∨ 127 < sum) ∧ t.cpu.a = s.cpu.a + M + (if s.cpu.c then 1 else 0) ∧
      (t.cpu.c = true ↔ 255 < s.cpu.a.toNat + M.toNat + s.cpu.c.toNat)) ∧
    (∃ t l ea M, exec (.sbc m 0) s = .next t ∧ Trace s t (l ++ [.read ea M]) ∧
      let difference : Int := s.cpu.a.toInt - M.toInt - (1 - s.cpu.c.toNat)
      (t.cpu.v = true ↔ difference < -128 ∨ 127 < difference) ∧
      t.cpu.a = s.cpu.a - M - (if s.cpu.c then 0 else 1) ∧
      (t.cpu.c = true ↔ (0 : Int) ≤ s.cpu.a.toNat - M.toNat - (1 - s.cpu.c.toNat)))

/-- The decimal flag has no effect: but for the instructions that push, pull or write it, an instruction does the same
whatever `D` is, and leaves it. -/
def Obligations.DecimalFlagHasNoEffect : Prop :=
  ∀ (i : Instr) (b : Bool) (s : State), i ∉ [Instr.php, .plp, .brk, .rti, .cld, .sed] →
    exec i { s with cpu := { s.cpu with d := b } } =
      match exec i s with
      | .next t => .next { t with cpu := { t.cpu with d := b } }
      | .fault f => .fault f
      | .refused r => .refused r

/-- Only the instructions that 10_state.md names write `A`, `X`, `Y`, `S`, `C`, `I`, `D` and `V`. -/
def Obligations.OnlyTheNamedInstructionsWrite : Prop :=
  ∀ (i : Instr) (s t : State), exec i s = .next t →
    (match i with
      | .lda _ | .txa | .tya | .pla | .adc _ | .sbc _ _ | .and _ | .ora _ | .eor _ | .asl .acc | .lsr .acc | .rol .acc
      | .ror .acc | .slo _ | .rla _ | .sre _ | .rra _ | .isc _ | .lax _ | .lxa | .anc _ | .alr | .arr => True
      | _ => t.cpu.a = s.cpu.a) ∧
    (match i with
      | .ldx _ | .tax | .tsx | .inx | .dex | .lax _ | .lxa | .sbx => True
      | _ => t.cpu.x = s.cpu.x) ∧
    (match i with
      | .ldy _ | .tay | .iny | .dey => True
      | _ => t.cpu.y = s.cpu.y) ∧
    (match i with
      | .txs | .pha | .php | .pla | .plp | .jsr | .rts | .rti | .brk => True
      | _ => t.cpu.s = s.cpu.s) ∧
    (match i with
      | .adc _ | .sbc _ _ | .cmp _ | .cpx _ | .cpy _ | .asl _ | .lsr _ | .rol _ | .ror _ | .clc | .sec | .plp | .rti
      | .slo _ | .rla _ | .sre _ | .rra _ | .dcp _ | .isc _ | .anc _ | .alr | .arr | .sbx => True
      | _ => t.cpu.c = s.cpu.c) ∧
    (match i with
      | .sei | .cli | .plp | .rti | .brk => True
      | _ => t.cpu.i = s.cpu.i) ∧
    (match i with
      | .sed | .cld | .plp | .rti => True
      | _ => t.cpu.d = s.cpu.d) ∧
    (match i with
      | .adc _ | .sbc _ _ | .bit _ | .clv | .plp | .rti | .rra _ | .isc _ | .arr => True
      | _ => t.cpu.v = s.cpu.v)

/-- No instruction withdraws a pending interrupt: only the sequence that services one clears its pending flag. That
nothing else clears them is the spec's decision D18. -/
def Obligations.OnlyServicingClearsPending : Prop :=
  ∀ (i : Instr) (s t : State), exec i s = .next t → i ≠ .brk ∨ s.lines.servicing = false →
    t.lines.pendReset = s.lines.pendReset ∧ t.lines.pendIrq = s.lines.pendIrq ∧
    (s.lines.pendNmi = true → t.lines.pendNmi = true)

/-- The poll of `retire`: IRQ is gated by the flag `I` of the start of the final cycle, which is the one of before the
instruction, for CLI, SEI and PLP too, but the restored one for RTI; the BRK sequence does not poll, and leaves
nothing armed. The moment of the poll is the spec's decision D16. -/
def Obligations.RetirePollsTheLines : Prop :=
  ∀ (i : Instr) (s t : State), exec i s = .next t → i.sentinel = false →
    t.micro.curOp = none ∧ t.micro.cyc = 0 ∧
    (i ≠ .brk →
      t.lines.armReset = s.lines.pendReset ∧
      t.lines.armIrq = (s.lines.pendIrq && !(if i = .rti then t.cpu.i else s.cpu.i)) ∧
      (s.lines.pendNmi = true → t.lines.armNmi = true) ∧ (t.lines.armNmi = true → t.lines.pendNmi = true)) ∧
    (i = .brk → t.lines.armReset = false ∧ t.lines.armNmi = false ∧ t.lines.armIrq = false)

/-- `Reset()`, `RaiseNmi()` and `RaiseIrq()`: what each sets, that nothing else changes, and that twice is once. That
IRQ is a sticky flag and that `Reset()` arms at once are the spec's decisions D18 and D21. -/
def Obligations.LineCallsSetTheirFlags : Prop :=
  ∀ s : State,
    s.callReset = { s with
      lines := { s.lines with pendReset := true, armReset := true, servicing := false }
      micro := { s.micro with curOp := none, cyc := 0 } } ∧
    s.raiseNmi = { s with lines := { s.lines with pendNmi := true } } ∧
    s.raiseIrq = { s with lines := { s.lines with pendIrq := true } } ∧
    s.callReset.callReset = s.callReset ∧ s.raiseNmi.raiseNmi = s.raiseNmi ∧ s.raiseIrq.raiseIrq = s.raiseIrq

/-! ## The CPU bus -/

/-- The CPU address map. A read gives the internal contribution AND the cartridge's; then the internal device has its
read effect, and the cartridge its own. A write acts on the internal device, and always reaches the cartridge. A byte
written to RAM is read at its four addresses. That every access also reaches the cartridge is the spec's decision D5,
the strobe write D7. That the internal device comes before the cartridge is the model's choice, log 12; it can matter
only on a board the model does not know. (The feed of the host's button snapshots is log 13.) -/
def Obligations.BusAccessesDecodeTheMap : Prop :=
  (∀ (s : State) (a : Addr), (memRead a s).1 = s.peek a ∧
    (a.toNat < 0x2000 → s.peek a = s.ram.read (a.toNat % 0x800) &&& s.cart.cpuValue a) ∧
    (0x2000 ≤ a.toNat → a.toNat < 0x4000 → s.peek a = ppuRegValue (a.toNat % 8) s &&& s.cart.cpuValue a) ∧
    (0x4000 ≤ a.toNat → a ≠ 0x4016 → a ≠ 0x4017 → s.peek a = s.cart.cpuValue a)) ∧
  (∀ (s : State) (a : Addr),
    let leaves := fun u : State =>
      (memRead a s).2 = { u with cart := u.cart.cpuAfterRead a, busLog := .read a (s.peek a) :: u.busLog }
    let next := fun count : Nat => if s.ctl.strobe then count else count + 1
    (a.toNat < 0x2000 → leaves s) ∧
    (0x2000 ≤ a.toNat → a.toNat < 0x4000 → leaves (ppuRegAfterRead (a.toNat % 8) s)) ∧
    (a = 0x4016 → leaves { s with ctl := { s.ctl with count0 := next s.ctl.count0 } }) ∧
    (a = 0x4017 → leaves { s with ctl := { s.ctl with count1 := next s.ctl.count1 } }) ∧
    (0x4000 ≤ a.toNat → a ≠ 0x4016 → a ≠ 0x4017 → leaves s)) ∧
  (∀ (s : State) (a : Addr) (v : Byte),
    let leaves := fun u : State =>
      memWrite a v s = { u with cart := u.cart.cpuAfterWrite a v, busLog := .write a v :: u.busLog }
    (a.toNat < 0x2000 → leaves { s with ram := s.ram.write (a.toNat % 0x800) v }) ∧
    (0x2000 ≤ a.toNat → a.toNat < 0x4000 → leaves (ppuRegWrite (a.toNat % 8) v s)) ∧
    (a = 0x4014 → leaves (oamDma v s)) ∧
    (a = 0x4016 → leaves { s with ctl := s.ctl.writeStrobe (v.getLsbD 0) }) ∧
    (0x4000 ≤ a.toNat → a ≠ 0x4014 → a ≠ 0x4016 → leaves s)) ∧
  (∀ (s : State) (a b : Addr) (v : Byte), s.KnownBoard → a.toNat < 0x2000 → b.toNat < 0x2000 →
    (memRead b (memWrite a v s)).1 = if b.toNat % 0x800 = a.toNat % 0x800 then v else (memRead b s).1)

/-- The OAM DMA: 256 side-effecting reads of the page in order, each stored at `oamAddr + i`; on a page of plain
memory the 256 bytes of the page as they were. `oamAddr` is unchanged and the CPU makes one access. The offset by
`oamAddr`, the side-effecting reads and the absence of a stall are the spec's decision D6. That the cartridge sees the
write after the 256 reads is the model's choice, log 12; it can matter only on a board the model does not know. -/
def Obligations.OamDmaCopiesAPage : Prop :=
  ∀ (s : State) (v : Byte),
    (∃ u : Nat → State, u 0 = s ∧
      (∀ i < 256, u (i + 1) =
        { (busRead (v ++ BitVec.ofNat 8 i) (u i)).2 with
          ppu := { (busRead (v ++ BitVec.ofNat 8 i) (u i)).2.ppu with
            oam := (busRead (v ++ BitVec.ofNat 8 i) (u i)).2.ppu.oam.write ((s.ppu.oamAddr.toNat + i) % 256)
              (busRead (v ++ BitVec.ofNat 8 i) (u i)).1 } }) ∧
      memWrite 0x4014 v s =
        { u 256 with cart := (u 256).cart.cpuAfterWrite 0x4014 v, busLog := .write 0x4014 v :: s.busLog }) ∧
    (memWrite 0x4014 v s).ppu.oamAddr = s.ppu.oamAddr ∧
    (s.KnownBoard → v.toNat < 0x20 ∨ 0x41 ≤ v.toNat → ∀ i < 256,
      (memWrite 0x4014 v s).ppu.oam.read ((s.ppu.oamAddr.toNat + i) % 256) = s.peek (v ++ BitVec.ofNat 8 i))

/-- The controller ports: a strobe write latches the snapshots (the model's feed of them is log 13) and resets both
counters; then read number `n` of a port, with the strobe low, gives button `n` in bit 0, and 1 from the ninth on;
with the strobe high every read gives the first button. The zeros in the upper bits and the latching at every strobe
write are the spec's decision D7. -/
def Obligations.ControllersReadSerially : Prop :=
  (∀ (s : State) (v : Byte), (memWrite 0x4016 v s).ctl.strobe = v.getLsbD 0 ∧
    ((memWrite 0x4016 v s).ctl.latched0, (memWrite 0x4016 v s).ctl.latched1) = s.ctl.snapshot ∧
    (memWrite 0x4016 v s).ctl.count0 = 0 ∧ (memWrite 0x4016 v s).ctl.count1 = 0) ∧
  (∀ (s : State) (n : Nat), s.KnownBoard → s.ctl.count0 = 0 → s.ctl.count1 = 0 →
    let read0 := (fun u : State => (memRead 0x4016 u).2)^[n] s
    let read1 := (fun u : State => (memRead 0x4017 u).2)^[n] s
    (s.ctl.strobe = false →
      (memRead 0x4016 read0).1 = (if n < 8 then s.ctl.latched0.getLsbD n else true).toNat ∧
      (memRead 0x4017 read1).1 = (if n < 8 then s.ctl.latched1.getLsbD n else true).toNat) ∧
    (s.ctl.strobe = true →
      (memRead 0x4016 read0).1 = (s.ctl.latched0.getLsbD 0).toNat ∧
      (memRead 0x4017 read1).1 = (s.ctl.latched1.getLsbD 0).toNat))

/-! ## The PPU -/

/-- PPUCTRL and PPUMASK: the eight bits of the byte go one to one to `t[11:10]` and the booleans; an NMI is requested
when `nmiEnable` goes from 0 to 1 while `vblank` is set; nothing else of the PPU changes. That the unused PPUMASK bits
are stored is the spec's decision D34. -/
def Obligations.CtrlAndMaskMapTheirBits : Prop :=
  (∀ (s : State) (a : Addr) (v : Byte), SelectsPpuReg a 0 →
    let p := s.ppu
    let q := (memWrite a v s).ppu
    q = { p with t := q.t, incr32 := v.getLsbD 2, spTable := v.getLsbD 3, bgTable := v.getLsbD 4,
                 sprite16 := v.getLsbD 5, masterSlave := v.getLsbD 6, nmiEnable := v.getLsbD 7,
                 nmiRequested := p.nmiRequested || (!p.nmiEnable && v.getLsbD 7 && p.vblank) } ∧
    q.t.extractLsb' 10 2 = v.extractLsb' 0 2 ∧
    ∀ j, j ≠ 10 → j ≠ 11 → q.t.getLsbD j = p.t.getLsbD j) ∧
  (∀ (s : State) (a : Addr) (v : Byte), SelectsPpuReg a 1 →
    (memWrite a v s).ppu =
      { s.ppu with greyscale := v.getLsbD 0, showBgLeft := v.getLsbD 1, showSpLeft := v.getLsbD 2,
                   showBg := v.getLsbD 3, showSp := v.getLsbD 4, emphR := v.getLsbD 5, emphG := v.getLsbD 6,
                   emphB := v.getLsbD 7 })

/-- PPUSTATUS, OAMADDR, OAMDATA, and reads of the write-only registers. Whether reading PPUSTATUS clears `vblank` is
the OPEN parameter: the statement holds for either value. The zero bits of PPUSTATUS are the spec's decision D33, the
0xFF of the write-only registers D32. -/
def Obligations.StatusAndOamRegisters : Prop :=
  ∀ (s : State) (a : Addr),
    (SelectsPpuReg a 2 →
      (memRead a s).1 = (BitVec.ofBool s.ppu.vblank ++ BitVec.ofBool s.ppu.sprite0Hit ++
        BitVec.ofBool s.ppu.spriteOverflow ++ 0#5) &&& s.cart.cpuValue a ∧
      (memRead a s).2.ppu =
        { s.ppu with w := false, vblank := s.ppu.vblank && !Config.ppuStatusReadClearsVbl } ∧
      ∀ v, (memWrite a v s).ppu = s.ppu) ∧
    (SelectsPpuReg a 3 → ∀ v, (memWrite a v s).ppu = { s.ppu with oamAddr := v }) ∧
    (SelectsPpuReg a 4 →
      (memRead a s).1 = s.ppu.oam.read s.ppu.oamAddr.toNat &&& s.cart.cpuValue a ∧ (memRead a s).2.ppu = s.ppu ∧
      ∀ v, (memWrite a v s).ppu = { s.ppu with oam := (memWrite a v s).ppu.oam, oamAddr := s.ppu.oamAddr + 1 } ∧
        ∀ j, (memWrite a v s).ppu.oam.read j = if j = s.ppu.oamAddr.toNat then v else s.ppu.oam.read j) ∧
    (∀ n ∈ [0, 1, 3, 5, 6], SelectsPpuReg a n →
      (memRead a s).1 = 0xFF &&& s.cart.cpuValue a ∧ (memRead a s).2.ppu = s.ppu)

/-- PPUSCROLL and PPUADDR: two writes gated by the one toggle `w`, each to its own bits of `t`; the second PPUADDR write
copies `t` to `v`. -/
def Obligations.ScrollAndAddrShareTheToggle : Prop :=
  ∀ (s : State) (a : Addr) (v : Byte),
    let p := s.ppu
    let q := (memWrite a v s).ppu
    (SelectsPpuReg a 5 → p.w = false →
      q = { p with t := q.t, x := v.extractLsb' 0 3, w := true } ∧ q.t.extractLsb' 0 5 = v.extractLsb' 3 5 ∧
      q.t.extractLsb' 5 10 = p.t.extractLsb' 5 10) ∧
    (SelectsPpuReg a 5 → p.w = true →
      q = { p with t := q.t, w := false } ∧ q.t.extractLsb' 12 3 = v.extractLsb' 0 3 ∧
      q.t.extractLsb' 5 5 = v.extractLsb' 3 5 ∧ q.t.extractLsb' 0 5 = p.t.extractLsb' 0 5 ∧
      q.t.extractLsb' 10 2 = p.t.extractLsb' 10 2) ∧
    (SelectsPpuReg a 6 → p.w = false →
      q = { p with t := q.t, w := true } ∧ q.t.extractLsb' 8 6 = v.extractLsb' 0 6 ∧ q.t.getLsbD 14 = false ∧
      q.t.extractLsb' 0 8 = p.t.extractLsb' 0 8) ∧
    (SelectsPpuReg a 6 → p.w = true →
      q = { p with t := q.t, v := q.t, w := false } ∧ q.t.extractLsb' 0 8 = v ∧
      q.t.extractLsb' 8 7 = p.t.extractLsb' 8 7)

/-- PPUDATA: reads below the palette are buffered, palette reads are direct and put the nametable byte under the palette in
the buffer; every access advances `v` by 1 or 32. That the buffer receives the PPU-side byte of the state before the
cartridge's own CPU-side read effect is the model's choice, log 12; it can matter only on a board the model does not
know. -/
def Obligations.PpuDataIsBuffered : Prop :=
  ∀ (s : State) (a : Addr), SelectsPpuReg a 7 →
    let p := s.ppu
    let b := p.v.setWidth 16 &&& 0x3FFF
    let inc : BitVec 15 := if p.incr32 then 32 else 1
    (∀ v, (memWrite a v s).ppu = { (ppuBusWrite b v s).ppu with v := p.v + inc } ∧
      (s.KnownBoard → (memWrite a v s).cart = (ppuBusWrite b v s).cart)) ∧
    (0x3F00 ≤ b.toNat →
      (memRead a s).1 = ppuBusValue s b &&& s.cart.cpuValue a ∧
      (memRead a s).2.ppu = { p with readBuffer := ppuBusValue s (b - 0x1000), v := p.v + inc }) ∧
    (b.toNat < 0x3F00 →
      (memRead a s).1 = p.readBuffer &&& s.cart.cpuValue a ∧
      (memRead a s).2.ppu = { p with readBuffer := ppuBusValue s b, v := p.v + inc })

/-- The PPU bus: 14-bit addresses, the palette with its four aliases decoded first, the mirror above 0x3000, the
cartridge below it; with no cartridge a read gives 0xFF and a write is lost. That palette bytes keep eight bits is the
spec's decision D32. -/
def Obligations.PpuBusDecodesTheMap : Prop :=
  ∀ (s : State) (a : Addr),
    let m := a &&& 0x3FFF
    let i := m.toNat % 32
    let entry := if i = 0x10 ∨ i = 0x14 ∨ i = 0x18 ∨ i = 0x1C then i - 0x10 else i
    (0x3F00 ≤ m.toNat →
      ppuBusValue s a = s.ppu.palette.read entry ∧
      ∀ v, (ppuBusWrite a v s).cart = s.cart ∧
        ∀ j, (ppuBusWrite a v s).ppu.palette.read j = if j = entry then v else s.ppu.palette.read j) ∧
    (0x3000 ≤ m.toNat → m.toNat < 0x3F00 →
      ppuBusValue s a = s.cart.ppuValue (m - 0x1000) ∧
      ∀ v, ppuBusWrite a v s = { s with cart := s.cart.ppuAfterWrite (m - 0x1000) v }) ∧
    (m.toNat < 0x3000 →
      ppuBusValue s a = s.cart.ppuValue m ∧ ∀ v, ppuBusWrite a v s = { s with cart := s.cart.ppuAfterWrite m v }) ∧
    (s.cart = .absent → m.toNat < 0x3F00 → ppuBusValue s a = 0xFF ∧ ∀ v, ppuBusWrite a v s = s)

/-- The background fetches of a group of eight dots, the reload of the shifters, and the shift; and where the dot machine
runs them: at dots 1 to 256 and 321 to 340 of a render line with rendering enabled it shifts and then makes the fetch
step of the dot, and at every other position no latch, no shifter and no cartridge changes. The two-entry palette
shifter is the spec's decision D36, the window's end at 340 is D35, what `renderingEnabled` means and gates is D34, the
shift before the fetch D37. -/
def Obligations.FetchesFillTheShifters : Prop :=
  (∀ (s : State) (d : Nat),
    let p := s.ppu
    let v := p.v.setWidth 16
    let pattern := (if p.bgTable then 0x1000 else 0) + p.ntByte.toNat * 16 + (p.v.extractLsb' 12 3).toNat
    let at' := ppuBusValue s (0x23C0 ||| (v &&& 0x0C00) ||| ((v >>> 4) &&& 0x38) ||| ((v >>> 2) &&& 0x07))
    ((d - 1) % 8 = 0 → (fetchStep d s).ppu = { p with ntByte := ppuBusValue s (0x2000 ||| (v &&& 0x0FFF)) }) ∧
    ((d - 1) % 8 = 2 → (fetchStep d s).ppu = { p with
      atByte := at'
      atBits := (at'.toNat / 2 ^ (p.v.toNat / 16 % 8 / 4 * 4 + p.v.toNat % 4 / 2 * 2) % 4 : Nat) }) ∧
    ((d - 1) % 8 = 4 → (fetchStep d s).ppu = { p with patLo := ppuBusValue s (BitVec.ofNat 16 pattern) }) ∧
    ((d - 1) % 8 = 6 → (fetchStep d s).ppu = { p with patHi := ppuBusValue s (BitVec.ofNat 16 (pattern + 8)) }) ∧
    ((d - 1) % 8 = 7 → (fetchStep d s).ppu = { p with
      shPatLo := p.shPatLo.extractLsb' 8 8 ++ p.patLo
      shPatHi := p.shPatHi.extractLsb' 8 8 ++ p.patHi
      shPalCur := p.shPalNext
      shPalNext := p.atBits
      v := incCoarseX p.v }) ∧
    ((d - 1) % 8 = 1 ∨ (d - 1) % 8 = 3 ∨ (d - 1) % 8 = 5 → fetchStep d s = s) ∧
    p.shift = { p with shPatLo := p.shPatLo <<< 1, shPatHi := p.shPatHi <<< 1 }) ∧
  (∀ s : State,
    let p := s.ppu
    let f := if Rendering p ∧ InFetchDots p.dot then fetchStep p.dot { s with ppu := p.shift } else s
    let q := (dotIteration s).ppu
    (dotIteration s).cart = f.cart ∧
    q.ntByte = f.ppu.ntByte ∧ q.atByte = f.ppu.atByte ∧ q.atBits = f.ppu.atBits ∧
    q.patLo = f.ppu.patLo ∧ q.patHi = f.ppu.patHi ∧ q.shPatLo = f.ppu.shPatLo ∧ q.shPatHi = f.ppu.shPatHi ∧
    q.shPalCur = f.ppu.shPalCur ∧ q.shPalNext = f.ppu.shPalNext)

/-- The scroll updates of `v`: field by field the coarse-X increment, the Y increment and the two copies; and where the
dot machine makes them, each on a render line with rendering enabled only: the coarse-X increment at the last dot of
each group of eight of the fetch window, then the Y increment at dot 256, the horizontal copy at dot 257, the vertical
copy at dots 280 to 304 of line 261. At every other position `v` is unchanged, and a dot never changes `t`, `x` or `w`.
What `renderingEnabled` means and gates is the spec's decision D34, the window's end D35, the order in a dot D37. -/
def Obligations.ScrollUpdatesByFieldAndDot : Prop :=
  (∀ v t : BitVec 15,
    let coarseX := fun w : BitVec 15 => w.extractLsb' 0 5
    let coarseY := fun w : BitVec 15 => w.extractLsb' 5 5
    let fineY := fun w : BitVec 15 => w.extractLsb' 12 3
    let a := incCoarseX v
    let b := incY v
    let h := copyHorizontal v t
    let w := copyVertical v t
    (coarseX a = coarseX v + 1 ∧ a.getLsbD 10 = (v.getLsbD 10 ^^ (coarseX v == 31)) ∧
      coarseY a = coarseY v ∧ a.getLsbD 11 = v.getLsbD 11 ∧ fineY a = fineY v) ∧
    (fineY b = fineY v + 1 ∧
      coarseY b = (if fineY v ≠ 7 then coarseY v else if coarseY v = 29 then 0 else coarseY v + 1) ∧
      b.getLsbD 11 = (v.getLsbD 11 ^^ (fineY v == 7 && coarseY v == 29)) ∧
      coarseX b = coarseX v ∧ b.getLsbD 10 = v.getLsbD 10) ∧
    (coarseX h = coarseX t ∧ h.getLsbD 10 = t.getLsbD 10 ∧ coarseY h = coarseY v ∧ h.getLsbD 11 = v.getLsbD 11 ∧
      fineY h = fineY v) ∧
    (coarseX w = coarseX v ∧ w.getLsbD 10 = v.getLsbD 10 ∧ coarseY w = coarseY t ∧ w.getLsbD 11 = t.getLsbD 11 ∧
      fineY w = fineY t)) ∧
  (∀ s : State,
    let p := s.ppu
    let q := (dotIteration s).ppu
    let v := if Rendering p ∧ InFetchDots p.dot ∧ (p.dot - 1) % 8 = 7 then incCoarseX p.v else p.v
    q.v =
      (if Rendering p ∧ p.dot = 256 then incY v
      else if Rendering p ∧ p.dot = 257 then copyHorizontal v p.t
      else if Rendering p ∧ p.scanline = 261 ∧ 280 ≤ p.dot ∧ p.dot ≤ 304 then copyVertical v p.t
      else v) ∧
    q.t = p.t ∧ q.x = p.x ∧ q.w = p.w)

/-- One dot with its event: the next position with the skipped dot of odd frames; vertical blank starts at (241, 1)
and ends at (261, 1); at (241, 1) the frame is complete and the NMI is raised if it is enabled. The frame: no dot
changes the CPU, RAM, the controllers, a PPU register, OAM or the palette. The work before the advance is the spec's
decision D37, the condition of the skipped dot D40, the delivery of the event D31; that the notifications of the host
are counted is log 17. -/
def Obligations.DotsAdvanceAndRaiseTheEvent : Prop :=
  ∀ s : State,
    let p := s.ppu
    let q := (dotIteration s).ppu
    (q.scanline, q.dot, q.oddFrame) =
      (if p.scanline = 261 ∧ p.dot = 339 ∧ p.oddFrame = true ∧ (p.showBg = true ∨ p.showSp = true) then
        (0, 0, !p.oddFrame)
      else if p.dot = 340 then
        if p.scanline = 261 then (0, 0, !p.oddFrame) else (p.scanline + 1, 0, p.oddFrame)
      else (p.scanline, p.dot + 1, p.oddFrame)) ∧
    q.vblank = (if p.scanline = 241 ∧ p.dot = 1 then true
      else if p.scanline = 261 ∧ p.dot = 1 then false else p.vblank) ∧
    q.sprite0Hit = (if p.scanline = 261 ∧ p.dot = 1 then false else p.sprite0Hit) ∧
    q.spriteOverflow = (if p.scanline = 261 ∧ p.dot = 1 then false else p.spriteOverflow) ∧
    (dotIteration s).lines.pendNmi =
      (s.lines.pendNmi || p.nmiRequested || (decide (p.scanline = 241 ∧ p.dot = 1) && p.nmiEnable)) ∧
    (dotIteration s).frames = s.frames + (if p.frameComplete = true ∨ (p.scanline = 241 ∧ p.dot = 1) then 1 else 0) ∧
    q.nmiRequested = false ∧ q.frameComplete = false ∧
    q = { p with
      scanline := q.scanline, dot := q.dot, oddFrame := q.oddFrame, vblank := q.vblank, sprite0Hit := q.sprite0Hit
      spriteOverflow := q.spriteOverflow, v := q.v, ntByte := q.ntByte, atByte := q.atByte, atBits := q.atBits
      patLo := q.patLo, patHi := q.patHi, shPatLo := q.shPatLo, shPatHi := q.shPatHi, shPalCur := q.shPalCur
      shPalNext := q.shPalNext, framebuffer := q.framebuffer, nmiRequested := false, frameComplete := false } ∧
    dotIteration s = { s with
      ppu := q, cart := (dotIteration s).cart, frames := (dotIteration s).frames, k := s.k + 1
      lines := { s.lines with pendNmi := (dotIteration s).lines.pendNmi } }

/-- The pixel of a visible dot: the colour code that the shifters and the palette selector choose, or the backdrop; no
other pixel changes. (That the framebuffer holds colour codes is log 15.) What `showBg` gates is the spec's decision
D34; that the pixel is taken from the shifters before this dot's shift is D37. -/
def Obligations.VisibleDotWritesItsPixel : Prop :=
  ∀ s : State, s.ppu.scanline ≤ 239 → 1 ≤ s.ppu.dot → s.ppu.dot ≤ 256 →
    let p := s.ppu
    let bit := 15 - p.x.toNat
    let pattern := (p.shPatHi.getLsbD bit).toNat * 2 + (p.shPatLo.getLsbD bit).toNat
    let index := if p.showBg = false ∨ pattern = 0 then 0 else p.shPalCur.toNat * 4 + pattern
    ∀ k, (dotIteration s).ppu.framebuffer.read k =
      if k = p.scanline * 256 + (p.dot - 1) then ppuBusValue s (0x3F00 + BitVec.ofNat 16 index) &&& 0x3F
      else p.framebuffer.read k

/-- The sprite pass: at each pixel the covering sprite of the lowest number is seen; pixels that no sprite covers keep
what they had; without `showSp` there is no pass. The dot machine runs the pass at (241, 1), rendering or not, and
nowhere else: at a position that is neither that one nor a visible dot the picture is unchanged. (That the framebuffer
holds colour codes is log 15.) The order of the entries and the first row `Y + 1` are the spec's decision D41. -/
def Obligations.SpritePassPaintsLowestSprite : Prop :=
  (∀ s : State,
    (s.ppu.showSp = false → spritePass s = s) ∧
    (s.ppu.showSp = true → ∀ row column, row ≤ 239 → column ≤ 255 →
      (∀ n p, n < 64 → SpriteCovers s n row column p → (∀ m < n, ∀ p', ¬ SpriteCovers s m row column p') →
        (spritePass s).ppu.framebuffer.read (row * 256 + column) =
          ppuBusValue s (BitVec.ofNat 16 (0x3F10 + (s.ppu.oam.read (4 * n + 2)).toNat % 4 * 4 + p)) &&& 0x3F) ∧
      ((∀ n < 64, ∀ p, ¬ SpriteCovers s n row column p) →
        (spritePass s).ppu.framebuffer.read (row * 256 + column) =
          s.ppu.framebuffer.read (row * 256 + column)))) ∧
  (∀ s : State,
    (s.ppu.scanline = 241 → s.ppu.dot = 1 →
      (dotIteration s).ppu.framebuffer = (spritePass s).ppu.framebuffer) ∧
    (¬ (s.ppu.scanline = 241 ∧ s.ppu.dot = 1) → ¬ (s.ppu.scanline ≤ 239 ∧ 1 ≤ s.ppu.dot ∧ s.ppu.dot ≤ 256) →
      (dotIteration s).ppu.framebuffer = s.ppu.framebuffer))

end
end

