-- ==== Sys2Proof/Laws/Memory.lean ====
section
/-! SUPPORT. The laws of a memory of bytes: a read after a write, and the canonical form. -/

namespace Sys2Proof.Machine

namespace Memory

theorem read_erase_self (m : Memory) (a : Nat) : (m.erase a).read a = unlisted := by
  induction m with
  | nil => rfl
  | cons c m ih =>
    obtain ⟨key, byte⟩ := c
    by_cases h : key = a
    · simp only [erase] at ih ⊢
      simpa [h] using ih
    · simp only [erase] at ih ⊢
      simpa [h, read] using ih

theorem read_erase_of_ne (m : Memory) {a b : Nat} (h : b ≠ a) : (m.erase a).read b = m.read b := by
  induction m with
  | nil => rfl
  | cons c m ih =>
    obtain ⟨key, byte⟩ := c
    by_cases hk : key = a
    · simp only [erase] at ih ⊢
      have : key ≠ b := fun e => h (e ▸ hk)
      simpa [hk, read, h.symm] using ih
    · simp only [erase] at ih ⊢
      simp only [ne_eq, decide_not] at ih ⊢
      simp [hk, read, ih]

theorem read_of_all_ge (m : Memory) (a : Nat) (h : ∀ c ∈ m, a < c.1) : m.read a = unlisted := by
  induction m with
  | nil => rfl
  | cons c m ih =>
    have hc := h c (by simp)
    simp only [read]
    rw [if_neg (by omega)]
    exact ih fun c hc => h c (by simp [hc])

theorem read_insert_of_ne (m : Memory) {a b : Nat} (byte : Byte) (h : b ≠ a) :
    (insert a byte m).read b = m.read b := by
  induction m with
  | nil => simp [insert, read, h.symm]
  | cons c m ih =>
    simp only [insert]
    split
    · simp [read, h.symm]
    · simp [read, ih]

theorem read_insert_self (m : Memory) (a : Nat) (byte : Byte) (h : ∀ c ∈ m, c.1 ≠ a) :
    (insert a byte m).read a = byte := by
  induction m with
  | nil => simp [insert, read]
  | cons c m ih =>
    simp only [insert]
    split
    · simp [read]
    · have hc : c.1 ≠ a := h c (by simp)
      simp only [read, if_neg hc]
      exact ih fun c hc => h c (by simp [hc])

theorem mem_erase {m : Memory} {a : Nat} {c : Host.Cell} : c ∈ m.erase a ↔ c ∈ m ∧ c.1 ≠ a := by
  simp [erase]

theorem mem_insert {m : Memory} {a : Nat} {byte : Byte} {c : Host.Cell} :
    c ∈ insert a byte m ↔ c = (a, byte) ∨ c ∈ m := by
  induction m with
  | nil => simp [insert]
  | cons d m ih =>
    simp only [insert]
    split
    · simp
    · simp only [List.mem_cons, ih]
      tauto

/-- A write seen at its own address. -/
@[simp] theorem read_write_self (m : Memory) (a : Nat) (byte : Byte) : (m.write a byte).read a = byte := by
  unfold write
  split
  · next h => rw [read_erase_self, h]
  · exact read_insert_self _ _ _ fun c hc => (mem_erase.mp hc).2

/-- A write seen at another address. -/
theorem read_write_of_ne (m : Memory) {a b : Nat} (byte : Byte) (h : b ≠ a) : (m.write a byte).read b = m.read b := by
  unfold write
  split
  · exact read_erase_of_ne m h
  · rw [read_insert_of_ne _ _ h, read_erase_of_ne m h]

theorem read_write (m : Memory) (a b : Nat) (byte : Byte) :
    (m.write a byte).read b = if b = a then byte else m.read b := by
  split
  · next h => subst h; exact read_write_self m b byte
  · next h => exact read_write_of_ne m byte h

theorem wf_nil : wf ([] : Memory) := by simp [wf]

theorem wf_erase {m : Memory} (a : Nat) (h : m.wf) : (m.erase a).wf :=
  ⟨h.1.sublist List.filter_sublist, fun c hc => h.2 c (mem_erase.mp hc).1⟩

theorem pairwise_insert {m : Memory} (a : Nat) (byte : Byte) (h : m.Pairwise fun c c' => c.1 < c'.1)
    (hn : ∀ c ∈ m, c.1 ≠ a) : (insert a byte m).Pairwise fun c c' => c.1 < c'.1 := by
  induction m with
  | nil => simp [insert]
  | cons c m ih =>
    simp only [insert]
    rw [List.pairwise_cons] at h
    split
    · next hlt =>
      refine List.pairwise_cons.mpr ⟨fun d hd => ?_, List.pairwise_cons.mpr h⟩
      rcases List.mem_cons.mp hd with rfl | hd
      · exact hlt
      · exact Nat.lt_trans hlt (h.1 d hd)
    · next hge =>
      refine List.pairwise_cons.mpr ⟨fun d hd => ?_, ih h.2 fun d hd => hn d (by simp [hd])⟩
      rcases mem_insert.mp hd with rfl | hd
      · have := hn c (by simp)
        show c.1 < a
        omega
      · exact h.1 d hd

/-- A write keeps the canonical form. -/
theorem wf_write {m : Memory} (a : Nat) (byte : Byte) (h : m.wf) : (m.write a byte).wf := by
  unfold write
  split
  · exact wf_erase a h
  · next hb =>
    have he := wf_erase a h
    refine ⟨pairwise_insert a byte he.1 fun c hc => (mem_erase.mp hc).2, fun c hc => ?_⟩
    rcases mem_insert.mp hc with rfl | hc
    · exact hb
    · exact he.2 c hc

/-- The cells after a write: the old ones elsewhere and, for a byte that is listed, the new one. -/
theorem mem_write {m : Memory} {a : Nat} {byte : Byte} {c : Host.Cell} (h : c ∈ m.write a byte) :
    c = (a, byte) ∨ c ∈ m := by
  unfold write at h
  split at h
  · exact .inr (mem_erase.mp h).1
  · rcases mem_insert.mp h with h | h
    · exact .inl h
    · exact .inr (mem_erase.mp h).1

theorem within_nil (low high : Nat) : Memory.Within [] low high := ⟨wf_nil, by simp⟩

/-- A write inside its range keeps a memory in its range and its canonical form. -/
theorem Within.write {m : Memory} {low high a : Nat} (byte : Byte) (h : m.Within low high) (ha : low ≤ a ∧ a < high) :
    (m.write a byte).Within low high := by
  refine ⟨wf_write a byte h.1, fun c hc => ?_⟩
  rcases mem_write hc with rfl | hc
  · exact ha
  · exact h.2 c hc

/-- Two memories in canonical form that read the same are the same. -/
theorem wf_ext {m m' : Memory} (h : m.wf) (h' : m'.wf) (he : ∀ a, m.read a = m'.read a) : m = m' := by
  induction m generalizing m' with
  | nil =>
    cases m' with
    | nil => rfl
    | cons c m' =>
      have := he c.1
      simp only [read, if_true] at this
      exact absurd this.symm (h'.2 c (by simp))
  | cons c m ih =>
    cases m' with
    | nil =>
      have := he c.1
      simp only [read, if_true] at this
      exact absurd this (h.2 c (by simp))
    | cons c' m' =>
      have hm := List.pairwise_cons.mp h.1
      have hm' := List.pairwise_cons.mp h'.1
      have hkey : c.1 = c'.1 := by
        rcases Nat.lt_trichotomy c.1 c'.1 with hlt | heq | hgt
        · have e := he c.1
          rw [read_of_all_ge (c' :: m') c.1 (fun d hd => by
            rcases List.mem_cons.mp hd with rfl | hd
            · exact hlt
            · exact Nat.lt_trans hlt (hm'.1 d hd))] at e
          simp only [read, if_true] at e
          exact absurd e (h.2 c (by simp))
        · exact heq
        · have e := he c'.1
          rw [read_of_all_ge (c :: m) c'.1 (fun d hd => by
            rcases List.mem_cons.mp hd with rfl | hd
            · exact hgt
            · exact Nat.lt_trans hgt (hm.1 d hd))] at e
          simp only [read, if_true] at e
          exact absurd e.symm (h'.2 c' (by simp))
      have hbyte : c.2 = c'.2 := by
        have e := he c.1
        simp only [read, if_true, if_pos hkey.symm] at e
        exact e
      have hrest : m = m' := by
        refine ih ⟨hm.2, fun d hd => h.2 d (by simp [hd])⟩ ⟨hm'.2, fun d hd => h'.2 d (by simp [hd])⟩ fun a => ?_
        have e := he a
        simp only [read] at e
        by_cases ha : c.1 = a
        · rw [read_of_all_ge m a fun d hd => ha ▸ hm.1 d hd,
            read_of_all_ge m' a fun d hd => ha ▸ hkey ▸ hm'.1 d hd]
        · rwa [if_neg ha, if_neg (hkey ▸ ha)] at e
      rw [hrest, show c = c' from Prod.ext hkey hbyte]

end Memory

end Sys2Proof.Machine
end

