-- ==== Sys2Proof/Laws/State.lean ====
section
/-! SUPPORT. One lemma for every field of State under every named update of it, true by definition. -/

namespace Sys2Proof.Machine

/-! ## `State.record` -/

@[simp] theorem State.record_cpu (s : State) (x : BusAccess) : (s.record x).cpu = s.cpu := rfl
@[simp] theorem State.record_micro (s : State) (x : BusAccess) : (s.record x).micro = s.micro := rfl
@[simp] theorem State.record_lines (s : State) (x : BusAccess) : (s.record x).lines = s.lines := rfl
@[simp] theorem State.record_faulted (s : State) (x : BusAccess) : (s.record x).faulted = s.faulted := rfl
@[simp] theorem State.record_faultOpcode (s : State) (x : BusAccess) : (s.record x).faultOpcode = s.faultOpcode := rfl
@[simp] theorem State.record_ram (s : State) (x : BusAccess) : (s.record x).ram = s.ram := rfl
@[simp] theorem State.record_ppu (s : State) (x : BusAccess) : (s.record x).ppu = s.ppu := rfl
@[simp] theorem State.record_ctl (s : State) (x : BusAccess) : (s.record x).ctl = s.ctl := rfl
@[simp] theorem State.record_cart (s : State) (x : BusAccess) : (s.record x).cart = s.cart := rfl
@[simp] theorem State.record_k (s : State) (x : BusAccess) : (s.record x).k = s.k := rfl
@[simp] theorem State.record_frames (s : State) (x : BusAccess) : (s.record x).frames = s.frames := rfl
@[simp] theorem State.record_busLog (s : State) (x : BusAccess) : (s.record x).busLog = x :: s.busLog := rfl

/-! ## `State.mapCpu` -/

@[simp] theorem State.mapCpu_cpu (s : State) (f : Cpu → Cpu) : (s.mapCpu f).cpu = f s.cpu := rfl
@[simp] theorem State.mapCpu_micro (s : State) (f : Cpu → Cpu) : (s.mapCpu f).micro = s.micro := rfl
@[simp] theorem State.mapCpu_lines (s : State) (f : Cpu → Cpu) : (s.mapCpu f).lines = s.lines := rfl
@[simp] theorem State.mapCpu_faulted (s : State) (f : Cpu → Cpu) : (s.mapCpu f).faulted = s.faulted := rfl
@[simp] theorem State.mapCpu_faultOpcode (s : State) (f : Cpu → Cpu) : (s.mapCpu f).faultOpcode = s.faultOpcode := rfl
@[simp] theorem State.mapCpu_ram (s : State) (f : Cpu → Cpu) : (s.mapCpu f).ram = s.ram := rfl
@[simp] theorem State.mapCpu_ppu (s : State) (f : Cpu → Cpu) : (s.mapCpu f).ppu = s.ppu := rfl
@[simp] theorem State.mapCpu_ctl (s : State) (f : Cpu → Cpu) : (s.mapCpu f).ctl = s.ctl := rfl
@[simp] theorem State.mapCpu_cart (s : State) (f : Cpu → Cpu) : (s.mapCpu f).cart = s.cart := rfl
@[simp] theorem State.mapCpu_k (s : State) (f : Cpu → Cpu) : (s.mapCpu f).k = s.k := rfl
@[simp] theorem State.mapCpu_frames (s : State) (f : Cpu → Cpu) : (s.mapCpu f).frames = s.frames := rfl
@[simp] theorem State.mapCpu_busLog (s : State) (f : Cpu → Cpu) : (s.mapCpu f).busLog = s.busLog := rfl

/-! ## `State.setAl` -/

@[simp] theorem State.setAl_cpu (s : State) (a : Addr) : (s.setAl a).cpu = s.cpu := rfl
@[simp] theorem State.setAl_micro (s : State) (a : Addr) : (s.setAl a).micro = { s.micro with al := a } := rfl
@[simp] theorem State.setAl_lines (s : State) (a : Addr) : (s.setAl a).lines = s.lines := rfl
@[simp] theorem State.setAl_faulted (s : State) (a : Addr) : (s.setAl a).faulted = s.faulted := rfl
@[simp] theorem State.setAl_faultOpcode (s : State) (a : Addr) : (s.setAl a).faultOpcode = s.faultOpcode := rfl
@[simp] theorem State.setAl_ram (s : State) (a : Addr) : (s.setAl a).ram = s.ram := rfl
@[simp] theorem State.setAl_ppu (s : State) (a : Addr) : (s.setAl a).ppu = s.ppu := rfl
@[simp] theorem State.setAl_ctl (s : State) (a : Addr) : (s.setAl a).ctl = s.ctl := rfl
@[simp] theorem State.setAl_cart (s : State) (a : Addr) : (s.setAl a).cart = s.cart := rfl
@[simp] theorem State.setAl_k (s : State) (a : Addr) : (s.setAl a).k = s.k := rfl
@[simp] theorem State.setAl_frames (s : State) (a : Addr) : (s.setAl a).frames = s.frames := rfl
@[simp] theorem State.setAl_busLog (s : State) (a : Addr) : (s.setAl a).busLog = s.busLog := rfl

/-! ## `State.setOl` -/

@[simp] theorem State.setOl_cpu (s : State) (b : Byte) : (s.setOl b).cpu = s.cpu := rfl
@[simp] theorem State.setOl_micro (s : State) (b : Byte) : (s.setOl b).micro = { s.micro with ol := b } := rfl
@[simp] theorem State.setOl_lines (s : State) (b : Byte) : (s.setOl b).lines = s.lines := rfl
@[simp] theorem State.setOl_faulted (s : State) (b : Byte) : (s.setOl b).faulted = s.faulted := rfl
@[simp] theorem State.setOl_faultOpcode (s : State) (b : Byte) : (s.setOl b).faultOpcode = s.faultOpcode := rfl
@[simp] theorem State.setOl_ram (s : State) (b : Byte) : (s.setOl b).ram = s.ram := rfl
@[simp] theorem State.setOl_ppu (s : State) (b : Byte) : (s.setOl b).ppu = s.ppu := rfl
@[simp] theorem State.setOl_ctl (s : State) (b : Byte) : (s.setOl b).ctl = s.ctl := rfl
@[simp] theorem State.setOl_cart (s : State) (b : Byte) : (s.setOl b).cart = s.cart := rfl
@[simp] theorem State.setOl_k (s : State) (b : Byte) : (s.setOl b).k = s.k := rfl
@[simp] theorem State.setOl_frames (s : State) (b : Byte) : (s.setOl b).frames = s.frames := rfl
@[simp] theorem State.setOl_busLog (s : State) (b : Byte) : (s.setOl b).busLog = s.busLog := rfl

/-! ## `State.setBx` -/

@[simp] theorem State.setBx_cpu (s : State) (b : Bool) : (s.setBx b).cpu = s.cpu := rfl
@[simp] theorem State.setBx_micro (s : State) (b : Bool) : (s.setBx b).micro = { s.micro with bx := b } := rfl
@[simp] theorem State.setBx_lines (s : State) (b : Bool) : (s.setBx b).lines = s.lines := rfl
@[simp] theorem State.setBx_faulted (s : State) (b : Bool) : (s.setBx b).faulted = s.faulted := rfl
@[simp] theorem State.setBx_faultOpcode (s : State) (b : Bool) : (s.setBx b).faultOpcode = s.faultOpcode := rfl
@[simp] theorem State.setBx_ram (s : State) (b : Bool) : (s.setBx b).ram = s.ram := rfl
@[simp] theorem State.setBx_ppu (s : State) (b : Bool) : (s.setBx b).ppu = s.ppu := rfl
@[simp] theorem State.setBx_ctl (s : State) (b : Bool) : (s.setBx b).ctl = s.ctl := rfl
@[simp] theorem State.setBx_cart (s : State) (b : Bool) : (s.setBx b).cart = s.cart := rfl
@[simp] theorem State.setBx_k (s : State) (b : Bool) : (s.setBx b).k = s.k := rfl
@[simp] theorem State.setBx_frames (s : State) (b : Bool) : (s.setBx b).frames = s.frames := rfl
@[simp] theorem State.setBx_busLog (s : State) (b : Bool) : (s.setBx b).busLog = s.busLog := rfl

/-! ## `State.setPc` -/

@[simp] theorem State.setPc_cpu (s : State) (a : Addr) : (s.setPc a).cpu = { s.cpu with pc := a } := rfl
@[simp] theorem State.setPc_micro (s : State) (a : Addr) : (s.setPc a).micro = s.micro := rfl
@[simp] theorem State.setPc_lines (s : State) (a : Addr) : (s.setPc a).lines = s.lines := rfl
@[simp] theorem State.setPc_faulted (s : State) (a : Addr) : (s.setPc a).faulted = s.faulted := rfl
@[simp] theorem State.setPc_faultOpcode (s : State) (a : Addr) : (s.setPc a).faultOpcode = s.faultOpcode := rfl
@[simp] theorem State.setPc_ram (s : State) (a : Addr) : (s.setPc a).ram = s.ram := rfl
@[simp] theorem State.setPc_ppu (s : State) (a : Addr) : (s.setPc a).ppu = s.ppu := rfl
@[simp] theorem State.setPc_ctl (s : State) (a : Addr) : (s.setPc a).ctl = s.ctl := rfl
@[simp] theorem State.setPc_cart (s : State) (a : Addr) : (s.setPc a).cart = s.cart := rfl
@[simp] theorem State.setPc_k (s : State) (a : Addr) : (s.setPc a).k = s.k := rfl
@[simp] theorem State.setPc_frames (s : State) (a : Addr) : (s.setPc a).frames = s.frames := rfl
@[simp] theorem State.setPc_busLog (s : State) (a : Addr) : (s.setPc a).busLog = s.busLog := rfl

/-! ## `State.decS` -/

@[simp] theorem State.decS_cpu (s : State) : (s.decS).cpu = { s.cpu with s := s.cpu.s - 1 } := rfl
@[simp] theorem State.decS_micro (s : State) : (s.decS).micro = s.micro := rfl
@[simp] theorem State.decS_lines (s : State) : (s.decS).lines = s.lines := rfl
@[simp] theorem State.decS_faulted (s : State) : (s.decS).faulted = s.faulted := rfl
@[simp] theorem State.decS_faultOpcode (s : State) : (s.decS).faultOpcode = s.faultOpcode := rfl
@[simp] theorem State.decS_ram (s : State) : (s.decS).ram = s.ram := rfl
@[simp] theorem State.decS_ppu (s : State) : (s.decS).ppu = s.ppu := rfl
@[simp] theorem State.decS_ctl (s : State) : (s.decS).ctl = s.ctl := rfl
@[simp] theorem State.decS_cart (s : State) : (s.decS).cart = s.cart := rfl
@[simp] theorem State.decS_k (s : State) : (s.decS).k = s.k := rfl
@[simp] theorem State.decS_frames (s : State) : (s.decS).frames = s.frames := rfl
@[simp] theorem State.decS_busLog (s : State) : (s.decS).busLog = s.busLog := rfl

/-! ## `State.incS` -/

@[simp] theorem State.incS_cpu (s : State) : (s.incS).cpu = { s.cpu with s := s.cpu.s + 1 } := rfl
@[simp] theorem State.incS_micro (s : State) : (s.incS).micro = s.micro := rfl
@[simp] theorem State.incS_lines (s : State) : (s.incS).lines = s.lines := rfl
@[simp] theorem State.incS_faulted (s : State) : (s.incS).faulted = s.faulted := rfl
@[simp] theorem State.incS_faultOpcode (s : State) : (s.incS).faultOpcode = s.faultOpcode := rfl
@[simp] theorem State.incS_ram (s : State) : (s.incS).ram = s.ram := rfl
@[simp] theorem State.incS_ppu (s : State) : (s.incS).ppu = s.ppu := rfl
@[simp] theorem State.incS_ctl (s : State) : (s.incS).ctl = s.ctl := rfl
@[simp] theorem State.incS_cart (s : State) : (s.incS).cart = s.cart := rfl
@[simp] theorem State.incS_k (s : State) : (s.incS).k = s.k := rfl
@[simp] theorem State.incS_frames (s : State) : (s.incS).frames = s.frames := rfl
@[simp] theorem State.incS_busLog (s : State) : (s.incS).busLog = s.busLog := rfl

/-! ## `State.callReset` -/

@[simp] theorem State.callReset_cpu (s : State) : (s.callReset).cpu = s.cpu := rfl
@[simp] theorem State.callReset_micro (s : State) :
    (s.callReset).micro = { s.micro with curOp := none, cyc := 0 } := rfl
@[simp] theorem State.callReset_lines (s : State) :
    (s.callReset).lines = { s.lines with pendReset := true, armReset := true, servicing := false } := rfl
@[simp] theorem State.callReset_faulted (s : State) : (s.callReset).faulted = s.faulted := rfl
@[simp] theorem State.callReset_faultOpcode (s : State) : (s.callReset).faultOpcode = s.faultOpcode := rfl
@[simp] theorem State.callReset_ram (s : State) : (s.callReset).ram = s.ram := rfl
@[simp] theorem State.callReset_ppu (s : State) : (s.callReset).ppu = s.ppu := rfl
@[simp] theorem State.callReset_ctl (s : State) : (s.callReset).ctl = s.ctl := rfl
@[simp] theorem State.callReset_cart (s : State) : (s.callReset).cart = s.cart := rfl
@[simp] theorem State.callReset_k (s : State) : (s.callReset).k = s.k := rfl
@[simp] theorem State.callReset_frames (s : State) : (s.callReset).frames = s.frames := rfl
@[simp] theorem State.callReset_busLog (s : State) : (s.callReset).busLog = s.busLog := rfl

/-! ## `State.raiseNmi` -/

@[simp] theorem State.raiseNmi_cpu (s : State) : (s.raiseNmi).cpu = s.cpu := rfl
@[simp] theorem State.raiseNmi_micro (s : State) : (s.raiseNmi).micro = s.micro := rfl
@[simp] theorem State.raiseNmi_lines (s : State) : (s.raiseNmi).lines = { s.lines with pendNmi := true } := rfl
@[simp] theorem State.raiseNmi_faulted (s : State) : (s.raiseNmi).faulted = s.faulted := rfl
@[simp] theorem State.raiseNmi_faultOpcode (s : State) : (s.raiseNmi).faultOpcode = s.faultOpcode := rfl
@[simp] theorem State.raiseNmi_ram (s : State) : (s.raiseNmi).ram = s.ram := rfl
@[simp] theorem State.raiseNmi_ppu (s : State) : (s.raiseNmi).ppu = s.ppu := rfl
@[simp] theorem State.raiseNmi_ctl (s : State) : (s.raiseNmi).ctl = s.ctl := rfl
@[simp] theorem State.raiseNmi_cart (s : State) : (s.raiseNmi).cart = s.cart := rfl
@[simp] theorem State.raiseNmi_k (s : State) : (s.raiseNmi).k = s.k := rfl
@[simp] theorem State.raiseNmi_frames (s : State) : (s.raiseNmi).frames = s.frames := rfl
@[simp] theorem State.raiseNmi_busLog (s : State) : (s.raiseNmi).busLog = s.busLog := rfl

/-! ## `State.raiseIrq` -/

@[simp] theorem State.raiseIrq_cpu (s : State) : (s.raiseIrq).cpu = s.cpu := rfl
@[simp] theorem State.raiseIrq_micro (s : State) : (s.raiseIrq).micro = s.micro := rfl
@[simp] theorem State.raiseIrq_lines (s : State) : (s.raiseIrq).lines = { s.lines with pendIrq := true } := rfl
@[simp] theorem State.raiseIrq_faulted (s : State) : (s.raiseIrq).faulted = s.faulted := rfl
@[simp] theorem State.raiseIrq_faultOpcode (s : State) : (s.raiseIrq).faultOpcode = s.faultOpcode := rfl
@[simp] theorem State.raiseIrq_ram (s : State) : (s.raiseIrq).ram = s.ram := rfl
@[simp] theorem State.raiseIrq_ppu (s : State) : (s.raiseIrq).ppu = s.ppu := rfl
@[simp] theorem State.raiseIrq_ctl (s : State) : (s.raiseIrq).ctl = s.ctl := rfl
@[simp] theorem State.raiseIrq_cart (s : State) : (s.raiseIrq).cart = s.cart := rfl
@[simp] theorem State.raiseIrq_k (s : State) : (s.raiseIrq).k = s.k := rfl
@[simp] theorem State.raiseIrq_frames (s : State) : (s.raiseIrq).frames = s.frames := rfl
@[simp] theorem State.raiseIrq_busLog (s : State) : (s.raiseIrq).busLog = s.busLog := rfl

/-! ## `State.raiseUnimplemented` -/

@[simp] theorem State.raiseUnimplemented_cpu (s : State) (op : Byte) : (s.raiseUnimplemented op).cpu = s.cpu := rfl
@[simp] theorem State.raiseUnimplemented_micro (s : State) (op : Byte) :
    (s.raiseUnimplemented op).micro = s.micro := rfl
@[simp] theorem State.raiseUnimplemented_lines (s : State) (op : Byte) :
    (s.raiseUnimplemented op).lines = s.lines := rfl
@[simp] theorem State.raiseUnimplemented_faulted (s : State) (op : Byte) :
    (s.raiseUnimplemented op).faulted = true := rfl
@[simp] theorem State.raiseUnimplemented_faultOpcode (s : State) (op : Byte) :
    (s.raiseUnimplemented op).faultOpcode = op := rfl
@[simp] theorem State.raiseUnimplemented_ram (s : State) (op : Byte) : (s.raiseUnimplemented op).ram = s.ram := rfl
@[simp] theorem State.raiseUnimplemented_ppu (s : State) (op : Byte) : (s.raiseUnimplemented op).ppu = s.ppu := rfl
@[simp] theorem State.raiseUnimplemented_ctl (s : State) (op : Byte) : (s.raiseUnimplemented op).ctl = s.ctl := rfl
@[simp] theorem State.raiseUnimplemented_cart (s : State) (op : Byte) : (s.raiseUnimplemented op).cart = s.cart := rfl
@[simp] theorem State.raiseUnimplemented_k (s : State) (op : Byte) : (s.raiseUnimplemented op).k = s.k := rfl
@[simp] theorem State.raiseUnimplemented_frames (s : State) (op : Byte) :
    (s.raiseUnimplemented op).frames = s.frames := rfl
@[simp] theorem State.raiseUnimplemented_busLog (s : State) (op : Byte) :
    (s.raiseUnimplemented op).busLog = s.busLog := rfl

/-! ## `State.begin` -/

@[simp] theorem State.begin_cpu (s : State) (i : Instr) : (s.begin i).cpu = s.cpu := rfl
@[simp] theorem State.begin_micro (s : State) (i : Instr) :
    (s.begin i).micro = { s.micro with curOp := some i, cyc := 2, bx := false } := rfl
@[simp] theorem State.begin_lines (s : State) (i : Instr) : (s.begin i).lines = s.lines := rfl
@[simp] theorem State.begin_faulted (s : State) (i : Instr) : (s.begin i).faulted = s.faulted := rfl
@[simp] theorem State.begin_faultOpcode (s : State) (i : Instr) : (s.begin i).faultOpcode = s.faultOpcode := rfl
@[simp] theorem State.begin_ram (s : State) (i : Instr) : (s.begin i).ram = s.ram := rfl
@[simp] theorem State.begin_ppu (s : State) (i : Instr) : (s.begin i).ppu = s.ppu := rfl
@[simp] theorem State.begin_ctl (s : State) (i : Instr) : (s.begin i).ctl = s.ctl := rfl
@[simp] theorem State.begin_cart (s : State) (i : Instr) : (s.begin i).cart = s.cart := rfl
@[simp] theorem State.begin_k (s : State) (i : Instr) : (s.begin i).k = s.k := rfl
@[simp] theorem State.begin_frames (s : State) (i : Instr) : (s.begin i).frames = s.frames := rfl
@[simp] theorem State.begin_busLog (s : State) (i : Instr) : (s.begin i).busLog = s.busLog := rfl

/-! ## `State.nextCycle` -/

@[simp] theorem State.nextCycle_cpu (s : State) : (s.nextCycle).cpu = s.cpu := rfl
@[simp] theorem State.nextCycle_micro (s : State) :
    (s.nextCycle).micro = { s.micro with cyc := s.micro.cyc + 1 } := rfl
@[simp] theorem State.nextCycle_lines (s : State) : (s.nextCycle).lines = s.lines := rfl
@[simp] theorem State.nextCycle_faulted (s : State) : (s.nextCycle).faulted = s.faulted := rfl
@[simp] theorem State.nextCycle_faultOpcode (s : State) : (s.nextCycle).faultOpcode = s.faultOpcode := rfl
@[simp] theorem State.nextCycle_ram (s : State) : (s.nextCycle).ram = s.ram := rfl
@[simp] theorem State.nextCycle_ppu (s : State) : (s.nextCycle).ppu = s.ppu := rfl
@[simp] theorem State.nextCycle_ctl (s : State) : (s.nextCycle).ctl = s.ctl := rfl
@[simp] theorem State.nextCycle_cart (s : State) : (s.nextCycle).cart = s.cart := rfl
@[simp] theorem State.nextCycle_k (s : State) : (s.nextCycle).k = s.k := rfl
@[simp] theorem State.nextCycle_frames (s : State) : (s.nextCycle).frames = s.frames := rfl
@[simp] theorem State.nextCycle_busLog (s : State) : (s.nextCycle).busLog = s.busLog := rfl

/-! ## `State.retire` -/

@[simp] theorem State.retire_cpu (s : State) (i : Instr) (b : Bool) : (s.retire i b).cpu = s.cpu := rfl
@[simp] theorem State.retire_micro (s : State) (i : Instr) (b : Bool) :
    (s.retire i b).micro = { s.micro with curOp := none, cyc := 0 } := rfl
@[simp] theorem State.retire_lines (s : State) (i : Instr) (b : Bool) :
    (s.retire i b).lines = if i = .brk then s.lines else s.lines.poll b := rfl
@[simp] theorem State.retire_faulted (s : State) (i : Instr) (b : Bool) : (s.retire i b).faulted = s.faulted := rfl
@[simp] theorem State.retire_faultOpcode (s : State) (i : Instr) (b : Bool) :
    (s.retire i b).faultOpcode = s.faultOpcode := rfl
@[simp] theorem State.retire_ram (s : State) (i : Instr) (b : Bool) : (s.retire i b).ram = s.ram := rfl
@[simp] theorem State.retire_ppu (s : State) (i : Instr) (b : Bool) : (s.retire i b).ppu = s.ppu := rfl
@[simp] theorem State.retire_ctl (s : State) (i : Instr) (b : Bool) : (s.retire i b).ctl = s.ctl := rfl
@[simp] theorem State.retire_cart (s : State) (i : Instr) (b : Bool) : (s.retire i b).cart = s.cart := rfl
@[simp] theorem State.retire_k (s : State) (i : Instr) (b : Bool) : (s.retire i b).k = s.k := rfl
@[simp] theorem State.retire_frames (s : State) (i : Instr) (b : Bool) : (s.retire i b).frames = s.frames := rfl
@[simp] theorem State.retire_busLog (s : State) (i : Instr) (b : Bool) : (s.retire i b).busLog = s.busLog := rfl

/-! ## `deliver` -/

@[simp] theorem deliver_cpu (s : State) : (deliver s).cpu = s.cpu := rfl
@[simp] theorem deliver_micro (s : State) : (deliver s).micro = s.micro := rfl
@[simp] theorem deliver_lines (s : State) : (deliver s).lines = { s.lines with pendNmi := s.lines.pendNmi || s.ppu.nmiRequested } := rfl
@[simp] theorem deliver_faulted (s : State) : (deliver s).faulted = s.faulted := rfl
@[simp] theorem deliver_faultOpcode (s : State) : (deliver s).faultOpcode = s.faultOpcode := rfl
@[simp] theorem deliver_ram (s : State) : (deliver s).ram = s.ram := rfl
@[simp] theorem deliver_ppu (s : State) : (deliver s).ppu = { s.ppu with nmiRequested := false, frameComplete := false } := rfl
@[simp] theorem deliver_ctl (s : State) : (deliver s).ctl = s.ctl := rfl
@[simp] theorem deliver_cart (s : State) : (deliver s).cart = s.cart := rfl
@[simp] theorem deliver_k (s : State) : (deliver s).k = s.k := rfl
@[simp] theorem deliver_frames (s : State) : (deliver s).frames = if s.ppu.frameComplete then s.frames + 1 else s.frames := rfl
@[simp] theorem deliver_busLog (s : State) : (deliver s).busLog = s.busLog := rfl

end Sys2Proof.Machine
end

