-- ==== Sys2Proof/Laws/Ppu.lean ====
section
/-! SUPPORT. What a PPU dot can change: the PPU's own position, pipeline, picture and status, and nothing that only the
CPU's accesses change. -/

namespace Sys2Proof.Machine

/-- The PPU fields that no dot changes. -/
structure PpuKept (p q : Ppu) : Prop where
  oam : q.oam = p.oam
  palette : q.palette = p.palette
  ctrl : q.incr32 = p.incr32 ∧ q.bgTable = p.bgTable ∧ q.spTable = p.spTable ∧ q.sprite16 = p.sprite16 ∧
    q.masterSlave = p.masterSlave ∧ q.nmiEnable = p.nmiEnable
  mask : q.greyscale = p.greyscale ∧ q.showBgLeft = p.showBgLeft ∧ q.showSpLeft = p.showSpLeft ∧
    q.showBg = p.showBg ∧ q.showSp = p.showSp ∧ q.emphR = p.emphR ∧ q.emphG = p.emphG ∧ q.emphB = p.emphB
  oamAddr : q.oamAddr = p.oamAddr
  scroll : q.t = p.t
  fineX : q.x = p.x
  toggle : q.w = p.w
  readBuffer : q.readBuffer = p.readBuffer

theorem PpuKept.refl (p : Ppu) : PpuKept p p := by constructor <;> simp

theorem PpuKept.trans {p q r : Ppu} (h : PpuKept p q) (h' : PpuKept q r) : PpuKept p r := by
  obtain ⟨_, _, _, _, _, _, _, _, _⟩ := h
  obtain ⟨_, _, _, _, _, _, _, _, _⟩ := h'
  constructor <;> simp_all

theorem PpuKept.rendering {p q : Ppu} (h : PpuKept p q) : q.renderingEnabled = p.renderingEnabled := by
  simp [Ppu.renderingEnabled, h.mask]

/-- What a piece of a dot's work keeps. -/
structure DotKept (s t : State) : Prop where
  cpu : t.cpu = s.cpu
  micro : t.micro = s.micro
  lines : t.lines = s.lines
  faulted : t.faulted = s.faulted
  faultOpcode : t.faultOpcode = s.faultOpcode
  ram : t.ram = s.ram
  ctl : t.ctl = s.ctl
  k : t.k = s.k
  frames : t.frames = s.frames
  busLog : t.busLog = s.busLog
  cart : s.KnownBoard → t.cart = s.cart
  ppu : PpuKept s.ppu t.ppu

theorem DotKept.refl (s : State) : DotKept s s := by
  constructor <;> first | rfl | exact fun _ => rfl | exact PpuKept.refl _

theorem KnownBoard.of_cart {s t : State} (h : t.cart = s.cart) (hs : s.KnownBoard) : t.KnownBoard := fun st => by
  rw [h]; exact hs st

theorem DotKept.board {s t : State} (h : DotKept s t) (hs : s.KnownBoard) : t.KnownBoard :=
  KnownBoard.of_cart (h.cart hs) hs

theorem DotKept.trans {s t u : State} (h : DotKept s t) (h' : DotKept t u) : DotKept s u where
  cpu := h'.cpu.trans h.cpu
  micro := h'.micro.trans h.micro
  lines := h'.lines.trans h.lines
  faulted := h'.faulted.trans h.faulted
  faultOpcode := h'.faultOpcode.trans h.faultOpcode
  ram := h'.ram.trans h.ram
  ctl := h'.ctl.trans h.ctl
  k := h'.k.trans h.k
  frames := h'.frames.trans h.frames
  busLog := h'.busLog.trans h.busLog
  cart := fun hs => (h'.cart (h.board hs)).trans (h.cart hs)
  ppu := h.ppu.trans h'.ppu

theorem DotKept.of_ppu {s : State} {p : Ppu} (h : PpuKept s.ppu p) : DotKept s { s with ppu := p } := by
  constructor <;> first | rfl | exact fun _ => rfl | exact h

theorem DotKept.rendering {s t : State} (h : DotKept s t) : t.ppu.renderingEnabled = s.ppu.renderingEnabled :=
  h.ppu.rendering

/-! ## The pieces -/

@[simp] theorem ppuBusAfterRead_ppu (s : State) (a : Addr) : (ppuBusAfterRead s a).ppu = s.ppu := by
  unfold ppuBusAfterRead; split <;> rfl

theorem Cart.ppuAfterRead_known {c : Cart} (h : ∀ st, c ≠ .mapper st) (a : Addr) : c.ppuAfterRead a = c := by
  cases c with
  | mapper st => exact absurd rfl (h st)
  | _ => rfl

theorem Cart.cpuAfterRead_known {c : Cart} (h : ∀ st, c ≠ .mapper st) (a : Addr) : c.cpuAfterRead a = c := by
  cases c with
  | mapper st => exact absurd rfl (h st)
  | _ => rfl

theorem Cart.cpuAfterWrite_known {c : Cart} (h : ∀ st, c ≠ .mapper st) (a : Addr) (v : Byte) :
    c.cpuAfterWrite a v = c := by
  cases c with
  | mapper st => exact absurd rfl (h st)
  | _ => rfl

@[simp] theorem ppuBusRead_ppu (a : Addr) (b : Bool) (s : State) : (ppuBusRead a b s).2.ppu = s.ppu := by
  unfold ppuBusRead
  cases b
  · exact ppuBusAfterRead_ppu s a
  · rfl

theorem ppuBusAfterRead_kept (s : State) (a : Addr) : DotKept s (ppuBusAfterRead s a) := by
  unfold ppuBusAfterRead
  split
  · exact DotKept.refl s
  · constructor <;> first | rfl | exact PpuKept.refl _ | exact fun hs => Cart.ppuAfterRead_known hs _

theorem ppuBusRead_kept (a : Addr) (b : Bool) (s : State) : DotKept s (ppuBusRead a b s).2 := by
  unfold ppuBusRead
  cases b
  · exact ppuBusAfterRead_kept s a
  · exact DotKept.refl s

theorem fetchStep_kept (d : Nat) (s : State) : DotKept s (fetchStep d s) := by
  unfold fetchStep
  split
  · exact (ppuBusRead_kept _ false s).trans (.of_ppu (by constructor <;> simp))
  · exact (ppuBusRead_kept _ false s).trans (.of_ppu (by constructor <;> simp))
  · exact (ppuBusRead_kept _ false s).trans (.of_ppu (by constructor <;> simp))
  · exact (ppuBusRead_kept _ false s).trans (.of_ppu (by constructor <;> simp))
  · exact .of_ppu (by constructor <;> simp [Ppu.reload])
  · exact DotKept.refl s

theorem writePixel_kept (row column : Nat) (code : Byte) (s : State) : DotKept s (writePixel row column code s) :=
  .of_ppu (by constructor <;> simp)

theorem scrollUpdate_kept (sl d : Nat) (p : Ppu) : PpuKept p (scrollUpdate sl d p) := by
  unfold scrollUpdate
  split
  · constructor <;> simp
  · split
    · constructor <;> simp
    · split
      · constructor <;> simp
      · exact PpuKept.refl p

theorem renderDot_kept (sl d : Nat) (s : State) : DotKept s (renderDot sl d s) := by
  unfold renderDot
  refine DotKept.trans ?_ (.of_ppu (scrollUpdate_kept _ _ _))
  split
  · have hp : DotKept s (if sl ≤ 239 ∧ d ≤ 256 then backgroundPixel sl d s else s) := by
      split
      · exact writePixel_kept _ _ _ s
      · exact DotKept.refl s
    refine DotKept.trans hp (DotKept.trans (.of_ppu ?_) (fetchStep_kept _ _))
    constructor <;> simp [Ppu.shift]
  · exact DotKept.refl s

theorem paintSpritePixel_kept (o : Sprite) (r c : Nat) (s : State) : DotKept s (paintSpritePixel o r c s) := by
  unfold paintSpritePixel
  dsimp only
  split
  · exact writePixel_kept _ _ _ s
  · exact DotKept.refl s

theorem foldl_kept {α : Type} (f : State → α → State) (hf : ∀ s a, DotKept s (f s a)) (l : List α) (s : State) :
    DotKept s (l.foldl f s) := by
  induction l generalizing s with
  | nil => exact DotKept.refl s
  | cons a l ih => exact (hf s a).trans (ih _)

theorem spritePass_kept (s : State) : DotKept s (spritePass s) := by
  unfold spritePass
  split
  · exact foldl_kept _ (fun s n => foldl_kept _ (fun s r => foldl_kept _ (fun s c =>
      paintSpritePixel_kept _ _ _ _) _ _) _ _) _ _
  · exact DotKept.refl s

theorem vblankStart_kept (s : State) : DotKept s (vblankStart s) := by
  unfold vblankStart
  refine DotKept.trans (t := { s with ppu := { s.ppu with vblank := true } }) (.of_ppu (by constructor <;> simp)) ?_
  exact (spritePass_kept _).trans (.of_ppu (by constructor <;> simp))

theorem vblankEnd_kept (s : State) : DotKept s (vblankEnd s) := .of_ppu (by constructor <;> simp)

theorem ite_kept {s t u : State} (c : Prop) [Decidable c] (h : DotKept s t) (h' : DotKept s u) :
    DotKept s (if c then t else u) := by
  split
  · exact h
  · exact h'

theorem dotWork_kept (s : State) : DotKept s (dotWork s) := by
  unfold dotWork
  dsimp only
  refine DotKept.trans (ite_kept (s.ppu.scanline = 241 ∧ s.ppu.dot = 1) (vblankStart_kept s) (DotKept.refl s)) ?_
  refine DotKept.trans (ite_kept (s.ppu.scanline = 261 ∧ s.ppu.dot = 1) (vblankEnd_kept _) (DotKept.refl _)) ?_
  refine ite_kept _ (ite_kept _ (renderDot_kept _ _ _) (DotKept.refl _))
    (ite_kept _ (writePixel_kept _ _ _ _) (DotKept.refl _))

theorem advance_kept (p : Ppu) : PpuKept p p.advance := by
  unfold Ppu.advance
  split
  · constructor <;> simp
  · split
    · split <;> constructor <;> simp
    · constructor <;> simp

theorem ppuTick_kept (s : State) : DotKept s (ppuTick s) := (dotWork_kept s).trans (.of_ppu (advance_kept _))

/-! ## The VRAM address while the PPU is not rendering -/

theorem writePixel_v (row column : Nat) (code : Byte) (s : State) : (writePixel row column code s).ppu.v = s.ppu.v :=
  rfl

theorem foldl_v {α : Type} (f : State → α → State) (hf : ∀ s a, (f s a).ppu.v = s.ppu.v) (l : List α) (s : State) :
    (l.foldl f s).ppu.v = s.ppu.v := by
  induction l generalizing s with
  | nil => rfl
  | cons a l ih => exact (ih _).trans (hf s a)

theorem paintSpritePixel_v (o : Sprite) (r c : Nat) (s : State) :
    (paintSpritePixel o r c s).ppu.v = s.ppu.v := by
  unfold paintSpritePixel
  dsimp only
  split <;> rfl

theorem paintSprite_v (s : State) (n : Nat) : (paintSprite s n).ppu.v = s.ppu.v := by
  unfold paintSprite
  exact foldl_v _ (fun s r => foldl_v _ (fun s c => paintSpritePixel_v _ _ _ _) _ _) _ _

theorem spritePass_v (s : State) : (spritePass s).ppu.v = s.ppu.v := by
  unfold spritePass
  split
  · exact foldl_v paintSprite paintSprite_v _ _
  · rfl

theorem vblankStart_v (s : State) : (vblankStart s).ppu.v = s.ppu.v := by simp only [vblankStart, spritePass_v]

theorem advance_v (p : Ppu) : p.advance.v = p.v := by
  unfold Ppu.advance
  split
  · rfl
  · split
    · split <;> rfl
    · rfl

theorem ppuTick_v (s : State) (h : s.ppu.renderingEnabled = false) : (ppuTick s).ppu.v = s.ppu.v := by
  show (dotWork s).ppu.advance.v = _
  rw [advance_v]
  unfold dotWork
  dsimp only
  have h1 : DotKept s (if s.ppu.scanline = 241 ∧ s.ppu.dot = 1 then vblankStart s else s) :=
    ite_kept _ (vblankStart_kept s) (DotKept.refl s)
  have v1 : (if s.ppu.scanline = 241 ∧ s.ppu.dot = 1 then vblankStart s else s).ppu.v = s.ppu.v := by
    split
    · exact vblankStart_v s
    · rfl
  generalize (if s.ppu.scanline = 241 ∧ s.ppu.dot = 1 then vblankStart s else s) = s1 at h1 v1 ⊢
  have h2 : DotKept s1 (if s.ppu.scanline = 261 ∧ s.ppu.dot = 1 then vblankEnd s1 else s1) :=
    ite_kept _ (vblankEnd_kept s1) (DotKept.refl s1)
  have v2 : (if s.ppu.scanline = 261 ∧ s.ppu.dot = 1 then vblankEnd s1 else s1).ppu.v = s1.ppu.v := by split <;> rfl
  generalize (if s.ppu.scanline = 261 ∧ s.ppu.dot = 1 then vblankEnd s1 else s1) = s2 at h2 v2 ⊢
  rw [if_neg (by rw [(h1.trans h2).rendering, h]; simp)]
  rw [← v1, ← v2]
  split <;> rfl

end Sys2Proof.Machine
end

