-- ==== Sys2Proof/Laws/Bus.lean ====
section
/-! SUPPORT. What the CPU's bus accesses, the dots and the delivery of the event can change, as one relation that
composes. -/

namespace Sys2Proof.Machine

/-- What lies between two machines whose CPU made the accesses `l` and stored at no address outside `E`: everything that
neither a store at an address of `E`, nor a read, nor a dot can change. -/
structure Touched (E : Addr → Prop) (s t : State) (l : List BusAccess) : Prop where
  trace : Trace s t l
  faulted : t.faulted = s.faulted ∧ t.faultOpcode = s.faultOpcode
  lines : t.lines = { s.lines with pendNmi := t.lines.pendNmi }
  pendNmi : s.lines.pendNmi = true → t.lines.pendNmi = true
  frames : s.frames ≤ t.frames
  board : s.KnownBoard → t.KnownBoard
  ram : ∀ a, (∀ ea, E ea → ea.toNat < 0x2000 → a ≠ ea.toNat % 0x800) → t.ram.read a = s.ram.read a
  oam : (∀ ea, E ea → ea ≠ 0x4014 ∧ ¬ SelectsPpuReg ea 4) → ∀ a, t.ppu.oam.read a = s.ppu.oam.read a
  palette : (∀ ea, E ea → ¬ SelectsPpuReg ea 7) → ∀ a, t.ppu.palette.read a = s.ppu.palette.read a
  cart : (∀ ea, E ea → ¬ SelectsPpuReg ea 7) → s.KnownBoard → t.cart = s.cart
  pads : (∀ ea, E ea → ea ≠ 0x4016) → SamePads s t
  ctrl : (∀ ea, E ea → ¬ SelectsPpuReg ea 0) → SameCtrl s t
  mask : (∀ ea, E ea → ¬ SelectsPpuReg ea 1) → SameMask s t
  oamAddr : (∀ ea, E ea → ¬ SelectsPpuReg ea 3 ∧ ¬ SelectsPpuReg ea 4) → t.ppu.oamAddr = s.ppu.oamAddr
  scroll : (∀ ea, E ea → ¬ SelectsPpuReg ea 0 ∧ ¬ SelectsPpuReg ea 5 ∧ ¬ SelectsPpuReg ea 6) → t.ppu.t = s.ppu.t
  fineX : (∀ ea, E ea → ¬ SelectsPpuReg ea 5) → t.ppu.x = s.ppu.x
  effects : (∀ ea, E ea → ¬ InPpuWindow ea ∧ ea ≠ 0x4014 ∧ ea ≠ 0x4016) → ReadEffects s t l

/-- Stores at no address. -/
abbrev Nowhere : Addr → Prop := fun _ => False

theorem SamePads.refl (s : State) : SamePads s s := by simp [SamePads]

theorem SamePads.trans {s t u : State} (h : SamePads s t) (h' : SamePads t u) : SamePads s u := by
  simp_all [SamePads]

theorem SameCtrl.refl (s : State) : SameCtrl s s := by simp [SameCtrl]

theorem SameCtrl.trans {s t u : State} (h : SameCtrl s t) (h' : SameCtrl t u) : SameCtrl s u := by
  simp_all [SameCtrl]

theorem SameMask.refl (s : State) : SameMask s s := by simp [SameMask]

theorem SameMask.trans {s t u : State} (h : SameMask s t) (h' : SameMask t u) : SameMask s u := by
  simp_all [SameMask]

theorem SameMask.rendering {s t : State} (h : SameMask s t) : t.ppu.renderingEnabled = s.ppu.renderingEnabled := by
  simp [Ppu.renderingEnabled, h.2.2.2.1, h.2.2.2.2.1]

theorem ReadEffects.refl (s : State) (l : List BusAccess) : ReadEffects s s l := by
  constructor <;> simp

theorem Trace.refl (s : State) : Trace s s [] := by simp [Trace]

theorem Trace.trans {s t u : State} {l l' : List BusAccess} (h : Trace s t l) (h' : Trace t u l') :
    Trace s u (l ++ l') := by
  simp_all [Trace]

theorem Touched.refl (E : Addr → Prop) (s : State) : Touched E s s [] := by
  constructor <;> first
    | exact Trace.refl s | exact fun _ => SamePads.refl s | exact fun _ => SameCtrl.refl s
    | exact fun _ => SameMask.refl s | exact fun _ => ReadEffects.refl s _ | simp

/-- Fewer addresses stored to is more left unchanged. -/
theorem Touched.mono {E E' : Addr → Prop} (hE : ∀ ea, E ea → E' ea) {s t : State} {l : List BusAccess}
    (h : Touched E s t l) : Touched E' s t l where
  trace := h.trace
  faulted := h.faulted
  lines := h.lines
  pendNmi := h.pendNmi
  frames := h.frames
  board := h.board
  ram := fun a ha => h.ram a fun ea he => ha ea (hE ea he)
  oam := fun ha => h.oam fun ea he => ha ea (hE ea he)
  palette := fun ha => h.palette fun ea he => ha ea (hE ea he)
  cart := fun ha => h.cart fun ea he => ha ea (hE ea he)
  pads := fun ha => h.pads fun ea he => ha ea (hE ea he)
  ctrl := fun ha => h.ctrl fun ea he => ha ea (hE ea he)
  mask := fun ha => h.mask fun ea he => ha ea (hE ea he)
  oamAddr := fun ha => h.oamAddr fun ea he => ha ea (hE ea he)
  scroll := fun ha => h.scroll fun ea he => ha ea (hE ea he)
  fineX := fun ha => h.fineX fun ea he => ha ea (hE ea he)
  effects := fun ha => h.effects fun ea he => ha ea (hE ea he)

theorem not_selects_of_not_window {a : Addr} (n : Nat) (h : ¬ InPpuWindow a) : ¬ SelectsPpuReg a n := fun hs => h hs.1

theorem Touched.trans {E : Addr → Prop} {s t u : State} {l l' : List BusAccess} (h : Touched E s t l)
    (h' : Touched E t u l') : Touched E s u (l ++ l') where
  trace := h.trace.trans h'.trace
  faulted := ⟨h'.faulted.1.trans h.faulted.1, h'.faulted.2.trans h.faulted.2⟩
  lines := by rw [h'.lines, h.lines]
  pendNmi := fun hp => h'.pendNmi (h.pendNmi hp)
  frames := h.frames.trans h'.frames
  board := fun hb => h'.board (h.board hb)
  ram := fun a ha => (h'.ram a ha).trans (h.ram a ha)
  oam := fun ha a => (h'.oam ha a).trans (h.oam ha a)
  palette := fun ha a => (h'.palette ha a).trans (h.palette ha a)
  cart := fun ha hb => (h'.cart ha (h.board hb)).trans (h.cart ha hb)
  pads := fun ha => (h.pads ha).trans (h'.pads ha)
  ctrl := fun ha => (h.ctrl ha).trans (h'.ctrl ha)
  mask := fun ha => (h.mask ha).trans (h'.mask ha)
  oamAddr := fun ha => (h'.oamAddr ha).trans (h.oamAddr ha)
  scroll := fun ha => (h'.scroll ha).trans (h.scroll ha)
  fineX := fun ha => (h'.fineX ha).trans (h.fineX ha)
  effects := fun ha => by
    have e := h.effects ha
    have e' := h'.effects ha
    have hm := (h.mask fun ea he => not_selects_of_not_window 1 (ha ea he).1).rendering
    refine ⟨fun hl => ?_, fun hl => ?_, fun hl => ?_⟩
    · have p := e.ppu fun a v hv => hl a v (by simp [hv])
      have p' := e'.ppu fun a v hv => hl a v (by simp [hv])
      exact ⟨p'.1.trans p.1, p'.2.1.trans p.2.1, fun hr => (p'.2.2 (hm.trans hr)).trans (p.2.2 hr)⟩
    · exact (e'.count0 fun v hv => hl v (List.mem_append.mpr (.inr hv))).trans (e.count0 fun v hv => hl v (List.mem_append.mpr (.inl hv)))
    · exact (e'.count1 fun v hv => hl v (List.mem_append.mpr (.inr hv))).trans (e.count1 fun v hv => hl v (List.mem_append.mpr (.inl hv)))

/-- A change of registers and latches alone. -/
theorem Touched.of_regs (E : Addr → Prop) (s : State) (r : Cpu) (m : Micro) :
    Touched E s { s with cpu := r, micro := m } [] := by
  constructor <;> first
    | exact fun _ => ⟨fun _ => ⟨rfl, rfl, fun _ => rfl⟩, fun _ => rfl, fun _ => rfl⟩ | exact Trace.refl s | exact fun _ => SamePads.refl s | exact fun _ => SameCtrl.refl s
    | exact fun _ => SameMask.refl s | exact fun _ => ReadEffects.refl s _ | simp
    | exact fun h => h

/-! ## Dots and events -/

theorem Touched.of_dotKept (E : Addr → Prop) {s t : State} (h : DotKept s t)
    (hv : s.ppu.renderingEnabled = false → t.ppu.v = s.ppu.v) : Touched E s t [] where
  trace := by simp [Trace, h.busLog]
  faulted := ⟨h.faulted, h.faultOpcode⟩
  lines := by rw [h.lines]
  pendNmi := by rw [h.lines]; exact id
  frames := by rw [h.frames]
  board := h.board
  ram := fun a _ => by rw [h.ram]
  oam := fun _ a => by rw [h.ppu.oam]
  palette := fun _ a => by rw [h.ppu.palette]
  cart := fun _ => h.cart
  pads := fun _ => by simp [SamePads, h.ctl]
  ctrl := fun _ => h.ppu.ctrl
  mask := fun _ => h.ppu.mask
  oamAddr := fun _ => h.ppu.oamAddr
  scroll := fun _ => h.ppu.scroll
  fineX := fun _ => h.ppu.fineX
  effects := fun _ => ⟨fun _ => ⟨h.ppu.toggle, h.ppu.readBuffer, hv⟩, fun _ => by rw [h.ctl], fun _ => by rw [h.ctl]⟩

theorem deliver_touched (E : Addr → Prop) (s : State) : Touched E s (deliver s) [] where
  trace := by simp [Trace]
  faulted := by simp
  lines := by simp
  pendNmi := by simp_all
  frames := by simp only [deliver_frames]; split <;> omega
  board := KnownBoard.of_cart rfl
  ram := fun _ _ => rfl
  oam := fun _ _ => rfl
  palette := fun _ _ => rfl
  cart := fun _ _ => rfl
  pads := fun _ => SamePads.refl s
  ctrl := fun _ => SameCtrl.refl s
  mask := fun _ => SameMask.refl s
  oamAddr := fun _ => rfl
  scroll := fun _ => rfl
  fineX := fun _ => rfl
  effects := fun _ => ⟨fun _ => ⟨rfl, rfl, fun _ => rfl⟩, fun _ => rfl, fun _ => rfl⟩

theorem Touched.of_k (E : Addr → Prop) (s : State) (k : Nat) : Touched E s { s with k := k } [] := by
  constructor <;> first
    | exact fun _ => ⟨fun _ => ⟨rfl, rfl, fun _ => rfl⟩, fun _ => rfl, fun _ => rfl⟩
    | exact Trace.refl s | exact fun _ => SamePads.refl s | exact fun _ => SameCtrl.refl s
    | exact fun _ => SameMask.refl s | exact fun _ => ReadEffects.refl s _ | simp
    | exact fun h => h

theorem dotIteration_touched (E : Addr → Prop) (s : State) : Touched E s (dotIteration s) [] :=
  ((Touched.of_dotKept E (ppuTick_kept s) (ppuTick_v s)).trans (deliver_touched E _)).trans (Touched.of_k E _ _)

theorem dotIterations_touched (E : Addr → Prop) (n : Nat) (s : State) : Touched E s (dotIterations n s) [] := by
  induction n generalizing s with
  | zero => exact Touched.refl E s
  | succ n ih => exact (dotIteration_touched E s).trans (ih _)

theorem dotsToCpuTick_touched (E : Addr → Prop) (s : State) : Touched E s (dotsToCpuTick s) [] :=
  (dotIterations_touched E _ s).trans (Touched.of_k E _ 0)

@[simp] theorem dotIteration_cpu (s : State) : (dotIteration s).cpu = s.cpu := (ppuTick_kept s).cpu

@[simp] theorem dotIteration_micro (s : State) : (dotIteration s).micro = s.micro := (ppuTick_kept s).micro

@[simp] theorem dotIterations_cpu (n : Nat) (s : State) : (dotIterations n s).cpu = s.cpu := by
  induction n generalizing s with
  | zero => rfl
  | succ n ih => rw [dotIterations, ih, dotIteration_cpu]

@[simp] theorem dotIterations_micro (n : Nat) (s : State) : (dotIterations n s).micro = s.micro := by
  induction n generalizing s with
  | zero => rfl
  | succ n ih => rw [dotIterations, ih, dotIteration_micro]

@[simp] theorem dotsToCpuTick_cpu (s : State) : (dotsToCpuTick s).cpu = s.cpu := dotIterations_cpu _ s

@[simp] theorem dotsToCpuTick_micro (s : State) : (dotsToCpuTick s).micro = s.micro := dotIterations_micro _ s

@[simp] theorem dotsToCpuTick_k (s : State) : (dotsToCpuTick s).k = 0 := rfl

/-! ## Reads -/

@[simp] theorem memRead_fst (a : Addr) (s : State) : (memRead a s).1 = s.peek a := rfl

theorem ppuDataAfterRead_eq (s : State) :
    ppuDataAfterRead s = { ppuBusAfterRead s s.ppu.bufferAddr with
      ppu := { s.ppu with readBuffer := ppuBusValue s s.ppu.bufferAddr, v := s.ppu.nextV } } := by
  simp [ppuDataAfterRead, ppuBusRead]

theorem region_ram {a : Addr} (h : a.toNat < 0x2000) : region a = .ram (a.toNat % 0x800) := if_pos h

theorem region_ppu {a : Addr} (h : InPpuWindow a) : region a = .ppu (a.toNat % 8) := by
  unfold region
  rw [if_neg (by have := h.1; omega), if_pos h.2]

theorem region_open {a : Addr} (h1 : ¬ a.toNat < 0x2000) (h2 : ¬ a.toNat < 0x4000) (h4 : a ≠ 0x4014)
    (h6 : a ≠ 0x4016) (h7 : a ≠ 0x4017) : region a = .open' := by
  unfold region
  rw [if_neg h1, if_neg h2, if_neg h4, if_neg h6, if_neg h7]

/-- The regions of the address map, by address. -/
theorem region_cases (a : Addr) :
    (a.toNat < 0x2000 ∧ region a = .ram (a.toNat % 0x800)) ∨ (SelectsPpuReg a (a.toNat % 8) ∧ region a = .ppu (a.toNat % 8)) ∨
    (a = 0x4014 ∧ region a = .oamDma) ∨ (a = 0x4016 ∧ region a = .port0) ∨ (a = 0x4017 ∧ region a = .port1) ∨
    region a = .open' := by
  by_cases h1 : a.toNat < 0x2000
  · exact .inl ⟨h1, region_ram h1⟩
  · by_cases h2 : a.toNat < 0x4000
    · have hw : InPpuWindow a := ⟨by omega, h2⟩
      exact .inr (.inl ⟨⟨hw, rfl⟩, region_ppu hw⟩)
    · by_cases h4 : a = 0x4014
      · subst h4; exact .inr (.inr (.inl ⟨rfl, rfl⟩))
      · by_cases h6 : a = 0x4016
        · subst h6; exact .inr (.inr (.inr (.inl ⟨rfl, rfl⟩)))
        · by_cases h7 : a = 0x4017
          · subst h7; exact .inr (.inr (.inr (.inr (.inl ⟨rfl, rfl⟩))))
          · exact .inr (.inr (.inr (.inr (.inr (region_open h1 h2 h4 h6 h7)))))

/-- The device a read reaches. -/
theorem internalAfterRead_cases (s : State) (a : Addr) :
    (∃ n, SelectsPpuReg a n ∧ internalAfterRead s a = ppuRegAfterRead n s) ∨
    (a = 0x4016 ∧ internalAfterRead s a = { s with ctl := { s.ctl with count0 := s.ctl.nextCount s.ctl.count0 } }) ∨
    (a = 0x4017 ∧ internalAfterRead s a = { s with ctl := { s.ctl with count1 := s.ctl.nextCount s.ctl.count1 } }) ∨
    internalAfterRead s a = s := by
  unfold internalAfterRead
  rcases region_cases a with ⟨_, h⟩ | ⟨hn, h⟩ | ⟨_, h⟩ | ⟨ha, h⟩ | ⟨ha, h⟩ | h <;> rw [h]
  · exact .inr (.inr (.inr rfl))
  · exact .inl ⟨_, hn, rfl⟩
  · exact .inr (.inr (.inr rfl))
  · exact .inr (.inl ⟨ha, rfl⟩)
  · exact .inr (.inr (.inl ⟨ha, rfl⟩))
  · exact .inr (.inr (.inr rfl))

theorem ppuRegAfterRead_cases (n : Nat) (s : State) :
    (n = 2 ∧ ppuRegAfterRead n s = { s with ppu := s.ppu.afterStatusRead }) ∨
    (n = 7 ∧ ppuRegAfterRead n s = ppuDataAfterRead s) ∨ ppuRegAfterRead n s = s := by
  unfold ppuRegAfterRead
  split <;> simp

/-- What a bus read at `a` keeps. -/
structure ReadKept (a : Addr) (s t : State) : Prop where
  cpu : t.cpu = s.cpu
  micro : t.micro = s.micro
  lines : t.lines = s.lines
  faulted : t.faulted = s.faulted
  faultOpcode : t.faultOpcode = s.faultOpcode
  ram : t.ram = s.ram
  k : t.k = s.k
  frames : t.frames = s.frames
  busLog : t.busLog = s.busLog
  cart : s.KnownBoard → t.cart = s.cart
  memories : t.ppu.oam = s.ppu.oam ∧ t.ppu.palette = s.ppu.palette
  controls : SamePpuControls s t
  pads : SamePads s t
  ppu : ¬ InPpuWindow a → t.ppu = s.ppu
  count0 : a ≠ 0x4016 → t.ctl.count0 = s.ctl.count0
  count1 : a ≠ 0x4017 → t.ctl.count1 = s.ctl.count1

theorem SamePpuControls.refl (s : State) : SamePpuControls s s := ⟨SameCtrl.refl s, SameMask.refl s, rfl, rfl, rfl⟩

theorem ReadKept.refl (a : Addr) (s : State) : ReadKept a s s := by
  constructor <;> first
    | rfl | exact SamePpuControls.refl s | exact SamePads.refl s | exact fun _ => rfl | exact ⟨rfl, rfl⟩

theorem internalAfterRead_kept (s : State) (a : Addr) : ReadKept a s (internalAfterRead s a) := by
  rcases internalAfterRead_cases s a with ⟨n, hn, h⟩ | ⟨ha, h⟩ | ⟨ha, h⟩ | h
  · rw [h]
    rcases ppuRegAfterRead_cases n s with ⟨_, h⟩ | ⟨_, h⟩ | h
    · rw [h]
      constructor <;> first
        | rfl | exact SamePads.refl s | exact fun _ => rfl | exact ⟨rfl, rfl⟩
        | exact fun hw => absurd hn.1 hw
        | (constructor <;> simp [SameCtrl, SameMask, Ppu.afterStatusRead])
    · rw [h, ppuDataAfterRead_eq]
      have hb := ppuBusAfterRead_kept s s.ppu.bufferAddr
      constructor <;> first
        | exact hb.cpu | exact hb.micro | exact hb.lines | exact hb.faulted | exact hb.faultOpcode | exact hb.ram
        | exact hb.k | exact hb.frames | exact hb.busLog | exact hb.cart | exact ⟨rfl, rfl⟩
        | exact fun hw => absurd hn.1 hw
        | exact ⟨⟨rfl, rfl, rfl, rfl, rfl, rfl⟩, ⟨rfl, rfl, rfl, rfl, rfl, rfl, rfl, rfl⟩, rfl, rfl, rfl⟩
        | simp [SamePads, hb.ctl]
    · rw [h]; exact ReadKept.refl a s
  · rw [h]
    constructor <;> first
      | rfl | exact ⟨SameCtrl.refl s, SameMask.refl s, rfl, rfl, rfl⟩ | exact fun _ => rfl | exact ⟨rfl, rfl⟩
      | exact fun h => absurd ha h | exact ⟨rfl, rfl, rfl, rfl, rfl⟩
  · rw [h]
    constructor <;> first
      | rfl | exact ⟨SameCtrl.refl s, SameMask.refl s, rfl, rfl, rfl⟩ | exact fun _ => rfl | exact ⟨rfl, rfl⟩
      | exact fun h => absurd ha h | exact ⟨rfl, rfl, rfl, rfl, rfl⟩
  · rw [h]; exact ReadKept.refl a s

theorem busAfterRead_kept (s : State) (a : Addr) : ReadKept a s (busAfterRead s a) := by
  have h := internalAfterRead_kept s a
  unfold busAfterRead
  exact { h with cart := fun hs => (Cart.cpuAfterRead_known (KnownBoard.of_cart (h.cart hs) hs) a).trans (h.cart hs)
                 controls := ⟨h.controls.ctrl, h.controls.mask, h.controls.oamAddr, h.controls.scroll,
                   h.controls.fineX⟩ }

/-- A bus read, inside a store's own action or as an access of the CPU. -/
theorem ReadKept.touched {a : Addr} {s t : State} (E : Addr → Prop) (l : List BusAccess) (h : ReadKept a s t)
    (hl : (∃ v, .read a v ∈ l) ∨ E 0x4014) : Touched E s { t with busLog := l.reverse ++ s.busLog } l where
  trace := rfl
  faulted := ⟨h.faulted, h.faultOpcode⟩
  lines := by simp [h.lines]
  pendNmi := by simp [h.lines]
  frames := by simp [h.frames]
  board := fun hs => KnownBoard.of_cart (s := s) (h.cart hs) hs
  ram := fun a _ => by simp [h.ram]
  oam := fun _ a => by simp [h.memories.1]
  palette := fun _ a => by simp [h.memories.2]
  cart := fun _ => h.cart
  pads := fun _ => h.pads
  ctrl := fun _ => h.controls.ctrl
  mask := fun _ => h.controls.mask
  oamAddr := fun _ => h.controls.oamAddr
  scroll := fun _ => h.controls.scroll
  fineX := fun _ => h.controls.fineX
  effects := fun hE => by
    rcases hl with ⟨v, hv⟩ | hd
    · refine ⟨fun hw => ?_, fun h0 => h.count0 ?_, fun h1 => h.count1 ?_⟩
      · have hp := h.ppu (hw a v hv)
        simp [hp]
      · rintro rfl; exact h0 v hv
      · rintro rfl; exact h1 v hv
    · exact absurd rfl (hE _ hd).2.1

/-- `MemRead` at `a`. -/
theorem memRead_touched (E : Addr → Prop) (a : Addr) (s : State) :
    Touched E s (memRead a s).2 [.read a (s.peek a)] := by
  have h := busAfterRead_kept s a
  have ht := h.touched E [.read a (s.peek a)] (.inl ⟨s.peek a, List.mem_singleton.mpr rfl⟩)
  have e : (memRead a s).2 = { busAfterRead s a with busLog := [BusAccess.read a (s.peek a)].reverse ++ s.busLog } := by
    simp [memRead, busRead, State.record, h.busLog]
  rw [e]; exact ht

@[simp] theorem memRead_cpu (a : Addr) (s : State) : (memRead a s).2.cpu = s.cpu := (busAfterRead_kept s a).cpu

@[simp] theorem memRead_micro (a : Addr) (s : State) : (memRead a s).2.micro = s.micro := (busAfterRead_kept s a).micro

@[simp] theorem memRead_k (a : Addr) (s : State) : (memRead a s).2.k = s.k := (busAfterRead_kept s a).k

@[simp] theorem memRead_lines (a : Addr) (s : State) : (memRead a s).2.lines = s.lines := (busAfterRead_kept s a).lines

@[simp] theorem memRead_faulted (a : Addr) (s : State) : (memRead a s).2.faulted = s.faulted :=
  (busAfterRead_kept s a).faulted

/-! ## Writes -/

/-- The cases of a CPU write's internal action. -/
theorem internalWrite_cases (a : Addr) (v : Byte) (s : State) :
    (a.toNat < 0x2000 ∧ internalWrite a v s = { s with ram := s.ram.write (a.toNat % 0x800) v }) ∨
    (∃ n, SelectsPpuReg a n ∧ internalWrite a v s = ppuRegWrite n v s) ∨
    (a = 0x4014 ∧ internalWrite a v s = oamDma v s) ∨
    (a = 0x4016 ∧ internalWrite a v s = { s with ctl := s.ctl.writeStrobe (bitOf v 0) }) ∨
    internalWrite a v s = s := by
  unfold internalWrite
  rcases region_cases a with ⟨ha, h⟩ | ⟨hn, h⟩ | ⟨ha, h⟩ | ⟨ha, h⟩ | ⟨ha, h⟩ | h <;> rw [h]
  · exact .inl ⟨ha, rfl⟩
  · exact .inr (.inl ⟨_, hn, rfl⟩)
  · exact .inr (.inr (.inl ⟨ha, rfl⟩))
  · exact .inr (.inr (.inr (.inl ⟨ha, rfl⟩)))
  · exact .inr (.inr (.inr (.inr rfl)))
  · exact .inr (.inr (.inr (.inr rfl)))

/-- A write to a PPU register that changes the PPU alone. -/
theorem Touched.of_ppuReg {a : Addr} {n : Nat} (hn : SelectsPpuReg a n) {s : State} {p : Ppu}
    (oam : n ≠ 4 → p.oam = s.ppu.oam) (palette : n ≠ 7 → p.palette = s.ppu.palette)
    (ctrl : n ≠ 0 → SameCtrl s { s with ppu := p }) (mask : n ≠ 1 → SameMask s { s with ppu := p })
    (oamAddr : n ≠ 3 → n ≠ 4 → p.oamAddr = s.ppu.oamAddr)
    (scroll : n ≠ 0 → n ≠ 5 → n ≠ 6 → p.t = s.ppu.t) (fineX : n ≠ 5 → p.x = s.ppu.x) :
    Touched (· = a) s { s with ppu := p } [] := by
  have key : ∀ m, (∀ ea, ea = a → ¬ SelectsPpuReg ea m) → n ≠ m := fun m h e => h a rfl (e ▸ hn)
  exact
    { trace := Trace.refl s
      faulted := ⟨rfl, rfl⟩
      lines := rfl
      pendNmi := id
      frames := Nat.le_refl _
      board := KnownBoard.of_cart rfl
      ram := fun _ _ => rfl
      oam := fun h b => by rw [oam (key 4 fun ea he => (h ea he).2)]
      palette := fun h b => by rw [palette (key 7 h)]
      cart := fun _ _ => rfl
      pads := fun _ => SamePads.refl s
      ctrl := fun h => ctrl (key 0 h)
      mask := fun h => mask (key 1 h)
      oamAddr := fun h => oamAddr (key 3 fun ea he => (h ea he).1) (key 4 fun ea he => (h ea he).2)
      scroll := fun h => scroll (key 0 fun ea he => (h ea he).1) (key 5 fun ea he => (h ea he).2.1)
        (key 6 fun ea he => (h ea he).2.2)
      fineX := fun h => fineX (key 5 h)
      effects := fun h => absurd hn.1 (h a rfl).1 }

theorem ppuDataWrite_touched {a : Addr} (h7 : SelectsPpuReg a 7) (v : Byte) (s : State) :
    Touched (· = a) s (ppuDataWrite v s) [] := by
  unfold ppuDataWrite ppuBusWrite
  dsimp only
  split
  · refine Touched.of_ppuReg h7 ?_ ?_ ?_ ?_ ?_ ?_ ?_ <;> simp [SameCtrl, SameMask]
  · refine
    { trace := Trace.refl s
      faulted := ⟨rfl, rfl⟩
      lines := rfl
      pendNmi := id
      frames := Nat.le_refl _
      board := fun hs st => ?_
      ram := fun _ _ => rfl
      oam := fun _ _ => rfl
      palette := fun _ _ => rfl
      cart := fun h => absurd h7 (h a rfl)
      pads := fun _ => SamePads.refl s
      ctrl := fun _ => SameCtrl.refl s
      mask := fun _ => SameMask.refl s
      oamAddr := fun _ => rfl
      scroll := fun _ => rfl
      fineX := fun _ => rfl
      effects := fun h => absurd h7.1 (h a rfl).1 }
    show Cart.ppuAfterWrite s.cart _ _ ≠ _
    cases hc : s.cart with
    | mapper st' => exact absurd hc (hs st')
    | absent => simp [Cart.ppuAfterWrite]
    | flat prg vram => simp [Cart.ppuAfterWrite]

theorem writeScroll_cases (p : Ppu) (v : Byte) : ∃ t x w, p.writeScroll v = { p with t := t, x := x, w := w } := by
  unfold Ppu.writeScroll
  split <;> exact ⟨_, _, _, rfl⟩

theorem writeAddr_cases (p : Ppu) (v : Byte) : ∃ t v' w, p.writeAddr v = { p with t := t, v := v', w := w } := by
  unfold Ppu.writeAddr
  split <;> exact ⟨_, _, _, rfl⟩

theorem ppuRegWrite_touched {a : Addr} {n : Nat} (hn : SelectsPpuReg a n) (v : Byte) (s : State) :
    Touched (· = a) s (ppuRegWrite n v s) [] := by
  unfold ppuRegWrite
  split
  · refine Touched.of_ppuReg hn ?_ ?_ ?_ ?_ ?_ ?_ ?_ <;> simp [Ppu.writeCtrl, SameMask]
  · refine Touched.of_ppuReg hn ?_ ?_ ?_ ?_ ?_ ?_ ?_ <;> simp [Ppu.writeMask, SameCtrl]
  · refine Touched.of_ppuReg hn ?_ ?_ ?_ ?_ ?_ ?_ ?_ <;> simp [Ppu.writeOamAddr, SameCtrl, SameMask]
  · refine Touched.of_ppuReg hn ?_ ?_ ?_ ?_ ?_ ?_ ?_ <;> simp [Ppu.writeOamData, SameCtrl, SameMask]
  · obtain ⟨t, x, w, e⟩ := writeScroll_cases s.ppu v
    rw [e]
    refine Touched.of_ppuReg hn ?_ ?_ ?_ ?_ ?_ ?_ ?_ <;> simp [SameCtrl, SameMask]
  · obtain ⟨t, x, w, e⟩ := writeAddr_cases s.ppu v
    rw [e]
    refine Touched.of_ppuReg hn ?_ ?_ ?_ ?_ ?_ ?_ ?_ <;> simp [SameCtrl, SameMask]
  · exact ppuDataWrite_touched hn v s
  · exact Touched.refl _ s

theorem oamDmaByte_touched (page : Byte) (s : State) (i : Nat) :
    Touched (· = 0x4014) s (oamDmaByte page s i) [] := by
  unfold oamDmaByte
  dsimp only [busRead]
  have h := busAfterRead_kept s (word page (BitVec.ofNat 8 i))
  have ht := h.touched (· = 0x4014) [] (.inr rfl)
  refine Touched.trans (l := []) ht ?_
  generalize busAfterRead s (word page (BitVec.ofNat 8 i)) = t at h ht
  exact
    { trace := by simp [Trace, h.busLog]
      faulted := ⟨rfl, rfl⟩
      lines := rfl
      pendNmi := id
      frames := Nat.le_refl _
      board := KnownBoard.of_cart rfl
      ram := fun _ _ => rfl
      oam := fun h => absurd rfl (h _ rfl).1
      palette := fun _ _ => rfl
      cart := fun _ _ => rfl
      pads := fun _ => ⟨rfl, rfl, rfl, rfl, rfl⟩
      ctrl := fun _ => ⟨rfl, rfl, rfl, rfl, rfl, rfl⟩
      mask := fun _ => ⟨rfl, rfl, rfl, rfl, rfl, rfl, rfl, rfl⟩
      oamAddr := fun _ => rfl
      scroll := fun _ => rfl
      fineX := fun _ => rfl
      effects := fun h => absurd rfl (h _ rfl).2.1 }

theorem foldl_touched {α : Type} (E : Addr → Prop) (f : State → α → State) (hf : ∀ s a, Touched E s (f s a) [])
    (l : List α) (s : State) : Touched E s (l.foldl f s) [] := by
  induction l generalizing s with
  | nil => exact Touched.refl E s
  | cons a l ih => exact (hf s a).trans (ih _)

theorem internalWrite_touched (a : Addr) (v : Byte) (s : State) : Touched (· = a) s (internalWrite a v s) [] := by
  rcases internalWrite_cases a v s with ⟨ha, h⟩ | ⟨n, hn, h⟩ | ⟨ha, h⟩ | ⟨ha, h⟩ | h
  · rw [h]
    exact
      { trace := Trace.refl s
        faulted := ⟨rfl, rfl⟩
        lines := rfl
        pendNmi := id
        frames := Nat.le_refl _
        board := KnownBoard.of_cart rfl
        ram := fun b hb => Memory.read_write_of_ne _ _ (hb a rfl ha)
        oam := fun _ _ => rfl
        palette := fun _ _ => rfl
        cart := fun _ _ => rfl
        pads := fun _ => SamePads.refl s
        ctrl := fun _ => SameCtrl.refl s
        mask := fun _ => SameMask.refl s
        oamAddr := fun _ => rfl
        scroll := fun _ => rfl
        fineX := fun _ => rfl
        effects := fun _ => ⟨fun _ => ⟨rfl, rfl, fun _ => rfl⟩, fun _ => rfl, fun _ => rfl⟩ }
  · rw [h]; exact ppuRegWrite_touched hn v s
  · rw [h, ha]; exact foldl_touched _ _ (oamDmaByte_touched v) _ s
  · rw [h]
    exact
      { trace := Trace.refl s
        faulted := ⟨rfl, rfl⟩
        lines := rfl
        pendNmi := id
        frames := Nat.le_refl _
        board := KnownBoard.of_cart rfl
        ram := fun _ _ => rfl
        oam := fun _ _ => rfl
        palette := fun _ _ => rfl
        cart := fun _ _ => rfl
        pads := fun h => absurd ha (h a rfl)
        ctrl := fun _ => SameCtrl.refl s
        mask := fun _ => SameMask.refl s
        oamAddr := fun _ => rfl
        scroll := fun _ => rfl
        fineX := fun _ => rfl
        effects := fun h => absurd ha (h a rfl).2.2 }
  · rw [h]; exact Touched.refl _ s

/-- `MemWrite` at `a`. -/
theorem memWrite_touched (a : Addr) (v : Byte) (s : State) : Touched (· = a) s (memWrite a v s) [.write a v] := by
  have h := internalWrite_touched a v s
  refine Touched.trans (l := []) h ?_
  unfold memWrite busWrite
  dsimp only
  generalize internalWrite a v s = t
  refine
    { trace := by simp [Trace]
      faulted := ⟨rfl, rfl⟩
      lines := rfl
      pendNmi := id
      frames := Nat.le_refl _
      board := fun hs => ?_
      ram := fun _ _ => rfl
      oam := fun _ _ => rfl
      palette := fun _ _ => rfl
      cart := fun _ hs => Cart.cpuAfterWrite_known hs a v
      pads := fun _ => SamePads.refl t
      ctrl := fun _ => SameCtrl.refl t
      mask := fun _ => SameMask.refl t
      oamAddr := fun _ => rfl
      scroll := fun _ => rfl
      fineX := fun _ => rfl
      effects := fun _ => ⟨fun _ => ⟨rfl, rfl, fun _ => rfl⟩, fun _ => rfl, fun _ => rfl⟩ }
  exact KnownBoard.of_cart (Cart.cpuAfterWrite_known hs a v) hs

/-- A byte written to RAM is there. -/
theorem memWrite_stored {a : Addr} (v : Byte) (s : State) (h : a.toNat < 0x2000) :
    (memWrite a v s).ram.read (a.toNat % 0x800) = v := by
  unfold memWrite busWrite internalWrite region
  simp [h]

/-- What a CPU write keeps whatever its address. -/
structure WriteKept (s t : State) : Prop where
  cpu : t.cpu = s.cpu
  micro : t.micro = s.micro
  lines : t.lines = s.lines
  k : t.k = s.k

theorem WriteKept.refl (s : State) : WriteKept s s := ⟨rfl, rfl, rfl, rfl⟩

theorem internalWrite_kept (a : Addr) (v : Byte) (s : State) : WriteKept s (internalWrite a v s) := by
  rcases internalWrite_cases a v s with ⟨_, h⟩ | ⟨n, hn, h⟩ | ⟨_, h⟩ | ⟨_, h⟩ | h <;> rw [h]
  · exact ⟨rfl, rfl, rfl, rfl⟩
  · unfold ppuRegWrite
    split <;> first
      | exact ⟨rfl, rfl, rfl, rfl⟩
      | (unfold ppuDataWrite ppuBusWrite; dsimp only; split <;> exact ⟨rfl, rfl, rfl, rfl⟩)
  · unfold oamDma
    clear h
    generalize List.range 256 = l
    induction l generalizing s with
    | nil => exact WriteKept.refl s
    | cons i l ih =>
      have hk := busAfterRead_kept s (word v (BitVec.ofNat 8 i))
      have hi := ih (oamDmaByte v s i)
      exact ⟨hi.cpu.trans hk.cpu, hi.micro.trans hk.micro, hi.lines.trans hk.lines, hi.k.trans hk.k⟩
  · exact ⟨rfl, rfl, rfl, rfl⟩
  · exact WriteKept.refl s

@[simp] theorem memWrite_cpu (a : Addr) (v : Byte) (s : State) : (memWrite a v s).cpu = s.cpu :=
  (internalWrite_kept a v s).cpu

@[simp] theorem memWrite_micro (a : Addr) (v : Byte) (s : State) : (memWrite a v s).micro = s.micro :=
  (internalWrite_kept a v s).micro

@[simp] theorem memWrite_lines (a : Addr) (v : Byte) (s : State) : (memWrite a v s).lines = s.lines :=
  (internalWrite_kept a v s).lines

@[simp] theorem memWrite_k (a : Addr) (v : Byte) (s : State) : (memWrite a v s).k = s.k :=
  (internalWrite_kept a v s).k

end Sys2Proof.Machine
end

