-- ==== Sys2Proof/Laws/Cycles.lean ====
section
/-! SUPPORT. What the cycles of each addressing mode and class do, once for every mode: the bus trace, the registers, and
the frame (40_cycle_engine.md R150 to R163). -/

namespace Sys2Proof.Machine

/-! ## Runs that store nothing -/

/-- The accesses `l` are reads, they stored nothing, and those of plain memory gave what memory holds. -/
structure Ran (s t : State) (l : List BusAccess) : Prop where
  touched : Touched Nowhere s t l
  reads : ReadsMemory s l

theorem Touched.peek_eq {E : Addr → Prop} {s t : State} {l : List BusAccess} (h : Touched E s t l) {a : Addr}
    (ha : s.PlainAt a) (hE : ∀ ea, E ea → ¬ SelectsPpuReg ea 7)
    (hr : a.toNat < 0x2000 → ∀ ea, E ea → ea.toNat < 0x2000 → a.toNat % 0x800 ≠ ea.toNat % 0x800) :
    t.peek a = s.peek a := by
  unfold State.peek
  rw [h.cart hE ha.1]
  congr 1
  unfold internalValue
  by_cases h1 : a.toNat < 0x2000
  · rw [region_ram h1]; exact h.ram _ (hr h1)
  · have h2 : 0x4020 ≤ a.toNat := ha.2.resolve_left h1
    rw [region_open h1 (by omega) (by rintro rfl; simp at h2) (by rintro rfl; simp at h2) (by rintro rfl; simp at h2)]

theorem Touched.plainAt {E : Addr → Prop} {s t : State} {l : List BusAccess} (h : Touched E s t l) {a : Addr}
    (ha : s.PlainAt a) : t.PlainAt a := ⟨h.board ha.1, ha.2⟩

theorem Ran.peek_eq {s t : State} {l : List BusAccess} (h : Ran s t l) {a : Addr} (ha : s.PlainAt a) :
    t.peek a = s.peek a := h.touched.peek_eq ha (fun _ h => h.elim) (fun _ _ h => h.elim)

theorem ReadsMemory.append {E : Addr → Prop} {s t : State} {l l' k : List BusAccess} (h : ReadsMemory s l)
    (ht : Touched E s t k) (h' : ReadsMemory t l') (hp : ∀ a v, .read a v ∈ l' → s.PlainAt a → t.peek a = s.peek a) :
    ReadsMemory s (l ++ l') := fun a v hv ha => by
  rcases List.mem_append.mp hv with hv | hv
  · exact h a v hv ha
  · rw [← hp a v hv ha]; exact h' a v hv (ht.plainAt ha)

theorem Ran.refl (s : State) : Ran s s [] := ⟨Touched.refl _ s, fun _ _ h => by simp at h⟩

theorem Ran.trans {s t u : State} {l l' : List BusAccess} (h : Ran s t l) (h' : Ran t u l') : Ran s u (l ++ l') :=
  ⟨h.touched.trans h'.touched, h.reads.append h.touched h'.reads fun _ _ _ ha => h.peek_eq ha⟩

theorem Ran.read (a : Addr) (s : State) : Ran s (memRead a s).2 [.read a (s.peek a)] :=
  ⟨memRead_touched _ a s, fun b v h _ => by simp at h; rw [h.1, h.2]⟩

theorem Ran.dots (s : State) : Ran s (dotsToCpuTick s) [] :=
  ⟨dotsToCpuTick_touched _ s, fun _ _ h => by simp at h⟩

theorem Ran.deliver (s : State) : Ran s (deliver s) [] := ⟨deliver_touched _ s, fun _ _ h => by simp at h⟩

theorem Ran.regs (s : State) (r : Cpu) (m : Micro) : Ran s { s with cpu := r, micro := m } [] :=
  ⟨Touched.of_regs _ s r m, fun _ _ h => by simp at h⟩

/-- A change of registers and latches after a run. -/
theorem Ran.then_regs {s t : State} {l : List BusAccess} (h : Ran s t l) (r : Cpu) (m : Micro) :
    Ran s { t with cpu := r, micro := m } l := by
  have := h.trans (Ran.regs t r m)
  rwa [List.append_nil] at this

/-- A cycle that does not retire, as the tick loop runs it. -/
def stepped (f : State → State) (s : State) : State := Machine.deliver (f (dotsToCpuTick s)).nextCycle

theorem runCycles_goes (i : Instr) (f : State → State) (cs : List Cycle) (s : State) :
    runCycles i (goes f :: cs) s = runCycles i cs (stepped f s) := rfl

theorem runCycles_retires (i : Instr) (f : State → State) (cs : List Cycle) (s : State) :
    runCycles i (retires f :: cs) s = .next (Machine.deliver ((f (dotsToCpuTick s)).retire i s.cpu.i)) := by
  simp [runCycles, retires]

theorem runCycles_map_goes (i : Instr) (fs : List (State → State)) (cs : List Cycle) (s : State) :
    runCycles i (fs.map goes ++ cs) s = runCycles i cs (runAddrSteps fs s) := by
  induction fs generalizing s with
  | nil => rfl
  | cons f fs ih => exact ih (stepped f s)

theorem runAddrSteps_cons (f : State → State) (fs : List (State → State)) (s : State) :
    runAddrSteps (f :: fs) s = runAddrSteps fs (stepped f s) := rfl

@[simp] theorem runAddrSteps_nil (s : State) : runAddrSteps [] s = s := rfl

theorem runAddrSteps_append (fs gs : List (State → State)) (s : State) :
    runAddrSteps (fs ++ gs) s = runAddrSteps gs (runAddrSteps fs s) := by
  induction fs generalizing s with
  | nil => rfl
  | cons f fs ih => exact ih (stepped f s)

/-- A cycle that makes one read and changes registers and latches. -/
theorem stepped_read {f : State → State} {a : State → Addr} {r : State → Byte → Cpu} {m : State → Byte → Micro}
    (hf : ∀ s, f s = { (memRead (a s) s).2 with cpu := r s (s.peek (a s)), micro := m s (s.peek (a s)) })
    (ha : ∀ s, a (dotsToCpuTick s) = a s) (s : State) :
    ∃ v, Ran s (stepped f s) [.read (a s) v] ∧ (stepped f s).cpu = r (dotsToCpuTick s) v ∧
      (stepped f s).micro = { m (dotsToCpuTick s) v with cyc := (m (dotsToCpuTick s) v).cyc + 1 } := by
  refine ⟨(dotsToCpuTick s).peek (a s), ?_, ?_, ?_⟩
  · have h := (((Ran.dots s).trans (Ran.read (a s) (dotsToCpuTick s))).then_regs
      (f (dotsToCpuTick s)).nextCycle.cpu (f (dotsToCpuTick s)).nextCycle.micro).trans (Ran.deliver _)
    have e : stepped f s = Machine.deliver { (memRead (a s) (dotsToCpuTick s)).2 with
        cpu := (f (dotsToCpuTick s)).nextCycle.cpu, micro := (f (dotsToCpuTick s)).nextCycle.micro } := by
      unfold stepped
      rw [hf, ha]
      rfl
    rw [e]
    simpa using h
  · simp [stepped, hf, ha]
  · simp [stepped, hf, ha]

/-! ## The address cycles -/

theorem word_eq (h l : Byte) : word h l = h ++ l := rfl

theorem zeroPage_eq (b : Byte) : zeroPage b = zpAddr b := rfl

theorem append_toNat (h l : Byte) : (h ++ l : Addr).toNat = h.toNat * 256 + l.toNat := by
  have e : (h ++ l : Addr).toNat = h.toNat <<< 8 ||| l.toNat := BitVec.toNat_append h l
  rw [e, ← Nat.shiftLeft_add_eq_or_of_lt l.isLt, Nat.shiftLeft_eq]

@[simp] theorem lo_append (h l : Byte) : lo (h ++ l : Addr) = l := by
  apply BitVec.eq_of_toNat_eq
  have := l.isLt
  simp only [lo, BitVec.toNat_setWidth, append_toNat]
  omega

@[simp] theorem hi_append (h l : Byte) : hi (h ++ l : Addr) = h := by
  apply BitVec.eq_of_toNat_eq
  have := l.isLt
  have := h.isLt
  simp only [hi, BitVec.toNat_setWidth, BitVec.toNat_ushiftRight, append_toNat, Nat.shiftRight_eq_div_pow]
  omega

/-- Correcting the high byte gives the indexed address. -/
theorem fixed_addr (low high index : Byte) :
    (if decide (256 ≤ low.toNat + index.toNat) = true then uncarriedAddr low high index + 0x100
      else uncarriedAddr low high index) = indexedAddr low high index := by
  apply BitVec.eq_of_toNat_eq
  have := low.isLt
  have := high.isLt
  have := index.isLt
  unfold uncarriedAddr indexedAddr
  split <;> simp_all [append_toNat, BitVec.toNat_add, BitVec.toNat_setWidth] <;> omega

theorem lo_zpAddr (b : Byte) : lo (zpAddr b) = b := lo_append 0 b

/-- Fetching the low operand byte (R152, R154). -/
theorem stepped_fetchLow (s : State) : ∃ v, Ran s (stepped fetchLow s) [.read s.cpu.pc v] ∧
    (stepped fetchLow s).cpu = { s.cpu with pc := s.cpu.pc + 1 } ∧ (stepped fetchLow s).micro.al = zpAddr v := by
  obtain ⟨v, h, hc, hm⟩ := stepped_read (f := fetchLow) (a := fun s => s.cpu.pc)
    (r := fun s _ => { s.cpu with pc := s.cpu.pc + 1 }) (m := fun s v => { s.micro with al := zpAddr v })
    (fun s => by simp [fetchLow, fetchByte, State.setAl, zeroPage_eq]) (fun s => by simp) s
  exact ⟨v, h, by simpa using hc, by simp [hm]⟩

/-- The dummy read and the index inside the zero page (R153). -/
theorem stepped_indexZeroPage (m : Mode) (s : State) : ∃ v,
    Ran s (stepped (indexZeroPage m) s) [.read s.micro.al v] ∧ (stepped (indexZeroPage m) s).cpu = s.cpu ∧
    (stepped (indexZeroPage m) s).micro.al = zpAddr (lo s.micro.al + indexReg m s.cpu) := by
  obtain ⟨v, h, hc, hm⟩ := stepped_read (f := indexZeroPage m) (a := fun s => s.micro.al) (r := fun s _ => s.cpu)
    (m := fun s _ => { s.micro with al := zpAddr (lo s.micro.al + indexReg m s.cpu) })
    (fun s => by simp [indexZeroPage, dummyRead, State.setAl, zeroPage_eq]) (fun s => by simp) s
  exact ⟨v, h, by simpa using hc, by simp [hm]⟩

/-- Fetching the high operand byte (R154). -/
theorem stepped_fetchHigh (s : State) : ∃ v, Ran s (stepped fetchHigh s) [.read s.cpu.pc v] ∧
    (stepped fetchHigh s).cpu = { s.cpu with pc := s.cpu.pc + 1 } ∧
    (stepped fetchHigh s).micro.al = v ++ lo s.micro.al := by
  obtain ⟨v, h, hc, hm⟩ := stepped_read (f := fetchHigh) (a := fun s => s.cpu.pc)
    (r := fun s _ => { s.cpu with pc := s.cpu.pc + 1 }) (m := fun s v => { s.micro with al := v ++ lo s.micro.al })
    (fun s => by simp [fetchHigh, fetchByte, State.setAl, word_eq]) (fun s => by simp) s
  exact ⟨v, h, by simpa using hc, by simp [hm]⟩

/-- Fetching the high operand byte and adding the index (R155, R156, R157). -/
theorem stepped_fetchHighIndexed (m : Mode) (s : State) : ∃ v,
    Ran s (stepped (fetchHighIndexed m) s) [.read s.cpu.pc v] ∧
    (stepped (fetchHighIndexed m) s).cpu = { s.cpu with pc := s.cpu.pc + 1 } ∧
    (stepped (fetchHighIndexed m) s).micro.al = uncarriedAddr (lo s.micro.al) v (indexReg m s.cpu) ∧
    (stepped (fetchHighIndexed m) s).micro.bx = decide (256 ≤ (lo s.micro.al).toNat + (indexReg m s.cpu).toNat) ∧
    (stepped (fetchHighIndexed m) s).micro.ol = v := by
  have hreg : ∀ (r : Cpu) (p : Addr), indexReg m { r with pc := p } = indexReg m r := fun r p => by cases m <;> rfl
  obtain ⟨v, h, hc, hm⟩ := stepped_read (f := fetchHighIndexed m) (a := fun s => s.cpu.pc)
    (r := fun s _ => { s.cpu with pc := s.cpu.pc + 1 })
    (m := fun s v => { s.micro with
      al := uncarriedAddr (lo s.micro.al) v (indexReg m s.cpu)
      bx := decide (256 ≤ (lo s.micro.al).toNat + (indexReg m s.cpu).toNat)
      ol := v })
    (fun s => by
      simp [fetchHighIndexed, fetchByte, indexAddr, indexLow, State.setAl, State.setBx, State.setOl, word_eq,
        uncarriedAddr, hreg])
    (fun s => by simp) s
  exact ⟨v, h, by simpa using hc, by simp [hm], by simp [hm], by simp [hm]⟩

/-- The dummy read at the uncorrected address, and the correction (R155 to R157, R162, R163). -/
theorem stepped_fixHigh (s : State) : ∃ v, Ran s (stepped fixHigh s) [.read s.micro.al v] ∧
    (stepped fixHigh s).cpu = s.cpu ∧
    (stepped fixHigh s).micro.al = (if s.micro.bx = true then s.micro.al + 0x100 else s.micro.al) ∧
    (stepped fixHigh s).micro.ol = s.micro.ol ∧ (stepped fixHigh s).micro.bx = s.micro.bx := by
  obtain ⟨v, h, hc, hm⟩ := stepped_read (f := fixHigh) (a := fun s => s.micro.al) (r := fun s _ => s.cpu)
    (m := fun s _ => { s.micro with al := if s.micro.bx = true then s.micro.al + 0x100 else s.micro.al })
    (fun s => by
      unfold fixHigh dummyRead
      by_cases hb : s.micro.bx = true
      · simp [hb, State.setAl]
      · have key : ∀ t : State, t.cpu = s.cpu → t.micro = s.micro →
            t = { t with cpu := s.cpu, micro := { s.micro with al := s.micro.al } } := fun t hc hm => by rw [← hc, ← hm]
        simp only [memRead_micro, if_neg hb]
        exact key _ (memRead_cpu _ s) (memRead_micro _ s))
    (fun s => by simp) s
  exact ⟨v, h, by simpa using hc, by simp [hm], by simp [hm], by simp [hm]⟩

/-- Fetching a zero-page pointer (R160, R162). -/
theorem stepped_fetchPointer (s : State) : ∃ v, Ran s (stepped fetchPointer s) [.read s.cpu.pc v] ∧
    (stepped fetchPointer s).cpu = { s.cpu with pc := s.cpu.pc + 1 } ∧ (stepped fetchPointer s).micro.ol = v := by
  obtain ⟨v, h, hc, hm⟩ := stepped_read (f := fetchPointer) (a := fun s => s.cpu.pc)
    (r := fun s _ => { s.cpu with pc := s.cpu.pc + 1 }) (m := fun s v => { s.micro with ol := v })
    (fun s => by simp [fetchPointer, fetchByte, State.setOl]) (fun s => by simp) s
  exact ⟨v, h, by simpa using hc, by simp [hm]⟩

/-- The dummy read of the unindexed pointer, and the index (R160). -/
theorem stepped_indexPointer (s : State) : ∃ v, Ran s (stepped indexPointer s) [.read (zpAddr s.micro.ol) v] ∧
    (stepped indexPointer s).cpu = s.cpu ∧ (stepped indexPointer s).micro.ol = s.micro.ol + s.cpu.x := by
  obtain ⟨v, h, hc, hm⟩ := stepped_read (f := indexPointer) (a := fun s => zpAddr s.micro.ol) (r := fun s _ => s.cpu)
    (m := fun s _ => { s.micro with ol := s.micro.ol + s.cpu.x })
    (fun s => by simp [indexPointer, dummyRead, State.setOl, zeroPage_eq]) (fun s => by simp) s
  exact ⟨v, h, by simpa using hc, by simp [hm]⟩

/-- The pointer's low byte (R160, R162). -/
theorem stepped_pointerLow (s : State) : ∃ v, Ran s (stepped pointerLow s) [.read (zpAddr s.micro.ol) v] ∧
    (stepped pointerLow s).cpu = s.cpu ∧ (stepped pointerLow s).micro.ol = s.micro.ol ∧
    (stepped pointerLow s).micro.al = zpAddr v := by
  obtain ⟨v, h, hc, hm⟩ := stepped_read (f := pointerLow) (a := fun s => zpAddr s.micro.ol) (r := fun s _ => s.cpu)
    (m := fun s v => { s.micro with al := zpAddr v })
    (fun s => by simp [pointerLow, State.setAl, zeroPage_eq]) (fun s => by simp) s
  exact ⟨v, h, by simpa using hc, by simp [hm], by simp [hm]⟩

/-- The pointer's high byte (R160). -/
theorem stepped_pointerHigh (s : State) : ∃ v, Ran s (stepped pointerHigh s) [.read (zpAddr (s.micro.ol + 1)) v] ∧
    (stepped pointerHigh s).cpu = s.cpu ∧ (stepped pointerHigh s).micro.al = v ++ lo s.micro.al := by
  obtain ⟨v, h, hc, hm⟩ := stepped_read (f := pointerHigh) (a := fun s => zpAddr (s.micro.ol + 1))
    (r := fun s _ => s.cpu) (m := fun s v => { s.micro with al := v ++ lo s.micro.al })
    (fun s => by simp [pointerHigh, State.setAl, zeroPage_eq, word_eq]) (fun s => by simp) s
  exact ⟨v, h, by simpa using hc, by simp [hm]⟩

/-- The pointer's high byte, with `Y` added (R162). -/
theorem stepped_pointerHighIndexed (s : State) : ∃ v,
    Ran s (stepped pointerHighIndexed s) [.read (zpAddr (s.micro.ol + 1)) v] ∧
    (stepped pointerHighIndexed s).cpu = s.cpu ∧
    (stepped pointerHighIndexed s).micro.al = uncarriedAddr (lo s.micro.al) v s.cpu.y ∧
    (stepped pointerHighIndexed s).micro.bx = decide (256 ≤ (lo s.micro.al).toNat + s.cpu.y.toNat) := by
  obtain ⟨v, h, hc, hm⟩ := stepped_read (f := pointerHighIndexed) (a := fun s => zpAddr (s.micro.ol + 1))
    (r := fun s _ => s.cpu)
    (m := fun s v => { s.micro with
      al := uncarriedAddr (lo s.micro.al) v s.cpu.y, bx := decide (256 ≤ (lo s.micro.al).toNat + s.cpu.y.toNat) })
    (fun s => by
      simp [pointerHighIndexed, indexAddr, indexLow, indexReg, State.setAl, State.setBx, zeroPage_eq, word_eq,
        uncarriedAddr])
    (fun s => by simp) s
  exact ⟨v, h, by simpa using hc, by simp [hm], by simp [hm]⟩

/-! ## The address cycles of a mode -/

/-- The modes of a memory operand with no page-crossing cycle. -/
def plainModes : List Mode := [.zp, .zpx, .zpy, .abs, .izx]

/-- The modes with an index that can carry. -/
def indexedModes : List Mode := [.abx, .aby, .izy]

/-- The register file after the operand bytes of a mode have been fetched. -/
def Cpu.fetched (r : Cpu) (m : Mode) : Cpu := { r with pc := r.pc + BitVec.ofNat 16 m.operandBytes }

/-- The address cycles of the modes without a page-crossing cycle. -/
theorem plain_addr {m : Mode} (hm : m ∈ plainModes) (s : State) : ∃ l ea,
    PlainTrace m s.cpu l ea ∧ Ran s (runAddrSteps (addrSteps m) s) l ∧
    (runAddrSteps (addrSteps m) s).cpu = s.cpu.fetched m ∧ (runAddrSteps (addrSteps m) s).micro.al = ea := by
  fin_cases hm
  · obtain ⟨v, h, hc, ha⟩ := stepped_fetchLow s
    exact ⟨_, _, ⟨v, rfl, rfl⟩, h, hc, ha⟩
  · obtain ⟨v, h, hc, ha⟩ := stepped_fetchLow s
    obtain ⟨d, h', hc', ha'⟩ := stepped_indexZeroPage .zpx (stepped fetchLow s)
    rw [hc, ha, lo_zpAddr] at ha'
    rw [ha] at h'
    exact ⟨_, _, ⟨v, d, rfl, rfl⟩, h.trans h', hc'.trans hc, ha'⟩
  · obtain ⟨v, h, hc, ha⟩ := stepped_fetchLow s
    obtain ⟨d, h', hc', ha'⟩ := stepped_indexZeroPage .zpy (stepped fetchLow s)
    rw [hc, ha, lo_zpAddr] at ha'
    rw [ha] at h'
    exact ⟨_, _, ⟨v, d, rfl, rfl⟩, h.trans h', hc'.trans hc, ha'⟩
  · obtain ⟨v, h, hc, ha⟩ := stepped_fetchLow s
    obtain ⟨w, h', hc', ha'⟩ := stepped_fetchHigh (stepped fetchLow s)
    rw [ha, lo_zpAddr] at ha'
    rw [hc] at h' hc'
    refine ⟨_, _, ⟨v, w, rfl, rfl⟩, h.trans h', hc'.trans ?_, ha'⟩
    simp [Cpu.fetched, Mode.operandBytes, BitVec.add_assoc]
  · obtain ⟨b, h, hc, ho⟩ := stepped_fetchPointer s
    obtain ⟨d, h1, hc1, ho1⟩ := stepped_indexPointer (stepped fetchPointer s)
    obtain ⟨low, h2, hc2, ho2, ha2⟩ := stepped_pointerLow (stepped indexPointer (stepped fetchPointer s))
    obtain ⟨high, h3, hc3, ha3⟩ := stepped_pointerHigh (stepped pointerLow (stepped indexPointer (stepped fetchPointer s)))
    rw [ho] at h1 ho1
    rw [hc] at ho1
    rw [ho1] at h2 ho2
    rw [ho2] at h3
    rw [ha2, lo_zpAddr] at ha3
    exact ⟨_, _, ⟨b, d, low, high, rfl, rfl⟩, ((h.trans h1).trans h2).trans h3,
      hc3.trans (hc2.trans (hc1.trans hc)), ha3⟩

/-- The address cycles of an indexed mode, before the correcting cycle. -/
theorem indexed_addr {m : Mode} (hm : m ∈ indexedModes) (s : State) : ∃ base low high index,
    BaseTrace m s.cpu base low high index ∧ Ran s (runAddrSteps (addrSteps m) s) base ∧
    (runAddrSteps (addrSteps m) s).cpu = s.cpu.fetched m ∧
    (runAddrSteps (addrSteps m) s).micro.al = uncarriedAddr low high index ∧
    (runAddrSteps (addrSteps m) s).micro.bx = decide (256 ≤ low.toNat + index.toNat) ∧
    (m ≠ .izy → (runAddrSteps (addrSteps m) s).micro.ol = high) := by
  fin_cases hm
  · obtain ⟨low, h, hc, ha⟩ := stepped_fetchLow s
    obtain ⟨high, h', hc', ha', hb', ho'⟩ := stepped_fetchHighIndexed .abx (stepped fetchLow s)
    rw [ha, lo_zpAddr, hc] at ha' hb'
    rw [hc] at h' hc'
    refine ⟨_, low, high, s.cpu.x, ⟨rfl, rfl⟩, h.trans h', hc'.trans ?_, ha', hb', fun _ => ho'⟩
    simp [Cpu.fetched, Mode.operandBytes, BitVec.add_assoc]
  · obtain ⟨low, h, hc, ha⟩ := stepped_fetchLow s
    obtain ⟨high, h', hc', ha', hb', ho'⟩ := stepped_fetchHighIndexed .aby (stepped fetchLow s)
    rw [ha, lo_zpAddr, hc] at ha' hb'
    rw [hc] at h' hc'
    refine ⟨_, low, high, s.cpu.y, ⟨rfl, rfl⟩, h.trans h', hc'.trans ?_, ha', hb', fun _ => ho'⟩
    simp [Cpu.fetched, Mode.operandBytes, BitVec.add_assoc]
  · obtain ⟨b, h, hc, ho⟩ := stepped_fetchPointer s
    obtain ⟨low, h1, hc1, ho1, ha1⟩ := stepped_pointerLow (stepped fetchPointer s)
    obtain ⟨high, h2, hc2, ha2, hb2⟩ := stepped_pointerHighIndexed (stepped pointerLow (stepped fetchPointer s))
    rw [ho] at h1 ho1
    rw [ho1] at h2
    rw [ha1, lo_zpAddr, hc1, hc] at ha2 hb2
    exact ⟨_, low, high, s.cpu.y, ⟨b, rfl, rfl⟩, (h.trans h1).trans h2, hc2.trans (hc1.trans hc), ha2, hb2,
      fun h => absurd rfl h⟩

/-- The address cycles of a store or read-modify-write in an indexed mode: the correcting cycle always runs. -/
theorem indexed_store_addr {m : Mode} (hm : m ∈ indexedModes) (s : State) : ∃ base low high index d,
    BaseTrace m s.cpu base low high index ∧
    Ran s (runAddrSteps (storeAddrSteps m) s) (base ++ [.read (uncarriedAddr low high index) d]) ∧
    (runAddrSteps (storeAddrSteps m) s).cpu = s.cpu.fetched m ∧
    (runAddrSteps (storeAddrSteps m) s).micro.al = indexedAddr low high index ∧
    (runAddrSteps (storeAddrSteps m) s).micro.bx = decide (256 ≤ low.toNat + index.toNat) ∧
    (m ≠ .izy → (runAddrSteps (storeAddrSteps m) s).micro.ol = high) := by
  obtain ⟨base, low, high, index, hb, hr, hc, ha, hx, ho⟩ := indexed_addr hm s
  obtain ⟨d, h', hc', ha', ho', hx'⟩ := stepped_fixHigh (runAddrSteps (addrSteps m) s)
  have e : runAddrSteps (storeAddrSteps m) s = stepped fixHigh (runAddrSteps (addrSteps m) s) := by
    have hcr : crosses m = true := by fin_cases hm <;> rfl
    rw [storeAddrSteps, if_pos hcr, runAddrSteps_append, runAddrSteps_cons, runAddrSteps_nil]
  rw [e]
  rw [ha] at h'
  rw [ha, hx, fixed_addr] at ha'
  exact ⟨base, low, high, index, d, hb, hr.trans h', hc'.trans hc, ha', hx'.trans hx, fun hm => ho'.trans (ho hm)⟩

end Sys2Proof.Machine
end

