-- ==== Sys2Proof/Laws/Classes.lean ====
section
/-! SUPPORT. What an instruction of each class does, in every mode: it retires, with the trace, the registers and the frame
of Safety.lean's terms. -/

namespace Sys2Proof.Machine

/-! ## The frame of a finished run -/

theorem Touched.retired {E : Addr → Prop} {s w : State} {l : List BusAccess} (h : Touched E s w l) {i : Instr}
    (hi : i ≠ .brk) (b : Bool) (hk : w.k = 0) : Retired b s (deliver (w.retire i b)) := by
  have hl := h.lines
  have hp := h.pendNmi
  refine ⟨⟨rfl, rfl⟩, ?_, ?_, ⟨?_, ?_⟩, ⟨?_, ?_, ?_⟩, ?_, h.faulted, hk, ?_⟩
  · simp only [deliver_lines, State.retire_lines, if_neg hi, Lines.poll]; rw [hl]
  · simp only [deliver_lines, State.retire_lines, if_neg hi, Lines.poll]; rw [hl]
  · simp only [deliver_lines, State.retire_lines, if_neg hi, Lines.poll]; exact hp
  · simp only [deliver_lines, State.retire_lines, if_neg hi, Lines.poll]; intro hn; simp [hn]
  · simp only [deliver_lines, State.retire_lines, if_neg hi, Lines.poll]; rw [hl]
  · simp only [deliver_lines, State.retire_lines, if_neg hi, Lines.poll]; rw [hl]
  · simp only [deliver_lines, State.retire_lines, if_neg hi, Lines.poll]; intro hn; simp [hp hn]
  · simp only [deliver_lines, State.retire_lines, if_neg hi, Lines.poll]; rw [hl]
  · have := h.frames
    simp only [deliver_frames, State.retire_frames]
    split <;> omega

theorem Touched.retire_trace {E : Addr → Prop} {s w : State} {l : List BusAccess} (h : Touched E s w l) (i : Instr)
    (b : Bool) : Trace s (deliver (w.retire i b)) l := h.trace

theorem Touched.storesNothing {s w : State} {l : List BusAccess} (h : Touched Nowhere s w l) (i : Instr) (b : Bool) :
    StoresNothing s (deliver (w.retire i b)) where
  ram := fun a _ => h.ram a fun _ h => h.elim
  oam := h.oam fun _ h => h.elim
  palette := h.palette fun _ h => h.elim
  cart := h.cart fun _ h => h.elim
  pads := h.pads fun _ h => h.elim
  controls := ⟨h.ctrl fun _ h => h.elim, h.mask fun _ h => h.elim, h.oamAddr fun _ h => h.elim,
    h.scroll fun _ h => h.elim, h.fineX fun _ h => h.elim⟩

/-- The frame of a run that stored in the stack page alone. -/
theorem Touched.storesCells {E : Addr → Prop} {s w : State} {l : List BusAccess} {cells : List Nat}
    (h : Touched E s w l) (hE : ∀ ea, E ea → ea.toNat < 0x800 ∧ ea.toNat ∈ cells) (i : Instr) (b : Bool) :
    StoresCells cells s (deliver (w.retire i b)) :=
  have low : ∀ ea, E ea → ¬ InPpuWindow ea ∧ ea ≠ 0x4014 ∧ ea ≠ 0x4016 := fun ea he => by
    have := (hE ea he).1
    refine ⟨fun hw => ?_, ?_, ?_⟩
    · have := hw.1; omega
    · rintro rfl; simp at this
    · rintro rfl; simp at this
  have sel : ∀ n ea, E ea → ¬ SelectsPpuReg ea n := fun n ea he => not_selects_of_not_window n (low ea he).1
  { ram := fun a ha => h.ram a fun ea he _ e => ha (by
      have := hE ea he
      rw [e, Nat.mod_eq_of_lt this.1]; exact this.2)
    oam := h.oam fun ea he => ⟨(low ea he).2.1, sel 4 ea he⟩
    palette := h.palette (sel 7)
    cart := h.cart (sel 7)
    pads := h.pads fun ea he => (low ea he).2.2
    controls := ⟨h.ctrl (sel 0), h.mask (sel 1), h.oamAddr fun ea he => ⟨sel 3 ea he, sel 4 ea he⟩,
      h.scroll fun ea he => ⟨sel 0 ea he, sel 5 ea he, sel 6 ea he⟩, h.fineX (sel 5)⟩ }

theorem Touched.readEffects {s w : State} {l : List BusAccess} (h : Touched Nowhere s w l) (i : Instr) (b : Bool) :
    ReadEffects s (deliver (w.retire i b)) l :=
  have e := h.effects fun _ h => h.elim
  ⟨e.ppu, e.count0, e.count1⟩

theorem forall_eq_of {p : Addr → Prop} {ea : Addr} (h : p ea) : ∀ a, a = ea → p a := fun _ e => e ▸ h

/-- The frame of a run that stored at `ea` alone; `l` is the trace of its reads. -/
theorem Touched.storesAt {ea : Addr} {s w : State} {l k : List BusAccess} (h : Touched (· = ea) s w l) (byte : Byte)
    (hs : ea.toNat < 0x2000 → w.ram.read (ea.toNat % 0x800) = byte) (hl : ∀ a v, .read a v ∈ l → .read a v ∈ k)
    (i : Instr) (b : Bool) : StoresAt ea byte s (deliver (w.retire i b)) k where
  stored := hs
  ram := fun a ha => h.ram a (forall_eq_of ha)
  oam := fun h1 h2 => h.oam (forall_eq_of ⟨h1, h2⟩)
  palette := fun h7 => h.palette (forall_eq_of h7)
  cart := fun h7 => h.cart (forall_eq_of h7)
  pads := fun h1 => h.pads (forall_eq_of h1)
  ctrl := fun h0 => h.ctrl (forall_eq_of h0)
  mask := fun h1 => h.mask (forall_eq_of h1)
  oamAddr := fun h3 h4 => h.oamAddr (forall_eq_of ⟨h3, h4⟩)
  scroll := fun h0 h5 h6 => h.scroll (forall_eq_of ⟨h0, h5, h6⟩)
  fineX := fun h5 => h.fineX (forall_eq_of h5)
  reads := fun h1 h2 h3 =>
    have e := h.effects (forall_eq_of ⟨h1, h2, h3⟩)
    ⟨fun hk => e.ppu fun a v hv => hk a v (hl a v hv), fun hk => e.count0 fun v hv => hk v (hl _ v hv),
      fun hk => e.count1 fun v hv => hk v (hl _ v hv)⟩

/-! ## The end of T1 -/

/-- The machine in which the cycles of an instruction start. -/
theorem Ran.begin (i : Instr) (s : State) : Ran s (Machine.deliver (s.begin i)) [] := by
  have := (Ran.regs s s.cpu (s.begin i).micro).trans (Ran.deliver (s.begin i))
  simpa using this

theorem runInstr_wf {i : Instr} (h : WellFormed i) (cs : List Cycle) (s : State) :
    runInstr i cs s = runCycles i cs (deliver (s.begin i)) := if_pos h

/-! ## A last cycle that reads -/

theorem final_read {i : Instr} (hi : i ≠ .brk) {f : State → State} {a : Addr} {r : Byte → Cpu} {m : Byte → Micro}
    {s u : State} {l : List BusAccess} (hr : Ran s u l)
    (hf : f (dotsToCpuTick u) = { (memRead a (dotsToCpuTick u)).2 with
      cpu := r ((dotsToCpuTick u).peek a), micro := m ((dotsToCpuTick u).peek a) }) (cs : List Cycle) :
    ∃ t v, runCycles i (retires f :: cs) u = .next t ∧ Trace s t (l ++ [.read a v]) ∧ t.cpu = r v ∧
      ReadsMemory s (l ++ [.read a v]) ∧ ReadEffects s t (l ++ [.read a v]) ∧ StoresNothing s t ∧
      Retired u.cpu.i s t := by
  refine ⟨_, (dotsToCpuTick u).peek a, runCycles_retires i _ cs u, ?_⟩
  have hw := ((hr.trans (Ran.dots u)).trans (Ran.read a (dotsToCpuTick u))).then_regs
    (r ((dotsToCpuTick u).peek a)) (m ((dotsToCpuTick u).peek a))
  rw [List.append_nil] at hw
  rw [hf]
  exact ⟨hw.touched.retire_trace i _, rfl, hw.reads, hw.touched.readEffects i _, hw.touched.storesNothing i _,
    hw.touched.retired hi _ (by simp)⟩

/-! ## Class `implied` (R150) -/

theorem implied_run {i : Instr} (hi : i ≠ .brk) (hook : ImpliedHook) (s : State) :
    ∃ t, runCycles i (impliedCycles hook) (deliver (s.begin i)) = .next t ∧ ImpliedDone hook s t := by
  obtain ⟨t, v, h⟩ := final_read hi (f := fun s => (dummyRead s.cpu.pc s).mapCpu hook) (a := s.cpu.pc)
    (r := fun _ => hook s.cpu) (m := fun _ => (deliver (s.begin i)).micro) (Ran.begin i s)
    (by simp [dummyRead, State.mapCpu]) []
  exact ⟨t, h.1, v, h.2⟩

/-! ## Class `read` (R151 to R155, R160, R162) -/

/-- The operand read that ends the instruction. -/
theorem readOperand_done {i : Instr} (hi : i ≠ .brk) (hook : ReadHook) {m : Mode} {s u : State} {l : List BusAccess}
    {ea : Addr} (hr : Ran s u l) (hc : u.cpu = s.cpu.fetched m) (ha : u.micro.al = ea) (ht : ReadTrace m s.cpu l ea)
    (cs : List Cycle) : ∃ t, runCycles i (readOperand hook :: cs) u = .next t ∧ ReadDone m hook s t := by
  obtain ⟨t, v, h1, h2, h3, h4, h5, h6, h7⟩ := final_read hi
    (f := fun s => let (byte, s) := memRead s.micro.al s; s.mapCpu (hook byte)) (a := ea)
    (r := fun v => hook v u.cpu) (m := fun _ => u.micro) hr (by simp [State.mapCpu, ha]) cs
  rw [hc] at h3 h7
  exact ⟨t, h1, l, ea, v, ht, h2, h3, h4, h5, h6, h7⟩

/-- Immediate mode (R151). -/
theorem readImmediate_done {i : Instr} (hi : i ≠ .brk) (hook : ReadHook) (s : State) :
    ∃ t, runCycles i [readImmediate hook] (deliver (s.begin i)) = .next t ∧ ReadDone .imm hook s t := by
  obtain ⟨t, v, h1, h⟩ := final_read hi
    (f := fun s => let (byte, s) := fetchByte s; s.mapCpu (hook byte)) (a := s.cpu.pc)
    (r := fun v => hook v { s.cpu with pc := s.cpu.pc + 1 }) (m := fun _ => (deliver (s.begin i)).micro)
    (Ran.begin i s) (by simp [State.mapCpu, fetchByte]) []
  exact ⟨t, h1, [], s.cpu.pc, v, .inl ⟨rfl, rfl⟩, h⟩

theorem readCycles_plain {m : Mode} (hm : m ∈ plainModes) (hook : ReadHook) :
    readCycles m hook = (addrSteps m).map goes ++ [readOperand hook] := by fin_cases hm <;> rfl

theorem readCycles_indexed {m : Mode} (hm : m ∈ indexedModes) (hook : ReadHook) :
    readCycles m hook = (addrSteps m).map goes ++ [readOperandOrFix hook, readOperand hook] := by fin_cases hm <;> rfl

/-- The modes of class `read`. -/
def readModes : List Mode := .imm :: plainModes ++ indexedModes

theorem plain_not_indexed {m : Mode} {r : Cpu} {l : List BusAccess} {ea : Addr} (h : PlainTrace m r l ea) :
    m ∉ indexedModes := by
  intro hm
  fin_cases hm <;> exact h

theorem read_run {m : Mode} (hm : m ∈ readModes) {i : Instr} (hi : i ≠ .brk) (hook : ReadHook) (s : State) :
    ∃ t, runCycles i (readCycles m hook) (deliver (s.begin i)) = .next t ∧ ReadDone m hook s t := by
  rcases List.mem_append.mp hm with hm | hm
  · rcases List.mem_cons.mp hm with rfl | hm
    · exact readImmediate_done hi hook s
    · rw [readCycles_plain hm, runCycles_map_goes]
      obtain ⟨l, ea, ht, hr, hc, ha⟩ := plain_addr hm (deliver (s.begin i))
      exact readOperand_done hi hook ((Ran.begin i s).trans hr) hc ha (.inl ht) []
  · rw [readCycles_indexed hm, runCycles_map_goes]
    obtain ⟨base, low, high, index, hb, hr, hc, ha, hx, -⟩ := indexed_addr hm (deliver (s.begin i))
    have hr' := (Ran.begin i s).trans hr
    generalize runAddrSteps (addrSteps m) (deliver (s.begin i)) = u at hr hc ha hx hr'
    have hfix := fixed_addr low high index
    by_cases hcar : 256 ≤ low.toNat + index.toNat
    · have hbx : u.micro.bx = true := by rw [hx]; simpa using hcar
      have e : runCycles i [readOperandOrFix hook, readOperand hook] u =
          runCycles i [readOperand hook] (stepped fixHigh u) := by
        rw [← runCycles_goes]
        simp [runCycles, readOperandOrFix, goes, hbx]
      rw [e]
      obtain ⟨d, h', hc', ha', -, -⟩ := stepped_fixHigh u
      rw [ha, hx, hfix] at ha'
      rw [ha] at h'
      exact readOperand_done hi hook (hr'.trans h') (hc'.trans hc) ha'
        (.inr ⟨base, low, high, index, hb, rfl, .inl ⟨hcar, d, rfl⟩⟩) []
    · have hbx : ¬ u.micro.bx = true := by rw [hx]; simpa using hcar
      have e : runCycles i [readOperandOrFix hook, readOperand hook] u =
          runCycles i [readOperand hook, readOperand hook] u := by
        simp [runCycles, readOperandOrFix, hbx]
      rw [e]
      rw [if_neg (by simpa using hcar)] at hfix
      exact readOperand_done hi hook hr' hc (ha.trans hfix)
        (.inr ⟨base, low, high, index, hb, rfl, .inr ⟨hcar, rfl⟩⟩) _

/-! ## Class `write` (R152 to R154, R156, R160, R163) -/

/-- The modes of classes `write` and `rmw`. -/
def storeModes : List Mode := plainModes ++ indexedModes

/-- The address cycles of a store or read-modify-write, in any of its modes. -/
theorem store_addr {m : Mode} (hm : m ∈ storeModes) (i : Instr) (s : State) : ∃ l,
    WriteTrace m s.cpu l (storeAddr i m s) ∧ Ran s (runAddrSteps (storeAddrSteps m) (deliver (s.begin i))) l ∧
    (runAddrSteps (storeAddrSteps m) (deliver (s.begin i))).cpu = s.cpu.fetched m := by
  rcases List.mem_append.mp hm with hm | hm
  · have e : storeAddrSteps m = addrSteps m := by fin_cases hm <;> rfl
    obtain ⟨l, ea, ht, hr, hc, ha⟩ := plain_addr hm (deliver (s.begin i))
    rw [storeAddr, e]
    exact ⟨l, .inl (ha ▸ ht), (Ran.begin i s).trans hr, hc⟩
  · obtain ⟨base, low, high, index, d, hb, hr, hc, ha, -, -⟩ := indexed_store_addr hm (deliver (s.begin i))
    exact ⟨_, .inr ⟨base, low, high, index, d, hb, ha, rfl⟩, (Ran.begin i s).trans hr, hc⟩

/-- A store at a given address, as the last cycle. -/
theorem store_done {i : Instr} (hi : i ≠ .brk) {f : State → State} {ea : Addr} {byte : Byte} {s u : State}
    {l : List BusAccess} (hr : Ran s u l) (hf : f (dotsToCpuTick u) = memWrite ea byte (dotsToCpuTick u))
    (hiFlag : u.cpu.i = s.cpu.i) (cs : List Cycle) :
    ∃ t, runCycles i (retires f :: cs) u = .next t ∧ Trace s t (l ++ [.write ea byte]) ∧ t.cpu = u.cpu ∧
      StoresAt ea byte s t l ∧ Retired s.cpu.i s t := by
  refine ⟨_, runCycles_retires i _ cs u, ?_⟩
  rw [hf, hiFlag]
  have h1 := (hr.trans (Ran.dots u)).touched.mono (E' := (· = ea)) fun _ h => h.elim
  rw [List.append_nil] at h1
  have h := h1.trans (memWrite_touched ea byte _)
  exact ⟨h.retire_trace i _, by simp, h.storesAt byte (memWrite_stored byte _)
    (fun a v hv => by simpa using hv) i _, h.retired hi _ (by simp)⟩

theorem write_run {m : Mode} (hm : m ∈ storeModes) {i : Instr} (hi : i ≠ .brk) (value : StoreHook) (s : State) :
    ∃ t, runCycles i (writeCycles m value) (deliver (s.begin i)) = .next t ∧
      WriteDone m (storeAddr i m s) (value (s.cpu.fetched m)) s t := by
  obtain ⟨l, ht, hr, hc⟩ := store_addr hm i s
  rw [writeCycles, runCycles_map_goes]
  have hi' : (runAddrSteps (storeAddrSteps m) (deliver (s.begin i))).cpu.i = s.cpu.i := by rw [hc]; rfl
  obtain ⟨t, hrun, htr, hcpu, hst, hret⟩ := store_done (i := i) hi
    (f := fun s => memWrite s.micro.al (value s.cpu) s) (ea := storeAddr i m s)
    (byte := value (s.cpu.fetched m)) hr (by simp [hc, storeAddr]) hi' []
  exact ⟨t, hrun, l, ht, htr, hcpu.trans hc, hr.reads, hst, hret⟩

/-! ## Class `rmw` (R152 to R154, R157, R160, R163) -/

theorem rmw_run {m : Mode} (hm : m ∈ storeModes) {i : Instr} (hi : i ≠ .brk) (hook : ModifyHook)
    (hflag : ∀ b r, (hook b r).2.i = r.i) (s : State) :
    ∃ t, runCycles i (rmwCycles m hook) (deliver (s.begin i)) = .next t ∧
      RmwDone m (storeAddr i m s) hook s t := by
  obtain ⟨l, ht, hr, hc⟩ := store_addr hm i s
  rw [rmwCycles, runCycles_map_goes]
  have hal : (runAddrSteps (storeAddrSteps m) (deliver (s.begin i))).micro.al = storeAddr i m s := rfl
  generalize storeAddr i m s = ea at ht hal
  generalize runAddrSteps (storeAddrSteps m) (deliver (s.begin i)) = u at hr hc hal
  -- the read of the old byte
  obtain ⟨old, hr1, hc1, hm1⟩ := stepped_read (f := rmwRead) (a := fun s => s.micro.al) (r := fun s _ => s.cpu)
    (m := fun s v => { s.micro with ol := v }) (fun s => by simp [rmwRead, State.setOl]) (fun s => by simp) u
  rw [hal] at hr1
  have hrd := hr.trans hr1
  rw [runCycles_goes]
  have hal1 : (stepped rmwRead u).micro.al = ea := by rw [hm1]; simp [hal]
  have hol1 : (stepped rmwRead u).micro.ol = old := by rw [hm1]
  have hcp1 : (stepped rmwRead u).cpu = s.cpu.fetched m := by rw [hc1]; simp [hc]
  generalize stepped rmwRead u = u1 at hrd hal1 hol1 hcp1
  -- the write back of the old byte, and the modification
  rw [runCycles_goes]
  have e2 : rmwWriteOld hook (dotsToCpuTick u1) = { memWrite ea old (dotsToCpuTick u1) with
      cpu := (hook old (s.cpu.fetched m)).2, micro := { u1.micro with ol := (hook old (s.cpu.fetched m)).1 } } := by
    simp [rmwWriteOld, State.setOl, hal1, hol1, hcp1]
  have h1 := (hrd.trans (Ran.dots u1)).touched.mono (E' := (· = ea)) fun _ h => h.elim
  rw [List.append_nil] at h1
  have h2 := ((h1.trans (memWrite_touched ea old _)).trans (Touched.of_regs _ _ (hook old (s.cpu.fetched m)).2
    { u1.micro with ol := (hook old (s.cpu.fetched m)).1, cyc := u1.micro.cyc + 1 })).trans (deliver_touched _ _)
  have e2' : stepped (rmwWriteOld hook) u1 = deliver { memWrite ea old (dotsToCpuTick u1) with
      cpu := (hook old (s.cpu.fetched m)).2
      micro := { u1.micro with ol := (hook old (s.cpu.fetched m)).1, cyc := u1.micro.cyc + 1 } } := by
    unfold stepped; rw [e2]; rfl
  rw [← e2'] at h2
  have hcp2 : (stepped (rmwWriteOld hook) u1).cpu = (hook old (s.cpu.fetched m)).2 := by rw [e2']; rfl
  have hal2 : (stepped (rmwWriteOld hook) u1).micro.al = ea := by rw [e2']; exact hal1
  have hol2 : (stepped (rmwWriteOld hook) u1).micro.ol = (hook old (s.cpu.fetched m)).1 := by rw [e2']; rfl
  generalize stepped (rmwWriteOld hook) u1 = u2 at h2 hcp2 hal2 hol2
  -- the write of the new byte
  have h3 := (h2.trans (dotsToCpuTick_touched _ u2)).trans (memWrite_touched ea (hook old (s.cpu.fetched m)).1 _)
  simp only [List.append_nil, List.append_assoc] at h3
  refine ⟨_, runCycles_retires i _ [] u2, l, old, ht, ?_⟩
  have e3 : rmwWriteNew (dotsToCpuTick u2) = memWrite ea (hook old (s.cpu.fetched m)).1 (dotsToCpuTick u2) := by
    simp [rmwWriteNew, hal2, hol2]
  rw [e3]
  have hi2 : u2.cpu.i = s.cpu.i := by rw [hcp2, hflag]; rfl
  rw [hi2]
  refine ⟨h3.retire_trace i _, ?_, hrd.reads, ?_, h3.retired hi _ (by simp)⟩
  · simp [hcp2]; rfl
  · exact h3.storesAt _ (memWrite_stored _ _) (fun a v hv => by simpa using hv) i _

end Sys2Proof.Machine
end

