-- ==== Sys2Proof/Laws/Dots.lean ====
section
/-! SUPPORT. What the parts of a dot's work do to the fields they write, and which of them pass through each other
(65_ppu.md R531, R540, R544, R560). -/

namespace Sys2Proof.Machine

theorem inFetchWindow_iff (d : Nat) : inFetchWindow d = true ↔ InFetchDots d := decide_eq_true_iff

theorem renderingEnabled_iff (p : Ppu) : p.renderingEnabled = true ↔ (p.showBg = true ∨ p.showSp = true) := by
  simp [Ppu.renderingEnabled]

/-- The advance writes the position and nothing else. -/
theorem advance_eq (p : Ppu) : p.advance =
    { p with scanline := p.advance.scanline, dot := p.advance.dot, oddFrame := p.advance.oddFrame } := by
  unfold Ppu.advance
  split
  · rfl
  · split
    · split <;> rfl
    · rfl

/-- A PPU is the old one with the fields that dots write replaced, where no other changed. -/
theorem PpuKept.eq {p q : Ppu} (h : PpuKept p q) : q = { p with
    scanline := q.scanline, dot := q.dot, oddFrame := q.oddFrame, vblank := q.vblank, sprite0Hit := q.sprite0Hit
    spriteOverflow := q.spriteOverflow, v := q.v, ntByte := q.ntByte, atByte := q.atByte, atBits := q.atBits
    patLo := q.patLo, patHi := q.patHi, shPatLo := q.shPatLo, shPatHi := q.shPatHi, shPalCur := q.shPalCur
    shPalNext := q.shPalNext, framebuffer := q.framebuffer, nmiRequested := q.nmiRequested
    frameComplete := q.frameComplete } := by
  obtain ⟨h1, h2, ⟨h3, h4, h5, h6, h7, h8⟩, ⟨m1, m2, m3, m4, m5, m6, m7, m8⟩, h9, h10, h11, h12, h13⟩ := h
  cases p
  cases q
  simp only at h1 h2 h3 h4 h5 h6 h7 h8 m1 m2 m3 m4 m5 m6 m7 m8 h9 h10 h11 h12 h13
  subst h1 h2 h3 h4 h5 h6 h7 h8 m1 m2 m3 m4 m5 m6 m7 m8 h9 h10 h11 h12 h13
  rfl

/-! ## The fetch step -/

/-- The cartridge after a PPU bus read with its side effects. -/
def Cart.afterPpuBusRead (a : Addr) (c : Cart) : Cart :=
  match ppuTarget a with
  | .palette _ => c
  | .cartridge b => c.ppuAfterRead b

theorem ppuBusRead_eq (a : Addr) (s : State) :
    ppuBusRead a false s = (ppuBusValue s a, { s with cart := s.cart.afterPpuBusRead a }) := by
  unfold ppuBusRead ppuBusAfterRead Cart.afterPpuBusRead
  cases ppuTarget a <;> simp

theorem fetchStep_v (d : Nat) (s : State) :
    (fetchStep d s).ppu.v = if (d - 1) % 8 = 7 then incCoarseX s.ppu.v else s.ppu.v := by
  unfold fetchStep
  simp only [ppuBusRead_eq]
  split <;> rename_i h <;> first | (simp only [h]; rfl) | rw [if_neg (by assumption)]

theorem fetchStep_framebuffer (d : Nat) (s : State) : (fetchStep d s).ppu.framebuffer = s.ppu.framebuffer := by
  unfold fetchStep
  simp only [ppuBusRead_eq]
  split <;> rfl

/-- The machine with another picture. -/
def State.withFramebuffer (s : State) (m : Memory) : State := { s with ppu := { s.ppu with framebuffer := m } }

theorem fetchStep_withFramebuffer (d : Nat) (s : State) (m : Memory) :
    fetchStep d (s.withFramebuffer m) = (fetchStep d s).withFramebuffer m := by
  unfold fetchStep
  simp only [ppuBusRead_eq]
  split <;> rfl

theorem fetchStep_vblankEnd (d : Nat) (s : State) : fetchStep d (vblankEnd s) = vblankEnd (fetchStep d s) := by
  unfold fetchStep
  simp only [ppuBusRead_eq]
  split <;> rfl

/-! ## The scroll updates -/

theorem scrollUpdate_v (sl d : Nat) (p : Ppu) : (scrollUpdate sl d p).v =
    if d = 256 then incY p.v else if d = 257 then copyHorizontal p.v p.t
    else if sl = 261 ∧ 280 ≤ d ∧ d ≤ 304 then copyVertical p.v p.t else p.v := by
  unfold scrollUpdate
  repeat' split
  all_goals rfl

theorem scrollUpdate_framebuffer (sl d : Nat) (p : Ppu) : (scrollUpdate sl d p).framebuffer = p.framebuffer := by
  unfold scrollUpdate
  repeat' split
  all_goals rfl

/-! ## The sprite pass writes the picture alone, and does not read `vblank` -/

/-- The machine with another `vblank`. -/
def State.withVblank (s : State) (b : Bool) : State := { s with ppu := { s.ppu with vblank := b } }

theorem foldl_withVblank {α : Type} (f : State → α → State)
    (hf : ∀ s b a, f (s.withVblank b) a = (f s a).withVblank b) (l : List α) (s : State) (b : Bool) :
    l.foldl f (s.withVblank b) = (l.foldl f s).withVblank b := by
  induction l generalizing s with
  | nil => rfl
  | cons a l ih => simp only [List.foldl_cons, hf, ih]

theorem paintSpritePixel_withVblank (o : Sprite) (r c : Nat) (s : State) (b : Bool) :
    paintSpritePixel o r c (s.withVblank b) = (paintSpritePixel o r c s).withVblank b := by
  unfold paintSpritePixel
  dsimp only
  rw [show spritePattern (s.withVblank b) o r c = spritePattern s o r c from rfl]
  split <;> rfl

theorem paintSprite_withVblank (s : State) (b : Bool) (n : Nat) :
    paintSprite (s.withVblank b) n = (paintSprite s n).withVblank b :=
  foldl_withVblank (fun s r => (List.range 8).foldl (fun s c => paintSpritePixel (s.ppu.sprite n) r c s) s)
    (fun _ _ r => foldl_withVblank (fun s c => paintSpritePixel (s.ppu.sprite n) r c s)
      (fun s b c => paintSpritePixel_withVblank (s.ppu.sprite n) r c s b) _ _ _) _ _ _

theorem spritePass_withVblank (s : State) (b : Bool) : spritePass (s.withVblank b) = (spritePass s).withVblank b := by
  unfold spritePass
  show (if s.ppu.showSp then _ else _) = _
  split
  · exact foldl_withVblank _ paintSprite_withVblank _ _ _
  · rfl

end Sys2Proof.Machine
end

