-- ==== Sys2Proof/Laws/Events.lean ====
section
/-! SUPPORT. Position, vertical blank and the event: what one dot does to them (65_ppu.md R530, R531, R560, R561,
R562). -/

namespace Sys2Proof.Machine

/-- The PPU fields of position, status and event. -/
structure EventKept (p q : Ppu) : Prop where
  scanline : q.scanline = p.scanline
  dot : q.dot = p.dot
  oddFrame : q.oddFrame = p.oddFrame
  vblank : q.vblank = p.vblank
  sprite0Hit : q.sprite0Hit = p.sprite0Hit
  spriteOverflow : q.spriteOverflow = p.spriteOverflow
  nmiRequested : q.nmiRequested = p.nmiRequested
  frameComplete : q.frameComplete = p.frameComplete

theorem EventKept.refl (p : Ppu) : EventKept p p := ⟨rfl, rfl, rfl, rfl, rfl, rfl, rfl, rfl⟩

theorem EventKept.trans {p q r : Ppu} (h : EventKept p q) (h' : EventKept q r) : EventKept p r :=
  ⟨h'.1.trans h.1, h'.2.trans h.2, h'.3.trans h.3, h'.4.trans h.4, h'.5.trans h.5, h'.6.trans h.6, h'.7.trans h.7,
    h'.8.trans h.8⟩

theorem foldl_event {α : Type} (f : State → α → State) (hf : ∀ s a, EventKept s.ppu (f s a).ppu) (l : List α)
    (s : State) : EventKept s.ppu (l.foldl f s).ppu := by
  induction l generalizing s with
  | nil => exact EventKept.refl _
  | cons a l ih => exact (hf s a).trans (ih _)

theorem paintSpritePixel_event (o : Sprite) (r c : Nat) (s : State) :
    EventKept s.ppu (paintSpritePixel o r c s).ppu := by
  unfold paintSpritePixel
  dsimp only
  split <;> exact ⟨rfl, rfl, rfl, rfl, rfl, rfl, rfl, rfl⟩

theorem paintSprite_event (s : State) (n : Nat) : EventKept s.ppu (paintSprite s n).ppu := by
  unfold paintSprite
  exact foldl_event _ (fun s r => foldl_event _ (fun s c => paintSpritePixel_event _ _ _ _) _ _) _ _

theorem spritePass_event (s : State) : EventKept s.ppu (spritePass s).ppu := by
  unfold spritePass
  split
  · exact foldl_event paintSprite paintSprite_event _ _
  · exact EventKept.refl _

theorem fetchStep_event (d : Nat) (s : State) : EventKept s.ppu (fetchStep d s).ppu := by
  unfold fetchStep
  split <;> first
    | exact ⟨rfl, rfl, rfl, rfl, rfl, rfl, rfl, rfl⟩
    | (constructor <;> simp)

theorem scrollUpdate_event (sl d : Nat) (p : Ppu) : EventKept p (scrollUpdate sl d p) := by
  unfold scrollUpdate
  split
  · exact ⟨rfl, rfl, rfl, rfl, rfl, rfl, rfl, rfl⟩
  · split
    · exact ⟨rfl, rfl, rfl, rfl, rfl, rfl, rfl, rfl⟩
    · split <;> exact ⟨rfl, rfl, rfl, rfl, rfl, rfl, rfl, rfl⟩

theorem renderDot_event (sl d : Nat) (s : State) : EventKept s.ppu (renderDot sl d s).ppu := by
  unfold renderDot
  refine EventKept.trans ?_ (scrollUpdate_event _ _ _)
  split
  · have hp : EventKept s.ppu (if sl ≤ 239 ∧ d ≤ 256 then backgroundPixel sl d s else s).ppu := by
      split <;> exact ⟨rfl, rfl, rfl, rfl, rfl, rfl, rfl, rfl⟩
    refine hp.trans (EventKept.trans ?_ (fetchStep_event _ _))
    exact ⟨rfl, rfl, rfl, rfl, rfl, rfl, rfl, rfl⟩
  · exact EventKept.refl _

/-- The last part of a dot's work: the render line, or the backdrop. -/
theorem lineWork_event (sl d : Nat) (s : State) :
    EventKept s.ppu (if s.ppu.renderingEnabled then if sl ≤ 239 ∨ sl = 261 then renderDot sl d s else s
      else if sl ≤ 239 ∧ 1 ≤ d ∧ d ≤ 256 then backdropPixel sl d s else s).ppu := by
  split
  · split
    · exact renderDot_event _ _ _
    · exact EventKept.refl _
  · split <;> exact ⟨rfl, rfl, rfl, rfl, rfl, rfl, rfl, rfl⟩

/-- The position and the event after a dot's work. -/
structure WorkedEvent (p q : Ppu) : Prop where
  scanline : q.scanline = p.scanline
  dot : q.dot = p.dot
  oddFrame : q.oddFrame = p.oddFrame
  vblank : q.vblank = if p.scanline = 241 ∧ p.dot = 1 then true
    else if p.scanline = 261 ∧ p.dot = 1 then false else p.vblank
  sprite0Hit : q.sprite0Hit = if p.scanline = 261 ∧ p.dot = 1 then false else p.sprite0Hit
  spriteOverflow : q.spriteOverflow = if p.scanline = 261 ∧ p.dot = 1 then false else p.spriteOverflow
  nmiRequested : q.nmiRequested = if p.scanline = 241 ∧ p.dot = 1 then p.nmiRequested || p.nmiEnable
    else p.nmiRequested
  frameComplete : q.frameComplete = if p.scanline = 241 ∧ p.dot = 1 then true else p.frameComplete

theorem dotWork_event (s : State) : WorkedEvent s.ppu (dotWork s).ppu := by
  unfold dotWork
  dsimp only
  by_cases h1 : s.ppu.scanline = 241 ∧ s.ppu.dot = 1
  · have h2 : ¬ (s.ppu.scanline = 261 ∧ s.ppu.dot = 1) := by omega
    rw [if_pos h1, if_neg h2]
    have h := lineWork_event s.ppu.scanline s.ppu.dot (vblankStart s)
    have hs := spritePass_event { s with ppu := { s.ppu with vblank := true } }
    have hk := (spritePass_kept { s with ppu := { s.ppu with vblank := true } }).ppu.ctrl
    have hn : (vblankStart s).ppu.nmiRequested = (s.ppu.nmiRequested || s.ppu.nmiEnable) := by
      show ((spritePass _).ppu.nmiRequested || (spritePass _).ppu.nmiEnable) = _
      rw [hs.nmiRequested, hk.2.2.2.2.2]
    refine ⟨h.1.trans hs.1, h.2.trans hs.2, h.3.trans hs.3, ?_, ?_, ?_, ?_, ?_⟩
    · rw [if_pos h1]; exact h.4.trans hs.4
    · rw [if_neg h2]; exact h.5.trans hs.5
    · rw [if_neg h2]; exact h.6.trans hs.6
    · rw [if_pos h1]; exact h.7.trans hn
    · rw [if_pos h1]; exact h.8
  · rw [if_neg h1]
    by_cases h2 : s.ppu.scanline = 261 ∧ s.ppu.dot = 1
    · rw [if_pos h2]
      have h := lineWork_event s.ppu.scanline s.ppu.dot (vblankEnd s)
      refine ⟨h.1, h.2, h.3, ?_, ?_, ?_, ?_, ?_⟩
      · rw [if_neg h1, if_pos h2]; exact h.4
      · rw [if_pos h2]; exact h.5
      · rw [if_pos h2]; exact h.6
      · rw [if_neg h1]; exact h.7
      · rw [if_neg h1]; exact h.8
    · rw [if_neg h2]
      have h := lineWork_event s.ppu.scanline s.ppu.dot s
      refine ⟨h.1, h.2, h.3, ?_, ?_, ?_, ?_, ?_⟩
      · rw [if_neg h1, if_neg h2]; exact h.4
      · rw [if_neg h2]; exact h.5
      · rw [if_neg h2]; exact h.6
      · rw [if_neg h1]; exact h.7
      · rw [if_neg h1]; exact h.8

/-- The advance changes the position alone. -/
theorem advance_event (p : Ppu) : p.advance.vblank = p.vblank ∧ p.advance.sprite0Hit = p.sprite0Hit ∧
    p.advance.spriteOverflow = p.spriteOverflow ∧ p.advance.nmiRequested = p.nmiRequested ∧
    p.advance.frameComplete = p.frameComplete := by
  unfold Ppu.advance
  split
  · exact ⟨rfl, rfl, rfl, rfl, rfl⟩
  · split
    · split <;> exact ⟨rfl, rfl, rfl, rfl, rfl⟩
    · exact ⟨rfl, rfl, rfl, rfl, rfl⟩

/-- The next position (65_ppu.md R530). -/
theorem advance_position (p : Ppu) :
    (p.advance.scanline, p.advance.dot, p.advance.oddFrame) =
      if p.scanline = 261 ∧ p.dot = 339 ∧ p.oddFrame = true ∧ p.renderingEnabled = true then (0, 0, !p.oddFrame)
      else if p.dot = 340 then if p.scanline = 261 then (0, 0, !p.oddFrame) else (p.scanline + 1, 0, p.oddFrame)
      else (p.scanline, p.dot + 1, p.oddFrame) := by
  unfold Ppu.advance
  split
  · rfl
  · split
    · split <;> rfl
    · rfl

/-! ## The NMI request -/

/-- No NMI is requested while it is disabled at its source. -/
theorem dotIteration_no_nmi {s : State} (he : s.ppu.nmiEnable = false) (hr : s.ppu.nmiRequested = false) :
    (dotIteration s).ppu.nmiEnable = false ∧ (dotIteration s).ppu.nmiRequested = false ∧
    (dotIteration s).lines = s.lines := by
  have hk := ppuTick_kept s
  have hw := (dotWork_event s).nmiRequested
  have hn : (ppuTick s).ppu.nmiRequested = false := by
    show (dotWork s).ppu.advance.nmiRequested = false
    rw [(advance_event _).2.2.2.1, hw, hr, he]; simp
  refine ⟨hk.ppu.ctrl.2.2.2.2.2.trans he, rfl, ?_⟩
  show { (ppuTick s).lines with pendNmi := (ppuTick s).lines.pendNmi || (ppuTick s).ppu.nmiRequested } = s.lines
  rw [hn, hk.lines]; simp

theorem dotsToCpuTick_no_nmi {s : State} (he : s.ppu.nmiEnable = false) (hr : s.ppu.nmiRequested = false) :
    (dotsToCpuTick s).ppu.nmiEnable = false ∧ (dotsToCpuTick s).ppu.nmiRequested = false ∧
    (dotsToCpuTick s).lines = s.lines := by
  show (dotIterations _ s).ppu.nmiEnable = false ∧ (dotIterations _ s).ppu.nmiRequested = false ∧
    (dotIterations _ s).lines = s.lines
  generalize Config.dotsPerCpuCycle - s.k = n
  induction n generalizing s with
  | zero => exact ⟨he, hr, rfl⟩
  | succ n ih =>
    have h := dotIteration_no_nmi he hr
    have h' := ih h.1 h.2.1
    exact ⟨h'.1, h'.2.1, h'.2.2.trans h.2.2⟩

end Sys2Proof.Machine
end

