-- ==== Sys2Proof/Laws/Special.lean ====
section
/-! SUPPORT. What the branches, jumps, subroutine and stack instructions, SHX and SHY do
(45_branch_jump.md, 46_stack_system.md, 47_undocumented.md R343, R344). -/

namespace Sys2Proof.Machine

/-! ## Addresses of the stack -/

theorem stackSlot_eq (s : Byte) : stackAddr s = stackSlot s := by
  unfold stackAddr word stackSlot
  apply BitVec.eq_of_toNat_eq
  rw [append_toNat]
  have := s.isLt
  rw [BitVec.toNat_or, BitVec.toNat_setWidth, Nat.mod_eq_of_lt (by omega)]
  have e : (0x0100 : Addr).toNat ||| s.toNat = 1 <<< 8 + s.toNat := by
    rw [Nat.shiftLeft_add_eq_or_of_lt s.isLt]; rfl
  rw [e]; rfl

theorem stackSlot_toNat (s : Byte) : (stackSlot s).toNat = 0x100 + s.toNat := by
  rw [← stackSlot_eq, stackAddr, word, append_toNat]; rfl

theorem stackSlot_low (s : Byte) : (stackSlot s).toNat < 0x800 := by
  have := s.isLt
  rw [stackSlot_toNat]; omega

theorem stackSlot_ne {s s' : Byte} (h : s ≠ s') : (stackSlot s).toNat ≠ (stackSlot s').toNat := by
  rw [stackSlot_toNat, stackSlot_toNat]
  intro e
  exact h (BitVec.eq_of_toNat_eq (by omega))

/-! ## A cycle that writes -/

/-- A cycle that makes one write and changes registers and latches. -/
theorem stepped_write {f : State → State} {a : Addr} {v : Byte} {r : Cpu} {m : Micro} {s : State}
    (hf : f (dotsToCpuTick s) = { memWrite a v (dotsToCpuTick s) with cpu := r, micro := m }) :
    Touched (· = a) s (stepped f s) [.write a v] ∧ (stepped f s).cpu = r ∧
      (stepped f s).micro = { m with cyc := m.cyc + 1 } ∧
      (a.toNat < 0x2000 → (stepped f s).ram.read (a.toNat % 0x800) = v) := by
  have h := (((dotsToCpuTick_touched (· = a) s).trans (memWrite_touched a v _)).trans
    (Touched.of_regs _ _ r { m with cyc := m.cyc + 1 })).trans (deliver_touched _ _)
  have e : stepped f s = deliver { memWrite a v (dotsToCpuTick s) with
      cpu := r, micro := { m with cyc := m.cyc + 1 } } := by
    unfold stepped; rw [hf]; rfl
  rw [e]
  exact ⟨by simpa using h, rfl, rfl, memWrite_stored v _⟩

/-- A read cycle whose micro-operation latches matter little: `stepped_read` for a fixed machine. -/
theorem stepped_read' {f : State → State} {a : Addr} {r : Byte → Cpu} {m : Byte → Micro} {s : State}
    (hf : f (dotsToCpuTick s) = { (memRead a (dotsToCpuTick s)).2 with
      cpu := r ((dotsToCpuTick s).peek a), micro := m ((dotsToCpuTick s).peek a) }) :
    ∃ v, Ran s (stepped f s) [.read a v] ∧ (stepped f s).cpu = r v ∧
      (stepped f s).micro = { m v with cyc := (m v).cyc + 1 } := by
  refine ⟨(dotsToCpuTick s).peek a, ?_, ?_, ?_⟩
  · have h := (((Ran.dots s).trans (Ran.read a (dotsToCpuTick s))).then_regs
      (f (dotsToCpuTick s)).nextCycle.cpu (f (dotsToCpuTick s)).nextCycle.micro).trans (Ran.deliver _)
    have e : stepped f s = deliver { (memRead a (dotsToCpuTick s)).2 with
        cpu := (f (dotsToCpuTick s)).nextCycle.cpu, micro := (f (dotsToCpuTick s)).nextCycle.micro } := by
      unfold stepped
      rw [hf]
      rfl
    rw [e]
    simpa using h
  · simp [stepped, hf]
  · simp [stepped, hf]

/-! ## Branches (R280) -/

theorem hi_eq_page (a : Addr) : hi a = page a := by
  unfold hi page
  ext j hj
  simp

/-- An address is its page and its low byte. -/
theorem page_append_lo (a : Addr) : page a ++ a.setWidth 8 = a := by
  rw [← hi_eq_page]
  apply BitVec.eq_of_toNat_eq
  have := a.isLt
  rw [append_toNat]
  simp only [hi, BitVec.toNat_setWidth, BitVec.toNat_ushiftRight, Nat.shiftRight_eq_div_pow]
  omega

theorem branch_run {i : Instr} (hi' : i ≠ .brk) {cond : Cpu → Bool}
    (hcond : ∀ r p, cond { r with pc := p } = cond r) (s : State) :
    ∃ t, runCycles i (branchCycles cond) (deliver (s.begin i)) = .next t ∧ BranchDone (cond s.cpu) s t := by
  have hb := Ran.begin i s
  have hcu : (deliver (s.begin i)).cpu = s.cpu := rfl
  generalize deliver (s.begin i) = u at hb hcu
  have hc1 : ∀ t : State, (fetchByte t).2.cpu = { t.cpu with pc := t.cpu.pc + 1 } := fun t => by simp [fetchByte]
  let f : State → State := fun s => let (byte, s) := fetchByte s; s.setOl byte
  have hfe : ∀ t : State, f t = { (memRead t.cpu.pc t).2 with
      cpu := { t.cpu with pc := t.cpu.pc + 1 }, micro := { t.micro with ol := t.peek t.cpu.pc } } := fun t => by
    simp [f, fetchByte, State.setOl]
  by_cases hcd : cond s.cpu = true
  · have e1 : runCycles i (branchCycles cond) u = runCycles i [branchTaken, branchFix] (stepped f u) := by
      have : branchFetch cond (dotsToCpuTick u) = .go (f (dotsToCpuTick u)) := by
        unfold branchFetch
        simp only [f]
        exact if_pos (by simp [fetchByte, hcond, hcu, hcd])
      show (match branchFetch cond (dotsToCpuTick u) with
        | .go s' => runCycles i [branchTaken, branchFix] (deliver s'.nextCycle)
        | .retire s' => _) = _
      rw [this]; rfl
    obtain ⟨off, hr1, hc1, hm1⟩ := stepped_read' (f := f) (a := s.cpu.pc)
      (r := fun _ => { s.cpu with pc := s.cpu.pc + 1 }) (m := fun v => { u.micro with ol := v }) (s := u)
      (by rw [hfe]; simp [hcu])
    have hr1 := hb.trans hr1
    have ho1 : (stepped f u).micro.ol = off := by rw [hm1]
    rw [e1]
    generalize stepped f u = u1 at hr1 hc1 ho1
    have hi1 : u1.cpu.i = s.cpu.i := by rw [hc1]
    let next := s.cpu.pc + 1
    let target := next + off.signExtend 16
    let g : State → State := fun s =>
      let s := dummyRead s.cpu.pc s
      let target := s.cpu.pc + sext16 s.micro.ol
      ((s.setAl target).setBx (hi target ≠ hi s.cpu.pc)).setPc (word (hi s.cpu.pc) (lo target))
    have hge : g (dotsToCpuTick u1) = { (memRead next (dotsToCpuTick u1)).2 with
        cpu := { s.cpu with pc := page next ++ target.setWidth 8 }
        micro := { u1.micro with al := target, bx := page target ≠ page next } } := by
      simp [g, dummyRead, State.setAl, State.setBx, State.setPc, State.mapCpu, hc1, ho1, next, target, hi_eq_page,
        word_eq, lo, sext16]
    have hgt : branchTaken (dotsToCpuTick u1) =
        if page target = page next then .retire (g (dotsToCpuTick u1)) else .go (g (dotsToCpuTick u1)) := by
      have h1 : (dummyRead (dotsToCpuTick u1).cpu.pc (dotsToCpuTick u1)).cpu = u1.cpu := by simp [dummyRead]
      have h2 : (dummyRead (dotsToCpuTick u1).cpu.pc (dotsToCpuTick u1)).micro = u1.micro := by simp [dummyRead]
      unfold branchTaken
      simp only [h1, h2, hi_eq_page, ne_eq, ite_not, g]
      rw [hc1, ho1]
      rfl
    by_cases hp : page target = page next
    · have e2 : runCycles i [branchTaken, branchFix] u1 = runCycles i [retires g, branchFix] u1 := by
        show (match branchTaken (dotsToCpuTick u1) with
          | .go s' => runCycles i [branchFix] (deliver s'.nextCycle)
          | .retire s' => .next (deliver (s'.retire i (dotsToCpuTick u1).cpu.i))) = _
        rw [hgt, if_pos hp]; rfl
      rw [e2]
      obtain ⟨t, d, h1, h2, h3, h4, h5, h6, h7⟩ := final_read hi' (f := g) (a := next)
        (r := fun _ => { s.cpu with pc := page next ++ target.setWidth 8 })
        (m := fun _ => { u1.micro with al := target, bx := page target ≠ page next }) hr1 hge [branchFix]
      refine ⟨t, h1, off, _, ?_, ?_, h2, h4, h5, h6, hi1 ▸ h7⟩
      · have : (page next ++ target.setWidth 8 : Addr) = target := by
          rw [← hp, page_append_lo]
        rw [h3, this, hcd]; rfl
      · simp only [hcd, if_true]
        rw [if_pos hp]; exact ⟨d, rfl⟩
    · have e2 : runCycles i [branchTaken, branchFix] u1 = runCycles i [branchFix] (stepped g u1) := by
        show (match branchTaken (dotsToCpuTick u1) with
          | .go s' => runCycles i [branchFix] (deliver s'.nextCycle)
          | .retire s' => .next (deliver (s'.retire i (dotsToCpuTick u1).cpu.i))) = _
        rw [hgt, if_neg hp]; rfl
      rw [e2]
      obtain ⟨d, hr2, hc2, hm2⟩ := stepped_read' (f := g) (a := next)
        (r := fun _ => { s.cpu with pc := page next ++ target.setWidth 8 })
        (m := fun _ => { u1.micro with al := target, bx := page target ≠ page next }) hge
      have ha2 : (stepped g u1).micro.al = target := by rw [hm2]
      have hr2 := hr1.trans hr2
      generalize stepped g u1 = u2 at hr2 hc2 ha2
      have hi2 : u2.cpu.i = s.cpu.i := by rw [hc2]
      obtain ⟨t, d', h1, h2, h3, h4, h5, h6, h7⟩ := final_read hi'
        (f := fun s => let s := dummyRead s.cpu.pc s; s.setPc s.micro.al)
        (a := page next ++ target.setWidth 8)
        (r := fun _ => { s.cpu with pc := target }) (m := fun _ => u2.micro) hr2
        (by simp [dummyRead, State.setPc, State.mapCpu, hc2, ha2]) []
      refine ⟨t, h1, off, _, ?_, ?_, h2, h4, h5, h6, hi2 ▸ h7⟩
      · rw [h3, hcd]; rfl
      · simp only [hcd, if_true]
        rw [if_neg hp]; exact ⟨d, d', rfl⟩
  · have e1 : runCycles i (branchCycles cond) u = runCycles i [retires f, branchTaken, branchFix] u := by
      have : branchFetch cond (dotsToCpuTick u) = .retire (f (dotsToCpuTick u)) := by
        unfold branchFetch
        simp only [f]
        exact if_neg (by simpa [fetchByte, hcond, hcu] using hcd)
      show (match branchFetch cond (dotsToCpuTick u) with
        | .go s' => runCycles i [branchTaken, branchFix] (deliver s'.nextCycle)
        | .retire s' => .next (deliver (s'.retire i (dotsToCpuTick u).cpu.i))) = _
      rw [this]; rfl
    rw [e1]
    obtain ⟨t, off, h1, h2, h3, h4, h5, h6, h7⟩ := final_read hi' (f := f) (a := s.cpu.pc)
      (r := fun _ => { s.cpu with pc := s.cpu.pc + 1 }) (m := fun v => { u.micro with ol := v }) hb
      (by rw [hfe]; simp [hcu]) [branchTaken, branchFix]
    rw [hcu] at h7
    refine ⟨t, h1, off, _, ?_, ?_, h2, h4, h5, h6, h7⟩
    · rw [h3]; simp [hcd]
    · simp [hcd]

/-! ## Jumps (R289, R290) -/

/-- What JMP absolute leaves (R289). -/
theorem jump_absolute_run {i : Instr} (hi : i ≠ .brk) (s : State) : ∃ t low high,
    runCycles i jumpAbsoluteCycles (deliver (s.begin i)) = .next t ∧
    Trace s t [.read s.cpu.pc low, .read (s.cpu.pc + 1) high] ∧ t.cpu = { s.cpu with pc := high ++ low } ∧
    ReadsMemory s [.read s.cpu.pc low, .read (s.cpu.pc + 1) high] ∧
    ReadEffects s t [.read s.cpu.pc low, .read (s.cpu.pc + 1) high] ∧ StoresNothing s t ∧ Retired s.cpu.i s t := by
  have hb := Ran.begin i s
  have hcu : (deliver (s.begin i)).cpu = s.cpu := rfl
  rw [jumpAbsoluteCycles, runCycles_goes]
  generalize deliver (s.begin i) = u at hb hcu ⊢
  obtain ⟨low, hr1, hc1, hm1⟩ := stepped_read' (f := fun s => let (byte, s) := fetchByte s; s.setOl byte)
    (a := s.cpu.pc) (r := fun _ => { s.cpu with pc := s.cpu.pc + 1 }) (m := fun v => { u.micro with ol := v }) (s := u)
    (by simp [fetchByte, State.setOl, hcu])
  generalize stepped _ u = u1 at hr1 hc1 hm1 ⊢
  obtain ⟨t, high, h1, h2, h3, h4, h5, h6, h7⟩ := final_read hi
    (f := fun s => let (byte, s) := memRead s.cpu.pc s; s.setPc (word byte s.micro.ol)) (a := s.cpu.pc + 1)
    (r := fun v => { s.cpu with pc := v ++ low }) (m := fun _ => u1.micro) (hb.trans hr1)
    (by simp [State.setPc, State.mapCpu, hc1, hm1, word_eq]) []
  rw [hc1] at h7
  exact ⟨t, low, high, h1, h2, h3, h4, h5, h6, h7⟩

/-- What JMP indirect leaves (R290). -/
theorem jump_indirect_run {i : Instr} (hi' : i ≠ .brk) (s : State) : ∃ t low high pcl pch,
    let l := [.read s.cpu.pc low, .read (s.cpu.pc + 1) high, .read (high ++ low) pcl, .read (high ++ (low + 1)) pch]
    runCycles i jumpIndirectCycles (deliver (s.begin i)) = .next t ∧ Trace s t l ∧
    t.cpu = { s.cpu with pc := pch ++ pcl } ∧ ReadsMemory s l ∧ ReadEffects s t l ∧ StoresNothing s t ∧
    Retired s.cpu.i s t := by
  have hb := Ran.begin i s
  have hcu : (deliver (s.begin i)).cpu = s.cpu := rfl
  rw [jumpIndirectCycles, runCycles_goes, runCycles_goes, runCycles_goes]
  generalize deliver (s.begin i) = u at hb hcu ⊢
  obtain ⟨low, hr1, hc1, ha1⟩ := stepped_fetchLow u
  obtain ⟨high, hr2, hc2, ha2⟩ := stepped_fetchHigh (stepped fetchLow u)
  rw [hcu] at hr1 hc1
  rw [hc1] at hr2 hc2
  rw [ha1, lo_zpAddr] at ha2
  have hr2 := (hb.trans hr1).trans hr2
  generalize stepped fetchHigh (stepped fetchLow u) = u2 at hr2 hc2 ha2 ⊢
  obtain ⟨pcl, hr3, hc3, hm3⟩ := stepped_read' (f := fun s => let (byte, s) := memRead s.micro.al s; s.setOl byte)
    (a := high ++ low) (r := fun _ => u2.cpu) (m := fun v => { u2.micro with ol := v }) (s := u2)
    (by simp [State.setOl, ha2])
  generalize stepped _ u2 = u3 at hr3 hc3 hm3 ⊢
  have ho3 : u3.micro.ol = pcl := by rw [hm3]
  have ha3 : u3.micro.al = high ++ low := by rw [hm3]; exact ha2
  obtain ⟨t, pch, h1, h2, h3, h4, h5, h6, h7⟩ := final_read hi'
    (f := fun s => let (byte, s) := memRead (word (hi s.micro.al) (lo s.micro.al + 1)) s
                   s.setPc (word byte s.micro.ol)) (a := high ++ (low + 1))
    (r := fun v => { s.cpu with pc := v ++ pcl }) (m := fun _ => u3.micro) (hr2.trans hr3)
    (by simp [State.setPc, State.mapCpu, hc2, hc3, ho3, ha3, word_eq]) []
  rw [hc3, hc2] at h7
  exact ⟨t, low, high, pcl, pch, h1, h2, h3, h4, h5, h6, h7⟩

/-! ## Pulls (R292, R312, R313, R315) -/

/-- A dummy read, as a cycle that does not retire. -/
theorem stepped_dummy (a : State → Addr) (ha : ∀ s, a (dotsToCpuTick s) = a s) (s : State) : ∃ d,
    Ran s (stepped (fun s => dummyRead (a s) s) s) [.read (a s) d] ∧
    (stepped (fun s => dummyRead (a s) s) s).cpu = s.cpu ∧
    (stepped (fun s => dummyRead (a s) s) s).micro = { s.micro with cyc := s.micro.cyc + 1 } := by
  obtain ⟨d, h, hc, hm⟩ := stepped_read (f := fun s => dummyRead (a s) s) (a := a)
    (r := fun s _ => s.cpu) (m := fun s _ => s.micro) (fun s => by
      have key : ∀ t : State, t.cpu = s.cpu → t.micro = s.micro → t = { t with cpu := s.cpu, micro := s.micro } :=
        fun t h h' => by rw [← h, ← h']
      exact key _ (memRead_cpu _ s) (memRead_micro _ s)) ha s
  exact ⟨d, h, by simpa using hc, by simpa using hm⟩

/-- A dummy read of `PC`, the cycle after T1. -/
theorem stepped_dummyPc (s : State) : ∃ d, Ran s (stepped (fun s => dummyRead s.cpu.pc s) s) [.read s.cpu.pc d] ∧
    (stepped (fun s => dummyRead s.cpu.pc s) s).cpu = s.cpu := by
  obtain ⟨d, h, hc, -⟩ := stepped_dummy (fun s => s.cpu.pc) (fun s => by simp) s
  exact ⟨d, h, hc⟩

/-- A dummy read of the stack byte, and the increment. -/
theorem stepped_stackDummyInc (s : State) : ∃ d,
    Ran s (stepped (fun s => (stackDummy s).incS) s) [.read (stackSlot s.cpu.s) d] ∧
    (stepped (fun s => (stackDummy s).incS) s).cpu = { s.cpu with s := s.cpu.s + 1 } := by
  obtain ⟨d, h, hc, -⟩ := stepped_read (f := fun s => (stackDummy s).incS) (a := fun s => stackSlot s.cpu.s)
    (r := fun s _ => { s.cpu with s := s.cpu.s + 1 }) (m := fun s _ => s.micro)
    (fun s => by
      have key : ∀ t : State, t.cpu = s.cpu → t.micro = s.micro →
          t.incS = { t with cpu := { s.cpu with s := s.cpu.s + 1 }, micro := s.micro } :=
        fun t h h' => by rw [← h, ← h']; rfl
      simp only [stackDummy, stackRead, stackSlot_eq]
      exact key _ (memRead_cpu _ s) (memRead_micro _ s)) (fun s => by simp) s
  exact ⟨d, h, by simpa using hc⟩

/-- The two cycles with which every pull starts. -/
theorem pull_start {i : Instr} (s : State) (cs : List Cycle) : ∃ u d d',
    runCycles i (goes (fun s => dummyRead s.cpu.pc s) :: goes (fun s => (stackDummy s).incS) :: cs)
      (deliver (s.begin i)) = runCycles i cs u ∧
    Ran s u [.read s.cpu.pc d, .read (stackSlot s.cpu.s) d'] ∧ u.cpu = { s.cpu with s := s.cpu.s + 1 } := by
  have hb := Ran.begin i s
  have hcu : (deliver (s.begin i)).cpu = s.cpu := rfl
  rw [runCycles_goes, runCycles_goes]
  generalize deliver (s.begin i) = u at hb hcu ⊢
  obtain ⟨d, hr1, hc1⟩ := stepped_dummyPc u
  obtain ⟨d', hr2, hc2⟩ := stepped_stackDummyInc (stepped (fun s => dummyRead s.cpu.pc s) u)
  rw [hcu] at hr1 hc1
  rw [hc1] at hr2 hc2
  exact ⟨_, d, d', rfl, (hb.trans hr1).trans hr2, hc2⟩

/-- What PLA and PLP leave, `result` being what they make of the pulled byte (R312, R313). -/
theorem pull_run {i : Instr} (hi : i ≠ .brk) (result : Byte → Cpu → Cpu) (s : State) : ∃ t d d' v,
    let l := [.read s.cpu.pc d, .read (stackSlot s.cpu.s) d', .read (stackSlot (s.cpu.s + 1)) v]
    runCycles i [goes fun s => dummyRead s.cpu.pc s, goes fun s => (stackDummy s).incS,
      retires fun s => let (byte, s) := stackRead s; s.mapCpu (result byte)] (deliver (s.begin i)) = .next t ∧
    Trace s t l ∧ t.cpu = result v { s.cpu with s := s.cpu.s + 1 } ∧ ReadsMemory s l ∧ ReadEffects s t l ∧
    StoresNothing s t ∧ Retired s.cpu.i s t := by
  obtain ⟨u, d, d', e, hr, hc⟩ := pull_start (i := i) s
    [retires fun s => let (byte, s) := stackRead s; s.mapCpu (result byte)]
  rw [e]
  obtain ⟨t, v, h1, h2, h3, h4, h5, h6, h7⟩ := final_read hi
    (f := fun s => let (byte, s) := stackRead s; s.mapCpu (result byte)) (a := stackSlot (s.cpu.s + 1))
    (r := fun v => result v u.cpu) (m := fun _ => u.micro) hr
    (by simp [stackRead, State.mapCpu, hc, stackSlot_eq]) []
  rw [hc] at h3 h7
  exact ⟨t, d, d', v, h1, h2, h3, h4, h5, h6, h7⟩

/-- A pull into `OL` (R292, R315). -/
theorem stepped_pullOl (s : State) : ∃ v,
    Ran s (stepped (fun s => let (byte, s) := stackRead s; (s.setOl byte).incS) s) [.read (stackSlot s.cpu.s) v] ∧
    (stepped (fun s => let (byte, s) := stackRead s; (s.setOl byte).incS) s).cpu = { s.cpu with s := s.cpu.s + 1 } ∧
    (stepped (fun s => let (byte, s) := stackRead s; (s.setOl byte).incS) s).micro.ol = v := by
  obtain ⟨v, h, hc, hm⟩ := stepped_read' (f := fun s => let (byte, s) := stackRead s; (s.setOl byte).incS)
    (a := stackSlot s.cpu.s) (r := fun _ => { s.cpu with s := s.cpu.s + 1 }) (m := fun v => { s.micro with ol := v })
    (s := s) (by simp [stackRead, State.setOl, State.incS, State.mapCpu, stackSlot_eq])
  exact ⟨v, h, hc, by rw [hm]⟩

/-- What RTS leaves (R292). -/
theorem rts_run {i : Instr} (hi : i ≠ .brk) (s : State) : ∃ t d d' low high d'',
    let l := [.read s.cpu.pc d, .read (stackSlot s.cpu.s) d', .read (stackSlot (s.cpu.s + 1)) low,
      .read (stackSlot (s.cpu.s + 2)) high, .read (high ++ low) d'']
    runCycles i cyclesRts (deliver (s.begin i)) = .next t ∧ Trace s t l ∧
    t.cpu = { s.cpu with pc := (high ++ low) + 1, s := s.cpu.s + 2 } ∧ ReadsMemory s l ∧ ReadEffects s t l ∧
    StoresNothing s t ∧ Retired s.cpu.i s t := by
  obtain ⟨u, d, d', e, hr, hc⟩ := pull_start (i := i) s
    [goes fun s => let (byte, s) := stackRead s; (s.setOl byte).incS,
     goes fun s => let (byte, s) := stackRead s; s.setPc (word byte s.micro.ol),
     retires fun s => let s := dummyRead s.cpu.pc s; s.setPc (s.cpu.pc + 1)]
  rw [cyclesRts, e, runCycles_goes, runCycles_goes]
  obtain ⟨low, hr1, hc1, ho1⟩ := stepped_pullOl u
  generalize stepped _ u = u1 at hr1 hc1 ho1 ⊢
  rw [hc] at hr1 hc1
  obtain ⟨high, hr2, hc2, -⟩ := stepped_read' (f := fun s => let (byte, s) := stackRead s; s.setPc (word byte s.micro.ol))
    (a := stackSlot (s.cpu.s + 2)) (r := fun v => { s.cpu with s := s.cpu.s + 2, pc := v ++ low })
    (m := fun _ => u1.micro) (s := u1)
    (by simp [stackRead, State.setPc, State.mapCpu, stackSlot_eq, hc1, ho1, word_eq, BitVec.add_assoc])
  generalize stepped _ u1 = u2 at hr2 hc2 ⊢
  obtain ⟨t, d'', h1, h2, h3, h4, h5, h6, h7⟩ := final_read hi
    (f := fun s => let s := dummyRead s.cpu.pc s; s.setPc (s.cpu.pc + 1)) (a := high ++ low)
    (r := fun _ => { s.cpu with pc := (high ++ low) + 1, s := s.cpu.s + 2 }) (m := fun _ => u2.micro)
    ((hr.trans hr1).trans hr2) (by simp [dummyRead, State.setPc, State.mapCpu, hc2]) []
  rw [hc2] at h7
  exact ⟨t, d, d', low, high, d'', h1, h2, h3, h4, h5, h6, h7⟩

/-- What RTI leaves (R315): the poll sees the restored flag `I`. -/
theorem rti_run {i : Instr} (hi : i ≠ .brk) (s : State) : ∃ t d d' p low high,
    let l := [.read s.cpu.pc d, .read (stackSlot s.cpu.s) d', .read (stackSlot (s.cpu.s + 1)) p,
      .read (stackSlot (s.cpu.s + 2)) low, .read (stackSlot (s.cpu.s + 3)) high]
    runCycles i exceptionReturn (deliver (s.begin i)) = .next t ∧ Trace s t l ∧
    t.cpu = { s.cpu.unpackP p with pc := high ++ low, s := s.cpu.s + 3 } ∧ ReadsMemory s l ∧ ReadEffects s t l ∧
    StoresNothing s t ∧ Retired (bitOf p 2) s t := by
  obtain ⟨u, d, d', e, hr, hc⟩ := pull_start (i := i) s
    [goes fun s => let (byte, s) := stackRead s; (s.mapCpu fun r => r.unpackP byte).incS,
     goes fun s => let (byte, s) := stackRead s; (s.setOl byte).incS,
     retires fun s => let (byte, s) := stackRead s; s.setPc (word byte s.micro.ol)]
  rw [exceptionReturn, e, runCycles_goes, runCycles_goes]
  obtain ⟨p, hr1, hc1, -⟩ := stepped_read'
    (f := fun s => let (byte, s) := stackRead s; (s.mapCpu fun r => r.unpackP byte).incS)
    (a := stackSlot (s.cpu.s + 1)) (r := fun v => { s.cpu.unpackP v with s := s.cpu.s + 2 })
    (m := fun _ => u.micro) (s := u)
    (by simp [stackRead, State.incS, State.mapCpu, stackSlot_eq, hc, Cpu.unpackP, BitVec.add_assoc])
  generalize stepped _ u = u1 at hr1 hc1 ⊢
  obtain ⟨low, hr2, hc2, ho2⟩ := stepped_pullOl u1
  generalize stepped _ u1 = u2 at hr2 hc2 ho2 ⊢
  rw [hc1] at hr2 hc2
  obtain ⟨t, high, h1, h2, h3, h4, h5, h6, h7⟩ := final_read hi
    (f := fun s => let (byte, s) := stackRead s; s.setPc (word byte s.micro.ol)) (a := stackSlot (s.cpu.s + 3))
    (r := fun v => { s.cpu.unpackP p with pc := v ++ low, s := s.cpu.s + 3 }) (m := fun _ => u2.micro)
    ((hr.trans hr1).trans hr2)
    (by simp [stackRead, State.setPc, State.mapCpu, stackSlot_eq, hc2, ho2, word_eq, Cpu.unpackP, BitVec.add_assoc]) []
  rw [hc2] at h7
  exact ⟨t, d, d', p, low, high, h1, h2, h3, h4, h5, h6, h7⟩

/-! ## Pushes (R291, R310, R311) -/

/-- What PHA and PHP leave, `value` being the byte they push (R310, R311). -/
theorem push_run {i : Instr} (hi : i ≠ .brk) (value : Cpu → Byte) (s : State) : ∃ t d,
    runCycles i [goes fun s => dummyRead s.cpu.pc s, retires fun s => push (value s.cpu) s] (deliver (s.begin i)) =
      .next t ∧
    Trace s t [.read s.cpu.pc d, .write (stackSlot s.cpu.s) (value s.cpu)] ∧
    t.cpu = { s.cpu with s := s.cpu.s - 1 } ∧ ReadsMemory s [.read s.cpu.pc d] ∧
    ReadEffects s t [.read s.cpu.pc d] ∧ StoresCells [(stackSlot s.cpu.s).toNat] s t ∧
    t.ram.read (stackSlot s.cpu.s).toNat = value s.cpu ∧ Retired s.cpu.i s t := by
  have hb := Ran.begin i s
  have hcu : (deliver (s.begin i)).cpu = s.cpu := rfl
  rw [runCycles_goes]
  generalize deliver (s.begin i) = u at hb hcu ⊢
  obtain ⟨d, hr1, hc1⟩ := stepped_dummyPc u
  generalize stepped _ u = u1 at hr1 hc1 ⊢
  rw [hcu] at hr1 hc1
  have hr1 := hb.trans hr1
  have e : push (value (dotsToCpuTick u1).cpu) (dotsToCpuTick u1) =
      { memWrite (stackSlot s.cpu.s) (value s.cpu) (dotsToCpuTick u1) with
        cpu := { s.cpu with s := s.cpu.s - 1 }, micro := u1.micro } := by
    simp [push, State.decS, State.mapCpu, stackSlot_eq, hc1]
  have h1 := (hr1.touched.trans (dotsToCpuTick_touched Nowhere u1)).mono (E' := (· = stackSlot s.cpu.s))
    fun _ h => h.elim
  have h2 := (h1.trans (memWrite_touched (stackSlot s.cpu.s) (value s.cpu) _)).trans
    (Touched.of_regs _ _ { s.cpu with s := s.cpu.s - 1 } u1.micro)
  simp only [List.nil_append, List.append_nil] at h2
  have hlow := stackSlot_low s.cpu.s
  have hst := memWrite_stored (a := stackSlot s.cpu.s) (value s.cpu) (dotsToCpuTick u1) (by omega)
  rw [Nat.mod_eq_of_lt hlow] at hst
  refine ⟨_, d, runCycles_retires i _ [] u1, ?_⟩
  simp only
  rw [e, hc1]
  refine ⟨h2.retire_trace i _, rfl, hr1.reads, ?_, h2.storesCells (fun ea he => ?_) i _, hst,
    h2.retired hi _ (by simp)⟩
  · have hw : ∀ ea, ea = stackSlot s.cpu.s → ¬ InPpuWindow ea ∧ ea ≠ 0x4014 ∧ ea ≠ 0x4016 := by
      rintro ea rfl
      refine ⟨fun h => ?_, fun h => ?_, fun h => ?_⟩
      · have := h.1; omega
      · rw [h] at hlow; simp at hlow
      · rw [h] at hlow; simp at hlow
    have ef := h2.effects hw
    exact ⟨fun h => ef.ppu fun a v hv => h a v (by simpa using hv), fun h => ef.count0 fun v hv => h v (by simpa using hv),
      fun h => ef.count1 fun v hv => h v (by simpa using hv)⟩
  · rw [he]; exact ⟨hlow, by simp⟩

/-! ## JSR (R291) -/

theorem selects_none {a : Addr} (h : a.toNat < 0x800) : ¬ InPpuWindow a ∧ a ≠ 0x4014 ∧ a ≠ 0x4016 := by
  refine ⟨fun hw => ?_, ?_, ?_⟩
  · have := hw.1; omega
  · rintro rfl; simp at h
  · rintro rfl; simp at h

/-- A push, as a cycle that does not retire. -/
theorem stepped_push {f : State → State} {v : Byte} {s : State} (hf : f (dotsToCpuTick s) = push v (dotsToCpuTick s)) :
    Touched (· = stackSlot s.cpu.s) s (stepped f s) [.write (stackSlot s.cpu.s) v] ∧
    (stepped f s).cpu = { s.cpu with s := s.cpu.s - 1 } ∧
    (stepped f s).micro = { s.micro with cyc := s.micro.cyc + 1 } ∧
    (stepped f s).ram.read (stackSlot s.cpu.s).toNat = v := by
  have hlow := stackSlot_low s.cpu.s
  obtain ⟨h, hc, hm, hst⟩ := stepped_write (f := f) (a := stackSlot s.cpu.s) (v := v)
    (r := { s.cpu with s := s.cpu.s - 1 }) (m := s.micro) (s := s)
    (by simp [hf, push, State.decS, State.mapCpu, stackSlot_eq])
  rw [Nat.mod_eq_of_lt hlow] at hst
  exact ⟨h, hc, hm, hst (by omega)⟩

theorem peek_plain (s : State) {a : Addr} (h : a.toNat < 0x2000 ∨ 0x4020 ≤ a.toNat) :
    s.peek a = (if a.toNat < 0x2000 then s.ram.read (a.toNat % 0x800) else Config.openBus) &&& s.cart.cpuValue a := by
  unfold State.peek internalValue
  by_cases h1 : a.toNat < 0x2000
  · rw [region_ram h1, if_pos h1]
  · have h2 : 0x4020 ≤ a.toNat := h.resolve_left h1
    rw [if_neg h1, region_open h1 (by omega) (by rintro rfl; simp at h2) (by rintro rfl; simp at h2)
      (by rintro rfl; simp at h2)]

theorem Touched.readEffects_of_low {E : Addr → Prop} {s w : State} {l : List BusAccess} (h : Touched E s w l)
    (hE : ∀ ea, E ea → ea.toNat < 0x800) (i : Instr) (b : Bool) : ReadEffects s (deliver (w.retire i b)) l :=
  have e := h.effects fun ea he => selects_none (hE ea he)
  ⟨e.ppu, e.count0, e.count1⟩

/-- What JSR leaves: the high operand byte is read after the two pushes (R291). -/
theorem jsr_run {i : Instr} (hb' : i ≠ .brk) (s : State) : ∃ t low d high,
    let p := s.cpu.pc + 1
    let l := [.read s.cpu.pc low, .read (stackSlot s.cpu.s) d, .write (stackSlot s.cpu.s) (page p),
      .write (stackSlot (s.cpu.s - 1)) (p.setWidth 8), .read p high]
    runCycles i cyclesJsr (deliver (s.begin i)) = .next t ∧ Trace s t l ∧
    t.cpu = { s.cpu with pc := high ++ low, s := s.cpu.s - 2 } ∧
    ReadsMemory s [.read s.cpu.pc low, .read (stackSlot s.cpu.s) d] ∧ (s.PlainAt p → high = t.peek p) ∧
    ReadEffects s t l ∧ StoresCells [(stackSlot s.cpu.s).toNat, (stackSlot (s.cpu.s - 1)).toNat] s t ∧
    t.ram.read (stackSlot s.cpu.s).toNat = page p ∧
    t.ram.read (stackSlot (s.cpu.s - 1)).toNat = p.setWidth 8 ∧ Retired s.cpu.i s t := by
  have hb := Ran.begin i s
  have hcu : (deliver (s.begin i)).cpu = s.cpu := rfl
  rw [cyclesJsr, runCycles_goes, runCycles_goes, runCycles_goes, runCycles_goes]
  generalize deliver (s.begin i) = u at hb hcu ⊢
  obtain ⟨low, hr1, hc1, hm1⟩ := stepped_read' (f := fun s => let (byte, s) := fetchByte s; s.setOl byte)
    (a := s.cpu.pc) (r := fun _ => { s.cpu with pc := s.cpu.pc + 1 }) (m := fun v => { u.micro with ol := v }) (s := u)
    (by simp [fetchByte, State.setOl, hcu])
  have ho1 : (stepped (fun s => let (byte, s) := fetchByte s; s.setOl byte) u).micro.ol = low := by rw [hm1]
  generalize stepped _ u = u1 at hr1 hc1 ho1 ⊢
  obtain ⟨d, hr2, hc2, hm2⟩ := stepped_dummy (fun s => stackAddr s.cpu.s) (fun s => by simp) u1
  rw [show stackAddr u1.cpu.s = stackSlot s.cpu.s by rw [hc1, stackSlot_eq]] at hr2
  rw [show (fun s : State => dummyRead (stackAddr s.cpu.s) s) = stackDummy from rfl] at hr2 hc2 hm2
  have hr2 := (hb.trans hr1).trans hr2
  have ho2 : (stepped stackDummy u1).micro.ol = low := by rw [hm2]; exact ho1
  generalize stepped stackDummy u1 = u2 at hr2 hc2 ho2 ⊢
  rw [hc1] at hc2
  obtain ⟨h3, hc3, hm3, hs3⟩ := stepped_push (f := fun s => push (hi s.cpu.pc) s) (v := page (s.cpu.pc + 1)) (s := u2)
    (by simp [hc2, hi_eq_page])
  have ho3 : (stepped (fun s => push (hi s.cpu.pc) s) u2).micro.ol = low := by rw [hm3]; exact ho2
  rw [hc2] at h3 hc3 hs3
  generalize stepped _ u2 = u3 at h3 hc3 ho3 hs3 ⊢
  obtain ⟨h4, hc4, hm4, hs4⟩ := stepped_push (f := fun s => push (lo s.cpu.pc) s) (v := (s.cpu.pc + 1).setWidth 8)
    (s := u3) (by simp [hc3, lo])
  have ho4 : (stepped (fun s => push (lo s.cpu.pc) s) u3).micro.ol = low := by rw [hm4]; exact ho3
  rw [hc3] at h4 hc4 hs4
  simp only at h3 h4 hs3 hs4
  generalize stepped _ u3 = u4 at h4 hc4 ho4 hs4 ⊢
  let E : Addr → Prop := fun ea => ea = stackSlot s.cpu.s ∨ ea = stackSlot (s.cpu.s - 1)
  have hT := (hr2.touched.mono (E' := E) fun _ h => h.elim).trans
    ((h3.mono (E' := E) fun _ h => .inl h).trans (h4.mono (E' := E) fun _ h => .inr h))
  have hne : (stackSlot s.cpu.s).toNat ≠ (stackSlot (s.cpu.s - 1)).toNat := stackSlot_ne (by bv_omega)
  have hl0 := stackSlot_low s.cpu.s
  have hl1 := stackSlot_low (s.cpu.s - 1)
  have hs3' : u4.ram.read (stackSlot s.cpu.s).toNat = page (s.cpu.pc + 1) :=
    (h4.ram _ fun ea he _ => by rw [he, Nat.mod_eq_of_lt hl1]; exact hne).trans hs3
  let g : State → State := fun s => let (byte, s) := memRead s.cpu.pc s; s.setPc (word byte s.micro.ol)
  let high := (dotsToCpuTick u4).peek (s.cpu.pc + 1)
  have hg : g (dotsToCpuTick u4) = { (memRead (s.cpu.pc + 1) (dotsToCpuTick u4)).2 with
      cpu := { s.cpu with pc := high ++ low, s := s.cpu.s - 2 }, micro := u4.micro } := by
    simp [g, high, State.setPc, State.mapCpu, hc4, ho4, word_eq]
    bv_omega
  have hw := ((dotsToCpuTick_touched Nowhere u4).trans (memRead_touched Nowhere (s.cpu.pc + 1) _)).trans
    (Touched.of_regs _ _ { s.cpu with pc := high ++ low, s := s.cpu.s - 2 } u4.micro)
  have hd := (dotsToCpuTick_touched Nowhere u4)
  have hrd := memRead_touched Nowhere (s.cpu.pc + 1) (dotsToCpuTick u4)
  have hA := hT.trans (hw.mono (E' := E) fun _ h => h.elim)
  simp only [List.nil_append, List.append_nil, List.cons_append] at hA
  have hE : ∀ ea, E ea → ea.toNat < 0x800 := by rintro ea (rfl | rfl) <;> assumption
  refine ⟨_, low, d, high, runCycles_retires i _ [] u4, ?_⟩
  have hi4 : u4.cpu.i = s.cpu.i := by rw [hc4]
  show Trace s (deliver ((g (dotsToCpuTick u4)).retire i u4.cpu.i)) _ ∧ _
  rw [hi4]
  refine ⟨?_, ?_, hr2.reads, ?_, ?_, ?_, ?_, ?_, ?_⟩
  · rw [hg]; exact hA.retire_trace i _
  · show (g (dotsToCpuTick u4)).cpu = _
    rw [hg]
  · intro hp
    have hp4 : (dotsToCpuTick u4).PlainAt (s.cpu.pc + 1) := hd.plainAt (hT.plainAt hp)
    have e := hrd.peek_eq hp4 (fun _ h => h.elim) (fun _ _ h => h.elim)
    show high = (deliver ((g (dotsToCpuTick u4)).retire i s.cpu.i)).peek (s.cpu.pc + 1)
    rw [hg]
    show (dotsToCpuTick u4).peek (s.cpu.pc + 1) = _
    rw [← e, peek_plain _ hp.2, peek_plain _ hp.2]
    rfl
  · show ReadEffects s (deliver ((g (dotsToCpuTick u4)).retire i s.cpu.i)) _
    rw [hg]; exact hA.readEffects_of_low hE i _
  · show StoresCells _ s (deliver ((g (dotsToCpuTick u4)).retire i s.cpu.i))
    rw [hg]
    refine hA.storesCells (fun ea he => ⟨hE ea he, ?_⟩) i _
    rcases he with rfl | rfl <;> simp
  · show (g (dotsToCpuTick u4)).ram.read _ = _
    rw [hg]
    exact (hw.ram _ fun _ h => h.elim).trans hs3'
  · show (g (dotsToCpuTick u4)).ram.read _ = _
    rw [hg]
    exact (hw.ram _ fun _ h => h.elim).trans hs4
  · show Retired _ s (deliver ((g (dotsToCpuTick u4)).retire i s.cpu.i))
    rw [hg]; exact hA.retired hb' _ (by simp)

/-! ## SHX and SHY (R343, R344) -/

/-- What SHX and SHY leave; `value high` is the stored byte, `high` the operand's high byte. -/
theorem highAnd_run {i : Instr} (hi : i ≠ .brk) {m : Mode} (hm : m = .abx ∨ m = .aby) (reg : StoreHook) (s : State) :
    ∃ t base low high index d,
    let byte := reg (s.cpu.fetched m) &&& (high + 1)
    let ea := if 256 ≤ low.toNat + index.toNat then byte ++ (low + index) else indexedAddr low high index
    let l := base ++ [.read (uncarriedAddr low high index) d]
    runCycles i (highAndCycles m reg) (deliver (s.begin i)) = .next t ∧ BaseTrace m s.cpu base low high index ∧
    Trace s t (l ++ [.write ea byte]) ∧ t.cpu = s.cpu.fetched m ∧ ReadsMemory s l ∧ StoresAt ea byte s t l ∧
    Retired s.cpu.i s t := by
  have hmi : m ∈ indexedModes := by rcases hm with rfl | rfl <;> simp [indexedModes]
  have hne : m ≠ .izy := by rcases hm with rfl | rfl <;> simp
  obtain ⟨base, low, high, index, d, hb, hr, hc, ha, hx, ho⟩ := indexed_store_addr hmi (deliver (s.begin i))
  have hr := (Ran.begin i s).trans hr
  rw [highAndCycles, runCycles_map_goes]
  generalize runAddrSteps (storeAddrSteps m) (deliver (s.begin i)) = u at hr hc ha hx ho
  have hi' : u.cpu.i = s.cpu.i := by rw [hc]; rfl
  have ho := ho hne
  let byte := reg (s.cpu.fetched m) &&& (high + 1)
  have hea : (if u.micro.bx = true then word byte (lo u.micro.al) else u.micro.al) =
      if 256 ≤ low.toNat + index.toNat then byte ++ (low + index) else indexedAddr low high index := by
    rw [hx, ha]
    by_cases hcar : 256 ≤ low.toNat + index.toNat
    · have hf := fixed_addr low high index
      rw [if_pos (by simpa using hcar)] at hf
      rw [if_pos (by simpa using hcar), if_pos hcar, word_eq, ← hf]
      congr 1
      apply BitVec.eq_of_toNat_eq
      have := (low + index).isLt
      simp only [lo, uncarriedAddr, BitVec.toNat_setWidth, BitVec.toNat_add, append_toNat]
      simp only [BitVec.toNat_add] at this
      show (_ + 256) % 65536 % 256 = _
      omega
    · rw [if_neg (by simpa using hcar), if_neg hcar]
  let f : State → State := fun s =>
    let byte := reg s.cpu &&& (s.micro.ol + 1)
    memWrite (if s.micro.bx then word byte (lo s.micro.al) else s.micro.al) byte s
  have hw : f (dotsToCpuTick u) =
      memWrite (if 256 ≤ low.toNat + index.toNat then byte ++ (low + index) else indexedAddr low high index) byte
        (dotsToCpuTick u) := by
    have hcu : reg u.cpu &&& (u.micro.ol + 1) = byte := by rw [hc, ho]; rfl
    simp only [f, dotsToCpuTick_cpu, dotsToCpuTick_micro, hcu, hea]
  obtain ⟨t, hrun, htr, hcpu, hst, hret⟩ := store_done (i := i) (f := f) hi hr hw hi' []
  exact ⟨t, base, low, high, index, d, hrun, hb, htr, hcpu.trans hc, hr.reads, hst, hret⟩

end Sys2Proof.Machine
end

