-- ==== Sys2Proof/Laws/Exceptions.lean ====
section
/-! SUPPORT. What the sequence that BRK, NMI, IRQ and reset share does (46_stack_system.md R314, 60_exceptions.md R410 to
R415). -/

namespace Sys2Proof.Machine

/-! ## The stack cycles -/

theorem Touched.isReset {E : Addr → Prop} {s t : State} {l : List BusAccess} (h : Touched E s t l) :
    t.lines.isReset = s.lines.isReset := by
  have := h.lines
  rw [this]; rfl

/-- The access of a stack cycle: a write of `v`, or during reset a read that gave `d`. -/
def stackAccess (reset : Bool) (a : Addr) (v d : Byte) : BusAccess := if reset then .read a d else .write a v

/-- A stack cycle of the sequence. -/
theorem stepped_exceptionPush {f : State → State} {v : Byte} {u : State}
    (hf : f (dotsToCpuTick u) = exceptionPush v (dotsToCpuTick u)) : ∃ d,
    Touched (fun ea => u.lines.isReset = false ∧ ea = stackSlot u.cpu.s) u (stepped f u)
      [stackAccess u.lines.isReset (stackSlot u.cpu.s) v d] ∧
    (stepped f u).cpu = { u.cpu with s := u.cpu.s - 1 } ∧
    (u.lines.isReset = false → (stepped f u).ram.read (stackSlot u.cpu.s).toNat = v) := by
  have hl := (dotsToCpuTick_touched Nowhere u).isReset
  by_cases hr : u.lines.isReset = true
  · obtain ⟨d, h, hc, -⟩ := stepped_read' (f := f) (a := stackSlot u.cpu.s) (r := fun _ => { u.cpu with s := u.cpu.s - 1 })
      (m := fun _ => u.micro) (s := u)
      (by rw [hf, exceptionPush, if_pos (hl.trans hr)]
          simp [stackDummy, stackRead, State.decS, State.mapCpu, stackSlot_eq])
    refine ⟨d, ?_, hc, fun h => by simp [hr] at h⟩
    rw [hr]
    exact h.touched.mono fun _ h => h.elim
  · have hr : u.lines.isReset = false := by simpa using hr
    obtain ⟨h, hc, -, hs⟩ := stepped_push (f := f) (v := v) (s := u)
      (by rw [hf, exceptionPush, if_neg (by simp [hl, hr])])
    refine ⟨0, ?_, hc, fun _ => hs⟩
    rw [hr]
    exact h.mono fun _ h => ⟨rfl, h⟩

/-! ## A change of the interrupt lines between two runs -/

/-- The interrupt lines play no part in the frame. -/
theorem Touched.relines {E : Addr → Prop} {s t : State} {l : List BusAccess} (h : Touched E s t l) (L : Lines) :
    Touched E { s with lines := L } { t with lines := L } l where
  trace := h.trace
  faulted := h.faulted
  lines := rfl
  pendNmi := id
  frames := h.frames
  board := h.board
  ram := h.ram
  oam := h.oam
  palette := h.palette
  cart := h.cart
  pads := h.pads
  ctrl := h.ctrl
  mask := h.mask
  oamAddr := h.oamAddr
  scroll := h.scroll
  fineX := h.fineX
  effects := fun hE => ⟨(h.effects hE).ppu, (h.effects hE).count0, (h.effects hE).count1⟩

theorem vector_cases (l : Lines) : l.vector = 0xFFFC ∨ l.vector = 0xFFFA ∨ l.vector = 0xFFFE := by
  unfold Lines.vector
  split
  · exact .inl rfl
  · split
    · exact .inr (.inl rfl)
    · exact .inr (.inr rfl)

theorem vector_plain (l : Lines) : 0x4020 ≤ l.vector.toNat ∧ 0x4020 ≤ (l.vector + 1).toNat := by
  rcases vector_cases l with h | h | h <;> rw [h] <;> decide

theorem memRead_nmi {a : Addr} (h : 0x4020 ≤ a.toNat) (s : State) :
    (memRead a s).2.ppu = s.ppu := (busAfterRead_kept s a).ppu fun hw => by have := hw.2; omega

/-- Where the sequence leaves the pending flags of NMI: cleared if it is NMI that was serviced, unless the PPU requests
one again. -/
def nmiServiced (l : Lines) : Bool := l.servicing && !l.armReset && l.armNmi

theorem acknowledge_pendNmi (l : Lines) : l.acknowledge.pendNmi = (l.pendNmi && !nmiServiced l) := by
  unfold Lines.acknowledge nmiServiced
  cases l.servicing <;> cases l.armReset <;> cases l.armNmi <;> simp

/-- What the sequence leaves on the interrupt lines. -/
structure Acknowledged (l m : Lines) : Prop where
  armed : m.armReset = false ∧ m.armNmi = false ∧ m.armIrq = false
  servicing : m.servicing = false
  pendReset : m.pendReset = (l.pendReset && !l.isReset)
  pendIrq : m.pendIrq = (l.pendIrq && !(l.servicing && !l.armReset && !l.armNmi))

theorem acknowledge_armed (l : Lines) :
    l.acknowledge.armReset = false ∧ l.acknowledge.armNmi = false ∧ l.acknowledge.armIrq = false := by
  unfold Lines.acknowledge
  cases l.servicing <;> cases l.armReset <;> cases l.armNmi <;> simp

theorem acknowledge_pendReset (l : Lines) : l.acknowledge.pendReset = (l.pendReset && !l.isReset) := by
  unfold Lines.acknowledge Lines.isReset
  cases l.servicing <;> cases l.armReset <;> cases l.armNmi <;> simp

theorem acknowledge_pendIrq (l : Lines) :
    l.acknowledge.pendIrq = (l.pendIrq && !(l.servicing && !l.armReset && !l.armNmi)) := by
  unfold Lines.acknowledge
  cases l.servicing <;> cases l.armReset <;> cases l.armNmi <;> simp

/-- T6, from the machine that T5 leaves: `A` is what the acknowledgment leaves of the lines. -/
theorem vectorLow_run {E : Addr → Prop} {s u : State} {l : List BusAccess} (h : Touched E s u l)
    (hE : ∀ ea, E ea → ea.toNat < 0x800) (hq : u.ppu.nmiRequested = false) : ∃ v A low,
    stepped exceptionVectorLow u = v ∧
    Touched E { s with lines := A } v (l ++ [.read s.lines.vector low]) ∧
    v.cpu = { u.cpu with i := true } ∧ v.micro.al = s.lines.vector ∧ v.micro.ol = low ∧
    (s.KnownBoard → low = s.peek s.lines.vector) ∧ (∀ b, v.ram.read b = u.ram.read b) ∧
    (∃ p, A = ({ s.lines with pendNmi := p } : Lines).acknowledge ∧ (s.lines.pendNmi = true → p = true)) ∧
    (s.ppu.nmiEnable = false → v.lines = A ∧ v.ppu.nmiEnable = false ∧ v.ppu.nmiRequested = false) := by
  have hu := h.trans (dotsToCpuTick_touched E u)
  rw [List.append_nil] at hu
  have hsel := fun ea he => selects_none (hE ea he)
  have hd := fun he => dotsToCpuTick_no_nmi (s := u)
    ((h.ctrl fun ea hea => not_selects_of_not_window 0 (hsel ea hea).1).2.2.2.2.2.trans he) hq
  have hram := (dotsToCpuTick_touched Nowhere u).ram
  have hcu := dotsToCpuTick_cpu u
  refine ⟨_, (dotsToCpuTick u).lines.acknowledge, State.peek { dotsToCpuTick u with
    lines := (dotsToCpuTick u).lines.acknowledge
    micro := { (dotsToCpuTick u).micro with al := s.lines.vector } } s.lines.vector, rfl, ?_⟩
  unfold stepped
  generalize dotsToCpuTick u = u' at hu hd hram hcu ⊢
  have hl := hu.lines
  have hv : u'.lines.vector = s.lines.vector := by rw [hl]; rfl
  have hp := vector_plain s.lines
  generalize s.lines.vector = a at hp hv ⊢
  generalize hA : u'.lines.acknowledge = A
  have h0 := (hu.relines A).trans (Touched.of_regs E { u' with lines := A } u'.cpu { u'.micro with al := a })
  rw [List.append_nil] at h0
  have e6 : exceptionVectorLow u' = { (memRead a { u' with lines := A, micro := { u'.micro with al := a } }).2 with
      cpu := { u'.cpu with i := true },
      micro := { u'.micro with al := a, ol := State.peek { u' with lines := A, micro := { u'.micro with al := a } } a } } := by
    unfold exceptionVectorLow
    rw [hv, hA]
    simp [State.setAl, State.setOl, State.mapCpu]
  rw [e6]
  generalize hv0 : ({ u' with lines := A, micro := { u'.micro with al := a } } : State) = v0 at h0 ⊢
  have h1 := ((h0.trans (memRead_touched E a v0)).trans (Touched.of_regs E _ { u'.cpu with i := true }
      { u'.micro with al := a, ol := v0.peek a, cyc := u'.micro.cyc + 1 })).trans (deliver_touched E _)
  simp only [List.append_nil] at h1
  refine ⟨h1, ?_, rfl, rfl, ?_, ?_, ⟨u'.lines.pendNmi, ?_, hu.pendNmi⟩, ?_⟩
  · show ({ u'.cpu with i := true } : Cpu) = _
    rw [hcu]
  · intro hb
    exact h0.peek_eq (a := a) ⟨hb, .inr hp.1⟩ (fun ea he => not_selects_of_not_window 7 (hsel ea he).1) (by omega)
  · intro b
    have k2 := (memRead_touched Nowhere a v0).ram b fun _ h => h.elim
    have k0 : v0.ram = u'.ram := by rw [← hv0]
    exact (k2.trans (by rw [k0])).trans (hram b fun _ h => h.elim)
  · rw [← hA, ← hl]
  · intro he
    have d := hd he
    have k := memRead_nmi hp.1 v0
    have k0 : v0.ppu = u'.ppu := by rw [← hv0]
    have kl : v0.lines = A := by rw [← hv0]
    refine ⟨?_, ?_, rfl⟩
    · show ({ (memRead a v0).2.lines with
        pendNmi := (memRead a v0).2.lines.pendNmi || (memRead a v0).2.ppu.nmiRequested } : Lines) = A
      rw [k, memRead_lines, k0, d.2.1, kl]; simp
    · show (memRead a v0).2.ppu.nmiEnable = false
      rw [k, k0]; exact d.1

/-- T7, from the machine that T6 leaves. -/
theorem vectorHigh_run {E : Addr → Prop} {s v : State} {l : List BusAccess} (h : Touched E s v l)
    (hE : ∀ ea, E ea → ea.toNat < 0x800) (ha : 0x4020 ≤ (v.micro.al + 1).toNat) : ∃ t high p,
    let l' := l ++ [.read (v.micro.al + 1) high]
    runCycles .brk [retires exceptionVectorHigh] v = .next t ∧ Trace s t l' ∧
    t.cpu = { v.cpu with pc := high ++ v.micro.ol } ∧ (s.KnownBoard → high = s.peek (v.micro.al + 1)) ∧
    ReadEffects s t l' ∧ (∀ cells, (∀ ea, E ea → ea.toNat ∈ cells) → StoresCells cells s t) ∧
    (∀ b, t.ram.read b = v.ram.read b) ∧ (t.micro.curOp = none ∧ t.micro.cyc = 0) ∧
    t.lines = { s.lines with servicing := false, pendNmi := p } ∧
    (s.lines.pendNmi = true → p = true) ∧
    (v.ppu.nmiEnable = false → v.ppu.nmiRequested = false → p = v.lines.pendNmi) ∧
    (t.faulted = s.faulted ∧ t.faultOpcode = s.faultOpcode) ∧ t.k = 0 ∧ s.frames ≤ t.frames := by
  have hw0 := h.trans (dotsToCpuTick_touched E v)
  rw [List.append_nil] at hw0
  have hsel := fun ea he => selects_none (hE ea he)
  have hd := dotsToCpuTick_no_nmi (s := v)
  have hram := (dotsToCpuTick_touched Nowhere v).ram
  have hcu := dotsToCpuTick_cpu v
  have hmi := dotsToCpuTick_micro v
  have hk : (dotsToCpuTick v).k = 0 := rfl
  refine ⟨_, (dotsToCpuTick v).peek (v.micro.al + 1), (dotsToCpuTick v).lines.pendNmi || (dotsToCpuTick v).ppu.nmiRequested,
    runCycles_retires _ _ _ _, ?_⟩
  dsimp only
  generalize dotsToCpuTick v = w0 at hw0 hd hram hcu hmi hk ⊢
  have e7 : exceptionVectorHigh w0 = { (memRead (v.micro.al + 1) w0).2 with
      cpu := { v.cpu with pc := w0.peek (v.micro.al + 1) ++ v.micro.ol }
      lines := { w0.lines with servicing := false } } := by
    unfold exceptionVectorHigh
    simp [State.setPc, State.mapCpu, hcu, hmi, word_eq]
  rw [e7]
  generalize v.micro.al + 1 = a at ha ⊢
  have h2 := hw0.trans (memRead_touched E a w0)
  have hl := hw0.lines
  have hq := memRead_nmi ha w0
  have hkw := memRead_k a w0
  have hrm := (memRead_touched Nowhere a w0).ram
  have hlw := memRead_lines a w0
  have hpk := fun hb : s.KnownBoard => hw0.peek_eq (a := a) ⟨hb, .inr ha⟩
    (fun ea he => not_selects_of_not_window 7 (hsel ea he).1) (by omega)
  generalize w0.peek a = high at h2 hpk ⊢
  generalize (memRead a w0).2 = w at h2 hq hkw hrm hlw ⊢
  refine ⟨h2.trace, rfl, hpk, ?_, fun cells hcells => ?_, fun b => ?_, ⟨rfl, rfl⟩, ?_, fun hp => ?_, fun he hr => ?_,
    h2.faulted, ?_, ?_⟩
  · have e := h2.effects hsel
    exact ⟨e.ppu, e.count0, e.count1⟩
  · have k := h2.storesCells (cells := cells) (fun ea he => ⟨hE ea he, hcells ea he⟩) .brk true
    exact ⟨k.ram, k.oam, k.palette, k.cart, k.pads, ⟨k.controls.ctrl, k.controls.mask,
      k.controls.oamAddr, k.controls.scroll, k.controls.fineX⟩⟩
  · exact (hrm b fun _ h => h.elim).trans (hram b fun _ h => h.elim)
  · show ({ w0.lines with servicing := false, pendNmi := w0.lines.pendNmi || w.ppu.nmiRequested } : Lines) = _
    rw [hq, hl]
  · rw [hw0.pendNmi hp]; rfl
  · have d := hd he hr
    rw [d.2.1, d.2.2]; simp
  · exact hkw.trans hk
  · have := h2.frames
    show _ ≤ if w.ppu.frameComplete then w.frames + 1 else w.frames
    split <;> omega

/-- T6 and T7, from the machine that T5 leaves. -/
theorem vector_run {E : Addr → Prop} {s u : State} {l : List BusAccess} (h : Touched E s u l)
    (hE : ∀ ea, E ea → ea.toNat < 0x800) (hq : u.ppu.nmiRequested = false) :
    ∃ t low high,
      let a := s.lines.vector
      let l' := l ++ [.read a low, .read (a + 1) high]
      runCycles .brk [goes exceptionVectorLow, retires exceptionVectorHigh] u = .next t ∧ Trace s t l' ∧
      t.cpu = { u.cpu with pc := high ++ low, i := true } ∧
      (s.KnownBoard → low = s.peek a ∧ high = s.peek (a + 1)) ∧ ReadEffects s t l' ∧
      (∀ cells, (∀ ea, E ea → ea.toNat ∈ cells) → StoresCells cells s t) ∧
      (∀ a, t.ram.read a = u.ram.read a) ∧
      (t.micro.curOp = none ∧ t.micro.cyc = 0) ∧ Acknowledged s.lines t.lines ∧
      (nmiServiced s.lines = false → s.lines.pendNmi = true → t.lines.pendNmi = true) ∧
      (nmiServiced s.lines = true → s.ppu.nmiEnable = false → t.lines.pendNmi = false) ∧
      (t.faulted = s.faulted ∧ t.faultOpcode = s.faultOpcode) ∧ t.k = 0 ∧ s.frames ≤ t.frames := by
  obtain ⟨v, A, low, hv, h1, hc1, ha1, ho1, hlow, hram1, ⟨p, hA, hp⟩, hnmi⟩ := vectorLow_run h hE hq
  have hpl := vector_plain s.lines
  obtain ⟨t, high, q, hrun, htr, hc, hhigh, heff, hst, hram, hmic, hlin, hq1, hq2, hf, hk, hfr⟩ :=
    vectorHigh_run h1 hE (by rw [ha1]; exact hpl.2)
  rw [ha1] at htr hhigh heff
  rw [List.append_assoc] at htr heff
  refine ⟨t, low, high, ?_, htr, ?_, fun hb => ⟨hlow hb, hhigh hb⟩, ⟨heff.ppu, heff.count0, heff.count1⟩,
    fun cells hcells => ?_, fun b => (hram b).trans (hram1 b), hmic, ?_, fun hn hpn => ?_, fun hn he => ?_, hf, hk, hfr⟩
  · rw [runCycles_goes, hv]; exact hrun
  · rw [hc, hc1, ho1]
  · have k := hst cells hcells
    exact ⟨k.ram, k.oam, k.palette, k.cart, k.pads, ⟨k.controls.ctrl, k.controls.mask,
      k.controls.oamAddr, k.controls.scroll, k.controls.fineX⟩⟩
  · rw [hlin]
    have e := acknowledge_armed { s.lines with pendNmi := p }
    have e1 := acknowledge_pendReset { s.lines with pendNmi := p }
    have e2 := acknowledge_pendIrq { s.lines with pendNmi := p }
    rw [← hA] at e e1 e2
    exact ⟨e, rfl, e1, e2⟩
  · have e := acknowledge_pendNmi { s.lines with pendNmi := p }
    rw [← hA] at e
    rw [hlin]
    refine hq1 (e.trans ?_)
    show (p && !nmiServiced s.lines) = true
    rw [hp hpn, hn]; rfl
  · have e := acknowledge_pendNmi { s.lines with pendNmi := p }
    rw [← hA] at e
    have d := hnmi he
    rw [hlin]
    refine (hq2 d.2.1 d.2.2).trans ?_
    rw [d.1]
    refine e.trans ?_
    show (p && !nmiServiced s.lines) = false
    rw [hn]; simp

/-- The whole sequence, T2 to T7. -/
theorem entry_run (s : State) : ∃ t d0 d1 d2 d3 low high,
    let r := s.lines.isReset
    let pc := if s.lines.servicing then s.cpu.pc else s.cpu.pc + 1
    let status := s.cpu.packP (!s.lines.servicing)
    let a := s.lines.vector
    let l := [.read s.cpu.pc d0, stackAccess r (stackSlot s.cpu.s) (page pc) d1,
      stackAccess r (stackSlot (s.cpu.s - 1)) (pc.setWidth 8) d2, stackAccess r (stackSlot (s.cpu.s - 2)) status d3,
      .read a low, .read (a + 1) high]
    runCycles .brk exceptionEntry (deliver (s.begin .brk)) = .next t ∧ Trace s t l ∧
    t.cpu = { s.cpu with pc := high ++ low, s := s.cpu.s - 3, i := true } ∧
    (s.KnownBoard → low = s.peek a ∧ high = s.peek (a + 1)) ∧ ReadEffects s t l ∧
    StoresCells (if r then [] else [(stackSlot s.cpu.s).toNat, (stackSlot (s.cpu.s - 1)).toNat,
      (stackSlot (s.cpu.s - 2)).toNat]) s t ∧
    (r = false → t.ram.read (stackSlot s.cpu.s).toNat = page pc ∧
      t.ram.read (stackSlot (s.cpu.s - 1)).toNat = pc.setWidth 8 ∧
      t.ram.read (stackSlot (s.cpu.s - 2)).toNat = status) ∧
    (t.micro.curOp = none ∧ t.micro.cyc = 0) ∧ Acknowledged s.lines t.lines ∧
    (nmiServiced s.lines = false → s.lines.pendNmi = true → t.lines.pendNmi = true) ∧
    (nmiServiced s.lines = true → s.ppu.nmiEnable = false → t.lines.pendNmi = false) ∧
    (t.faulted = s.faulted ∧ t.faultOpcode = s.faultOpcode) ∧ t.k = 0 ∧ s.frames ≤ t.frames := by
  have hb := Ran.begin .brk s
  have hcu : (deliver (s.begin .brk)).cpu = s.cpu := rfl
  rw [exceptionEntry, runCycles_goes, runCycles_goes, runCycles_goes, runCycles_goes]
  generalize deliver (s.begin .brk) = u at hb hcu ⊢
  have hsv : ∀ {E : Addr → Prop} {v : State} {l : List BusAccess}, Touched E s v l →
      v.lines.servicing = s.lines.servicing := fun h => by rw [h.lines]
  -- T2
  obtain ⟨d0, hr1, hc1, -⟩ := stepped_read' (f := exceptionPadding) (a := s.cpu.pc)
    (r := fun _ => { s.cpu with pc := if s.lines.servicing then s.cpu.pc else s.cpu.pc + 1 }) (m := fun _ => u.micro)
    (s := u) (by
      have hd := hsv (hb.touched.trans (dotsToCpuTick_touched Nowhere u))
      have key : ∀ x : State, x.cpu = s.cpu → x.micro = u.micro → x.lines.servicing = s.lines.servicing →
          (if x.lines.servicing then x else x.setPc (x.cpu.pc + 1)) = { x with
            cpu := { s.cpu with pc := if s.lines.servicing then s.cpu.pc else s.cpu.pc + 1 }, micro := u.micro } := by
        intro x h1 h2 h3
        rw [h3, ← h1, ← h2]
        cases s.lines.servicing <;> rfl
      show (if _ then _ else _) = _
      have hpc : (dotsToCpuTick u).cpu.pc = s.cpu.pc := by rw [dotsToCpuTick_cpu, hcu]
      rw [hpc]
      exact key _ (by simp [dummyRead, hcu]) (by simp [dummyRead]) (by simp [dummyRead, hd]))
  have hr1 := hb.trans hr1
  rw [List.nil_append] at hr1
  generalize stepped exceptionPadding u = u1 at hr1 hc1 ⊢
  generalize hpc : (if s.lines.servicing then s.cpu.pc else s.cpu.pc + 1) = pc at hc1 ⊢
  generalize hr : s.lines.isReset = r
  let E : Addr → Prop := fun ea => r = false ∧ (ea = stackSlot s.cpu.s ∨ ea = stackSlot (s.cpu.s - 1) ∨
    ea = stackSlot (s.cpu.s - 2))
  have h1 := hr1.touched.mono (E' := E) fun _ h => h.elim
  -- T3
  obtain ⟨d1, h2, hc2, hs2⟩ := stepped_exceptionPush (f := fun s => exceptionPush (hi s.cpu.pc) s) (v := page pc)
    (u := u1) (by simp [hc1, hi_eq_page])
  have hz2 : (stepped (fun s => exceptionPush (hi s.cpu.pc) s) u1).lines.isReset = r := h2.isReset.trans (h1.isReset.trans hr)
  rw [h1.isReset, hr, hc1] at h2
  rw [h1.isReset, hr, hc1] at hs2
  rw [hc1] at hc2
  generalize stepped _ u1 = u2 at h2 hc2 hs2 hz2 ⊢
  have h2' := h1.trans (h2.mono (E' := E) fun ea h => ⟨h.1, .inl h.2⟩)
  -- T4
  obtain ⟨d2, h3, hc3, hs3⟩ := stepped_exceptionPush (f := fun s => exceptionPush (lo s.cpu.pc) s)
    (v := pc.setWidth 8) (u := u2) (by simp [hc2, lo])
  have hz3 : (stepped (fun s => exceptionPush (lo s.cpu.pc) s) u2).lines.isReset = r := h3.isReset.trans hz2
  rw [hz2, hc2] at h3 hs3
  rw [hc2] at hc3
  generalize stepped _ u2 = u3 at h3 hc3 hs3 hz3 ⊢
  have h3' := h2'.trans (h3.mono (E' := E) fun ea h => ⟨h.1, .inr (.inl h.2)⟩)
  -- T5
  have hsv3 := hsv h3'
  obtain ⟨d3, h4, hc4, hs4⟩ := stepped_exceptionPush
    (f := fun s => exceptionPush (s.cpu.packP (!s.lines.servicing)) s) (v := s.cpu.packP (!s.lines.servicing)) (u := u3)
    (by
      have hd := hsv (h3'.trans (dotsToCpuTick_touched E u3))
      show exceptionPush ((dotsToCpuTick u3).cpu.packP (!(dotsToCpuTick u3).lines.servicing)) _ = _
      rw [hd, dotsToCpuTick_cpu, hc3]; rfl)
  rw [hz3, hc3] at h4 hs4
  rw [hc3] at hc4
  have hq : (stepped (fun s => exceptionPush (s.cpu.packP (!s.lines.servicing)) s) u3).ppu.nmiRequested = false := rfl
  generalize stepped _ u3 = u4 at h4 hc4 hs4 hq ⊢
  have e1 : s.cpu.s - 1 - 1 = s.cpu.s - 2 := by bv_omega
  have e2 : s.cpu.s - 2 - 1 = s.cpu.s - 3 := by bv_omega
  simp only [e1, e2] at h2 h3 h4 hs2 hs3 hs4 hc4
  have h4' := h3'.trans (h4.mono (E' := E) fun ea h => ⟨h.1, .inr (.inr h.2)⟩)
  have hE : ∀ ea, E ea → ea.toNat < 0x800 := by rintro ea ⟨-, rfl | rfl | rfl⟩ <;> exact stackSlot_low _
  -- T6 and T7
  obtain ⟨t, low, high, hrun, htr, hc, hread, heff, hst, hram, hmic, hack, hn1, hn2, hf, hk, hfr⟩ := vector_run h4' hE hq
  rw [hc4] at hc
  refine ⟨t, d0, d1, d2, d3, low, high, hrun, ?_, hc, hread, ?_, ?_, ?_, hmic, hack, hn1, hn2, hf, hk, hfr⟩
  · simpa [e1] using htr
  · simpa [e1] using heff
  · refine hst _ fun ea he => ?_
    obtain ⟨h, he⟩ := he
    rw [h]
    rcases he with rfl | rfl | rfl <;> simp
  · intro hrf
    have n01 : (stackSlot s.cpu.s).toNat ≠ (stackSlot (s.cpu.s - 1)).toNat := stackSlot_ne (by bv_omega)
    have n02 : (stackSlot s.cpu.s).toNat ≠ (stackSlot (s.cpu.s - 2)).toNat := stackSlot_ne (by bv_omega)
    have n12 : (stackSlot (s.cpu.s - 1)).toNat ≠ (stackSlot (s.cpu.s - 2)).toNat := stackSlot_ne (by bv_omega)
    have k4 : ∀ b, b ≠ (stackSlot (s.cpu.s - 2)).toNat → u4.ram.read b = u3.ram.read b := fun b hb =>
      h4.ram b fun ea he _ => by rw [he.2, Nat.mod_eq_of_lt (stackSlot_low _)]; exact hb
    have k3 : ∀ b, b ≠ (stackSlot (s.cpu.s - 1)).toNat → u3.ram.read b = u2.ram.read b := fun b hb =>
      h3.ram b fun ea he _ => by rw [he.2, Nat.mod_eq_of_lt (stackSlot_low _)]; exact hb
    refine ⟨?_, ?_, ?_⟩
    · rw [hram, k4 _ n02, k3 _ n01]; exact hs2 hrf
    · rw [hram, k4 _ n12]; exact hs3 hrf
    · rw [hram]; exact hs4 hrf

end Sys2Proof.Machine
end

