-- ==== Sys2Proof/Laws/PerInstr.lean ====
section
/-! SUPPORT. Decoding an encoded instruction gives it back, one lemma for every constructor of Instr
(30_encoding.md R110, R118 to R123). -/

namespace Sys2Proof.Laws.RoundTrip

/-- The bytes of a well-formed instruction with its operand bytes, followed by any bytes, decode to it. -/
def Statement (i : Instr) : Prop :=
  WellFormed i → ∀ operands rest, operands.length = i.operandBytes →
    decode (encode i operands ++ rest) = .ok ⟨i, operands, rest⟩

/-- It is enough that the opcode byte selects the entry. -/
theorem of_entry {i : Instr} (h : WellFormed i → optable i.opcode = i) : Statement i := by
  intro hw operands rest hl
  have e := h hw
  have hn : ¬ (operands ++ rest).length < i.operandBytes := by simp [hl]
  show (if (operands ++ rest).length < (optable i.opcode).operandBytes then _ else _) = _
  rw [e, if_neg hn]
  simp [← hl]

theorem lda (m : Mode) : Statement (.lda m) := of_entry fun h => by
  cases m <;> first | rfl | exact absurd h (by decide)

theorem ldx (m : Mode) : Statement (.ldx m) := of_entry fun h => by
  cases m <;> first | rfl | exact absurd h (by decide)

theorem ldy (m : Mode) : Statement (.ldy m) := of_entry fun h => by
  cases m <;> first | rfl | exact absurd h (by decide)

theorem sta (m : Mode) : Statement (.sta m) := of_entry fun h => by
  cases m <;> first | rfl | exact absurd h (by decide)

theorem stx (m : Mode) : Statement (.stx m) := of_entry fun h => by
  cases m <;> first | rfl | exact absurd h (by decide)

theorem sty (m : Mode) : Statement (.sty m) := of_entry fun h => by
  cases m <;> first | rfl | exact absurd h (by decide)

theorem tax : Statement .tax := of_entry fun _ => by decide

theorem tay : Statement .tay := of_entry fun _ => by decide

theorem txa : Statement .txa := of_entry fun _ => by decide

theorem tya : Statement .tya := of_entry fun _ => by decide

theorem tsx : Statement .tsx := of_entry fun _ => by decide

theorem txs : Statement .txs := of_entry fun _ => by decide

theorem adc (m : Mode) : Statement (.adc m) := of_entry fun h => by
  cases m <;> first | rfl | exact absurd h (by decide)

theorem sbc (m : Mode) (v : Nat) : Statement (.sbc m v) := of_entry fun h => by
  have hv := h.2
  cases m <;> simp only [Instr.variant, Instr.variantCount] at hv <;> interval_cases v <;>
    first | rfl | exact absurd h (by decide)

theorem and (m : Mode) : Statement (.and m) := of_entry fun h => by
  cases m <;> first | rfl | exact absurd h (by decide)

theorem ora (m : Mode) : Statement (.ora m) := of_entry fun h => by
  cases m <;> first | rfl | exact absurd h (by decide)

theorem eor (m : Mode) : Statement (.eor m) := of_entry fun h => by
  cases m <;> first | rfl | exact absurd h (by decide)

theorem cmp (m : Mode) : Statement (.cmp m) := of_entry fun h => by
  cases m <;> first | rfl | exact absurd h (by decide)

theorem cpx (m : Mode) : Statement (.cpx m) := of_entry fun h => by
  cases m <;> first | rfl | exact absurd h (by decide)

theorem cpy (m : Mode) : Statement (.cpy m) := of_entry fun h => by
  cases m <;> first | rfl | exact absurd h (by decide)

theorem bit (m : Mode) : Statement (.bit m) := of_entry fun h => by
  cases m <;> first | rfl | exact absurd h (by decide)

theorem asl (m : Mode) : Statement (.asl m) := of_entry fun h => by
  cases m <;> first | rfl | exact absurd h (by decide)

theorem lsr (m : Mode) : Statement (.lsr m) := of_entry fun h => by
  cases m <;> first | rfl | exact absurd h (by decide)

theorem rol (m : Mode) : Statement (.rol m) := of_entry fun h => by
  cases m <;> first | rfl | exact absurd h (by decide)

theorem ror (m : Mode) : Statement (.ror m) := of_entry fun h => by
  cases m <;> first | rfl | exact absurd h (by decide)

theorem inc (m : Mode) : Statement (.inc m) := of_entry fun h => by
  cases m <;> first | rfl | exact absurd h (by decide)

theorem dec (m : Mode) : Statement (.dec m) := of_entry fun h => by
  cases m <;> first | rfl | exact absurd h (by decide)

theorem inx : Statement .inx := of_entry fun _ => by decide

theorem iny : Statement .iny := of_entry fun _ => by decide

theorem dex : Statement .dex := of_entry fun _ => by decide

theorem dey : Statement .dey := of_entry fun _ => by decide

theorem clc : Statement .clc := of_entry fun _ => by decide

theorem sec : Statement .sec := of_entry fun _ => by decide

theorem cli : Statement .cli := of_entry fun _ => by decide

theorem sei : Statement .sei := of_entry fun _ => by decide

theorem clv : Statement .clv := of_entry fun _ => by decide

theorem cld : Statement .cld := of_entry fun _ => by decide

theorem sed : Statement .sed := of_entry fun _ => by decide

theorem nop (m : Mode) (v : Nat) : Statement (.nop m v) := of_entry fun h => by
  have hv := h.2
  cases m <;> simp only [Instr.variant, Instr.variantCount, Mode.nopCount] at hv <;> interval_cases v <;> rfl

theorem bpl : Statement .bpl := of_entry fun _ => by decide

theorem bmi : Statement .bmi := of_entry fun _ => by decide

theorem bvc : Statement .bvc := of_entry fun _ => by decide

theorem bvs : Statement .bvs := of_entry fun _ => by decide

theorem bcc : Statement .bcc := of_entry fun _ => by decide

theorem bcs : Statement .bcs := of_entry fun _ => by decide

theorem bne : Statement .bne := of_entry fun _ => by decide

theorem beq : Statement .beq := of_entry fun _ => by decide

theorem jmp (m : Mode) : Statement (.jmp m) := of_entry fun h => by
  cases m <;> first | rfl | exact absurd h (by decide)

theorem jsr : Statement .jsr := of_entry fun _ => by decide

theorem rts : Statement .rts := of_entry fun _ => by decide

theorem pha : Statement .pha := of_entry fun _ => by decide

theorem php : Statement .php := of_entry fun _ => by decide

theorem pla : Statement .pla := of_entry fun _ => by decide

theorem plp : Statement .plp := of_entry fun _ => by decide

theorem brk : Statement .brk := of_entry fun _ => by decide

theorem rti : Statement .rti := of_entry fun _ => by decide

theorem slo (m : Mode) : Statement (.slo m) := of_entry fun h => by
  cases m <;> first | rfl | exact absurd h (by decide)

theorem rla (m : Mode) : Statement (.rla m) := of_entry fun h => by
  cases m <;> first | rfl | exact absurd h (by decide)

theorem sre (m : Mode) : Statement (.sre m) := of_entry fun h => by
  cases m <;> first | rfl | exact absurd h (by decide)

theorem rra (m : Mode) : Statement (.rra m) := of_entry fun h => by
  cases m <;> first | rfl | exact absurd h (by decide)

theorem sax (m : Mode) : Statement (.sax m) := of_entry fun h => by
  cases m <;> first | rfl | exact absurd h (by decide)

theorem lax (m : Mode) : Statement (.lax m) := of_entry fun h => by
  cases m <;> first | rfl | exact absurd h (by decide)

theorem dcp (m : Mode) : Statement (.dcp m) := of_entry fun h => by
  cases m <;> first | rfl | exact absurd h (by decide)

theorem isc (m : Mode) : Statement (.isc m) := of_entry fun h => by
  cases m <;> first | rfl | exact absurd h (by decide)

theorem anc (v : Nat) : Statement (.anc v) := of_entry fun h => by
  have hv := h.2
  simp only [Instr.variant, Instr.variantCount] at hv
  interval_cases v <;> rfl

theorem alr : Statement .alr := of_entry fun _ => by decide

theorem arr : Statement .arr := of_entry fun _ => by decide

theorem lxa : Statement .lxa := of_entry fun _ => by decide

theorem sbx : Statement .sbx := of_entry fun _ => by decide

theorem shy : Statement .shy := of_entry fun _ => by decide

theorem shx : Statement .shx := of_entry fun _ => by decide

theorem jam (v : Nat) : Statement (.jam v) := of_entry fun h => by
  have hv := h.2
  simp only [Instr.variant, Instr.variantCount] at hv
  interval_cases v <;> rfl

theorem ane : Statement .ane := of_entry fun _ => by decide

theorem sha (v : Nat) : Statement (.sha v) := of_entry fun h => by
  have hv := h.2
  simp only [Instr.variant, Instr.variantCount] at hv
  interval_cases v <;> rfl

theorem tas : Statement .tas := of_entry fun _ => by decide

theorem las : Statement .las := of_entry fun _ => by decide

end Sys2Proof.Laws.RoundTrip
end

