-- ==== Sys2Proof/Tests/Slice0.lean ====
section
/-! SUPPORT. The model's own tests: the two checks of WellFormed; every constructor decoded from bytes written out from
30_encoding.md and opcode_table.json; single steps whose expected results are the vectors of 95_test_vectors.md; and, for
every statement of Obligations.lean that has hypotheses, a machine and operands that meet them together. -/

namespace Sys2Proof.Tests

open Sys2Proof Sys2Proof.Machine

/-! ## Machines to test on -/

/-- The registers at the start of a vector (95_test_vectors.md, Conventions). -/
def start : Cpu :=
  { pc := 0x8000, a := 0, x := 0, y := 0, s := 0xFD, c := false, z := false, i := false, d := false, v := false,
    n := false }

/-- A machine with the flat test cartridge, the registers `r`, and the bytes of a list placed in it. -/
def board (r : Cpu) (cells : List (Addr × Byte)) : State :=
  cells.foldl (fun s c => s.place c.1 c.2) { State.reset with cpu := r, cart := .flat [] [] }

/-- The outcome is a next state with this property. -/
def leaves (o : Host.Outcome State Fault Refusal) (p : State → Bool) : Bool :=
  match o with
  | .next t => p t
  | _ => false

/-- The outcome is this fault. -/
def stops (o : Host.Outcome State Fault Refusal) (f : Fault) : Bool :=
  match o with
  | .fault g => g = f
  | _ => false

/-- An outcome that is a next state. -/
theorem completes {o : Host.Outcome State Fault Refusal} (h : leaves o (fun _ => true) = true) : ∃ t, o = .next t := by
  cases o with
  | next t => exact ⟨t, rfl⟩
  | fault f => cases h
  | refused r => cases h

/-- One step makes these bus accesses and leaves these registers. -/
def shows (s : State) (accesses : List BusAccess) (r : Cpu) : Bool :=
  leaves (step s) fun t => t.busLog = accesses.reverse ++ s.busLog ∧ t.cpu = r

/-! ## WellFormed: a term that each check refuses -/

/-- The mode check: the table has no LDA with the implied mode, and no NOP with the accumulator mode (R120, R123). -/
theorem test_mode_check_refuses : ¬ WellFormed (.lda .imp) ∧ ¬ WellFormed (.nop .acc 0) ∧ ¬ WellFormed (.ldx .zpx) := by
  decide

/-- The variant check: two bytes stand for SBC immediate, twelve for JAM, six for NOP absolute,X (R122, R123). -/
theorem test_variant_check_refuses :
    ¬ WellFormed (.sbc .imm 2) ∧ ¬ WellFormed (.jam 12) ∧ ¬ WellFormed (.nop .abx 6) ∧ ¬ WellFormed (.sbc .zp 1) := by
  decide

/-- `exec` refuses an ill-formed term by name (40_cycle_engine.md R147). -/
theorem test_exec_refuses_ill_formed (s : State) :
    exec (.lda .imp) s = .refused .notInOpcodeTable ∧ exec (.jam 12) s = .refused .notInOpcodeTable := ⟨rfl, rfl⟩

/-! ## Decoding: words written out from the tables of 30_encoding.md and 47_undocumented.md -/

theorem test_decode_loads_stores :
    decode [0xB9, 0x34, 0x12] = .ok ⟨.lda .aby, [0x34, 0x12], []⟩ ∧ decode [0xB6, 0x10] = .ok ⟨.ldx .zpy, [0x10], []⟩ ∧
    decode [0xBC, 0x10, 0x02] = .ok ⟨.ldy .abx, [0x10, 0x02], []⟩ ∧ decode [0x91, 0x20] = .ok ⟨.sta .izy, [0x20], []⟩ ∧
    decode [0x96, 0xF0] = .ok ⟨.stx .zpy, [0xF0], []⟩ ∧ decode [0x8C, 0x10, 0x00] = .ok ⟨.sty .abs, [0x10, 0x00], []⟩ := by
  decide

theorem test_decode_transfers :
    decode [0xAA] = .ok ⟨.tax, [], []⟩ ∧ decode [0xA8] = .ok ⟨.tay, [], []⟩ ∧ decode [0x8A] = .ok ⟨.txa, [], []⟩ ∧
    decode [0x98] = .ok ⟨.tya, [], []⟩ ∧ decode [0xBA] = .ok ⟨.tsx, [], []⟩ ∧ decode [0x9A] = .ok ⟨.txs, [], []⟩ := by
  decide

theorem test_decode_arithmetic :
    decode [0x61, 0x10] = .ok ⟨.adc .izx, [0x10], []⟩ ∧ decode [0xF9, 0x00, 0x02] = .ok ⟨.sbc .aby 0, [0x00, 0x02], []⟩ ∧
    decode [0x35, 0x0F] = .ok ⟨.and .zpx, [0x0F], []⟩ ∧ decode [0x0D, 0x01, 0x02] = .ok ⟨.ora .abs, [0x01, 0x02], []⟩ ∧
    decode [0x49, 0xFF] = .ok ⟨.eor .imm, [0xFF], []⟩ ∧ decode [0xD1, 0x20] = .ok ⟨.cmp .izy, [0x20], []⟩ ∧
    decode [0xE0, 0x80] = .ok ⟨.cpx .imm, [0x80], []⟩ ∧ decode [0xC4, 0x10] = .ok ⟨.cpy .zp, [0x10], []⟩ ∧
    decode [0x24, 0x10] = .ok ⟨.bit .zp, [0x10], []⟩ := by
  decide

theorem test_decode_shifts_counts :
    decode [0x16, 0x10] = .ok ⟨.asl .zpx, [0x10], []⟩ ∧ decode [0x4A] = .ok ⟨.lsr .acc, [], []⟩ ∧
    decode [0x2E, 0x00, 0x03] = .ok ⟨.rol .abs, [0x00, 0x03], []⟩ ∧
    decode [0x7E, 0x00, 0x02] = .ok ⟨.ror .abx, [0x00, 0x02], []⟩ ∧ decode [0xE6, 0x10] = .ok ⟨.inc .zp, [0x10], []⟩ ∧
    decode [0xDE, 0x00, 0x02] = .ok ⟨.dec .abx, [0x00, 0x02], []⟩ ∧ decode [0xE8] = .ok ⟨.inx, [], []⟩ ∧
    decode [0xC8] = .ok ⟨.iny, [], []⟩ ∧ decode [0xCA] = .ok ⟨.dex, [], []⟩ ∧ decode [0x88] = .ok ⟨.dey, [], []⟩ := by
  decide

theorem test_decode_flags_nop :
    decode [0x18] = .ok ⟨.clc, [], []⟩ ∧ decode [0x38] = .ok ⟨.sec, [], []⟩ ∧ decode [0x58] = .ok ⟨.cli, [], []⟩ ∧
    decode [0x78] = .ok ⟨.sei, [], []⟩ ∧ decode [0xB8] = .ok ⟨.clv, [], []⟩ ∧ decode [0xD8] = .ok ⟨.cld, [], []⟩ ∧
    decode [0xF8] = .ok ⟨.sed, [], []⟩ ∧ decode [0xEA] = .ok ⟨.nop .imp 0, [], []⟩ ∧
    decode [0xF4, 0x10] = .ok ⟨.nop .zpx 5, [0x10], []⟩ := by
  decide

theorem test_decode_branches_jumps :
    decode [0x10, 0x02] = .ok ⟨.bpl, [0x02], []⟩ ∧ decode [0x30, 0x02] = .ok ⟨.bmi, [0x02], []⟩ ∧
    decode [0x50, 0x20] = .ok ⟨.bvc, [0x20], []⟩ ∧ decode [0x70, 0x10] = .ok ⟨.bvs, [0x10], []⟩ ∧
    decode [0x90, 0xFE] = .ok ⟨.bcc, [0xFE], []⟩ ∧ decode [0xB0, 0x7F] = .ok ⟨.bcs, [0x7F], []⟩ ∧
    decode [0xD0, 0xFB] = .ok ⟨.bne, [0xFB], []⟩ ∧ decode [0xF0, 0xFC] = .ok ⟨.beq, [0xFC], []⟩ ∧
    decode [0x4C, 0x00, 0x80] = .ok ⟨.jmp .abs, [0x00, 0x80], []⟩ ∧ decode [0x20, 0x34, 0x12] = .ok ⟨.jsr, [0x34, 0x12], []⟩ ∧
    decode [0x60] = .ok ⟨.rts, [], []⟩ := by
  decide

theorem test_decode_stack_system :
    decode [0x48] = .ok ⟨.pha, [], []⟩ ∧ decode [0x08] = .ok ⟨.php, [], []⟩ ∧ decode [0x68] = .ok ⟨.pla, [], []⟩ ∧
    decode [0x28] = .ok ⟨.plp, [], []⟩ ∧ decode [0x00] = .ok ⟨.brk, [], []⟩ ∧ decode [0x40] = .ok ⟨.rti, [], []⟩ := by
  decide

theorem test_decode_undocumented :
    decode [0x07, 0x10] = .ok ⟨.slo .zp, [0x10], []⟩ ∧ decode [0x2F, 0x00, 0x03] = .ok ⟨.rla .abs, [0x00, 0x03], []⟩ ∧
    decode [0x47, 0x10] = .ok ⟨.sre .zp, [0x10], []⟩ ∧ decode [0x63, 0x10] = .ok ⟨.rra .izx, [0x10], []⟩ ∧
    decode [0x97, 0x10] = .ok ⟨.sax .zpy, [0x10], []⟩ ∧ decode [0xB3, 0x10] = .ok ⟨.lax .izy, [0x10], []⟩ ∧
    decode [0xD3, 0x20] = .ok ⟨.dcp .izy, [0x20], []⟩ ∧ decode [0xFB, 0x00, 0x02] = .ok ⟨.isc .aby, [0x00, 0x02], []⟩ ∧
    decode [0x2B, 0x7F] = .ok ⟨.anc 1, [0x7F], []⟩ ∧ decode [0x4B, 0x03] = .ok ⟨.alr, [0x03], []⟩ ∧
    decode [0x6B, 0xFF] = .ok ⟨.arr, [0xFF], []⟩ ∧ decode [0xAB, 0x5A] = .ok ⟨.lxa, [0x5A], []⟩ ∧
    decode [0xCB, 0x01] = .ok ⟨.sbx, [0x01], []⟩ ∧ decode [0x9C, 0x00, 0x03] = .ok ⟨.shy, [0x00, 0x03], []⟩ ∧
    decode [0x9E, 0xF0, 0x02] = .ok ⟨.shx, [0xF0, 0x02], []⟩ := by
  decide

theorem test_decode_sentinels :
    decode [0x62] = .ok ⟨.jam 6, [], []⟩ ∧ decode [0x8B] = .ok ⟨.ane, [], []⟩ ∧ decode [0x9F] = .ok ⟨.sha 1, [], []⟩ ∧
    decode [0x9B] = .ok ⟨.tas, [], []⟩ ∧ decode [0xBB] = .ok ⟨.las, [], []⟩ := by
  decide

/-- The host's numbering: 8D 00 02 is the number 0x02008D, and an operand the table gives no bits is 0. -/
theorem test_decode_table_word :
    decodeTableWord 24 0x02008D = some (.sta .abs) ∧ decodeTableWord 8 0x4C = some (.jmp .abs) ∧
    decodeTableWord 8 0x02 = some (.jam 0) := by
  decide

/-- `withFetchWord` places the word where the next step fetches, right after reset. -/
theorem test_with_fetch_word :
    shows (State.reset.withFetchWord 16 0x05A9) [.read 0xFFFF 0xA9, .read 0x0000 0x05]
      { State.reset.cpu with pc := 0x0001, a := 0x05 } = true := by
  decide

/-! ## Single steps: vectors of 95_test_vectors.md, named in each docstring -/

/-- V-LS-5. -/
theorem test_lda_zpx_wraps : shows (board { start with x := 0x20 } [(0x8000, 0xB5), (0x8001, 0xF0), (0x0010, 0x42)])
    [.read 0x8000 0xB5, .read 0x8001 0xF0, .read 0x00F0 0x00, .read 0x0010 0x42]
    { start with pc := 0x8002, a := 0x42, x := 0x20 } = true := by decide

/-- V-LS-6. -/
theorem test_lda_abx_crosses : shows (board { start with x := 0x20 }
      [(0x8000, 0xBD), (0x8001, 0xF0), (0x8002, 0x12), (0x1310, 0x99)])
    [.read 0x8000 0xBD, .read 0x8001 0xF0, .read 0x8002 0x12, .read 0x1210 0x00, .read 0x1310 0x99]
    { start with pc := 0x8003, a := 0x99, x := 0x20, n := true } = true := by decide

/-- V-LS-8. -/
theorem test_lda_izx_pointer_wraps : shows (board { start with x := 0x01 }
      [(0x8000, 0xA1), (0x8001, 0xFE), (0x00FF, 0x34), (0x0000, 0x12), (0x1234, 0x77)])
    [.read 0x8000 0xA1, .read 0x8001 0xFE, .read 0x00FE 0x00, .read 0x00FF 0x34, .read 0x0000 0x12, .read 0x1234 0x77]
    { start with pc := 0x8002, a := 0x77, x := 0x01 } = true := by decide

/-- V-LS-9. -/
theorem test_lda_izy_crosses : shows (board { start with y := 0x10 }
      [(0x8000, 0xB1), (0x8001, 0xFF), (0x00FF, 0xF8), (0x0000, 0x02), (0x0308, 0x66)])
    [.read 0x8000 0xB1, .read 0x8001 0xFF, .read 0x00FF 0xF8, .read 0x0000 0x02, .read 0x0208 0x00, .read 0x0308 0x66]
    { start with pc := 0x8002, a := 0x66, y := 0x10 } = true := by decide

/-- V-LS-10. -/
theorem test_ldx_zpy_wraps : shows (board { start with y := 0xFF } [(0x8000, 0xB6), (0x8001, 0x10), (0x000F, 0x80)])
    [.read 0x8000 0xB6, .read 0x8001 0x10, .read 0x0010 0x00, .read 0x000F 0x80]
    { start with pc := 0x8002, x := 0x80, y := 0xFF, n := true } = true := by decide

/-- V-LS-11. -/
theorem test_ldy_abx : shows (board { start with x := 0x05, y := 0x33 }
      [(0x8000, 0xBC), (0x8001, 0x10), (0x8002, 0x02), (0x0215, 0x00)])
    [.read 0x8000 0xBC, .read 0x8001 0x10, .read 0x8002 0x02, .read 0x0215 0x00]
    { start with pc := 0x8003, x := 0x05, z := true } = true := by decide

/-- V-LS-13. -/
theorem test_sta_abx_crosses : shows (board { start with a := 0x5A, x := 0x20 }
      [(0x8000, 0x9D), (0x8001, 0xF0), (0x8002, 0x02)])
    [.read 0x8000 0x9D, .read 0x8001 0xF0, .read 0x8002 0x02, .read 0x0210 0x00, .write 0x0310 0x5A]
    { start with pc := 0x8003, a := 0x5A, x := 0x20 } = true := by decide

/-- V-LS-16. -/
theorem test_stx_zpy_wraps : shows (board { start with x := 0x77, y := 0xF8 } [(0x8000, 0x96), (0x8001, 0x10)])
    [.read 0x8000 0x96, .read 0x8001 0x10, .read 0x0010 0x00, .write 0x0008 0x77]
    { start with pc := 0x8002, x := 0x77, y := 0xF8 } = true := by decide

/-- V-LS-17. -/
theorem test_sty_keeps_flags : shows (board { start with n := true } [(0x8000, 0x84), (0x8001, 0x10), (0x0010, 0xEE)])
    [.read 0x8000 0x84, .read 0x8001 0x10, .write 0x0010 0x00]
    { start with pc := 0x8002, n := true } = true := by decide

/-- V-LS-18. -/
theorem test_tax : shows (board { start with a := 0x80 } [(0x8000, 0xAA)])
    [.read 0x8000 0xAA, .read 0x8001 0x00]
    { start with pc := 0x8001, a := 0x80, x := 0x80, n := true } = true := by decide

/-- V-LS-19. -/
theorem test_txs_keeps_flags : shows (board { start with n := true } [(0x8000, 0x9A)])
    [.read 0x8000 0x9A, .read 0x8001 0x00]
    { start with pc := 0x8001, s := 0x00, n := true } = true := by decide

/-- V-LS-20. -/
theorem test_tsx : shows (board { start with x := 0x55, s := 0x00 } [(0x8000, 0xBA)])
    [.read 0x8000 0xBA, .read 0x8001 0x00]
    { start with pc := 0x8001, s := 0x00, z := true } = true := by decide

/-- V-LS-21. -/
theorem test_tya : shows (board { start with a := 0xFF, y := 0x01, n := true } [(0x8000, 0x98)])
    [.read 0x8000 0x98, .read 0x8001 0x00]
    { start with pc := 0x8001, a := 0x01, y := 0x01 } = true := by decide

/-- V-ALU-1. -/
theorem test_adc_overflows : shows (board { start with a := 0x7F } [(0x8000, 0x69), (0x8001, 0x01)])
    [.read 0x8000 0x69, .read 0x8001 0x01]
    { start with pc := 0x8002, a := 0x80, v := true, n := true } = true := by decide

/-- V-ALU-6. -/
theorem test_adc_ignores_decimal : shows (board { start with a := 0x09, d := true } [(0x8000, 0x69), (0x8001, 0x09)])
    [.read 0x8000 0x69, .read 0x8001 0x09]
    { start with pc := 0x8002, a := 0x12, d := true } = true := by decide

/-- V-ALU-9. -/
theorem test_sbc_borrows : shows (board start [(0x8000, 0xE9), (0x8001, 0x00)])
    [.read 0x8000 0xE9, .read 0x8001 0x00]
    { start with pc := 0x8002, a := 0xFF, n := true } = true := by decide

/-- V-ALU-10. -/
theorem test_sbc_overflows : shows (board { start with a := 0x7F, c := true } [(0x8000, 0xE9), (0x8001, 0x80)])
    [.read 0x8000 0xE9, .read 0x8001 0x80]
    { start with pc := 0x8002, a := 0xFF, v := true, n := true } = true := by decide

/-- V-ALU-12. -/
theorem test_and : shows (board { start with a := 0xF0 } [(0x8000, 0x29), (0x8001, 0x0F)])
    [.read 0x8000 0x29, .read 0x8001 0x0F]
    { start with pc := 0x8002, z := true } = true := by decide

/-- V-ALU-13. -/
theorem test_ora_zp : shows (board { start with a := 0x01 } [(0x8000, 0x05), (0x8001, 0x10), (0x0010, 0x80)])
    [.read 0x8000 0x05, .read 0x8001 0x10, .read 0x0010 0x80]
    { start with pc := 0x8002, a := 0x81, n := true } = true := by decide

/-- V-ALU-14. -/
theorem test_eor : shows (board { start with a := 0xFF } [(0x8000, 0x49), (0x8001, 0xFF)])
    [.read 0x8000 0x49, .read 0x8001 0xFF]
    { start with pc := 0x8002, z := true } = true := by decide

/-- V-ALU-16. -/
theorem test_cmp_keeps_overflow : shows (board { start with a := 0x10, v := true } [(0x8000, 0xC9), (0x8001, 0x11)])
    [.read 0x8000 0xC9, .read 0x8001 0x11]
    { start with pc := 0x8002, a := 0x10, v := true, n := true } = true := by decide

/-- V-ALU-18. -/
theorem test_cpx : shows (board start [(0x8000, 0xE0), (0x8001, 0x80)])
    [.read 0x8000 0xE0, .read 0x8001 0x80]
    { start with pc := 0x8002, n := true } = true := by decide

/-- V-ALU-19. -/
theorem test_cpy_zp : shows (board { start with y := 0x06 } [(0x8000, 0xC4), (0x8001, 0x10), (0x0010, 0x05)])
    [.read 0x8000 0xC4, .read 0x8001 0x10, .read 0x0010 0x05]
    { start with pc := 0x8002, y := 0x06, c := true } = true := by decide

/-- V-ALU-20. -/
theorem test_bit_zp : shows (board { start with a := 0x01 } [(0x8000, 0x24), (0x8001, 0x10), (0x0010, 0xC0)])
    [.read 0x8000 0x24, .read 0x8001 0x10, .read 0x0010 0xC0]
    { start with pc := 0x8002, a := 0x01, z := true, v := true, n := true } = true := by decide

/-- V-SH-1. -/
theorem test_asl_accumulator : shows (board { start with a := 0x81 } [(0x8000, 0x0A)])
    [.read 0x8000 0x0A, .read 0x8001 0x00]
    { start with pc := 0x8001, a := 0x02, c := true } = true := by decide

/-- V-SH-3. -/
theorem test_rol_accumulator : shows (board { start with a := 0x80, c := true } [(0x8000, 0x2A)])
    [.read 0x8000 0x2A, .read 0x8001 0x00]
    { start with pc := 0x8001, a := 0x01, c := true } = true := by decide

/-- V-SH-4. -/
theorem test_ror_accumulator : shows (board { start with a := 0x01, c := true } [(0x8000, 0x6A)])
    [.read 0x8000 0x6A, .read 0x8001 0x00]
    { start with pc := 0x8001, a := 0x80, c := true, n := true } = true := by decide

/-- V-SH-7. -/
theorem test_lsr_abx_crosses : shows (board { start with x := 0x01 }
      [(0x8000, 0x5E), (0x8001, 0xFF), (0x8002, 0x02), (0x0300, 0x02)])
    [.read 0x8000 0x5E, .read 0x8001 0xFF, .read 0x8002 0x02, .read 0x0200 0x00, .read 0x0300 0x02,
      .write 0x0300 0x02, .write 0x0300 0x01]
    { start with pc := 0x8003, x := 0x01 } = true := by decide

/-- V-SH-8. -/
theorem test_inc_wraps : shows (board start [(0x8000, 0xE6), (0x8001, 0x10), (0x0010, 0xFF)])
    [.read 0x8000 0xE6, .read 0x8001 0x10, .read 0x0010 0xFF, .write 0x0010 0xFF, .write 0x0010 0x00]
    { start with pc := 0x8002, z := true } = true := by decide

/-- V-SH-10. -/
theorem test_dec_zpx_wraps : shows (board { start with x := 0x20 } [(0x8000, 0xD6), (0x8001, 0xF0), (0x0010, 0x00)])
    [.read 0x8000 0xD6, .read 0x8001 0xF0, .read 0x00F0 0x00, .read 0x0010 0x00, .write 0x0010 0x00,
      .write 0x0010 0xFF]
    { start with pc := 0x8002, x := 0x20, n := true } = true := by decide

/-- V-SH-11. -/
theorem test_inx_wraps : shows (board { start with x := 0xFF } [(0x8000, 0xE8)])
    [.read 0x8000 0xE8, .read 0x8001 0x00]
    { start with pc := 0x8001, z := true } = true := by decide

/-- V-SH-12. -/
theorem test_dey_wraps : shows (board start [(0x8000, 0x88)])
    [.read 0x8000 0x88, .read 0x8001 0x00]
    { start with pc := 0x8001, y := 0xFF, n := true } = true := by decide

/-- V-SH-13. -/
theorem test_dex : shows (board { start with x := 0x01 } [(0x8000, 0xCA)])
    [.read 0x8000 0xCA, .read 0x8001 0x00]
    { start with pc := 0x8001, z := true } = true := by decide

/-- V-SH-14. -/
theorem test_iny : shows (board { start with y := 0x7F } [(0x8000, 0xC8)])
    [.read 0x8000 0xC8, .read 0x8001 0x00]
    { start with pc := 0x8001, y := 0x80, n := true } = true := by decide

/-- V-FL-1. -/
theorem test_sec : shows (board start [(0x8000, 0x38)])
    [.read 0x8000 0x38, .read 0x8001 0x00]
    { start with pc := 0x8001, c := true } = true := by decide

/-- V-FL-2. -/
theorem test_clc : shows (board { start with c := true, n := true } [(0x8000, 0x18)])
    [.read 0x8000 0x18, .read 0x8001 0x00]
    { start with pc := 0x8001, n := true } = true := by decide

/-- V-FL-3. -/
theorem test_sei : shows (board start [(0x8000, 0x78)])
    [.read 0x8000 0x78, .read 0x8001 0x00]
    { start with pc := 0x8001, i := true } = true := by decide

/-- V-FL-4. -/
theorem test_cli : shows (board { start with i := true } [(0x8000, 0x58)])
    [.read 0x8000 0x58, .read 0x8001 0x00]
    { start with pc := 0x8001 } = true := by decide

/-- V-FL-5. -/
theorem test_sed : shows (board start [(0x8000, 0xF8)])
    [.read 0x8000 0xF8, .read 0x8001 0x00]
    { start with pc := 0x8001, d := true } = true := by decide

/-- V-FL-6. -/
theorem test_cld : shows (board { start with d := true } [(0x8000, 0xD8)])
    [.read 0x8000 0xD8, .read 0x8001 0x00]
    { start with pc := 0x8001 } = true := by decide

/-- V-FL-7. -/
theorem test_clv : shows (board { start with v := true } [(0x8000, 0xB8)])
    [.read 0x8000 0xB8, .read 0x8001 0x00]
    { start with pc := 0x8001 } = true := by decide

/-- V-FL-8. -/
theorem test_nop : shows (board { start with a := 0x01, c := true, n := true } [(0x8000, 0xEA)])
    [.read 0x8000 0xEA, .read 0x8001 0x00]
    { start with pc := 0x8001, a := 0x01, c := true, n := true } = true := by decide

/-- V-BR-1. -/
theorem test_bne_not_taken : shows (board { start with z := true } [(0x8000, 0xD0), (0x8001, 0x02)])
    [.read 0x8000 0xD0, .read 0x8001 0x02]
    { start with pc := 0x8002, z := true } = true := by decide

/-- V-BR-3. -/
theorem test_beq_crosses_backwards : shows (board { start with z := true } [(0x8000, 0xF0), (0x8001, 0xFC)])
    [.read 0x8000 0xF0, .read 0x8001 0xFC, .read 0x8002 0x00, .read 0x80FE 0x00]
    { start with pc := 0x7FFE, z := true } = true := by decide

/-- V-BR-4. -/
theorem test_bcc_to_itself : shows (board start [(0x8000, 0x90), (0x8001, 0xFE)])
    [.read 0x8000 0x90, .read 0x8001 0xFE, .read 0x8002 0x00]
    start = true := by decide

/-- V-BR-5. -/
theorem test_bmi : shows (board { start with n := true } [(0x8000, 0x30), (0x8001, 0x7F)])
    [.read 0x8000 0x30, .read 0x8001 0x7F, .read 0x8002 0x00]
    { start with pc := 0x8081, n := true } = true := by decide

/-- V-BR-6. -/
theorem test_bpl_not_taken : shows (board { start with n := true } [(0x8000, 0x10), (0x8001, 0x10)])
    [.read 0x8000 0x10, .read 0x8001 0x10]
    { start with pc := 0x8002, n := true } = true := by decide

/-- V-BR-7. -/
theorem test_bvs : shows (board { start with v := true } [(0x8000, 0x70), (0x8001, 0x00)])
    [.read 0x8000 0x70, .read 0x8001 0x00, .read 0x8002 0x00]
    { start with pc := 0x8002, v := true } = true := by decide

/-- V-BR-8. -/
theorem test_bvc_crosses : shows (board start [(0x8000, 0x50), (0x8001, 0x80)])
    [.read 0x8000 0x50, .read 0x8001 0x80, .read 0x8002 0x00, .read 0x8082 0x00]
    { start with pc := 0x7F82 } = true := by decide

/-- V-BR-9. -/
theorem test_bcs : shows (board { start with c := true } [(0x8000, 0xB0), (0x8001, 0x01)])
    [.read 0x8000 0xB0, .read 0x8001 0x01, .read 0x8002 0x00]
    { start with pc := 0x8003, c := true } = true := by decide

/-- V-JP-1. -/
theorem test_jmp : shows (board start [(0x8000, 0x4C), (0x8001, 0x00), (0x8002, 0x80)])
    [.read 0x8000 0x4C, .read 0x8001 0x00, .read 0x8002 0x80]
    start = true := by decide

/-- V-JP-2. -/
theorem test_jmp_indirect_wraps_in_page : shows (board start
      [(0x8000, 0x6C), (0x8001, 0xFF), (0x8002, 0x02), (0x02FF, 0x34), (0x0300, 0x99), (0x0200, 0x12)])
    [.read 0x8000 0x6C, .read 0x8001 0xFF, .read 0x8002 0x02, .read 0x02FF 0x34, .read 0x0200 0x12]
    { start with pc := 0x1234 } = true := by decide

/-- V-JP-6. -/
theorem test_rts_wraps : shows (board start [(0x8000, 0x60), (0x01FE, 0xFF), (0x01FF, 0xFF)])
    [.read 0x8000 0x60, .read 0x8001 0x00, .read 0x01FD 0x00, .read 0x01FE 0xFF, .read 0x01FF 0xFF, .read 0xFFFF 0x00]
    { start with pc := 0x0000, s := 0xFF } = true := by decide

/-- V-JP-7. -/
theorem test_jsr_stack_wraps : shows (board { start with s := 0x00 } [(0x8000, 0x20), (0x8001, 0x00), (0x8002, 0x90)])
    [.read 0x8000 0x20, .read 0x8001 0x00, .read 0x0100 0x00, .write 0x0100 0x80, .write 0x01FF 0x02,
      .read 0x8002 0x90]
    { start with pc := 0x9000, s := 0xFE } = true := by decide

/-- V-ST-1. -/
theorem test_pha : shows (board { start with a := 0x42 } [(0x8000, 0x48)])
    [.read 0x8000 0x48, .read 0x8001 0x00, .write 0x01FD 0x42]
    { start with pc := 0x8001, a := 0x42, s := 0xFC } = true := by decide

/-- V-ST-2. -/
theorem test_php_sets_bits_5_and_4 : shows (board { start with s := 0xFF, c := true, n := true } [(0x8000, 0x08)])
    [.read 0x8000 0x08, .read 0x8001 0x00, .write 0x01FF 0xB1]
    { start with pc := 0x8001, s := 0xFE, c := true, n := true } = true := by decide

/-- V-ST-5. -/
theorem test_pla_stack_wraps : shows (board { start with s := 0xFF } [(0x8000, 0x68), (0x0100, 0x80)])
    [.read 0x8000 0x68, .read 0x8001 0x00, .read 0x01FF 0x00, .read 0x0100 0x80]
    { start with pc := 0x8001, a := 0x80, s := 0x00, n := true } = true := by decide

/-- V-ST-7. -/
theorem test_plp_ignores_bits_5_and_4 :
    shows (board { start with s := 0xFC, c := true, z := true, i := true, d := true, v := true, n := true }
      [(0x8000, 0x28), (0x01FD, 0x30)])
    [.read 0x8000 0x28, .read 0x8001 0x00, .read 0x01FC 0x00, .read 0x01FD 0x30]
    { start with pc := 0x8001 } = true := by decide

/-- V-ST-9. -/
theorem test_brk : shows (board { start with c := true, d := true, n := true }
      [(0x8000, 0x00), (0x8001, 0xEA), (0xFFFE, 0x00), (0xFFFF, 0x90)])
    [.read 0x8000 0x00, .read 0x8001 0xEA, .write 0x01FD 0x80, .write 0x01FC 0x02, .write 0x01FB 0xB9,
      .read 0xFFFE 0x00, .read 0xFFFF 0x90]
    { start with pc := 0x9000, s := 0xFA, c := true, i := true, d := true, n := true } = true := by decide

/-- V-ST-11. -/
theorem test_rti : shows (board { start with s := 0xFA, i := true }
      [(0x8000, 0x40), (0x01FB, 0xC3), (0x01FC, 0x34), (0x01FD, 0x12)])
    [.read 0x8000 0x40, .read 0x8001 0x00, .read 0x01FA 0x00, .read 0x01FB 0xC3, .read 0x01FC 0x34, .read 0x01FD 0x12]
    { start with pc := 0x1234, c := true, z := true, v := true, n := true } = true := by decide

/-- V-UN-1. -/
theorem test_slo : shows (board { start with a := 0x01 } [(0x8000, 0x07), (0x8001, 0x10), (0x0010, 0x81)])
    [.read 0x8000 0x07, .read 0x8001 0x10, .read 0x0010 0x81, .write 0x0010 0x81, .write 0x0010 0x02]
    { start with pc := 0x8002, a := 0x03, c := true } = true := by decide

/-- V-UN-2. -/
theorem test_rla : shows (board { start with a := 0xFF, c := true } [(0x8000, 0x27), (0x8001, 0x10), (0x0010, 0x80)])
    [.read 0x8000 0x27, .read 0x8001 0x10, .read 0x0010 0x80, .write 0x0010 0x80, .write 0x0010 0x01]
    { start with pc := 0x8002, a := 0x01, c := true } = true := by decide

/-- V-UN-3. -/
theorem test_sre_abs : shows (board { start with a := 0x01 }
      [(0x8000, 0x4F), (0x8001, 0x00), (0x8002, 0x02), (0x0200, 0x03)])
    [.read 0x8000 0x4F, .read 0x8001 0x00, .read 0x8002 0x02, .read 0x0200 0x03, .write 0x0200 0x03,
      .write 0x0200 0x01]
    { start with pc := 0x8003, c := true, z := true } = true := by decide

/-- V-UN-4. -/
theorem test_rra : shows (board { start with a := 0x7F, c := true } [(0x8000, 0x67), (0x8001, 0x10), (0x0010, 0x02)])
    [.read 0x8000 0x67, .read 0x8001 0x10, .read 0x0010 0x02, .write 0x0010 0x02, .write 0x0010 0x81]
    { start with pc := 0x8002, c := true, z := true } = true := by decide

/-- V-UN-5. -/
theorem test_dcp_izy : shows (board { start with a := 0x10 }
      [(0x8000, 0xD3), (0x8001, 0x20), (0x0020, 0x00), (0x0021, 0x02), (0x0200, 0x11)])
    [.read 0x8000 0xD3, .read 0x8001 0x20, .read 0x0020 0x00, .read 0x0021 0x02, .read 0x0200 0x11, .read 0x0200 0x11,
      .write 0x0200 0x11, .write 0x0200 0x10]
    { start with pc := 0x8002, a := 0x10, c := true, z := true } = true := by decide

/-- V-UN-6. -/
theorem test_isc_aby : shows (board { start with a := 0x10, y := 0x01, c := true }
      [(0x8000, 0xFB), (0x8001, 0x00), (0x8002, 0x02), (0x0201, 0xFF)])
    [.read 0x8000 0xFB, .read 0x8001 0x00, .read 0x8002 0x02, .read 0x0201 0xFF, .read 0x0201 0xFF,
      .write 0x0201 0xFF, .write 0x0201 0x00]
    { start with pc := 0x8003, a := 0x10, y := 0x01, c := true } = true := by decide

/-- V-UN-7. -/
theorem test_sax : shows (board { start with a := 0xF0, x := 0x3C, n := true } [(0x8000, 0x87), (0x8001, 0x10)])
    [.read 0x8000 0x87, .read 0x8001 0x10, .write 0x0010 0x30]
    { start with pc := 0x8002, a := 0xF0, x := 0x3C, n := true } = true := by decide

/-- V-UN-9. -/
theorem test_lax_aby_crosses : shows (board { start with a := 0x01, x := 0x01, y := 0x10 }
      [(0x8000, 0xBF), (0x8001, 0xF0), (0x8002, 0x02), (0x0300, 0x00)])
    [.read 0x8000 0xBF, .read 0x8001 0xF0, .read 0x8002 0x02, .read 0x0200 0x00, .read 0x0300 0x00]
    { start with pc := 0x8003, y := 0x10, z := true } = true := by decide

/-- V-UN-11. -/
theorem test_anc : shows (board { start with a := 0xFF, c := true } [(0x8000, 0x2B), (0x8001, 0x7F)])
    [.read 0x8000 0x2B, .read 0x8001 0x7F]
    { start with pc := 0x8002, a := 0x7F } = true := by decide

/-- V-UN-12. -/
theorem test_alr : shows (board { start with a := 0xFF, n := true } [(0x8000, 0x4B), (0x8001, 0x03)])
    [.read 0x8000 0x4B, .read 0x8001 0x03]
    { start with pc := 0x8002, a := 0x01, c := true } = true := by decide

/-- V-UN-14. -/
theorem test_arr : shows (board { start with a := 0x80 } [(0x8000, 0x6B), (0x8001, 0xFF)])
    [.read 0x8000 0x6B, .read 0x8001 0xFF]
    { start with pc := 0x8002, a := 0x40, c := true, v := true } = true := by decide

/-- V-UN-15. -/
theorem test_lxa : shows (board start [(0x8000, 0xAB), (0x8001, 0x5A)])
    [.read 0x8000 0xAB, .read 0x8001 0x5A]
    { start with pc := 0x8002, a := 0x5A, x := 0x5A } = true := by decide

/-- V-UN-17. -/
theorem test_sbx : shows (board { start with a := 0xFF, x := 0x10 } [(0x8000, 0xCB), (0x8001, 0x10)])
    [.read 0x8000 0xCB, .read 0x8001 0x10]
    { start with pc := 0x8002, a := 0xFF, c := true, z := true } = true := by decide

/-- V-UN-19. -/
theorem test_shy_crosses : shows (board { start with x := 0x20, y := 0x03 }
      [(0x8000, 0x9C), (0x8001, 0xF0), (0x8002, 0x03)])
    [.read 0x8000 0x9C, .read 0x8001 0xF0, .read 0x8002 0x03, .read 0x0310 0x00, .write 0x0010 0x00]
    { start with pc := 0x8003, x := 0x20, y := 0x03 } = true := by decide

/-- V-UN-20. -/
theorem test_shx_crosses : shows (board { start with x := 0x05, y := 0x20 }
      [(0x8000, 0x9E), (0x8001, 0xF0), (0x8002, 0x02)])
    [.read 0x8000 0x9E, .read 0x8001 0xF0, .read 0x8002 0x02, .read 0x0210 0x00, .write 0x0110 0x01]
    { start with pc := 0x8003, x := 0x05, y := 0x20 } = true := by decide

/-- V-UN-22. -/
theorem test_nop_abx_crosses : shows (board { start with x := 0x20 } [(0x8000, 0x1C), (0x8001, 0xF0), (0x8002, 0x12)])
    [.read 0x8000 0x1C, .read 0x8001 0xF0, .read 0x8002 0x12, .read 0x1210 0x00, .read 0x1310 0x00]
    { start with pc := 0x8003, x := 0x20 } = true := by decide

/-- V-UN-25. -/
theorem test_sbc_duplicate : shows (board { start with a := 0x10, c := true } [(0x8000, 0xEB), (0x8001, 0x01)])
    [.read 0x8000 0xEB, .read 0x8001 0x01]
    { start with pc := 0x8002, a := 0x0F, c := true } = true := by decide

/-! ## Reset, interrupts, sentinels -/

/-- `State.reset` is the machine at construction after `Reset()` and seven `Tick()`s, 28 iterations of the tick loop, but
for the record of its bus accesses (10_state.md R44, 70_reset_and_hazards.md R601; log 7). -/
theorem test_reset_is_seven_ticks :
    leaves (loopSteps 28 State.construction.callReset)
      (fun t => { t with busLog := [] } = State.reset ∧ t.busLog.length = 7) = true := by
  decide

/-- V-INT-1, the sequence. -/
theorem test_nmi_sequence :
    shows { board { start with pc := 0x8001, n := true, c := true } [(0x8000, 0xEA), (0x8001, 0xEA), (0xFFFB, 0x90)] with
        lines := { State.reset.lines with pendNmi := true, armNmi := true } }
      [.read 0x8001 0xEA, .read 0x8001 0xEA, .write 0x01FD 0x80, .write 0x01FC 0x01, .write 0x01FB 0xA1,
        .read 0xFFFA 0x00, .read 0xFFFB 0x90]
      { start with pc := 0x9000, s := 0xFA, i := true, n := true, c := true } = true := by
  decide

/-- V-INT-5: the discarded opcode is itself BRK. -/
theorem test_nmi_over_brk_opcode :
    shows { board { start with pc := 0x8001 } [(0x8000, 0xEA), (0x8001, 0x00), (0x8002, 0xEA), (0xFFFB, 0x90)] with
        lines := { State.reset.lines with pendNmi := true, armNmi := true } }
      [.read 0x8001 0x00, .read 0x8002 0xEA, .write 0x01FD 0x80, .write 0x01FC 0x02, .write 0x01FB 0x20,
        .read 0xFFFA 0x00, .read 0xFFFB 0x90]
      { start with pc := 0x9000, s := 0xFA, i := true } = true := by
  decide

/-- V-INT-6. -/
theorem test_reset_sequence :
    shows (board { start with pc := 0x1234, a := 0x11, n := true } [(0x1234, 0xEA), (0xFFFD, 0x80)]).callReset
      [.read 0x1234 0xEA, .read 0x1234 0xEA, .read 0x01FD 0x00, .read 0x01FC 0x00, .read 0x01FB 0x00,
        .read 0xFFFC 0x00, .read 0xFFFD 0x80]
      { start with pc := 0x8000, s := 0xFA, a := 0x11, i := true, n := true } = true := by
  decide

/-- V-INT-4: SEI's own poll uses the old `I`. -/
theorem test_sei_polls_old_i :
    leaves (step (board start [(0x8000, 0x78)]).raiseIrq) (fun t => t.lines.armIrq = true ∧ t.cpu.i = true) = true := by
  decide

/-- V-UN-F02: the machine is faulted and has no step. -/
theorem test_sentinel_faults :
    leaves (step (board start [(0x8000, 0x02)])) (fun t => t.faulted = true ∧ t.faultOpcode = 0x02 ∧
      t.cpu = { start with pc := 0x8001 } ∧ stops (step t) (.unimplementedOpcode 0x02) = true) = true := by
  decide

/-! ## Memory and PPU -/

/-- V-MEM-1: the mirrors of RAM. -/
theorem test_ram_mirrors :
    let s := memWrite 0x0800 0x5A (board start [])
    s.peek 0x0000 = 0x5A ∧ s.peek 0x0800 = 0x5A ∧ s.peek 0x1000 = 0x5A ∧ s.peek 0x1800 = 0x5A ∧ s.peek 0x0001 = 0 := by
  decide

/-- V-MEM-2: with no cartridge, all ones. -/
theorem test_open_bus : State.reset.peek 0x4020 = 0xFF ∧ State.reset.peek 0xFFFC = 0xFF ∧ State.reset.peek 0x4015 = 0xFF := by
  decide

/-- V-MEM-5, the first four reads: buttons A and Start. -/
theorem test_controller_reads :
    let s := memWrite 0x4016 0x00 (memWrite 0x4016 0x01
      { board start [] with ctl := { Ctl.construction with hostButtons := [(0x09, 0x00), (0x09, 0x00)] } })
    let s1 := (memRead 0x4016 s).2
    let s2 := (memRead 0x4016 s1).2
    let s3 := (memRead 0x4016 s2).2
    (memRead 0x4016 s).1 = 1 ∧ (memRead 0x4016 s1).1 = 0 ∧ (memRead 0x4016 s2).1 = 0 ∧ (memRead 0x4016 s3).1 = 1 := by
  decide

/-- A machine with PPU registers written, in order. -/
def written (s : State) (writes : List (Addr × Byte)) : State := writes.foldl (fun s w => memWrite w.1 w.2 s) s

/-- V-PPU-1: PPUADDR, PPUDATA and the read buffer. -/
theorem test_ppu_data :
    let s := written (board start []) [(0x2006, 0x21), (0x2006, 0x08), (0x2007, 0xAA), (0x2007, 0xBB), (0x2006, 0x21),
      (0x2006, 0x08)]
    let s1 := (memRead 0x2007 s).2
    (memRead 0x2007 s).1 = 0x00 ∧ (memRead 0x2007 s1).1 = 0xAA ∧ (memRead 0x2007 s1).2.ppu.readBuffer = 0xBB ∧
    (memRead 0x2007 s1).2.ppu.v = 0x210A := by
  decide

/-- V-PPU-2: a palette read is direct. -/
theorem test_ppu_palette_read :
    let s := written { board start [] with cart := .flat [] [(0x2F00, 0x77)] } [(0x2006, 0x3F), (0x2006, 0x10),
      (0x2007, 0x2C), (0x2006, 0x3F), (0x2006, 0x00)]
    (memRead 0x2007 s).1 = 0x2C ∧ (memRead 0x2007 s).2.ppu.readBuffer = 0x77 ∧ (memRead 0x2007 s).2.ppu.v = 0x3F01 := by
  decide

/-- V-PPU-4. -/
theorem test_ppu_scroll :
    let p := (written (board start []) [(0x2005, 0x7D), (0x2005, 0x5E)]).ppu
    p.t = 0x616F ∧ p.x = 5 ∧ p.w = false ∧ p.v = 0 := by
  decide

/-- V-PPU-7a, V-PPU-7c, V-PPU-7e, V-PPU-8. -/
theorem test_ppu_scroll_arithmetic :
    incY 0x73A0 = 0x0800 ∧ incY 0x73E0 = 0x0000 ∧ incY 0x30A0 = 0x40A0 ∧ incCoarseX 0x041F = 0x0000 ∧
    incCoarseX 0x7FFF = 0x7BE0 ∧ copyHorizontal 0x7FFF 0x616F = 0x7BEF ∧ copyVertical 0 0x616F = 0x6160 := by
  decide

/-- V-PPU-11. -/
theorem test_ppu_ctrl_mask :
    let p := (written (board start []) [(0x2000, 0xA5), (0x2001, 0x5A)]).ppu
    p.nmiEnable = true ∧ p.masterSlave = false ∧ p.sprite16 = true ∧ p.bgTable = false ∧ p.spTable = false ∧
    p.incr32 = true ∧ p.t = 0x0400 ∧ p.emphB = false ∧ p.emphG = true ∧ p.emphR = false ∧ p.showSp = true ∧
    p.showBg = true ∧ p.showSpLeft = false ∧ p.showBgLeft = true ∧ p.greyscale = false := by
  decide

/-- V-PPU-12: the nametable and attribute fetches. -/
theorem test_ppu_fetches :
    let s : State := { board start [] with
      cart := .flat [] [(0x2A65, 0x42), (0x2BE1, 0xB4)], ppu := { Ppu.construction with v := 0x1A65, bgTable := true } }
    (fetchStep 1 s).ppu.ntByte = 0x42 ∧ (fetchStep 3 s).ppu.atBits = 3 ∧ patternAddr (fetchStep 1 s).ppu = 0x1421 := by
  decide

/-- V-PPU-13: the palette index of a pixel. -/
theorem test_ppu_pixel_index :
    backgroundIndex { Ppu.construction with shPatLo := 0x8000, shPalCur := 2, showBg := true } = 9 ∧
    backgroundIndex { Ppu.construction with shPatLo := 0x4000, x := 1, shPalCur := 2, showBg := true } = 9 ∧
    backgroundIndex { Ppu.construction with shPalCur := 2, showBg := true } = 0 := by
  decide

/-! ## The hypotheses of the statements are met -/

/-- A machine to step: LDA #$05 at 0x8000. -/
def lda : State := board start [(0x8000, 0xA9), (0x8001, 0x05)]

theorem lda_knownBoard : lda.KnownBoard := by intro st h; simp [lda, board, State.place, State.reset] at h

/-- It meets the invariant and has not faulted. -/
theorem test_premises_invariant : Live lda := by
  refine ⟨⟨?_, ?_, ?_, ?_, ?_, ?_, ?_, ?_, ?_, ?_, ?_, ?_, ?_, ?_, ?_, ?_, ?_⟩, ?_⟩
  · exact Memory.within_nil _ _
  · exact Memory.within_nil _ _
  · exact Memory.within_nil _ _
  · intro c h; cases h
  · exact Memory.within_nil _ _
  · intro c h; cases h
  · intro prg vram h
    have e : lda.cart = .flat [(0x8000, 0xA9), (0x8001, 0x05)] [] := by decide
    rw [e] at h
    obtain ⟨rfl, rfl⟩ := Cart.flat.inj h
    exact ⟨⟨by decide, by decide⟩, Memory.within_nil _ _⟩
  all_goals decide

/-- StepKeepsInv, LiveStepsComplete, StepIsTheTickLoop at both ends of `k`, EveryTickMakesOneBusAccess: a step and a
`Tick()` that complete. -/
theorem test_premises_steps :
    (∃ t, step lda = .next t) ∧ (lda.k = 0 ∧ lda.k < 4) ∧ (∃ t, step { lda with k := 3 } = .next t) ∧
    ∃ t, cpuTick lda = .next t :=
  ⟨completes (by decide), by decide, completes (by decide), completes (by decide)⟩

/-- DecodeOfEncode and EncodeOfDecode. -/
theorem test_premises_decode :
    (WellFormed (.lda .abx) ∧ ([0x34, 0x12] : List Byte).length = (Instr.lda .abx).operandBytes) ∧
    decode [0xA9, 0x05] = .ok ⟨.lda .imm, [0x05], []⟩ ∧ decode [0xA9] = .error (.truncated (.lda .imm)) := by
  decide

/-- StepRunsDecodedInstruction. -/
theorem test_premises_step_runs :
    lda.faulted = false ∧ lda.micro.curOp = none ∧ lda.lines.armReset = false ∧ lda.lines.armNmi = false ∧
    lda.lines.armIrq = false ∧ decode [(dotsToCpuTick lda).peek lda.cpu.pc, (dotsToCpuTick lda).peek (lda.cpu.pc + 1),
      (dotsToCpuTick lda).peek (lda.cpu.pc + 2)] = .ok ⟨.lda .imm, [0x05], [0x00]⟩ := by
  decide

/-- StepSubstitutesArmedInterrupt, for each of the three, at the ends of the plain ranges. -/
theorem test_premises_substitution :
    (∀ l ∈ [{ lda.lines with armReset := true }, { lda.lines with armNmi := true, pendNmi := true },
      { lda.lines with armIrq := true }],
      let s := { lda with lines := l }
      s.faulted = false ∧ s.micro.curOp = none ∧
      (s.lines.armReset = true ∨ s.lines.armNmi = true ∨ s.lines.armIrq = true)) ∧
    lda.PlainAt 0x0000 ∧ lda.PlainAt 0x1FFF ∧ lda.PlainAt 0x4020 ∧ lda.PlainAt 0xFFFF :=
  ⟨by decide, ⟨lda_knownBoard, by decide⟩, ⟨lda_knownBoard, by decide⟩, ⟨lda_knownBoard, by decide⟩,
    lda_knownBoard, by decide⟩

/-- FaultedMachineHasNoStep. -/
theorem test_premises_faulted : ({ lda with faulted := true, faultOpcode := 0x02 } : State).faulted = true := rfl

/-- RtsReturnsWhereJsrCameFrom, BrkTakesItsException, ResetSequenceRuns, RtiUndoesTheException. -/
theorem test_premises_exceptions :
    lda.KnownBoard ∧ lda.lines.servicing = false ∧ lda.faulted = false ∧
    ({ lda.lines with servicing := true } : Lines).armReset = false := ⟨lda_knownBoard, by decide, by decide, by decide⟩

/-- NmiAndIrqAreTaken, for each of the two, with the NMI enable of the PPU clear. -/
theorem test_premises_interrupts :
    (∀ l ∈ [{ lda.lines with servicing := true, pendNmi := true, armNmi := true }],
      l.servicing = true ∧ l.armReset = false ∧ l.armNmi = true ∧ lda.ppu.nmiEnable = false) ∧
    (∀ l ∈ [{ lda.lines with servicing := true, pendIrq := true, armIrq := true }],
      l.servicing = true ∧ l.armReset = false ∧ l.armNmi = false) := by
  decide

/-- DecimalFlagHasNoEffect, OnlyTheNamedInstructionsWrite, OnlyServicingClearsPending, RetirePollsTheLines: an instruction
of each kind that completes. -/
theorem test_premises_exec :
    (.adc .imm ∉ [Instr.php, .plp, .brk, .rti, .cld, .sed]) ∧
    ((∃ t, exec (.adc .imm) lda = .next t) ∧ Instr.adc .imm ≠ .brk ∧ (Instr.adc .imm).sentinel = false) ∧
    ((∃ t, exec .rti lda = .next t) ∧ Instr.rti.sentinel = false) ∧
    ((∃ t, exec .brk lda = .next t) ∧ lda.lines.servicing = false ∧ Instr.brk.sentinel = false) :=
  ⟨by decide, ⟨completes (by decide), by decide, by decide⟩, ⟨completes (by decide), by decide⟩,
    completes (by decide), by decide, by decide⟩

/-- BusAccessesDecodeTheMap: the ends of each range of reads and of writes, and two addresses of one RAM byte. -/
theorem test_premises_bus :
    (∀ a ∈ [(0x0000 : Addr), 0x1FFF], a.toNat < 0x2000) ∧
    (∀ a ∈ [(0x2000 : Addr), 0x3FFF], 0x2000 ≤ a.toNat ∧ a.toNat < 0x4000) ∧
    (∀ a ∈ [(0x4000 : Addr), 0x4015, 0x4018, 0xFFFF], 0x4000 ≤ a.toNat ∧ a ≠ 0x4016 ∧ a ≠ 0x4017) ∧
    (∀ a ∈ [(0x4000 : Addr), 0x4013, 0x4015, 0x4017, 0xFFFF], 0x4000 ≤ a.toNat ∧ a ≠ 0x4014 ∧ a ≠ 0x4016) ∧
    lda.KnownBoard ∧ (0x1FFF : Addr).toNat % 0x800 = (0x07FF : Addr).toNat % 0x800 :=
  ⟨by simp, by simp, by simp, by simp, lda_knownBoard, by decide⟩

/-- OamDmaCopiesAPage: the ends of the plain pages. -/
theorem test_premises_dma :
    lda.KnownBoard ∧ ∀ v ∈ [(0x00 : Byte), 0x1F, 0x41, 0xFF], v.toNat < 0x20 ∨ 0x41 ≤ v.toNat :=
  ⟨lda_knownBoard, by simp⟩

/-- ControllersReadSerially, for both values of the strobe. -/
theorem test_premises_controllers :
    lda.KnownBoard ∧ lda.ctl.count0 = 0 ∧ lda.ctl.count1 = 0 ∧ lda.ctl.strobe = false ∧
    ({ lda.ctl with strobe := true } : Ctl).count0 = 0 ∧ ({ lda.ctl with strobe := true } : Ctl).strobe = true :=
  ⟨lda_knownBoard, by decide, by decide, by decide, by decide, by decide⟩

/-- CtrlAndMaskMapTheirBits, StatusAndOamRegisters, ScrollAndAddrShareTheToggle, PpuDataIsBuffered: the first and the last
address of each register, and both values of the toggle. -/
theorem test_premises_registers :
    (∀ n < 8, SelectsPpuReg (BitVec.ofNat 16 (0x2000 + n)) n ∧ SelectsPpuReg (BitVec.ofNat 16 (0x3FF8 + n)) n) ∧
    lda.ppu.w = false ∧ ({ lda.ppu with w := true } : Ppu).w = true := by
  refine ⟨?_, by decide, by decide⟩
  unfold SelectsPpuReg InPpuWindow
  decide

/-- PpuDataIsBuffered and PpuBusDecodesTheMap: the ends of each range of the PPU bus. -/
theorem test_premises_ppu_bus :
    (∀ a ∈ [(0x3F00 : Addr), 0x3FFF, 0x7F00], 0x3F00 ≤ (a &&& 0x3FFF).toNat) ∧
    (∀ a ∈ [(0x3000 : Addr), 0x3EFF], 0x3000 ≤ (a &&& 0x3FFF).toNat ∧ (a &&& 0x3FFF).toNat < 0x3F00) ∧
    (∀ a ∈ [(0x0000 : Addr), 0x2FFF, 0x4000], (a &&& 0x3FFF).toNat < 0x3000) ∧
    (State.reset.cart = .absent ∧ lda.KnownBoard) :=
  ⟨by simp, by simp, by simp, rfl, lda_knownBoard⟩

/-- FetchesFillTheShifters: the eight dots of a group. -/
theorem test_premises_fetches :
    ∀ d ∈ [(1, 0), (2, 1), (3, 2), (4, 3), (5, 4), (6, 5), (7, 6), (8, 7), (256, 7), (321, 0)], (d.1 - 1) % 8 = d.2 := by
  decide

/-- FetchesFillTheShifters and ScrollUpdatesByFieldAndDot: the ends of the fetch window, of the copies and of the render
lines, and positions just outside them; and rendering off. -/
theorem test_premises_dots :
    (∀ d ∈ [1, 256, 321, 340], InFetchDots d) ∧ (∀ d ∈ [0, 257, 320, 341], ¬ InFetchDots d) ∧
    (∀ sl ∈ [0, 239, 261], Rendering { lda.ppu with scanline := sl, showBg := true } ∧
      Rendering { lda.ppu with scanline := sl, showSp := true } ∧ ¬ Rendering { lda.ppu with scanline := sl }) ∧
    (∀ sl ∈ [240, 260], ¬ Rendering { lda.ppu with scanline := sl, showBg := true, showSp := true }) := by
  decide

/-- The same in the machine: on line 261 the vertical copy is made at dots 280 and 304 and not at 279 and 305, on line 239
not at all, and never with rendering off; the shift is made at dot 340 and not at 320 (65_ppu.md R544, R552). -/
theorem test_dots_by_position :
    let at' := fun (sl d : Nat) (show' : Bool) => (dotIteration { lda with ppu := { Ppu.construction with
      scanline := sl, dot := d, showBg := show', t := 0x7FFF, shPatLo := 1 } }).ppu
    (∀ d ∈ [280, 304], (at' 261 d true).v = 0x7BE0 ∧ (at' 239 d true).v = 0 ∧ (at' 261 d false).v = 0) ∧
    (∀ d ∈ [279, 305], (at' 261 d true).v = 0) ∧
    (at' 239 340 true).shPatLo = 2 ∧ (at' 239 320 true).shPatLo = 1 ∧ (at' 239 340 false).shPatLo = 1 := by
  decide

/-- VisibleDotWritesItsPixel: the first and the last visible dot. -/
theorem test_premises_pixel :
    ∀ p ∈ [{ lda.ppu with scanline := 0, dot := 1 }, { lda.ppu with scanline := 239, dot := 256 }],
      p.scanline ≤ 239 ∧ 1 ≤ p.dot ∧ p.dot ≤ 256 := by
  decide

/-- A machine with sprites shown, all 64 entries at the top left with tile 0, whose first pixel alone is not
transparent. -/
def sprites : State := { lda with cart := .flat [] [(0x0000, 0x80)], ppu := { lda.ppu with showSp := true } }

/-- SpritePassPaintsLowestSprite: positions at the two edges of the pass and of the visible dots. -/
theorem test_premises_sprite_pass :
    ∀ q ∈ [(241, 0), (241, 2), (240, 1), (0, 0), (239, 257), (261, 1)],
      ¬ (q.1 = 241 ∧ q.2 = 1) ∧ ¬ (q.1 ≤ 239 ∧ 1 ≤ q.2 ∧ q.2 ≤ 256) := by
  decide

/-- SpritePassPaintsLowestSprite: entry 0 covers the pixel at row 1, column 0; no entry covers the one at row 0,
column 0; and a machine that shows no sprites. -/
theorem test_premises_sprites :
    sprites.ppu.showSp = true ∧ lda.ppu.showSp = false ∧ SpriteCovers sprites 0 1 0 1 ∧
    (∀ m < 0, ∀ p, ¬ SpriteCovers sprites m 1 0 p) ∧ ∀ n < 64, ∀ p, ¬ SpriteCovers sprites n 0 0 p := by
  refine ⟨by decide, by decide, ⟨0, 0, ?_⟩, fun m h => absurd h (Nat.not_lt_zero m), ?_⟩
  · decide
  · rintro n - p ⟨r, c, -, -, h, -⟩
    omega

end Sys2Proof.Tests
end

section
/-! PROOFS. The part of the invariant that speaks of the devices, kept by every dot and by every bus access
(10_state.md R45, R46, R54 to R56; 65_ppu.md R510 to R513, R530, R570, R571). -/

namespace Sys2Proof.Machine

/-! ## The devices of the invariant -/

/-- What `Inv` says of the PPU at every moment, inside a step too: its memories, its position, its stubs. -/
structure PpuOk (p : Ppu) : Prop where
  oam : p.oam.Within 0 0x100
  palette : p.palette.Within 0 0x20
  paletteAlias : ∀ c ∈ p.palette, c.1 ≠ 0x10 ∧ c.1 ≠ 0x14 ∧ c.1 ≠ 0x18 ∧ c.1 ≠ 0x1C
  framebuffer : p.framebuffer.Within 0 (240 * 256)
  codes : ∀ c ∈ p.framebuffer, c.2.toNat < 64
  scanline : p.scanline ≤ 261
  dot : p.dot ≤ 340
  stubs : p.sprite0Hit = false ∧ p.spriteOverflow = false

/-- What `Inv` says of the cartridge. -/
def Cart.Ok (c : Cart) : Prop :=
  ∀ prg vram, c = .flat prg vram → prg.Within 0x4020 0x10000 ∧ vram.Within 0 0x3000

/-- What `Inv` says of RAM, the PPU and the cartridge. -/
structure DevicesOk (s : State) : Prop where
  ram : s.ram.Within 0 0x800
  ppu : PpuOk s.ppu
  cart : s.cart.Ok

theorem DevicesOk.with_ppu {s : State} (h : DevicesOk s) {p : Ppu} (hp : PpuOk p) :
    DevicesOk { s with ppu := p } := { h with ppu := hp }

theorem DevicesOk.with_cart {s : State} (h : DevicesOk s) {c : Cart} (hc : c.Ok) :
    DevicesOk { s with cart := c } := { h with cart := hc }

theorem foldl_devicesOk {α : Type} {f : State → α → State} (hf : ∀ s a, DevicesOk s → DevicesOk (f s a))
    (l : List α) {s : State} (h : DevicesOk s) : DevicesOk (l.foldl f s) := by
  induction l generalizing s with
  | nil => exact h
  | cons a l ih => exact ih (hf s a h)

theorem ite_devicesOk {s t : State} (c : Prop) [Decidable c] (hs : c → DevicesOk s) (ht : ¬ c → DevicesOk t) :
    DevicesOk (if c then s else t) := by
  split
  · exact hs ‹_›
  · exact ht ‹_›

/-! ## The cartridge -/

theorem Cart.Ok.ppuAfterRead {c : Cart} (h : c.Ok) (a : Addr) : (c.ppuAfterRead a).Ok := by
  cases c with
  | mapper st => intro _ _ e; cases e
  | _ => exact h

theorem Cart.Ok.cpuAfterRead {c : Cart} (h : c.Ok) (a : Addr) : (c.cpuAfterRead a).Ok := by
  cases c with
  | mapper st => intro _ _ e; cases e
  | _ => exact h

theorem Cart.Ok.cpuAfterWrite {c : Cart} (h : c.Ok) (a : Addr) (v : Byte) : (c.cpuAfterWrite a v).Ok := by
  cases c with
  | mapper st => intro _ _ e; cases e
  | _ => exact h

theorem Cart.Ok.ppuAfterWrite {c : Cart} (h : c.Ok) {a : Addr} (ha : a.toNat < 0x3000) (v : Byte) :
    (c.ppuAfterWrite a v).Ok := by
  cases c with
  | absent => exact h
  | mapper st => intro _ _ e; cases e
  | flat prg vram =>
    rintro _ _ ⟨⟩
    obtain ⟨hprg, hvram⟩ := h prg vram rfl
    exact ⟨hprg, hvram.write v ⟨Nat.zero_le _, ha⟩⟩

/-! ## The PPU bus -/

/-- A palette entry is one of the 28 that no other aliases (65_ppu.md R512). -/
theorem paletteIndex_canonical (a : Addr) : paletteIndex a < 0x20 ∧
    paletteIndex a ≠ 0x10 ∧ paletteIndex a ≠ 0x14 ∧ paletteIndex a ≠ 0x18 ∧ paletteIndex a ≠ 0x1C := by
  unfold paletteIndex
  dsimp only
  split <;> omega

theorem ppuTarget_cartridge_lt {a b : Addr} (h : ppuTarget a = .cartridge b) : b.toNat < 0x3000 := by
  unfold ppuTarget at h
  dsimp only at h
  split at h
  · cases h
  · split at h
    · cases h
      bv_omega
    · cases h
      omega

theorem ppuTarget_palette {a : Addr} {i : Nat} (h : ppuTarget a = .palette i) : ∃ b, i = paletteIndex b := by
  unfold ppuTarget at h
  dsimp only at h
  split at h
  · cases h; exact ⟨_, rfl⟩
  · split at h <;> cases h

theorem PpuOk.writePalette {p : Ppu} (h : PpuOk p) (a : Addr) (v : Byte) :
    PpuOk { p with palette := p.palette.write (paletteIndex a) v } := by
  obtain ⟨hlt, halias⟩ := paletteIndex_canonical a
  refine { h with palette := h.palette.write v ⟨Nat.zero_le _, hlt⟩, paletteAlias := fun c hc => ?_ }
  rcases Memory.mem_write hc with rfl | hc
  · exact halias
  · exact h.paletteAlias c hc

theorem DevicesOk.ppuBusAfterRead {s : State} (h : DevicesOk s) (a : Addr) : DevicesOk (ppuBusAfterRead s a) := by
  unfold Machine.ppuBusAfterRead
  split
  · exact h
  · exact h.with_cart (h.cart.ppuAfterRead _)

theorem DevicesOk.ppuBusWrite {s : State} (h : DevicesOk s) (a : Addr) (v : Byte) :
    DevicesOk (ppuBusWrite a v s) := by
  unfold Machine.ppuBusWrite
  split
  · next i ht =>
    obtain ⟨b, rfl⟩ := ppuTarget_palette ht
    exact h.with_ppu (h.ppu.writePalette b v)
  · next b ht => exact h.with_cart (h.cart.ppuAfterWrite (ppuTarget_cartridge_lt ht) v)

/-! ## The work of a dot -/

theorem colourCode_lt (s : State) (a : Addr) : (colourCode s a).toNat < 64 := by
  unfold colourCode
  rw [BitVec.toNat_and]
  exact Nat.and_lt_two_pow (n := 6) _ (by decide)

theorem DevicesOk.writePixel {s : State} (h : DevicesOk s) {row column : Nat} {code : Byte} (hr : row ≤ 239)
    (hc : column ≤ 255) (hv : code.toNat < 64) : DevicesOk (writePixel row column code s) := by
  have hkey : pixelKey row column < 240 * 256 := by unfold pixelKey; omega
  refine h.with_ppu
    { h.ppu with framebuffer := h.ppu.framebuffer.write code ⟨Nat.zero_le _, hkey⟩, codes := fun c hm => ?_ }
  rcases Memory.mem_write hm with rfl | hm
  · exact hv
  · exact h.ppu.codes c hm

theorem DevicesOk.fetchStep {s : State} (h : DevicesOk s) (d : Nat) : DevicesOk (fetchStep d s) := by
  have hread : ∀ a, DevicesOk (ppuBusRead a false s).2 := fun a => h.ppuBusAfterRead a
  unfold Machine.fetchStep
  split
  · exact (hread _).with_ppu { (hread _).ppu with }
  · exact (hread _).with_ppu { (hread _).ppu with }
  · exact (hread _).with_ppu { (hread _).ppu with }
  · exact (hread _).with_ppu { (hread _).ppu with }
  · exact h.with_ppu { h.ppu with }
  · exact h

theorem PpuOk.scrollUpdate {p : Ppu} (h : PpuOk p) (sl d : Nat) : PpuOk (scrollUpdate sl d p) := by
  unfold Machine.scrollUpdate
  split
  · exact { h with }
  · split
    · exact { h with }
    · split
      · exact { h with }
      · exact h

theorem DevicesOk.backgroundPixel {s : State} (h : DevicesOk s) {sl d : Nat} (hs : sl ≤ 239) (hd : d ≤ 256) :
    DevicesOk (backgroundPixel sl d s) :=
  h.writePixel hs (by omega) (colourCode_lt _ _)

theorem PpuOk.shift {p : Ppu} (h : PpuOk p) : PpuOk p.shift := { h with }

theorem DevicesOk.renderDot {s : State} (h : DevicesOk s) (sl d : Nat) : DevicesOk (renderDot sl d s) := by
  have hpixel := ite_devicesOk (sl ≤ 239 ∧ d ≤ 256) (fun hb => h.backgroundPixel hb.1 hb.2) fun _ => h
  have hfetch := ite_devicesOk (inFetchWindow d = true) (fun _ => (hpixel.with_ppu hpixel.ppu.shift).fetchStep d)
    fun _ => h
  exact hfetch.with_ppu (hfetch.ppu.scrollUpdate sl d)

theorem DevicesOk.paintSpritePixel {s : State} (h : DevicesOk s) (o : Sprite) (r c : Nat) :
    DevicesOk (paintSpritePixel o r c s) := by
  unfold Machine.paintSpritePixel
  exact ite_devicesOk _ (fun hb => h.writePixel hb.2.2 hb.2.1 (colourCode_lt _ _)) fun _ => h

theorem DevicesOk.spritePass {s : State} (h : DevicesOk s) : DevicesOk (spritePass s) := by
  unfold Machine.spritePass
  refine ite_devicesOk _ (fun _ => foldl_devicesOk (fun s n h => ?_) _ h) fun _ => h
  exact foldl_devicesOk (fun s r h => foldl_devicesOk (fun s c h => h.paintSpritePixel _ r c) _ h) _ h

theorem DevicesOk.vblankStart {s : State} (h : DevicesOk s) : DevicesOk (vblankStart s) := by
  have hpass := (h.with_ppu (p := { s.ppu with vblank := true }) { h.ppu with }).spritePass
  exact hpass.with_ppu { hpass.ppu with }

theorem DevicesOk.vblankEnd {s : State} (h : DevicesOk s) : DevicesOk (vblankEnd s) :=
  h.with_ppu { h.ppu with stubs := ⟨rfl, rfl⟩ }

theorem DevicesOk.dotWork {s : State} (h : DevicesOk s) : DevicesOk (dotWork s) := by
  unfold Machine.dotWork
  have h1 := ite_devicesOk (s.ppu.scanline = 241 ∧ s.ppu.dot = 1) (fun _ => h.vblankStart) fun _ => h
  have h2 := ite_devicesOk (s.ppu.scanline = 261 ∧ s.ppu.dot = 1) (fun _ => h1.vblankEnd) fun _ => h1
  refine ite_devicesOk _ (fun _ => ite_devicesOk _ (fun _ => h2.renderDot _ _) fun _ => h2) fun _ =>
    ite_devicesOk _ (fun hb => h2.writePixel hb.1 (by omega) (colourCode_lt _ _)) fun _ => h2

/-- The position stays inside the frame (65_ppu.md R530). -/
theorem PpuOk.advance {p : Ppu} (h : PpuOk p) : PpuOk p.advance := by
  have hs := h.scanline
  have hd := h.dot
  unfold Ppu.advance
  split
  · exact { h with scanline := Nat.zero_le _, dot := Nat.zero_le _ }
  · split
    · split
      · exact { h with scanline := Nat.zero_le _, dot := Nat.zero_le _ }
      · exact { h with scanline := by show p.scanline + 1 ≤ 261; omega, dot := Nat.zero_le _ }
    · exact { h with dot := by show p.dot + 1 ≤ 340; omega }

theorem DevicesOk.ppuTick {s : State} (h : DevicesOk s) : DevicesOk (ppuTick s) :=
  h.dotWork.with_ppu h.dotWork.ppu.advance

theorem DevicesOk.deliver {s : State} (h : DevicesOk s) : DevicesOk (deliver s) :=
  { h with ppu := { h.ppu with } }

theorem DevicesOk.dotIterations {s : State} (h : DevicesOk s) (n : Nat) : DevicesOk (dotIterations n s) := by
  induction n generalizing s with
  | zero => exact h
  | succ n ih => exact ih { h.ppuTick.deliver with }

theorem DevicesOk.dotsToCpuTick {s : State} (h : DevicesOk s) : DevicesOk (dotsToCpuTick s) :=
  { h.dotIterations _ with }

/-! ## The CPU's bus accesses -/

theorem DevicesOk.internalAfterRead {s : State} (h : DevicesOk s) (a : Addr) :
    DevicesOk (internalAfterRead s a) := by
  rcases internalAfterRead_cases s a with ⟨n, -, e⟩ | ⟨-, e⟩ | ⟨-, e⟩ | e <;> rw [e]
  · rcases ppuRegAfterRead_cases n s with ⟨-, e⟩ | ⟨-, e⟩ | e <;> rw [e]
    · exact h.with_ppu { h.ppu with }
    · rw [ppuDataAfterRead_eq]
      exact (h.ppuBusAfterRead _).with_ppu { h.ppu with }
    · exact h
  · exact { h with }
  · exact { h with }
  · exact h

theorem DevicesOk.busAfterRead {s : State} (h : DevicesOk s) (a : Addr) : DevicesOk (busAfterRead s a) :=
  (h.internalAfterRead a).with_cart ((h.internalAfterRead a).cart.cpuAfterRead a)

theorem DevicesOk.memRead {s : State} (h : DevicesOk s) (a : Addr) : DevicesOk (memRead a s).2 :=
  { h.busAfterRead a with }

theorem PpuOk.writeOam {p : Ppu} (h : PpuOk p) {n : Nat} (hn : n < 0x100) (v : Byte) :
    PpuOk { p with oam := p.oam.write n v } :=
  { h with oam := h.oam.write v ⟨Nat.zero_le _, hn⟩ }

theorem DevicesOk.ppuDataWrite {s : State} (h : DevicesOk s) (v : Byte) : DevicesOk (ppuDataWrite v s) := by
  have hw := h.ppuBusWrite s.ppu.dataAddr v
  exact hw.with_ppu { hw.ppu with }

theorem DevicesOk.ppuRegWrite {s : State} (h : DevicesOk s) (n : Nat) (v : Byte) :
    DevicesOk (ppuRegWrite n v s) := by
  unfold Machine.ppuRegWrite
  split
  · exact h.with_ppu { h.ppu with }
  · exact h.with_ppu { h.ppu with }
  · exact h.with_ppu { h.ppu with }
  · exact h.with_ppu { h.ppu.writeOam s.ppu.oamAddr.isLt v with }
  · obtain ⟨t, x, w, e⟩ := writeScroll_cases s.ppu v
    rw [e]
    exact h.with_ppu { h.ppu with }
  · obtain ⟨t, v', w, e⟩ := writeAddr_cases s.ppu v
    rw [e]
    exact h.with_ppu { h.ppu with }
  · exact h.ppuDataWrite v
  · exact h

theorem DevicesOk.oamDmaByte {s : State} (h : DevicesOk s) (page : Byte) (n : Nat) :
    DevicesOk (oamDmaByte page s n) :=
  have hr := h.busAfterRead (word page (BitVec.ofNat 8 n))
  hr.with_ppu (hr.ppu.writeOam (Nat.mod_lt _ (by decide)) _)

theorem DevicesOk.internalWrite {s : State} (h : DevicesOk s) (a : Addr) (v : Byte) :
    DevicesOk (internalWrite a v s) := by
  rcases internalWrite_cases a v s with ⟨-, e⟩ | ⟨n, -, e⟩ | ⟨-, e⟩ | ⟨-, e⟩ | e <;> rw [e]
  · exact { h with ram := h.ram.write v ⟨Nat.zero_le _, Nat.mod_lt _ (by decide)⟩ }
  · exact h.ppuRegWrite n v
  · exact foldl_devicesOk (fun s n h => h.oamDmaByte v n) _ h
  · exact { h with }
  · exact h

theorem DevicesOk.memWrite {s : State} (h : DevicesOk s) (a : Addr) (v : Byte) : DevicesOk (memWrite a v s) :=
  have hw := h.internalWrite a v
  { hw.with_cart (hw.cart.cpuAfterWrite a v) with }

end Sys2Proof.Machine
end

section
/-! PROOFS. What the cycles of an instruction are, whatever its mode (40_cycle_engine.md R147 to R165). -/

namespace Sys2Proof.Machine

/-- `exec` in terms of the instruction's cycles (40_cycle_engine.md R147). -/
theorem exec_eq (i : Instr) (s : State) :
    exec i s = if i.sentinel then runSentinel i s else runInstr i (cyclesOf i) s := by
  cases i <;> rfl

/-- How `exec` gives a next state: a sentinel's stop, or the instruction's cycles run to the one that retires. -/
theorem exec_cases {i : Instr} {s t : State} (h : exec i s = .next t) : WellFormed i ∧
    (i.sentinel = true ∧ t = deliver (s.raiseUnimplemented i.opcode) ∨
      runCycles i (cyclesOf i) (deliver (s.begin i)) = .next t) := by
  rw [exec_eq] at h
  split at h
  · next hs =>
    unfold runSentinel at h
    split at h
    · next hw => cases h; exact ⟨hw, .inl ⟨hs, rfl⟩⟩
    · cases h
  · unfold runInstr at h
    split at h
    · next hw => exact ⟨hw, .inr h⟩
    · cases h

/-- The address cycles of all the modes (40_cycle_engine.md R152 to R163). -/
inductive AddrStep : (State → State) → Prop
  | fetchLow : AddrStep fetchLow
  | indexZeroPage (m : Mode) : AddrStep (indexZeroPage m)
  | fetchHigh : AddrStep fetchHigh
  | fetchHighIndexed (m : Mode) : AddrStep (fetchHighIndexed m)
  | fetchPointer : AddrStep fetchPointer
  | indexPointer : AddrStep indexPointer
  | pointerLow : AddrStep pointerLow
  | pointerHigh : AddrStep pointerHigh
  | pointerHighIndexed : AddrStep pointerHighIndexed
  | fixHigh : AddrStep fixHigh

theorem addrSteps_addrStep (m : Mode) : ∀ f ∈ addrSteps m, AddrStep f := by
  cases m <;> simp [addrSteps, AddrStep.fetchLow, AddrStep.indexZeroPage, AddrStep.fetchHigh,
    AddrStep.fetchHighIndexed, AddrStep.fetchPointer, AddrStep.indexPointer, AddrStep.pointerLow,
    AddrStep.pointerHigh, AddrStep.pointerHighIndexed]

theorem storeAddrSteps_addrStep (m : Mode) : ∀ f ∈ storeAddrSteps m, AddrStep f := by
  intro f hf
  unfold storeAddrSteps at hf
  split at hf
  · rcases List.mem_append.mp hf with hf | hf
    · exact addrSteps_addrStep m f hf
    · exact List.mem_singleton.mp hf ▸ .fixHigh
  · exact addrSteps_addrStep m f hf

section

variable {P : Cycle → Prop} (haddr : ∀ f, AddrStep f → P (goes f))
include haddr

/-- What holds of the address cycles and of the operand reads holds of every cycle of class `read`. -/
theorem readCycles_forall {hook : ReadHook} (himm : P (readImmediate hook)) (hfix : P (readOperandOrFix hook))
    (hread : P (readOperand hook)) (m : Mode) : ∀ c ∈ readCycles m hook, P c := by
  have hsteps : ∀ c ∈ (addrSteps m).map goes, P c := by
    simpa using fun f hf => haddr f (addrSteps_addrStep m f hf)
  unfold readCycles
  split
  · simpa using himm
  · split <;> simp only [List.forall_mem_append, List.forall_mem_cons]
    · exact ⟨hsteps, hfix, hread, by simp⟩
    · exact ⟨hsteps, hread, by simp⟩

/-- What holds of the address cycles and of the cycles after them holds of every cycle of a store or
read-modify-write. -/
theorem storeCycles_forall {cs : List Cycle} (hcs : ∀ c ∈ cs, P c) (m : Mode) :
    ∀ c ∈ (storeAddrSteps m).map goes ++ cs, P c := by
  have hsteps : ∀ c ∈ (storeAddrSteps m).map goes, P c := by
    simpa using fun f hf => haddr f (storeAddrSteps_addrStep m f hf)
  exact List.forall_mem_append.mpr ⟨hsteps, hcs⟩

end

/-! ## One bus access a cycle -/

/-- The machine a cycle leaves, whether or not it retires the instruction. -/
def CycleEnd.state : CycleEnd → State
  | .go s | .retire s => s

/-- The machine after one bus access of the CPU, and any change of registers and latches. -/
inductive OneAccess (s : State) : State → Prop
  | read (a : Addr) (r : Cpu) (m : Micro) : OneAccess s { (memRead a s).2 with cpu := r, micro := m }
  | write (a : Addr) (v : Byte) (r : Cpu) (m : Micro) : OneAccess s { memWrite a v s with cpu := r, micro := m }

/-- A cycle that makes one bus access and otherwise changes registers and latches alone. -/
def Accesses (c : Cycle) : Prop := ∀ s, OneAccess s (c s).state

theorem fixHigh_oneAccess (s : State) : OneAccess s (fixHigh s) := by
  unfold fixHigh
  dsimp only
  split
  · exact .read s.micro.al _ _
  · exact .read s.micro.al _ _

theorem AddrStep.accesses {f : State → State} (hf : AddrStep f) : Accesses (goes f) := fun s => by
  cases hf with
  | fetchLow | fetchHigh | fetchHighIndexed | fetchPointer => exact .read s.cpu.pc _ _
  | indexZeroPage => exact .read s.micro.al _ _
  | indexPointer | pointerLow => exact .read (zeroPage s.micro.ol) _ _
  | pointerHigh | pointerHighIndexed => exact .read (zeroPage (s.micro.ol + 1)) _ _
  | fixHigh => exact fixHigh_oneAccess s

theorem readOperand_accesses (hook : ReadHook) : Accesses (readOperand hook) := fun s => .read s.micro.al _ _

theorem readCycles_accesses (m : Mode) (hook : ReadHook) : ∀ c ∈ readCycles m hook, Accesses c :=
  readCycles_forall (fun _ => AddrStep.accesses) (fun s => .read s.cpu.pc _ _)
    (fun s => by
      unfold readOperandOrFix
      split
      · exact fixHigh_oneAccess s
      · exact readOperand_accesses hook s)
    (readOperand_accesses hook) m

theorem writeCycles_accesses (m : Mode) (value : StoreHook) : ∀ c ∈ writeCycles m value, Accesses c := by
  refine storeCycles_forall (fun _ => AddrStep.accesses) (List.forall_mem_singleton.mpr fun s => ?_) m
  exact .write s.micro.al (value s.cpu) _ _

theorem highAndCycles_accesses (m : Mode) (reg : StoreHook) : ∀ c ∈ highAndCycles m reg, Accesses c := by
  refine storeCycles_forall (fun _ => AddrStep.accesses) (List.forall_mem_singleton.mpr fun s => ?_) m
  exact .write (if s.micro.bx then word _ (lo s.micro.al) else s.micro.al) _ _ _

theorem rmwCycles_accesses (m : Mode) (hook : ModifyHook) : ∀ c ∈ rmwCycles m hook, Accesses c := by
  refine storeCycles_forall (fun _ => AddrStep.accesses) ?_ m
  simp only [List.forall_mem_cons]
  exact ⟨fun s => .read s.micro.al _ _, fun s => .write s.micro.al s.micro.ol _ _,
    fun s => .write s.micro.al s.micro.ol _ _, by simp⟩

theorem impliedCycles_accesses (hook : ImpliedHook) : ∀ c ∈ impliedCycles hook, Accesses c :=
  List.forall_mem_singleton.mpr fun s => .read s.cpu.pc _ _

theorem shiftCycles_accesses (m : Mode) (hook : ModifyHook) : ∀ c ∈ shiftCycles m hook, Accesses c := by
  unfold shiftCycles
  split
  · exact impliedCycles_accesses _
  · exact rmwCycles_accesses m hook

theorem nopCycles_accesses (m : Mode) : ∀ c ∈ cyclesNop m, Accesses c := by
  unfold cyclesNop
  split
  · exact impliedCycles_accesses _
  · exact readCycles_accesses m _

theorem branchCycles_accesses (cond : Cpu → Bool) : ∀ c ∈ branchCycles cond, Accesses c := by
  simp only [branchCycles, List.forall_mem_cons]
  refine ⟨fun s => ?_, fun s => ?_, fun s => .read s.cpu.pc _ _, by simp⟩
  · unfold branchFetch
    dsimp only
    split <;> exact .read s.cpu.pc _ _
  · unfold branchTaken
    dsimp only
    split <;> exact .read s.cpu.pc _ _

theorem jmpCycles_accesses (m : Mode) : ∀ c ∈ cyclesJmp m, Accesses c := by
  unfold cyclesJmp
  split <;> simp only [jumpIndirectCycles, jumpAbsoluteCycles, List.forall_mem_cons]
  · exact ⟨AddrStep.fetchLow.accesses, AddrStep.fetchHigh.accesses, fun s => .read s.micro.al _ _,
      fun s => .read (word (hi s.micro.al) (lo s.micro.al + 1)) _ _, by simp⟩
  · exact ⟨fun s => .read s.cpu.pc _ _, fun s => .read s.cpu.pc _ _, by simp⟩

/-- The dummy read of the byte after the opcode, T2 of the stack instructions. -/
theorem dummyPc_accesses : Accesses (goes fun s => dummyRead s.cpu.pc s) := fun s => .read s.cpu.pc _ _

/-- T3 of every pull. -/
theorem stackDummyInc_accesses : Accesses (goes fun s => (stackDummy s).incS) := fun s => .read (stackAddr s.cpu.s) _ _

theorem jsrCycles_accesses : ∀ c ∈ cyclesJsr, Accesses c := by
  simp only [cyclesJsr, List.forall_mem_cons]
  exact ⟨fun s => .read s.cpu.pc _ _, fun s => .read (stackAddr s.cpu.s) _ _,
    fun s => .write (stackAddr s.cpu.s) (hi s.cpu.pc) _ _, fun s => .write (stackAddr s.cpu.s) (lo s.cpu.pc) _ _,
    fun s => .read s.cpu.pc _ _, by simp⟩

theorem rtsCycles_accesses : ∀ c ∈ cyclesRts, Accesses c := by
  simp only [cyclesRts, List.forall_mem_cons]
  exact ⟨dummyPc_accesses, stackDummyInc_accesses, fun s => .read (stackAddr s.cpu.s) _ _,
    fun s => .read (stackAddr s.cpu.s) _ _, fun s => .read s.cpu.pc _ _, by simp⟩

theorem exceptionReturn_accesses : ∀ c ∈ exceptionReturn, Accesses c := by
  simp only [exceptionReturn, List.forall_mem_cons]
  exact ⟨dummyPc_accesses, stackDummyInc_accesses, fun s => .read (stackAddr s.cpu.s) _ _,
    fun s => .read (stackAddr s.cpu.s) _ _, fun s => .read (stackAddr s.cpu.s) _ _, by simp⟩

/-- The cycles of PHA and PHP. -/
theorem pushCycles_accesses (value : Cpu → Byte) :
    ∀ c ∈ [goes fun s => dummyRead s.cpu.pc s, retires fun s => push (value s.cpu) s], Accesses c := by
  simp only [List.forall_mem_cons]
  exact ⟨dummyPc_accesses, fun s => .write (stackAddr s.cpu.s) (value s.cpu) _ _, by simp⟩

/-- The cycles of PLA and PLP. -/
theorem pullCycles_accesses (result : Byte → Cpu → Cpu) :
    ∀ c ∈ [goes fun s => dummyRead s.cpu.pc s, goes fun s => (stackDummy s).incS,
      retires fun s => let (byte, s) := stackRead s; s.mapCpu (result byte)], Accesses c := by
  simp only [List.forall_mem_cons]
  exact ⟨dummyPc_accesses, stackDummyInc_accesses, fun s => .read (stackAddr s.cpu.s) _ _, by simp⟩

/-- Every cycle but those of the exception sequence makes one bus access, and no cycle but those touches the interrupt
lines. -/
theorem cyclesOf_accesses {i : Instr} (hi : i ≠ .brk) : ∀ c ∈ cyclesOf i, Accesses c := by
  cases i
  case brk => exact absurd rfl hi
  case lda m | ldx m | ldy m | adc m | sbc m _ | and m | ora m | eor m | cmp m | cpx m | cpy m | bit m | lax m =>
    exact readCycles_accesses m _
  case anc | alr | arr | lxa | sbx => exact readCycles_accesses .imm _
  case sta m | stx m | sty m | sax m => exact writeCycles_accesses m _
  case inc m | dec m | slo m | rla m | sre m | rra m | dcp m | isc m => exact rmwCycles_accesses m _
  case asl m | lsr m | rol m | ror m => exact shiftCycles_accesses m _
  case tax | tay | txa | tya | tsx | txs | inx | iny | dex | dey | clc | sec | cli | sei | clv | cld | sed =>
    exact impliedCycles_accesses _
  case nop m _ => exact nopCycles_accesses m
  case bpl | bmi | bvc | bvs | bcc | bcs | bne | beq => exact branchCycles_accesses _
  case jmp m => exact jmpCycles_accesses m
  case jsr => exact jsrCycles_accesses
  case rts => exact rtsCycles_accesses
  case rti => exact exceptionReturn_accesses
  case pha => exact pushCycles_accesses fun r => r.a
  case php => exact pushCycles_accesses fun r => r.packP true
  case pla => exact pullCycles_accesses hookLda
  case plp => exact pullCycles_accesses fun byte r => r.unpackP byte
  case shy | shx => exact highAndCycles_accesses _ _
  case jam | ane | sha | tas | las => exact List.forall_mem_nil _

end Sys2Proof.Machine
end

section
/-! PROOFS. Every step keeps the invariant (10_state.md R31, R32, R35 to R38, R44 to R46). -/

namespace Sys2Proof.Machine

/-! ## The invariant inside an instruction -/

/-- An armed interrupt is pending (10_state.md R35, R36). -/
def Lines.ArmedPending (l : Lines) : Prop :=
  (l.armReset = true → l.pendReset = true) ∧ (l.armNmi = true → l.pendNmi = true) ∧
    (l.armIrq = true → l.pendIrq = true)

/-- The invariant while instruction `i` runs: `Inv` without what it says of `curOp`, `cyc` and the PPU's event. -/
structure MidStep (i : Instr) (s : State) : Prop where
  devices : DevicesOk s
  loopCounter : s.k < Config.dotsPerCpuCycle
  servicing : s.lines.servicing = true → i = .brk
  armed : s.lines.ArmedPending
  faulted : s.faulted = true → (optable s.faultOpcode).sentinel = true

theorem Inv.devicesOk {s : State} (h : Inv s) : DevicesOk s := { h with ppu := { h with }, cart := h.flat }

theorem Inv.midStep {s : State} {i : Instr} (h : Inv s) (hi : s.micro.curOp = some i ∨ s.micro.curOp = none) :
    MidStep i s where
  devices := h.devicesOk
  loopCounter := h.loopCounter
  servicing := fun hs => by simpa [h.servicing hs, eq_comm] using hi
  armed := h.armed
  faulted := h.faulted

theorem Lines.ArmedPending.of_pendNmi {l : Lines} (h : l.ArmedPending) {p : Bool} (hp : l.pendNmi = true → p = true) :
    { l with pendNmi := p }.ArmedPending := by
  obtain ⟨hreset, hnmi, hirq⟩ := h
  exact ⟨hreset, fun ha => hp (hnmi ha), hirq⟩

/-- Whatever a bus access, a dot or the delivery of the event changes, the invariant holds after it if it does so for
the devices. -/
theorem MidStep.of_touched {i : Instr} {s t : State} {E : Addr → Prop} {l : List BusAccess} (h : MidStep i s)
    (ht : Touched E s t l) (hd : DevicesOk t) (hk : t.k < Config.dotsPerCpuCycle) : MidStep i t where
  devices := hd
  loopCounter := hk
  servicing := fun hs => h.servicing (by rw [ht.lines] at hs; exact hs)
  armed := by rw [ht.lines]; exact h.armed.of_pendNmi ht.pendNmi
  faulted := by rw [ht.faulted.1, ht.faulted.2]; exact h.faulted

theorem MidStep.dots {i : Instr} {s : State} (h : MidStep i s) : MidStep i (dotsToCpuTick s) :=
  h.of_touched (dotsToCpuTick_touched (fun _ => True) s) h.devices.dotsToCpuTick (by decide : 0 < 4)

theorem MidStep.deliver {i : Instr} {s : State} (h : MidStep i s) : MidStep i (deliver s) :=
  h.of_touched (deliver_touched (fun _ => True) s) h.devices.deliver h.loopCounter

theorem MidStep.memRead {i : Instr} {s : State} (h : MidStep i s) (a : Addr) : MidStep i (memRead a s).2 :=
  h.of_touched (memRead_touched (fun _ => True) a s) (h.devices.memRead a) (by simpa using h.loopCounter)

theorem MidStep.memWrite {i : Instr} {s : State} (h : MidStep i s) (a : Addr) (v : Byte) :
    MidStep i (memWrite a v s) :=
  h.of_touched (memWrite_touched a v s) (h.devices.memWrite a v) (by simpa using h.loopCounter)

theorem MidStep.with_regs {i : Instr} {s : State} (h : MidStep i s) (r : Cpu) (m : Micro) :
    MidStep i { s with cpu := r, micro := m } := { h with devices := { h.devices with } }

theorem MidStep.with_lines {i : Instr} {s : State} (h : MidStep i s) {l : Lines} (hs : l.servicing = true → i = .brk)
    (ha : l.ArmedPending) : MidStep i { s with lines := l } :=
  { h with devices := { h.devices with }, servicing := hs, armed := ha }

theorem OneAccess.midStep {i : Instr} {s t : State} (ht : OneAccess s t) (h : MidStep i s) : MidStep i t := by
  cases ht with
  | read a r m => exact (h.memRead a).with_regs r m
  | write a v r m => exact (h.memWrite a v).with_regs r m

/-! ## The cycles -/

/-- What every cycle of instruction `i` leaves: the invariant, and where it retires, no interrupt being serviced. -/
def CycleEnd.Ok (i : Instr) : CycleEnd → Prop
  | .go t => MidStep i t
  | .retire t => MidStep i t ∧ t.lines.servicing = false

theorem Accesses.ok {i : Instr} (hi : i ≠ .brk) {c : Cycle} (hc : Accesses c) {s : State} (h : MidStep i s) :
    (c s).Ok i := by
  have ht : MidStep i (c s).state := (hc s).midStep h
  cases e : c s with
  | go t => rw [e] at ht; exact ht
  | retire t =>
    rw [e] at ht
    exact ⟨ht, Bool.eq_false_iff.mpr fun hs => hi (ht.servicing hs)⟩

theorem exceptionPadding_oneAccess (s : State) : OneAccess s (exceptionPadding s) := by
  unfold exceptionPadding
  dsimp only
  split <;> exact .read s.cpu.pc _ _

theorem exceptionPush_oneAccess (v : Byte) (s : State) : OneAccess s (exceptionPush v s) := by
  unfold exceptionPush
  split
  · exact .read (stackAddr s.cpu.s) _ _
  · exact .write (stackAddr s.cpu.s) v _ _

theorem acknowledge_armedPending (l : Lines) : l.acknowledge.ArmedPending := by
  obtain ⟨hreset, hnmi, hirq⟩ := acknowledge_armed l
  simp [Lines.ArmedPending, hreset, hnmi, hirq]

theorem MidStep.vectorLow {s : State} (h : MidStep .brk s) : MidStep .brk (exceptionVectorLow s) :=
  have hack := h.with_lines (fun _ => rfl) (acknowledge_armedPending s.lines)
  ((hack.with_regs s.cpu { s.micro with al := s.lines.vector }).memRead s.lines.vector).with_regs _ _

theorem MidStep.vectorHigh {s : State} (h : MidStep .brk s) : MidStep .brk (exceptionVectorHigh s) :=
  have hread := (h.memRead (s.micro.al + 1)).with_regs (exceptionVectorHigh s).cpu (exceptionVectorHigh s).micro
  hread.with_lines (fun _ => rfl) hread.armed

theorem exceptionEntry_ok {s : State} (h : MidStep .brk s) : ∀ c ∈ exceptionEntry, (c s).Ok .brk := by
  simp only [exceptionEntry, List.forall_mem_cons]
  exact ⟨(exceptionPadding_oneAccess s).midStep h, (exceptionPush_oneAccess _ s).midStep h,
    (exceptionPush_oneAccess _ s).midStep h, (exceptionPush_oneAccess _ s).midStep h, h.vectorLow,
    ⟨h.vectorHigh, rfl⟩, by simp⟩

theorem cyclesOf_ok {i : Instr} {c : Cycle} (hc : c ∈ cyclesOf i) {s : State} (h : MidStep i s) : (c s).Ok i := by
  by_cases hi : i = .brk
  · subst hi
    exact exceptionEntry_ok h c hc
  · exact (cyclesOf_accesses hi c hc).ok hi h

/-! ## The end of a step -/

theorem poll_armedPending (l : Lines) (b : Bool) : (l.poll b).ArmedPending := by
  simp +contextual [Lines.ArmedPending, Lines.poll]

/-- The delivery of the event after the last `Tick()` of a step. -/
theorem MidStep.inv_deliver {i : Instr} {s : State} (h : MidStep i s) (hop : s.micro.curOp = none)
    (hcyc : s.micro.cyc = 0) (hs : s.lines.servicing = false) : Inv (Machine.deliver s) :=
  have hd := h.deliver
  { hd.devices, hd.devices.ppu with
    flat := hd.devices.cart
    delivered := ⟨rfl, rfl⟩
    loopCounter := hd.loopCounter
    idle := fun _ => hcyc
    inProgress := fun j hj => by simp [hop] at hj
    servicing := fun hs' => by simp [hs] at hs'
    armed := hd.armed
    faulted := hd.faulted }

theorem MidStep.inv_retire {i : Instr} {s : State} (h : MidStep i s) (hs : s.lines.servicing = false) (b : Bool) :
    Inv (Machine.deliver (s.retire i b)) := by
  have hlines : (s.retire i b).lines.ArmedPending ∧ (s.retire i b).lines.servicing = false := by
    rw [State.retire_lines]
    split
    · exact ⟨h.armed, hs⟩
    · exact ⟨poll_armedPending _ _, hs⟩
  obtain ⟨harmed, hserv⟩ := hlines
  have hret : MidStep i (s.retire i b) :=
    (h.with_regs s.cpu (s.retire i b).micro).with_lines
      (fun hs' => absurd (hserv.symm.trans hs') Bool.false_ne_true) harmed
  exact hret.inv_deliver rfl rfl hserv

theorem runCycles_inv {i : Instr} {cs : List Cycle} (hcs : ∀ c ∈ cs, c ∈ cyclesOf i) {s t : State}
    (h : MidStep i s) (hrun : runCycles i cs s = .next t) : Inv t := by
  induction cs generalizing s with
  | nil => cases hrun
  | cons c cs ih =>
    have hok := cyclesOf_ok (hcs c List.mem_cons_self) h.dots
    simp only [runCycles] at hrun
    cases e : c (dotsToCpuTick s) with
    | go u =>
      rw [e] at hok hrun
      exact ih (fun c hc => hcs c (List.mem_cons_of_mem _ hc)) (hok.with_regs u.cpu _).deliver hrun
    | retire u =>
      rw [e] at hok hrun
      cases hrun
      obtain ⟨hu, hserv⟩ := hok
      exact hu.inv_retire hserv _

/-! ## The two kinds of step -/

theorem cyclesFrom_subset {i : Instr} {n : Nat} : ∀ c ∈ cyclesFrom i n, c ∈ cyclesOf i := by
  unfold cyclesFrom
  split
  · exact fun c => List.mem_of_mem_drop
  · simp

/-- The opcode byte of an entry selects it. -/
theorem optable_opcode {i : Instr} (h : Laws.RoundTrip.Statement i) (hw : WellFormed i) : optable i.opcode = i := by
  have hdec := h hw (List.replicate i.operandBytes 0) [] List.length_replicate
  simp only [encode, List.cons_append, decode] at hdec
  split at hdec
  · cases hdec
  · injection hdec with e
    exact congrArg Decoded.instr e

theorem optable_opcode_sentinel {i : Instr} (hw : WellFormed i) (hs : i.sentinel = true) :
    (optable i.opcode).sentinel = true := by
  have hround : Laws.RoundTrip.Statement i := by
    cases i
    case jam v => exact Laws.RoundTrip.jam v
    case ane => exact Laws.RoundTrip.ane
    case sha v => exact Laws.RoundTrip.sha v
    case tas => exact Laws.RoundTrip.tas
    case las => exact Laws.RoundTrip.las
    all_goals simp [Instr.sentinel, Config.undocNops] at hs
  rw [optable_opcode hround hw]
  exact hs

/-- What T1's fetch leaves between two instructions, with the substitution of an armed interrupt
(40_cycle_engine.md R143, R144). -/
theorem fetchOpcode_midStep {s : State} (h : ∀ i, MidStep i s) :
    MidStep (fetchOpcode s).1 (fetchOpcode s).2 ∧ (fetchOpcode s).2.micro = s.micro ∧
      ((fetchOpcode s).1.sentinel = true → (fetchOpcode s).2.lines.servicing = false) := by
  have hfetch : ∀ i, MidStep i (fetchByte s).2 := fun i =>
    ((h i).memRead s.cpu.pc).with_regs (fetchByte s).2.cpu (fetchByte s).2.micro
  have hmicro : (fetchByte s).2.micro = s.micro := memRead_micro s.cpu.pc s
  unfold fetchOpcode
  dsimp only
  split
  · have hback : MidStep .brk (if optable (fetchByte s).1 = .brk then (fetchByte s).2
        else (fetchByte s).2.setPc ((fetchByte s).2.cpu.pc - 1)) := by
      split
      · exact hfetch .brk
      · exact (hfetch .brk).with_regs _ (fetchByte s).2.micro
    refine ⟨hback.with_lines (fun _ => rfl) hback.armed, ?_, fun hs => by cases hs⟩
    split <;> exact hmicro
  · exact ⟨hfetch _, hmicro, fun _ => Bool.eq_false_iff.mpr fun hs => nomatch (hfetch .clc).servicing hs⟩

theorem exec_inv {i : Instr} {s t : State} (h : MidStep i s) (hop : s.micro.curOp = none) (hcyc : s.micro.cyc = 0)
    (hs : i.sentinel = true → s.lines.servicing = false) (hexec : exec i s = .next t) : Inv t := by
  obtain ⟨hw, ⟨hsent, rfl⟩ | hrun⟩ := exec_cases hexec
  · have hraise : MidStep i (s.raiseUnimplemented i.opcode) :=
      { h with devices := { h.devices with }, faulted := fun _ => optable_opcode_sentinel hw hsent }
    exact hraise.inv_deliver hop hcyc (hs hsent)
  · exact runCycles_inv (fun _ hc => hc) (h.with_regs s.cpu _).deliver hrun

/-- Settles O11: a step runs cycles, each of which keeps the invariant of the middle of an instruction (`MidStep`), up to
the one that retires; a sentinel's fetch is the other case. -/
theorem stepKeepsInv : Obligations.StepKeepsInv := by
  unfold Obligations.StepKeepsInv
  intro s t h hstep
  unfold step at hstep
  split at hstep
  · cases hstep
  · split at hstep
    · next i hop => exact runCycles_inv cyclesFrom_subset (h.midStep (.inl hop)) hstep
    · next hop =>
      obtain ⟨hmid, hmicro, hsent⟩ := fetchOpcode_midStep fun i => (h.midStep (i := i) (.inr hop)).dots
      rw [dotsToCpuTick_micro] at hmicro
      exact exec_inv hmid (by rw [hmicro, hop]) (by rw [hmicro, h.idle hop]) hsent hstep

/-! ## The state after reset -/

theorem reset_inv : Inv State.reset where
  ram := Memory.within_nil _ _
  oam := Memory.within_nil _ _
  palette := Memory.within_nil _ _
  paletteAlias := List.forall_mem_nil _
  framebuffer := Memory.within_nil _ _
  codes := List.forall_mem_nil _
  flat := fun _ _ h => nomatch h
  scanline := by decide
  dot := by decide
  stubs := ⟨rfl, rfl⟩
  delivered := ⟨rfl, rfl⟩
  loopCounter := by decide
  idle := fun _ => rfl
  inProgress := fun _ h => nomatch h
  servicing := fun h => nomatch h
  armed := by decide
  faulted := fun h => nomatch h

/-- Settles O10: the invariant by its fields, the reset vector by reading it. -/
theorem invAtReset : Obligations.InvAtReset := by
  unfold Obligations.InvAtReset
  exact ⟨reset_inv, rfl, rfl, rfl, rfl, by decide⟩

end Sys2Proof.Machine
end

section
/-! PROOFS. What an instruction does to the registers and flags, class by class (10_state.md R21 to R23, R25). -/

namespace Sys2Proof.Machine

/-! ## The modes of a class -/

/-- The modes of a readable operand are those of an entry of class `read` (30_encoding.md R117). -/
theorem mem_readModes {i : Instr} (hmode : i.modeOk = true) (hc : i.opClass = some .read) {m : Mode}
    (hm : i.mode = some m) : m ∈ readModes := by
  have hcases : m ∈ readModes ∨ m = .imp ∨ m = .acc ∨ m = .ind ∨ m = .rel := by cases m <;> decide
  rcases hcases with h | rfl | rfl | rfl | rfl
  · exact h
  all_goals cases i <;> cases hm <;> simp [Instr.modeOk, Instr.opClass, Mode.alu, Mode.nopCount] at hmode hc

theorem mem_storeModes {i : Instr} (hmode : i.modeOk = true)
    (hc : i.opClass = some .write ∨ i.opClass = some .rmw) {m : Mode} (hm : i.mode = some m) : m ∈ storeModes := by
  have hcases : m ∈ storeModes ∨ m = .imp ∨ m = .acc ∨ m = .ind ∨ m = .rel ∨ m = .imm := by cases m <;> decide
  rcases hcases with h | rfl | rfl | rfl | rfl | rfl
  · exact h
  all_goals cases i <;> cases hm <;> simp [Instr.modeOk, Instr.opClass, Mode.shift, Mode.composite] at hmode hc

/-! ## The register file after each class of instruction -/

section

variable {i : Instr} {m : Mode} {s t : State}

theorem read_cpu (hi : i ≠ .brk) (hm : m ∈ readModes) {hook : ReadHook}
    (h : runCycles i (readCycles m hook) (deliver (s.begin i)) = .next t) :
    ∃ operand pc, t.cpu = hook operand { s.cpu with pc := pc } := by
  obtain ⟨u, hu, _, _, operand, _, _, hcpu, _⟩ := read_run hm hi hook s
  cases hu.symm.trans h
  exact ⟨operand, _, hcpu⟩

theorem write_cpu (hi : i ≠ .brk) (hm : m ∈ storeModes) {value : StoreHook}
    (h : runCycles i (writeCycles m value) (deliver (s.begin i)) = .next t) :
    ∃ pc, t.cpu = { s.cpu with pc := pc } := by
  obtain ⟨u, hu, _, _, _, hcpu, _⟩ := write_run hm hi value s
  cases hu.symm.trans h
  exact ⟨_, hcpu⟩

theorem highAnd_cpu (hi : i ≠ .brk) (hm : m = .abx ∨ m = .aby) {reg : StoreHook}
    (h : runCycles i (highAndCycles m reg) (deliver (s.begin i)) = .next t) :
    ∃ pc, t.cpu = { s.cpu with pc := pc } := by
  obtain ⟨u, _, _, _, _, _, hu, _, _, hcpu, _⟩ := highAnd_run hi hm reg s
  cases hu.symm.trans h
  exact ⟨_, hcpu⟩

theorem rmw_cpu (hi : i ≠ .brk) (hm : m ∈ storeModes) {hook : ModifyHook} (hflag : ∀ b r, (hook b r).2.i = r.i)
    (h : runCycles i (rmwCycles m hook) (deliver (s.begin i)) = .next t) :
    ∃ old pc, t.cpu = (hook old { s.cpu with pc := pc }).2 := by
  obtain ⟨u, hu, _, old, _, _, hcpu, _⟩ := rmw_run hm hi hook hflag s
  cases hu.symm.trans h
  exact ⟨old, _, hcpu⟩

theorem implied_cpu (hi : i ≠ .brk) {hook : ImpliedHook}
    (h : runCycles i (impliedCycles hook) (deliver (s.begin i)) = .next t) : t.cpu = hook s.cpu := by
  obtain ⟨u, hu, _, _, hcpu, _⟩ := implied_run hi hook s
  cases hu.symm.trans h
  exact hcpu

/-- A shift or rotate, of `A` or of memory. -/
theorem shift_cpu (hi : i ≠ .brk) (hm : m ≠ .acc → m ∈ storeModes) {hook : ModifyHook}
    (hflag : ∀ b r, (hook b r).2.i = r.i)
    (h : runCycles i (shiftCycles m hook) (deliver (s.begin i)) = .next t) :
    (m = .acc ∧ t.cpu = onAccumulator hook s.cpu) ∨ ∃ old pc, t.cpu = (hook old { s.cpu with pc := pc }).2 := by
  unfold shiftCycles at h
  split at h
  · next hacc => exact .inl ⟨hacc, implied_cpu hi h⟩
  · next hacc => exact .inr (rmw_cpu hi (hm hacc) hflag h)

theorem nop_cpu (hi : i ≠ .brk) (hm : m ≠ .imp → m ∈ readModes)
    (h : runCycles i (cyclesNop m) (deliver (s.begin i)) = .next t) : ∃ pc, t.cpu = { s.cpu with pc := pc } := by
  unfold cyclesNop at h
  split at h
  · exact ⟨s.cpu.pc, implied_cpu hi h⟩
  · next himp =>
    obtain ⟨_, pc, hcpu⟩ := read_cpu hi (hm himp) h
    exact ⟨pc, hcpu⟩

theorem branch_cpu (hi : i ≠ .brk) {cond : Cpu → Bool} (hcond : ∀ r p, cond { r with pc := p } = cond r)
    (h : runCycles i (branchCycles cond) (deliver (s.begin i)) = .next t) :
    ∃ pc, t.cpu = { s.cpu with pc := pc } := by
  obtain ⟨u, hu, _, _, hcpu, _⟩ := branch_run hi hcond s
  cases hu.symm.trans h
  exact ⟨_, hcpu⟩

theorem jmp_cpu (hi : i ≠ .brk) (h : runCycles i (cyclesJmp m) (deliver (s.begin i)) = .next t) :
    ∃ pc, t.cpu = { s.cpu with pc := pc } := by
  unfold cyclesJmp at h
  split at h
  · obtain ⟨u, _, _, _, _, hu, _, hcpu, _⟩ := jump_indirect_run hi s
    cases hu.symm.trans h
    exact ⟨_, hcpu⟩
  · obtain ⟨u, _, _, hu, _, hcpu, _⟩ := jump_absolute_run hi s
    cases hu.symm.trans h
    exact ⟨_, hcpu⟩

theorem jsr_cpu (hi : i ≠ .brk) (h : runCycles i cyclesJsr (deliver (s.begin i)) = .next t) :
    ∃ pc sp, t.cpu = { s.cpu with pc := pc, s := sp } := by
  obtain ⟨u, _, _, _, hu, _, hcpu, _⟩ := jsr_run hi s
  cases hu.symm.trans h
  exact ⟨_, _, hcpu⟩

theorem rts_cpu (hi : i ≠ .brk) (h : runCycles i cyclesRts (deliver (s.begin i)) = .next t) :
    ∃ pc sp, t.cpu = { s.cpu with pc := pc, s := sp } := by
  obtain ⟨u, _, _, _, _, _, hu, _, hcpu, _⟩ := rts_run hi s
  cases hu.symm.trans h
  exact ⟨_, _, hcpu⟩

theorem push_cpu (hi : i ≠ .brk) {value : Cpu → Byte}
    (h : runCycles i [goes fun s => dummyRead s.cpu.pc s, retires fun s => push (value s.cpu) s]
      (deliver (s.begin i)) = .next t) : ∃ sp, t.cpu = { s.cpu with s := sp } := by
  obtain ⟨u, _, hu, _, hcpu, _⟩ := push_run hi value s
  cases hu.symm.trans h
  exact ⟨_, hcpu⟩

theorem pull_cpu (hi : i ≠ .brk) {result : Byte → Cpu → Cpu}
    (h : runCycles i [goes fun s => dummyRead s.cpu.pc s, goes fun s => (stackDummy s).incS,
      retires fun s => let (byte, s) := stackRead s; s.mapCpu (result byte)] (deliver (s.begin i)) = .next t) :
    ∃ byte sp, t.cpu = result byte { s.cpu with s := sp } := by
  obtain ⟨u, _, _, byte, hu, _, hcpu, _⟩ := pull_run hi result s
  cases hu.symm.trans h
  exact ⟨byte, _, hcpu⟩

theorem rti_cpu (hi : i ≠ .brk) (h : runCycles i exceptionReturn (deliver (s.begin i)) = .next t) :
    ∃ byte pc sp, t.cpu = { s.cpu.unpackP byte with pc := pc, s := sp } := by
  obtain ⟨u, _, _, byte, _, _, hu, _, hcpu, _⟩ := rti_run hi s
  cases hu.symm.trans h
  exact ⟨byte, _, _, hcpu⟩

theorem entry_cpu (h : runCycles .brk exceptionEntry (deliver (s.begin .brk)) = .next t) :
    ∃ pc sp, t.cpu = { s.cpu with pc := pc, s := sp, i := true } := by
  obtain ⟨u, _, _, _, _, _, _, hu, _, hcpu, _⟩ := entry_run s
  cases hu.symm.trans h
  exact ⟨_, _, hcpu⟩

end

/-- Settles O44: each class of instruction leaves the register file that its hook makes, and a hook writes by definition
only the fields that the lists of R21 to R25 give its instruction. -/
theorem onlyTheNamedInstructionsWrite : Obligations.OnlyTheNamedInstructionsWrite := by
  unfold Obligations.OnlyTheNamedInstructionsWrite
  intro i s t h
  obtain ⟨⟨hmode, -⟩, ⟨-, rfl⟩ | hrun⟩ := exec_cases h
  · and_intros <;> split <;> trivial
  by_cases hi : i = .brk
  · subst hi
    obtain ⟨pc, sp, hcpu⟩ := entry_cpu hrun
    rw [hcpu]
    and_intros <;> trivial
  cases i
  case brk => exact absurd rfl hi
  case' lda | ldx | ldy | adc | sbc | and | ora | eor | cmp | cpx | cpy | bit | lax | anc | alr | arr | lxa | sbx =>
    obtain ⟨operand, pc, hcpu⟩ := read_cpu hi (mem_readModes hmode rfl rfl) hrun
  case' sta | stx | sty | sax =>
    obtain ⟨pc, hcpu⟩ := write_cpu hi (mem_storeModes hmode (.inl rfl) rfl) hrun
  case' shy | shx =>
    obtain ⟨pc, hcpu⟩ := highAnd_cpu hi (by decide) hrun
  case' inc | dec | slo | rla | sre | rra | dcp | isc =>
    obtain ⟨old, pc, hcpu⟩ := rmw_cpu hi (mem_storeModes hmode (.inr rfl) rfl) (fun _ _ => rfl) hrun
  case' asl m | lsr m | rol m | ror m =>
    have hm : m ≠ .acc → m ∈ storeModes := fun hacc =>
      mem_storeModes hmode (.inr (congrArg some (if_neg hacc))) rfl
    obtain ⟨rfl, hcpu⟩ | ⟨old, pc, hcpu⟩ := shift_cpu hi hm (fun _ _ => rfl) hrun
    on_goal 2 => cases m
  case' tax | tay | txa | tya | tsx | txs | inx | iny | dex | dey | clc | sec | cli | sei | clv | cld | sed =>
    have hcpu := implied_cpu hi hrun
  case' nop m _ =>
    obtain ⟨pc, hcpu⟩ := nop_cpu hi (fun himp => mem_readModes hmode (congrArg some (if_neg himp)) rfl) hrun
  case' bpl | bmi | bvc | bvs | bcc | bcs | bne | beq =>
    obtain ⟨pc, hcpu⟩ := branch_cpu hi (fun _ _ => rfl) hrun
  case' jmp m =>
    obtain ⟨pc, hcpu⟩ := jmp_cpu hi hrun
  case' jsr =>
    obtain ⟨pc, sp, hcpu⟩ := jsr_cpu hi hrun
  case' rts =>
    obtain ⟨pc, sp, hcpu⟩ := rts_cpu hi hrun
  case' pha =>
    obtain ⟨sp, hcpu⟩ := push_cpu (value := fun r => r.a) hi hrun
  case' php =>
    obtain ⟨sp, hcpu⟩ := push_cpu (value := fun r => r.packP true) hi hrun
  case' pla =>
    obtain ⟨byte, sp, hcpu⟩ := pull_cpu (result := hookLda) hi hrun
  case' plp =>
    obtain ⟨byte, sp, hcpu⟩ := pull_cpu (result := fun byte r => r.unpackP byte) hi hrun
  case' rti =>
    obtain ⟨byte, pc, sp, hcpu⟩ := rti_cpu hi hrun
  case jam | ane | sha | tas | las => cases hrun
  -- `hcpu` says what the new register file is; every field not listed for `i` is the old one by definition
  all_goals
    rw [hcpu]
    and_intros <;> trivial

end Sys2Proof.Machine
end

section
/-! PROOFS. The dots and the bus accesses do not look at the registers: they do the same on any register file. -/

namespace Sys2Proof.Machine

/-- The machine with another register file. -/
def State.withCpu (s : State) (r : Cpu) : State := { s with cpu := r }

@[simp] theorem State.withCpu_ppu (s : State) (r : Cpu) : (s.withCpu r).ppu = s.ppu := rfl

theorem foldl_withCpu {α : Type} {f : State → α → State} (hf : ∀ s r a, f (s.withCpu r) a = (f s a).withCpu r)
    (l : List α) (s : State) (r : Cpu) : l.foldl f (s.withCpu r) = (l.foldl f s).withCpu r := by
  induction l generalizing s with
  | nil => rfl
  | cons a l ih => simp only [List.foldl_cons, hf, ih]

/-! ## The dots -/

theorem fetchStep_withCpu (d : Nat) (s : State) (r : Cpu) :
    fetchStep d (s.withCpu r) = (fetchStep d s).withCpu r := by
  unfold fetchStep
  simp only [ppuBusRead_eq]
  split <;> rfl

theorem renderDot_withCpu (sl d : Nat) (s : State) (r : Cpu) :
    renderDot sl d (s.withCpu r) = (renderDot sl d s).withCpu r := by
  unfold renderDot
  dsimp only
  split
  · have hpixel : (if sl ≤ 239 ∧ d ≤ 256 then backgroundPixel sl d (s.withCpu r) else s.withCpu r) =
        (if sl ≤ 239 ∧ d ≤ 256 then backgroundPixel sl d s else s).withCpu r := by split <;> rfl
    rw [hpixel]
    generalize (if sl ≤ 239 ∧ d ≤ 256 then backgroundPixel sl d s else s) = u
    have hfetch := fetchStep_withCpu d { u with ppu := u.ppu.shift } r
    exact congrArg (fun v : State => { v with ppu := scrollUpdate sl d v.ppu }) hfetch
  · rfl

theorem paintSpritePixel_withCpu (o : Sprite) (row column : Nat) (s : State) (r : Cpu) :
    paintSpritePixel o row column (s.withCpu r) = (paintSpritePixel o row column s).withCpu r := by
  unfold paintSpritePixel
  dsimp only
  rw [show spritePattern (s.withCpu r) o row column = spritePattern s o row column from rfl]
  split <;> rfl

theorem paintSprite_withCpu (s : State) (r : Cpu) (n : Nat) :
    paintSprite (s.withCpu r) n = (paintSprite s n).withCpu r := by
  refine foldl_withCpu (f := fun s row => (List.range 8).foldl
    (fun s column => paintSpritePixel (s.ppu.sprite n) row column s) s) (fun s r row => ?_) _ s r
  exact foldl_withCpu (f := fun s column => paintSpritePixel (s.ppu.sprite n) row column s)
    (fun s r column => paintSpritePixel_withCpu (s.ppu.sprite n) row column s r) _ s r

theorem spritePass_withCpu (s : State) (r : Cpu) : spritePass (s.withCpu r) = (spritePass s).withCpu r := by
  unfold spritePass
  show (if s.ppu.showSp then _ else _) = _
  split
  · exact foldl_withCpu paintSprite_withCpu _ _ _
  · rfl

theorem vblankStart_withCpu (s : State) (r : Cpu) : vblankStart (s.withCpu r) = (vblankStart s).withCpu r :=
  congrArg (fun u : State => { u with ppu := { u.ppu with
    frameComplete := true, nmiRequested := u.ppu.nmiRequested || u.ppu.nmiEnable } })
    (spritePass_withCpu { s with ppu := { s.ppu with vblank := true } } r)

/-- A choice between two machines, with another register file. -/
theorem ite_withCpu (c : Prop) [Decidable c] {s s' t t' : State} {r : Cpu} (hs : s' = s.withCpu r)
    (ht : t' = t.withCpu r) : (if c then s' else t') = (if c then s else t).withCpu r := by
  split
  · exact hs
  · exact ht

/-- The last part of a dot's work: the render line, or the backdrop. -/
theorem lineWork_withCpu (sl d : Nat) (s : State) (r : Cpu) :
    (if (s.withCpu r).ppu.renderingEnabled then
      if sl ≤ 239 ∨ sl = 261 then renderDot sl d (s.withCpu r) else s.withCpu r
      else if sl ≤ 239 ∧ 1 ≤ d ∧ d ≤ 256 then backdropPixel sl d (s.withCpu r) else s.withCpu r) =
    (if s.ppu.renderingEnabled then if sl ≤ 239 ∨ sl = 261 then renderDot sl d s else s
      else if sl ≤ 239 ∧ 1 ≤ d ∧ d ≤ 256 then backdropPixel sl d s else s).withCpu r :=
  ite_withCpu _ (ite_withCpu _ (renderDot_withCpu sl d s r) rfl) (ite_withCpu _ rfl rfl)

theorem dotWork_withCpu (s : State) (r : Cpu) : dotWork (s.withCpu r) = (dotWork s).withCpu r := by
  have h1 : (if s.ppu.scanline = 241 ∧ s.ppu.dot = 1 then vblankStart (s.withCpu r) else s.withCpu r) = _ :=
    ite_withCpu _ (vblankStart_withCpu s r) rfl
  unfold dotWork
  dsimp only [State.withCpu_ppu]
  rw [h1]
  generalize (if s.ppu.scanline = 241 ∧ s.ppu.dot = 1 then vblankStart s else s) = s1
  have h2 : (if s.ppu.scanline = 261 ∧ s.ppu.dot = 1 then vblankEnd (s1.withCpu r) else s1.withCpu r) = _ :=
    ite_withCpu _ (t := s1) (s := vblankEnd s1) rfl rfl
  rw [h2]
  exact lineWork_withCpu _ _ _ r

theorem ppuTick_withCpu (s : State) (r : Cpu) : ppuTick (s.withCpu r) = (ppuTick s).withCpu r :=
  congrArg (fun u : State => { u with ppu := u.ppu.advance }) (dotWork_withCpu s r)

theorem dotIteration_withCpu (s : State) (r : Cpu) : dotIteration (s.withCpu r) = (dotIteration s).withCpu r :=
  congrArg (fun u : State => { deliver u with k := (deliver u).k + 1 }) (ppuTick_withCpu s r)

theorem dotIterations_withCpu (n : Nat) (s : State) (r : Cpu) :
    dotIterations n (s.withCpu r) = (dotIterations n s).withCpu r := by
  induction n generalizing s with
  | zero => rfl
  | succ n ih => simp only [dotIterations, dotIteration_withCpu, ih]

theorem dotsToCpuTick_withCpu (s : State) (r : Cpu) : dotsToCpuTick (s.withCpu r) = (dotsToCpuTick s).withCpu r :=
  congrArg (fun u : State => { u with k := 0 }) (dotIterations_withCpu _ s r)

/-! ## The bus accesses -/

theorem internalAfterRead_withCpu (s : State) (r : Cpu) (a : Addr) :
    internalAfterRead (s.withCpu r) a = (internalAfterRead s a).withCpu r := by
  unfold internalAfterRead
  split
  · unfold ppuRegAfterRead ppuDataAfterRead
    simp only [ppuBusRead_eq]
    split <;> rfl
  all_goals rfl

theorem busAfterRead_withCpu (s : State) (r : Cpu) (a : Addr) :
    busAfterRead (s.withCpu r) a = (busAfterRead s a).withCpu r :=
  congrArg (fun u : State => { u with cart := u.cart.cpuAfterRead a }) (internalAfterRead_withCpu s r a)

theorem memRead_withCpu (a : Addr) (s : State) (r : Cpu) :
    memRead a (s.withCpu r) = ((memRead a s).1, (memRead a s).2.withCpu r) :=
  congrArg (fun u : State => (s.peek a, u.record (.read a (s.peek a)))) (busAfterRead_withCpu s r a)

theorem ppuDataWrite_withCpu (v : Byte) (s : State) (r : Cpu) :
    ppuDataWrite v (s.withCpu r) = (ppuDataWrite v s).withCpu r := by
  unfold ppuDataWrite ppuBusWrite
  dsimp only [State.withCpu_ppu]
  split <;> rfl

theorem ppuRegWrite_withCpu (n : Nat) (v : Byte) (s : State) (r : Cpu) :
    ppuRegWrite n v (s.withCpu r) = (ppuRegWrite n v s).withCpu r := by
  unfold ppuRegWrite
  split
  case h_7 => exact ppuDataWrite_withCpu v s r
  all_goals rfl

theorem oamDmaByte_withCpu (page : Byte) (s : State) (r : Cpu) (n : Nat) :
    oamDmaByte page (s.withCpu r) n = (oamDmaByte page s n).withCpu r :=
  congrArg (fun u : State => { u with ppu := { u.ppu with
    oam := u.ppu.oam.write ((u.ppu.oamAddr.toNat + n) % 256) (s.peek (word page (BitVec.ofNat 8 n))) } })
    (busAfterRead_withCpu s r _)

theorem internalWrite_withCpu (a : Addr) (v : Byte) (s : State) (r : Cpu) :
    internalWrite a v (s.withCpu r) = (internalWrite a v s).withCpu r := by
  unfold internalWrite
  split
  case h_2 n _ => exact ppuRegWrite_withCpu n v s r
  case h_3 => exact foldl_withCpu (oamDmaByte_withCpu v) _ s r
  all_goals rfl

theorem memWrite_withCpu (a : Addr) (v : Byte) (s : State) (r : Cpu) :
    memWrite a v (s.withCpu r) = (memWrite a v s).withCpu r :=
  congrArg (fun u : State => State.record { u with cart := u.cart.cpuAfterWrite a v } (.write a v))
    (internalWrite_withCpu a v s r)

end Sys2Proof.Machine
end

section
/-! PROOFS. The decimal flag has no effect on an instruction that does not push, pull or write it (10_state.md R26). -/

namespace Sys2Proof.Machine

/-- The register file with another `D`. -/
def Cpu.withD (r : Cpu) (b : Bool) : Cpu := { r with d := b }

/-- The machine with another `D`. -/
def State.withD (s : State) (b : Bool) : State := s.withCpu (s.cpu.withD b)

@[simp] theorem State.withD_cpu (s : State) (b : Bool) : (s.withD b).cpu = s.cpu.withD b := rfl

@[simp] theorem State.withD_micro (s : State) (b : Bool) : (s.withD b).micro = s.micro := rfl

@[simp] theorem dotsToCpuTick_withD (s : State) (b : Bool) : dotsToCpuTick (s.withD b) = (dotsToCpuTick s).withD b := by
  simp only [State.withD, dotsToCpuTick_withCpu, dotsToCpuTick_cpu]

@[simp] theorem memRead_withD (a : Addr) (s : State) (b : Bool) :
    memRead a (s.withD b) = ((memRead a s).1, (memRead a s).2.withD b) := by
  simp only [State.withD, memRead_withCpu, memRead_cpu]

@[simp] theorem memWrite_withD (a : Addr) (v : Byte) (s : State) (b : Bool) :
    memWrite a v (s.withD b) = (memWrite a v s).withD b := by
  simp only [State.withD, memWrite_withCpu, memWrite_cpu]

/-! ## The cycles -/

/-- The end of a cycle with another `D`. -/
def CycleEnd.withD : CycleEnd → Bool → CycleEnd
  | .go s, b => .go (s.withD b)
  | .retire s, b => .retire (s.withD b)

theorem ite_cycleEnd_withD (c : Prop) [Decidable c] {e e' f f' : CycleEnd} {b : Bool} (he : e' = e.withD b)
    (hf : f' = f.withD b) : (if c then e' else f') = (if c then e else f).withD b := by
  split
  · exact he
  · exact hf

/-- `D` makes no difference to the cycle, and is left as it is. -/
def IgnoresD (c : Cycle) : Prop := ∀ s b, c (s.withD b) = (c s).withD b

theorem goes_ignoresD {f : State → State} (hf : ∀ s b, f (s.withD b) = (f s).withD b) : IgnoresD (goes f) :=
  fun s b => congrArg CycleEnd.go (hf s b)

theorem retires_ignoresD {f : State → State} (hf : ∀ s b, f (s.withD b) = (f s).withD b) : IgnoresD (retires f) :=
  fun s b => congrArg CycleEnd.retire (hf s b)

theorem fetchByte_withD (s : State) (b : Bool) :
    fetchByte (s.withD b) = ((fetchByte s).1, (fetchByte s).2.withD b) := by
  simp only [fetchByte, memRead_withD]
  rfl

theorem dummyRead_withD (a : Addr) (s : State) (b : Bool) : dummyRead a (s.withD b) = (dummyRead a s).withD b := by
  simp only [dummyRead, memRead_withD]

theorem indexReg_withD (m : Mode) (r : Cpu) (b : Bool) : indexReg m (r.withD b) = indexReg m r := by
  cases m <;> rfl

theorem indexAddr_withD (m : Mode) (high : Byte) (s : State) (b : Bool) :
    indexAddr m high (s.withD b) = (indexAddr m high s).withD b := by
  simp only [indexAddr, State.withD_cpu, indexReg_withD]
  rfl

theorem fixHigh_withD (s : State) (b : Bool) : fixHigh (s.withD b) = (fixHigh s).withD b := by
  simp only [fixHigh, dummyRead_withD, State.withD_micro]
  split <;> rfl

theorem AddrStep.withD {f : State → State} (hf : AddrStep f) (s : State) (b : Bool) :
    f (s.withD b) = (f s).withD b := by
  cases hf with
  | fetchLow => simp only [Machine.fetchLow, fetchByte_withD]; rfl
  | indexZeroPage m =>
    simp only [Machine.indexZeroPage, dummyRead_withD, State.withD_micro, State.withD_cpu, indexReg_withD]; rfl
  | fetchHigh => simp only [Machine.fetchHigh, fetchByte_withD]; rfl
  | fetchHighIndexed m => simp only [Machine.fetchHighIndexed, fetchByte_withD, indexAddr_withD]; rfl
  | fetchPointer => simp only [Machine.fetchPointer, fetchByte_withD]; rfl
  | indexPointer => simp only [Machine.indexPointer, dummyRead_withD, State.withD_micro]; rfl
  | pointerLow => simp only [Machine.pointerLow, memRead_withD, State.withD_micro]; rfl
  | pointerHigh => simp only [Machine.pointerHigh, memRead_withD, State.withD_micro]; rfl
  | pointerHighIndexed =>
    simp only [Machine.pointerHighIndexed, memRead_withD, State.withD_micro, indexAddr_withD]
  | fixHigh => exact fixHigh_withD s b

/-! ## The classes -/

theorem readOperand_ignoresD {hook : ReadHook} (hh : ∀ v r b, hook v (r.withD b) = (hook v r).withD b) :
    IgnoresD (readOperand hook) := by
  refine retires_ignoresD fun s b => ?_
  simp only [memRead_withD, State.withD_micro, State.mapCpu, State.withD_cpu, hh]
  rfl

theorem readCycles_ignoresD {hook : ReadHook} (hh : ∀ v r b, hook v (r.withD b) = (hook v r).withD b) (m : Mode) :
    ∀ c ∈ readCycles m hook, IgnoresD c := by
  refine readCycles_forall (fun f hf => goes_ignoresD hf.withD) ?_ ?_ (readOperand_ignoresD hh) m
  · refine retires_ignoresD fun s b => ?_
    simp only [fetchByte_withD, State.mapCpu, State.withD_cpu, hh]
    rfl
  · exact fun s b => ite_cycleEnd_withD (s.micro.bx = true) (congrArg CycleEnd.go (fixHigh_withD s b))
      (readOperand_ignoresD hh s b)

theorem writeCycles_ignoresD {value : StoreHook} (hv : ∀ r b, value (r.withD b) = value r) (m : Mode) :
    ∀ c ∈ writeCycles m value, IgnoresD c := by
  refine storeCycles_forall (fun f hf => goes_ignoresD hf.withD) (List.forall_mem_singleton.mpr ?_) m
  refine retires_ignoresD fun s b => ?_
  simp only [memWrite_withD, State.withD_micro, State.withD_cpu, hv]

theorem highAndCycles_ignoresD {reg : StoreHook} (hv : ∀ r b, reg (r.withD b) = reg r) (m : Mode) :
    ∀ c ∈ highAndCycles m reg, IgnoresD c := by
  refine storeCycles_forall (fun f hf => goes_ignoresD hf.withD) (List.forall_mem_singleton.mpr ?_) m
  refine retires_ignoresD fun s b => ?_
  simp only [memWrite_withD, State.withD_micro, State.withD_cpu, hv]

theorem rmwCycles_ignoresD {hook : ModifyHook}
    (hh : ∀ v r b, hook v (r.withD b) = ((hook v r).1, (hook v r).2.withD b)) (m : Mode) :
    ∀ c ∈ rmwCycles m hook, IgnoresD c := by
  refine storeCycles_forall (fun f hf => goes_ignoresD hf.withD) ?_ m
  simp only [List.forall_mem_cons]
  refine ⟨goes_ignoresD fun s b => ?_, goes_ignoresD fun s b => ?_, retires_ignoresD fun s b => ?_, by simp⟩
  · simp only [rmwRead, memRead_withD, State.withD_micro]
    rfl
  · simp only [rmwWriteOld, memWrite_withD, State.withD_micro, State.withD_cpu, hh]
    rfl
  · simp only [rmwWriteNew, memWrite_withD, State.withD_micro]

theorem impliedCycles_ignoresD {hook : ImpliedHook} (hh : ∀ r b, hook (r.withD b) = (hook r).withD b) :
    ∀ c ∈ impliedCycles hook, IgnoresD c := by
  refine List.forall_mem_singleton.mpr (retires_ignoresD fun s b => ?_)
  simp only [State.withD_cpu, dummyRead_withD, State.mapCpu, hh]
  rfl

theorem shiftCycles_ignoresD {hook : ModifyHook}
    (hh : ∀ v r b, hook v (r.withD b) = ((hook v r).1, (hook v r).2.withD b)) (m : Mode) :
    ∀ c ∈ shiftCycles m hook, IgnoresD c := by
  unfold shiftCycles
  split
  · refine impliedCycles_ignoresD fun r b => ?_
    unfold onAccumulator
    rw [hh]
    rfl
  · exact rmwCycles_ignoresD hh m

theorem nopCycles_ignoresD (m : Mode) : ∀ c ∈ cyclesNop m, IgnoresD c := by
  unfold cyclesNop
  split
  · exact impliedCycles_ignoresD fun _ _ => rfl
  · exact readCycles_ignoresD (fun _ _ _ => rfl) m

theorem branchCycles_ignoresD {cond : Cpu → Bool} (hcond : ∀ r b, cond (r.withD b) = cond r) :
    ∀ c ∈ branchCycles cond, IgnoresD c := by
  simp only [branchCycles, List.forall_mem_cons]
  refine ⟨fun s b => ?_, fun s b => ?_, retires_ignoresD fun s b => ?_, by simp⟩
  · simp only [branchFetch, fetchByte_withD, State.setOl_cpu, State.withD_cpu, hcond]
    exact ite_cycleEnd_withD _ rfl rfl
  · simp only [branchTaken, State.withD_cpu, dummyRead_withD]
    exact ite_cycleEnd_withD _ rfl rfl
  · simp only [State.withD_cpu, dummyRead_withD]
    rfl

theorem jmpCycles_ignoresD (m : Mode) : ∀ c ∈ cyclesJmp m, IgnoresD c := by
  unfold cyclesJmp
  split <;> simp only [jumpIndirectCycles, jumpAbsoluteCycles, List.forall_mem_cons]
  · refine ⟨goes_ignoresD AddrStep.fetchLow.withD, goes_ignoresD AddrStep.fetchHigh.withD,
      goes_ignoresD fun s b => ?_, retires_ignoresD fun s b => ?_, by simp⟩
    · simp only [memRead_withD, State.withD_micro]
      rfl
    · simp only [memRead_withD, State.withD_micro]
      rfl
  · refine ⟨goes_ignoresD fun s b => ?_, retires_ignoresD fun s b => ?_, by simp⟩
    · simp only [fetchByte_withD]
      rfl
    · simp only [memRead_withD, State.withD_cpu]
      rfl

theorem stackRead_withD (s : State) (b : Bool) :
    stackRead (s.withD b) = ((stackRead s).1, (stackRead s).2.withD b) :=
  memRead_withD (stackAddr s.cpu.s) s b

theorem push_withD (v : Byte) (s : State) (b : Bool) : push v (s.withD b) = (push v s).withD b := by
  simp only [push, memWrite_withD]
  rfl

/-- The dummy read of the byte after the opcode, T2 of the stack instructions. -/
theorem dummyPc_ignoresD : IgnoresD (goes fun s => dummyRead s.cpu.pc s) :=
  goes_ignoresD fun s b => dummyRead_withD s.cpu.pc s b

/-- T3 of every pull. -/
theorem stackDummyInc_ignoresD : IgnoresD (goes fun s => (stackDummy s).incS) := by
  refine goes_ignoresD fun s b => ?_
  simp only [stackDummy, stackRead_withD]
  rfl

theorem jsrCycles_ignoresD : ∀ c ∈ cyclesJsr, IgnoresD c := by
  simp only [cyclesJsr, List.forall_mem_cons]
  refine ⟨goes_ignoresD fun s b => ?_, goes_ignoresD fun s b => ?_, goes_ignoresD fun s b => push_withD _ s b,
    goes_ignoresD fun s b => push_withD _ s b, retires_ignoresD fun s b => ?_, by simp⟩
  · simp only [fetchByte_withD]
    rfl
  · simp only [stackDummy, stackRead_withD]
  · simp only [memRead_withD, State.withD_cpu]
    rfl

theorem rtsCycles_ignoresD : ∀ c ∈ cyclesRts, IgnoresD c := by
  simp only [cyclesRts, List.forall_mem_cons]
  refine ⟨dummyPc_ignoresD, stackDummyInc_ignoresD, goes_ignoresD fun s b => ?_, goes_ignoresD fun s b => ?_,
    retires_ignoresD fun s b => ?_, by simp⟩
  · simp only [stackRead_withD]
    rfl
  · simp only [stackRead_withD]
    rfl
  · simp only [dummyRead_withD]
    rfl

theorem phaCycles_ignoresD : ∀ c ∈ cyclesPha, IgnoresD c := by
  simp only [cyclesPha, List.forall_mem_cons]
  exact ⟨dummyPc_ignoresD, retires_ignoresD fun s b => push_withD s.cpu.a s b, by simp⟩

theorem plaCycles_ignoresD : ∀ c ∈ cyclesPla, IgnoresD c := by
  simp only [cyclesPla, List.forall_mem_cons]
  refine ⟨dummyPc_ignoresD, stackDummyInc_ignoresD, retires_ignoresD fun s b => ?_, by simp⟩
  simp only [stackRead_withD]
  rfl

/-- `D` makes no difference to a cycle of any instruction but those that push, pull or write it. -/
theorem cyclesOf_ignoresD {i : Instr} (hi : i ∉ [Instr.php, .plp, .brk, .rti, .cld, .sed]) :
    ∀ c ∈ cyclesOf i, IgnoresD c := by
  cases i
  case php | plp | brk | rti | cld | sed => exact absurd (by decide) hi
  case lda m | ldx m | ldy m | adc m | sbc m _ | and m | ora m | eor m | cmp m | cpx m | cpy m | bit m | lax m =>
    exact readCycles_ignoresD (fun _ _ _ => rfl) m
  case anc | alr | arr | lxa | sbx => exact readCycles_ignoresD (fun _ _ _ => rfl) .imm
  case sta m | stx m | sty m | sax m => exact writeCycles_ignoresD (fun _ _ => rfl) m
  case inc m | dec m | slo m | rla m | sre m | rra m | dcp m | isc m =>
    exact rmwCycles_ignoresD (fun _ _ _ => rfl) m
  case asl m | lsr m | rol m | ror m => exact shiftCycles_ignoresD (fun _ _ _ => rfl) m
  case tax | tay | txa | tya | tsx | txs | inx | iny | dex | dey | clc | sec | cli | sei | clv =>
    exact impliedCycles_ignoresD fun _ _ => rfl
  case nop m _ => exact nopCycles_ignoresD m
  case bpl | bmi | bvc | bvs | bcc | bcs | bne | beq => exact branchCycles_ignoresD fun _ _ => rfl
  case jmp m => exact jmpCycles_ignoresD m
  case jsr => exact jsrCycles_ignoresD
  case rts => exact rtsCycles_ignoresD
  case pha => exact phaCycles_ignoresD
  case pla => exact plaCycles_ignoresD
  case shy | shx => exact highAndCycles_ignoresD (fun _ _ => rfl) _
  case jam | ane | sha | tas | las => exact List.forall_mem_nil _

/-! ## The instruction -/

/-- The outcome of an instruction with another `D` in its next state. -/
def outcomeWithD (b : Bool) : Host.Outcome State Fault Refusal → Host.Outcome State Fault Refusal
  | .next t => .next (t.withD b)
  | .fault f => .fault f
  | .refused r => .refused r

theorem runCycles_withD {i : Instr} {cs : List Cycle} (hcs : ∀ c ∈ cs, IgnoresD c) (s : State) (b : Bool) :
    runCycles i cs (s.withD b) = outcomeWithD b (runCycles i cs s) := by
  induction cs generalizing s with
  | nil => rfl
  | cons c cs ih =>
    have hc := hcs c List.mem_cons_self (dotsToCpuTick s) b
    have hrest := ih fun c hc => hcs c (List.mem_cons_of_mem _ hc)
    simp only [runCycles, dotsToCpuTick_withD, hc]
    cases c (dotsToCpuTick s) with
    | go u => exact hrest (deliver u.nextCycle)
    | retire u => rfl

theorem exec_withD {i : Instr} (hi : i ∉ [Instr.php, .plp, .brk, .rti, .cld, .sed]) (s : State) (b : Bool) :
    exec i (s.withD b) = outcomeWithD b (exec i s) := by
  rw [exec_eq, exec_eq]
  split
  · unfold runSentinel
    split <;> rfl
  · unfold runInstr
    split
    · exact runCycles_withD (cyclesOf_ignoresD hi) (deliver (s.begin i)) b
    · rfl

/-- Settles O43: each cycle does the same whatever `D` is, hence the instruction does. -/
theorem decimalFlagHasNoEffect : Obligations.DecimalFlagHasNoEffect := by
  unfold Obligations.DecimalFlagHasNoEffect
  intro i b s hi
  refine (exec_withD hi s b).trans ?_
  cases exec i s <;> rfl

end Sys2Proof.Machine
end

section
/-! PROOFS. The CPU address map, access by access: where a read's value comes from, and what a read and a write change
(20_memory.md R74 to R77, R81, R88). -/

namespace Sys2Proof.Machine

/-! ## Addresses with no internal device -/

/-- No internal device answers a read above the PPU window but the two controller ports. -/
theorem region_unread {a : Addr} (h : 0x4000 ≤ a.toNat) (h6 : a ≠ 0x4016) (h7 : a ≠ 0x4017) :
    region a = .oamDma ∨ region a = .open' := by
  rcases region_cases a with ⟨hr, -⟩ | ⟨hp, -⟩ | ⟨-, e⟩ | ⟨h6', -⟩ | ⟨h7', -⟩ | e
  · omega
  · exact absurd hp.1.2 (by omega)
  · exact .inl e
  · exact absurd h6' h6
  · exact absurd h7' h7
  · exact .inr e

/-- No internal device takes a write above the PPU window but the DMA port and the strobe. -/
theorem region_unwritten {a : Addr} (h : 0x4000 ≤ a.toNat) (h4 : a ≠ 0x4014) (h6 : a ≠ 0x4016) :
    region a = .port1 ∨ region a = .open' := by
  rcases region_cases a with ⟨hr, -⟩ | ⟨hp, -⟩ | ⟨h4', -⟩ | ⟨h6', -⟩ | ⟨-, e⟩ | e
  · omega
  · exact absurd hp.1.2 (by omega)
  · exact absurd h4' h4
  · exact absurd h6' h6
  · exact .inl e
  · exact .inr e

/-! ## The value of a read -/

theorem peek_ram {a : Addr} (h : a.toNat < 0x2000) (s : State) :
    s.peek a = s.ram.read (a.toNat % 0x800) &&& s.cart.cpuValue a := by
  rw [peek_plain s (.inl h), if_pos h]

theorem peek_ppu {a : Addr} (h : InPpuWindow a) (s : State) :
    s.peek a = ppuRegValue (a.toNat % 8) s &&& s.cart.cpuValue a := by
  simp only [State.peek, internalValue, region_ppu h]

/-- Where no internal device answers, the open bus leaves the cartridge's byte as it is (20_memory.md R74, R81). -/
theorem peek_unread {a : Addr} (h : 0x4000 ≤ a.toNat) (h6 : a ≠ 0x4016) (h7 : a ≠ 0x4017) (s : State) :
    s.peek a = s.cart.cpuValue a := by
  unfold State.peek internalValue
  rcases region_unread h h6 h7 with e | e <;> rw [e] <;> exact BitVec.allOnes_and

/-- A board the model knows answers nothing below its program bytes (20_memory.md R84). -/
theorem Cart.cpuValue_known {c : Cart} (h : ∀ st, c ≠ .mapper st) {a : Addr} (ha : a.toNat < 0x4020) :
    c.cpuValue a = Config.openBus := by
  cases c with
  | absent => rfl
  | flat prg vram => exact if_neg (by omega)
  | mapper st => exact absurd rfl (h st)

/-- On a known board a read below the program bytes is the internal device's alone. -/
theorem peek_known {s : State} (hs : s.KnownBoard) {a : Addr} (ha : a.toNat < 0x4020) :
    s.peek a = internalValue s a := by
  rw [State.peek, Cart.cpuValue_known hs ha]
  exact BitVec.and_allOnes

/-! ## What a read changes -/

theorem memRead_snd (a : Addr) (s : State) :
    (memRead a s).2 = { internalAfterRead s a with
      cart := (internalAfterRead s a).cart.cpuAfterRead a
      busLog := .read a (s.peek a) :: (internalAfterRead s a).busLog } := rfl

theorem internalAfterRead_ram {a : Addr} (h : a.toNat < 0x2000) (s : State) : internalAfterRead s a = s := by
  simp only [internalAfterRead, region_ram h]

theorem internalAfterRead_ppu {a : Addr} (h : InPpuWindow a) (s : State) :
    internalAfterRead s a = ppuRegAfterRead (a.toNat % 8) s := by
  simp only [internalAfterRead, region_ppu h]

theorem internalAfterRead_unread {a : Addr} (h : 0x4000 ≤ a.toNat) (h6 : a ≠ 0x4016) (h7 : a ≠ 0x4017) (s : State) :
    internalAfterRead s a = s := by
  unfold internalAfterRead
  rcases region_unread h h6 h7 with e | e <;> rw [e]

/-! ## What a write changes -/

theorem memWrite_eq (a : Addr) (v : Byte) (s : State) :
    memWrite a v s = { internalWrite a v s with
      cart := (internalWrite a v s).cart.cpuAfterWrite a v
      busLog := .write a v :: (internalWrite a v s).busLog } := rfl

theorem internalWrite_ram {a : Addr} (h : a.toNat < 0x2000) (v : Byte) (s : State) :
    internalWrite a v s = { s with ram := s.ram.write (a.toNat % 0x800) v } := by
  simp only [internalWrite, region_ram h]

theorem internalWrite_ppu {a : Addr} (h : InPpuWindow a) (v : Byte) (s : State) :
    internalWrite a v s = ppuRegWrite (a.toNat % 8) v s := by
  simp only [internalWrite, region_ppu h]

theorem internalWrite_unwritten {a : Addr} (h : 0x4000 ≤ a.toNat) (h4 : a ≠ 0x4014) (h6 : a ≠ 0x4016) (v : Byte)
    (s : State) : internalWrite a v s = s := by
  unfold internalWrite
  rcases region_unwritten h h4 h6 with e | e <;> rw [e]

/-- A RAM byte read after a write to RAM: the new byte at its four addresses, every other byte as before
(20_memory.md R76). -/
theorem peek_memWrite_ram {s : State} (hs : s.KnownBoard) {a b : Addr} (ha : a.toNat < 0x2000) (hb : b.toNat < 0x2000)
    (v : Byte) :
    (memWrite a v s).peek b = if b.toNat % 0x800 = a.toNat % 0x800 then v else s.peek b := by
  have hboard : (memWrite a v s).KnownBoard := (memWrite_touched a v s).board hs
  have hram : (memWrite a v s).ram = s.ram.write (a.toNat % 0x800) v := by rw [memWrite_eq, internalWrite_ram ha]
  rw [peek_known hboard (by omega), peek_known hs (by omega)]
  simp only [internalValue, region_ram hb, hram, Memory.read_write]

/-- Settles O48: one equation per region for the value of a read, for the effect of a read and for that of a write. -/
theorem busAccessesDecodeTheMap : Obligations.BusAccessesDecodeTheMap := by
  unfold Obligations.BusAccessesDecodeTheMap
  refine ⟨fun s a => ⟨rfl, fun h => peek_ram h s, fun h h' => peek_ppu ⟨h, h'⟩ s, fun h h6 h7 => peek_unread h h6 h7 s⟩,
    fun s a => ?_, fun s a v => ?_, fun s a b v hs ha hb => peek_memWrite_ram hs ha hb v⟩
  · refine ⟨fun h => ?_, fun h h' => ?_, ?_, ?_, fun h h6 h7 => ?_⟩
    · rw [memRead_snd, internalAfterRead_ram h]
    · rw [memRead_snd, internalAfterRead_ppu ⟨h, h'⟩]
    · rintro rfl; rfl
    · rintro rfl; rfl
    · rw [memRead_snd, internalAfterRead_unread h h6 h7]
  · refine ⟨fun h => ?_, fun h h' => ?_, ?_, ?_, fun h h4 h6 => ?_⟩
    · rw [memWrite_eq, internalWrite_ram h]
    · rw [memWrite_eq, internalWrite_ppu ⟨h, h'⟩]
    · rintro rfl; rfl
    · rintro rfl; rfl
    · rw [memWrite_eq, internalWrite_unwritten h h4 h6]

end Sys2Proof.Machine
end

section
/-! PROOFS. The OAM DMA, byte by byte (20_memory.md R78). -/

namespace Sys2Proof.Machine

/-- The machine after the first `n` bytes of the OAM DMA of a page. -/
def oamDmaPrefix (page : Byte) (s : State) (n : Nat) : State := (List.range n).foldl (oamDmaByte page) s

theorem oamDma_eq_prefix (page : Byte) (s : State) : oamDma page s = oamDmaPrefix page s 256 := rfl

theorem oamDmaPrefix_succ (page : Byte) (s : State) (n : Nat) :
    oamDmaPrefix page s (n + 1) = oamDmaByte page (oamDmaPrefix page s n) n := by
  simp only [oamDmaPrefix, List.range_succ, List.foldl_append, List.foldl_cons, List.foldl_nil]

/-- The DMA changes nothing but what a store at its port can. -/
theorem oamDmaPrefix_touched (page : Byte) (s : State) (n : Nat) :
    Touched (· = 0x4014) s (oamDmaPrefix page s n) [] :=
  foldl_touched _ _ (oamDmaByte_touched page) _ s

theorem not_selects_dmaPort (n : Nat) : ¬ SelectsPpuReg 0x4014 n := fun h => absurd h.1.2 (by decide)

theorem oamDmaPrefix_busLog (page : Byte) (s : State) (n : Nat) : (oamDmaPrefix page s n).busLog = s.busLog :=
  (oamDmaPrefix_touched page s n).trace

theorem oamDmaPrefix_oamAddr (page : Byte) (s : State) (n : Nat) :
    (oamDmaPrefix page s n).ppu.oamAddr = s.ppu.oamAddr :=
  (oamDmaPrefix_touched page s n).oamAddr fun _ h => h ▸ ⟨not_selects_dmaPort 3, not_selects_dmaPort 4⟩

/-- The DMA leaves plain memory as it was. -/
theorem oamDmaPrefix_peek (page : Byte) {s : State} (n : Nat) {a : Addr} (ha : s.PlainAt a) :
    (oamDmaPrefix page s n).peek a = s.peek a :=
  (oamDmaPrefix_touched page s n).peek_eq ha (fun _ h => h ▸ not_selects_dmaPort 7)
    fun _ _ h hlow => absurd (h ▸ hlow) (by decide)

theorem oamDmaByte_oam (page : Byte) (s : State) (n : Nat) :
    (oamDmaByte page s n).ppu.oam =
      s.ppu.oam.write ((s.ppu.oamAddr.toNat + n) % 256) (s.peek (page ++ BitVec.ofNat 8 n)) := by
  have h := busAfterRead_kept s (word page (BitVec.ofNat 8 n))
  rw [← h.memories.1, ← h.controls.oamAddr]
  rfl

/-- The pages without device registers are plain memory. -/
theorem plainAt_page {s : State} (hs : s.KnownBoard) {page : Byte} (h : page.toNat < 0x20 ∨ 0x41 ≤ page.toNat)
    (low : Byte) : s.PlainAt (page ++ low) := by
  have hlow := low.isLt
  have e : (page ++ low).toNat = page.toNat * 256 + low.toNat := by
    rw [BitVec.toNat_append, ← Nat.shiftLeft_add_eq_or_of_lt hlow, Nat.shiftLeft_eq]
  exact ⟨hs, by omega⟩

/-- The bytes already copied are those of the page as it was: a later one goes to another cell. -/
theorem oamDmaPrefix_copied {s : State} (hs : s.KnownBoard) {page : Byte} (h : page.toNat < 0x20 ∨ 0x41 ≤ page.toNat)
    {n : Nat} (hn : n ≤ 256) : ∀ i < n, (oamDmaPrefix page s n).ppu.oam.read ((s.ppu.oamAddr.toNat + i) % 256) =
      s.peek (page ++ BitVec.ofNat 8 i) := by
  induction n with
  | zero => intro i hi; omega
  | succ n ih =>
    intro i hi
    rw [oamDmaPrefix_succ, oamDmaByte_oam, oamDmaPrefix_oamAddr, oamDmaPrefix_peek page n (plainAt_page hs h _)]
    rcases Nat.lt_succ_iff_lt_or_eq.mp hi with hlt | rfl
    · rw [Memory.read_write_of_ne _ _ (by omega)]
      exact ih (by omega) i hlt
    · exact Memory.read_write_self _ _ _

theorem memWrite_dmaPort (v : Byte) (s : State) :
    memWrite 0x4014 v s = { oamDma v s with
      cart := (oamDma v s).cart.cpuAfterWrite 0x4014 v, busLog := .write 0x4014 v :: (oamDma v s).busLog } := rfl

/-- Settles O49: the chain of states is `oamDmaPrefix`; the bytes of a plain page by induction on the bytes copied. -/
theorem oamDmaCopiesAPage : Obligations.OamDmaCopiesAPage := by
  unfold Obligations.OamDmaCopiesAPage
  intro s v
  rw [memWrite_dmaPort, oamDma_eq_prefix]
  refine ⟨⟨oamDmaPrefix v s, rfl, fun i _ => ?_, ?_⟩, oamDmaPrefix_oamAddr v s 256,
    fun hs h => oamDmaPrefix_copied hs h (Nat.le_refl 256)⟩
  · have haddr : (busRead (v ++ BitVec.ofNat 8 i) (oamDmaPrefix v s i)).2.ppu.oamAddr = s.ppu.oamAddr :=
      (busAfterRead_kept _ _).controls.oamAddr.trans (oamDmaPrefix_oamAddr v s i)
    rw [oamDmaPrefix_succ, ← haddr]
    rfl
  · rw [oamDmaPrefix_busLog]

end Sys2Proof.Machine
end

section
/-! PROOFS. The controller ports' serial reads (20_memory.md R79, R80, R82). -/

namespace Sys2Proof.Machine

/-- The machine after `n` reads at one address. -/
def afterReads (a : Addr) (n : Nat) (s : State) : State := (fun u : State => (memRead a u).2)^[n] s

theorem afterReads_succ (a : Addr) (n : Nat) (s : State) : afterReads a (n + 1) s = (memRead a (afterReads a n s)).2 :=
  Function.iterate_succ_apply' _ n s

/-- Reads keep the strobe, the latched buttons and the host's feed. -/
theorem afterReads_pads (a : Addr) (n : Nat) (s : State) : SamePads s (afterReads a n s) := by
  induction n with
  | zero => exact SamePads.refl s
  | succ n ih =>
    rw [afterReads_succ]
    exact ih.trans (busAfterRead_kept (afterReads a n s) a).pads

theorem afterReads_board (a : Addr) (n : Nat) {s : State} (hs : s.KnownBoard) : (afterReads a n s).KnownBoard := by
  induction n with
  | zero => exact hs
  | succ n ih =>
    rw [afterReads_succ]
    exact KnownBoard.of_cart ((busAfterRead_kept (afterReads a n s) a).cart ih) ih

/-- A counter that every read at `a` advances, unless the strobe is high, counts the reads. -/
theorem afterReads_count {a : Addr} {count : Ctl → Nat}
    (hcount : ∀ s, count (memRead a s).2.ctl = s.ctl.nextCount (count s.ctl)) (n : Nat) (s : State) :
    count (afterReads a n s).ctl = if s.ctl.strobe then count s.ctl else count s.ctl + n := by
  induction n with
  | zero => exact (ite_self _).symm
  | succ n ih =>
    obtain ⟨hstrobe, -⟩ := afterReads_pads a n s
    rw [afterReads_succ, hcount, Ctl.nextCount, hstrobe, ih]
    cases s.ctl.strobe <;> rfl

theorem peek_port0 {s : State} (hs : s.KnownBoard) : s.peek 0x4016 = buttonByte s.ctl.latched0 s.ctl.count0 :=
  peek_known hs (by decide)

theorem peek_port1 {s : State} (hs : s.KnownBoard) : s.peek 0x4017 = buttonByte s.ctl.latched1 s.ctl.count1 :=
  peek_known hs (by decide)

/-- The byte of a port after `n` reads on a known board. -/
theorem peek_port0_afterReads {s : State} (hs : s.KnownBoard) (n : Nat) : (afterReads 0x4016 n s).peek 0x4016 =
    buttonByte s.ctl.latched0 (if s.ctl.strobe then s.ctl.count0 else s.ctl.count0 + n) := by
  obtain ⟨-, hlatched, -⟩ := afterReads_pads 0x4016 n s
  rw [peek_port0 (afterReads_board _ n hs), hlatched, afterReads_count (count := Ctl.count0) (fun _ => rfl)]

theorem peek_port1_afterReads {s : State} (hs : s.KnownBoard) (n : Nat) : (afterReads 0x4017 n s).peek 0x4017 =
    buttonByte s.ctl.latched1 (if s.ctl.strobe then s.ctl.count1 else s.ctl.count1 + n) := by
  obtain ⟨-, -, hlatched, -⟩ := afterReads_pads 0x4017 n s
  rw [peek_port1 (afterReads_board _ n hs), hlatched, afterReads_count (count := Ctl.count1) (fun _ => rfl)]

theorem buttonByte_eq (latched : Byte) (count : Nat) :
    buttonByte latched count = (if count < 8 then latched.getLsbD count else true).toNat := by
  unfold buttonByte buttonBit bitOf
  cases (if count < 8 then latched.getLsbD count else true) <;> rfl

/-- Settles O50: the number of reads is the counter, unless the strobe holds it at 0. -/
theorem controllersReadSerially : Obligations.ControllersReadSerially := by
  unfold Obligations.ControllersReadSerially
  refine ⟨fun s v => ⟨rfl, rfl, rfl, rfl⟩, fun s n hs h0 h1 => ?_⟩
  have hport0 := peek_port0_afterReads hs n
  have hport1 := peek_port1_afterReads hs n
  rw [h0, buttonByte_eq] at hport0
  rw [h1, buttonByte_eq] at hport1
  refine ⟨fun hstrobe => ?_, fun hstrobe => ?_⟩
  · simp only [hstrobe, Bool.false_eq_true, if_false, Nat.zero_add] at hport0 hport1
    exact ⟨hport0, hport1⟩
  · simp only [hstrobe, if_true] at hport0 hport1
    exact ⟨hport0, hport1⟩

end Sys2Proof.Machine
end

section
/-! PROOFS. The decoder and the encoder agree in both directions, on every instruction and on every string of bytes; the
sentinel entries (30_encoding.md R110, R111, R118, R119, R122). -/

namespace Sys2Proof.Laws.RoundTrip

/-! ## From an instruction to its bytes and back -/

/-- Each kind by its own lemma of PerInstr.lean. -/
theorem roundTrip : ∀ i : Instr, Statement i
  -- loads, stores, transfers
  | .lda m => lda m | .ldx m => ldx m | .ldy m => ldy m | .sta m => sta m | .stx m => stx m | .sty m => sty m
  | .tax => tax | .tay => tay | .txa => txa | .tya => tya | .tsx => tsx | .txs => txs
  -- arithmetic, logic, compare
  | .adc m => adc m | .sbc m v => sbc m v | .and m => and m | .ora m => ora m | .eor m => eor m
  | .cmp m => cmp m | .cpx m => cpx m | .cpy m => cpy m | .bit m => bit m
  -- shifts, rotates, increments, decrements
  | .asl m => asl m | .lsr m => lsr m | .rol m => rol m | .ror m => ror m | .inc m => inc m | .dec m => dec m
  | .inx => inx | .iny => iny | .dex => dex | .dey => dey
  -- flags and no-operations
  | .clc => clc | .sec => sec | .cli => cli | .sei => sei | .clv => clv | .cld => cld | .sed => sed
  | .nop m v => nop m v
  -- branches, jumps, subroutines
  | .bpl => bpl | .bmi => bmi | .bvc => bvc | .bvs => bvs | .bcc => bcc | .bcs => bcs | .bne => bne | .beq => beq
  | .jmp m => jmp m | .jsr => jsr | .rts => rts
  -- stack and system
  | .pha => pha | .php => php | .pla => pla | .plp => plp | .brk => brk | .rti => rti
  -- undocumented instructions
  | .slo m => slo m | .rla m => rla m | .sre m => sre m | .rra m => rra m | .sax m => sax m | .lax m => lax m
  | .dcp m => dcp m | .isc m => isc m | .anc v => anc v | .alr => alr | .arr => arr | .lxa => lxa | .sbx => sbx
  | .shy => shy | .shx => shx
  -- sentinel entries
  | .jam v => jam v | .ane => ane | .sha v => sha v | .tas => tas | .las => las

/-- Settles O2, by cases on the kind of the instruction. -/
theorem decodeOfEncode : Obligations.DecodeOfEncode := by
  unfold Obligations.DecodeOfEncode
  exact fun i operands rest hw hlen => roundTrip i hw operands rest hlen

/-! ## From an opcode byte to its entry and back -/

/-- Row `h` of the matrix holds, in column `l`, an entry of the table whose opcode byte is `h * 16 + l`. -/
theorem optableRow_entry : ∀ h < 16, ∀ l < 16,
    let i := (optableRow h).getD l .brk
    WellFormed i ∧ i.opcode.toNat = h * 16 + l := by
  decide

theorem optable_wellFormed (b : Byte) : WellFormed (optable b) :=
  (optableRow_entry (b.toNat / 16) (by omega) (b.toNat % 16) (by omega)).1

@[simp] theorem opcode_optable (b : Byte) : (optable b).opcode = b := by
  have hcell := (optableRow_entry (b.toNat / 16) (by omega) (b.toNat % 16) (by omega)).2
  exact BitVec.eq_of_toNat_eq (hcell.trans (Nat.div_add_mod' b.toNat 16))

/-! ## From a string of bytes to its instruction and back -/

theorem decode_cons (op : Byte) (bytes : List Byte) : decode (op :: bytes) =
    if bytes.length < (optable op).operandBytes then .error (.truncated (optable op))
    else .ok ⟨optable op, bytes.take (optable op).operandBytes, bytes.drop (optable op).operandBytes⟩ := rfl

theorem decode_cons_eq_ok {op : Byte} {bytes : List Byte} {d : Decoded} (h : decode (op :: bytes) = .ok d) :
    (optable op).operandBytes ≤ bytes.length ∧
      d = ⟨optable op, bytes.take (optable op).operandBytes, bytes.drop (optable op).operandBytes⟩ := by
  rw [decode_cons] at h
  split at h
  · cases h
  next hlong => exact ⟨Nat.le_of_not_lt hlong, (Except.ok.inj h).symm⟩

theorem decode_cons_eq_error {op : Byte} {bytes : List Byte} {r : Reject} :
    decode (op :: bytes) = .error r ↔ bytes.length < (optable op).operandBytes ∧ r = .truncated (optable op) := by
  rw [decode_cons]
  split
  next hshort => simp [hshort, eq_comm]
  next hlong => simp [hlong]

/-- Settles O3: the operand bytes and the rest are a split of what follows the opcode byte, which its own entry
encodes. -/
theorem encodeOfDecode : Obligations.EncodeOfDecode := by
  unfold Obligations.EncodeOfDecode
  refine ⟨fun bytes d h => ?_, fun op bytes r => decode_cons_eq_error⟩
  cases bytes with
  | nil => cases h
  | cons op bytes =>
    obtain ⟨hlen, rfl⟩ := decode_cons_eq_ok h
    refine ⟨optable_wellFormed op, List.length_take_of_le hlen, ?_⟩
    simp [encode]

/-- Settles O1, by evaluating the decoder on each word. -/
theorem decodeOfWrittenWords : Obligations.DecodeOfWrittenWords := by
  unfold Obligations.DecodeOfWrittenWords
  decide

/-! ## The sentinel entries -/

/-- The undocumented NOP and SBC bytes are not among the sentinels: `P_UNDOC_NOPS` is `execute` (R123). -/
theorem sentinel_iff {i : Instr} : i.sentinel = true ↔
    (∃ v, i = .jam v) ∨ i = .ane ∨ (∃ v, i = .sha v) ∨ i = .tas ∨ i = .las := by
  cases i <;> simp [Instr.sentinel, Config.undocNops]

/-- Settles O4: an opcode byte is the one that the encoder gives its entry, here a variant of one of the five sentinel
kinds; conversely each of the 17 bytes is looked up. -/
theorem sentinelBytes : Obligations.SentinelBytes := by
  unfold Obligations.SentinelBytes
  intro b
  constructor
  · intro hs
    obtain ⟨-, hvariant⟩ := optable_wellFormed b
    rw [← opcode_optable b]
    obtain ⟨v, e⟩ | e | ⟨v, e⟩ | e | e := sentinel_iff.mp hs <;> rw [e] at hvariant ⊢
    · have hv : v < 12 := hvariant
      interval_cases v <;> decide
    · decide
    · have hv : v < 2 := hvariant
      interval_cases v <;> decide
    · decide
    · decide
  · revert b
    decide

end Sys2Proof.Laws.RoundTrip
end

section
/-! PROOFS. The CPU's `Tick()` and the opcode fetch: one bus access a `Tick()`, and what T1 leaves with and without an
armed interrupt (40_cycle_engine.md R140 to R144). -/

namespace Sys2Proof.Machine

/-! ## The opcode fetch -/

/-- The fetched opcode byte selects the entry of BRK (30_encoding.md R119). -/
theorem optable_eq_brk {op : Byte} : optable op = .brk ↔ op = 0x00 := by
  constructor
  · intro h
    rw [← Laws.RoundTrip.opcode_optable op, h]
    rfl
  · rintro rfl
    rfl

/-- T1 with nothing armed (40_cycle_engine.md R143). -/
theorem fetchOpcode_unarmed {s : State} (h : s.lines.armed = false) :
    fetchOpcode s = (optable (s.peek s.cpu.pc),
      { (memRead s.cpu.pc s).2 with cpu := { s.cpu with pc := s.cpu.pc + 1 } }) := by
  simp [fetchOpcode, fetchByte, h]

/-- T1 with an interrupt armed (40_cycle_engine.md R144, D13). -/
theorem fetchOpcode_armed {s : State} (h : s.lines.armed = true) :
    fetchOpcode s = (.brk, { (memRead s.cpu.pc s).2 with
      cpu := { s.cpu with pc := if s.peek s.cpu.pc = 0x00 then s.cpu.pc + 1 else s.cpu.pc }
      lines := { s.lines with servicing := true } }) := by
  by_cases hop : s.peek s.cpu.pc = 0x00
  · have hbrk : optable (s.peek s.cpu.pc) = .brk := optable_eq_brk.mpr hop
    rw [if_pos hop]
    simp [fetchOpcode, fetchByte, h, hbrk]
  · have hbrk : optable (s.peek s.cpu.pc) ≠ .brk := fun e => hop (optable_eq_brk.mp e)
    rw [if_neg hop]
    simp [fetchOpcode, fetchByte, h, hbrk, State.setPc, State.mapCpu]

theorem memRead_busLog (a : Addr) (s : State) : (memRead a s).2.busLog = .read a (s.peek a) :: s.busLog :=
  (memRead_touched Nowhere a s).trace

theorem memWrite_busLog (a : Addr) (v : Byte) (s : State) : (memWrite a v s).busLog = .write a v :: s.busLog :=
  (memWrite_touched a v s).trace

theorem fetchOpcode_busLog (s : State) :
    (fetchOpcode s).2.busLog = .read s.cpu.pc (s.peek s.cpu.pc) :: s.busLog := by
  cases h : s.lines.armed
  · rw [fetchOpcode_unarmed h]
    exact memRead_busLog _ _
  · rw [fetchOpcode_armed h]
    exact memRead_busLog _ _

/-! ## One bus access a `Tick()` -/

theorem OneAccess.busLog {s t : State} (h : OneAccess s t) : ∃ access, t.busLog = access :: s.busLog := by
  cases h with
  | read a => exact ⟨_, memRead_busLog a s⟩
  | write a v => exact ⟨_, memWrite_busLog a v s⟩

theorem exceptionEntry_busLog (s : State) : ∀ c ∈ exceptionEntry, ∃ access, (c s).state.busLog = access :: s.busLog := by
  simp only [exceptionEntry, List.forall_mem_cons]
  exact ⟨(exceptionPadding_oneAccess s).busLog, (exceptionPush_oneAccess _ s).busLog,
    (exceptionPush_oneAccess _ s).busLog, (exceptionPush_oneAccess _ s).busLog,
    ⟨_, memRead_busLog s.lines.vector _⟩, ⟨_, memRead_busLog (s.micro.al + 1) s⟩, by simp⟩

theorem cyclesOf_busLog {i : Instr} {c : Cycle} (hc : c ∈ cyclesOf i) (s : State) :
    ∃ access, (c s).state.busLog = access :: s.busLog := by
  by_cases hi : i = .brk
  · subst hi
    exact exceptionEntry_busLog s c hc
  · exact (cyclesOf_accesses hi c hc s).busLog

@[simp] theorem cpuCycle_busLog (i : Instr) (c : Cycle) (s : State) : (cpuCycle i c s).busLog = (c s).state.busLog := by
  unfold cpuCycle
  cases c s <;> rfl

/-- How a `Tick()` gives a next state: T1, whose fetch a sentinel stops, or a cycle of the instruction in progress
(40_cycle_engine.md R142, R143, R145). -/
theorem cpuTick_cases {s t : State} (h : cpuTick s = .next t) :
    (∃ i u, fetchOpcode s = (i, u) ∧ (t = u.raiseUnimplemented i.opcode ∨ t = u.begin i)) ∨
      ∃ i, ∃ c ∈ cyclesOf i, t = cpuCycle i c s := by
  simp only [cpuTick] at h
  split at h
  · cases h
  split at h
  · rcases hfetch : fetchOpcode s with ⟨i, u⟩
    rw [hfetch] at h
    refine .inl ⟨i, u, rfl, ?_⟩
    injection h with h
    split at h
    · exact .inl h.symm
    · exact .inr h.symm
  · next i _ =>
    split at h
    · cases h
    · next c _ hcycles =>
      cases h
      exact .inr ⟨i, c, cyclesFrom_subset c (hcycles ▸ List.mem_cons_self), rfl⟩

/-- Settles O9: a `Tick()` is T1, whose one access is the opcode fetch, or a later cycle of the instruction in
progress, each of which makes one. -/
theorem everyTickMakesOneBusAccess : Obligations.EveryTickMakesOneBusAccess := by
  unfold Obligations.EveryTickMakesOneBusAccess
  intro s t h
  obtain ⟨i, u, hfetch, ht⟩ | ⟨i, c, hc, rfl⟩ := cpuTick_cases h
  · have hlog := fetchOpcode_busLog s
    rw [hfetch] at hlog
    refine ⟨_, Eq.trans ?_ hlog⟩
    obtain rfl | rfl := ht <;> rfl
  · rw [cpuCycle_busLog]
    exact cyclesOf_busLog hc s

/-! ## A step between two instructions -/

theorem step_between {s : State} (hf : s.faulted = false) (hop : s.micro.curOp = none) :
    step s = exec (fetchOpcode (dotsToCpuTick s)).1 (fetchOpcode (dotsToCpuTick s)).2 := by
  simp [step, hf, hop]

/-- The dots before a cycle can only request an NMI; what is armed stays so. -/
theorem dotsToCpuTick_armed (s : State) : (dotsToCpuTick s).lines.armed = s.lines.armed := by
  rw [(dotsToCpuTick_touched Nowhere s).lines]
  rfl

/-- Settles O5: the decoder and the fetch look up the same byte in the table, all of whose entries are well-formed. -/
theorem stepRunsDecodedInstruction : Obligations.StepRunsDecodedInstruction := by
  unfold Obligations.StepRunsDecodedInstruction
  intro s d hf hop hreset hnmi hirq u hdec
  obtain ⟨-, rfl⟩ := Laws.RoundTrip.decode_cons_eq_ok hdec
  have harmed : u.lines.armed = false := by
    rw [dotsToCpuTick_armed]
    simp [Lines.armed, hreset, hnmi, hirq]
  refine ⟨Laws.RoundTrip.optable_wellFormed _, ?_⟩
  rw [step_between hf hop, fetchOpcode_unarmed harmed, dotsToCpuTick_cpu]

/-- A change of registers and interrupt lines stores nothing. -/
theorem Ran.storesNothing {s t : State} {l : List BusAccess} (h : Ran s t l) (r : Cpu) (L : Lines) :
    StoresNothing s { t with cpu := r, lines := L } :=
  have hstores := h.touched.storesNothing .brk true
  { hstores with controls := { hstores.controls with } }

/-- Settles O6: T1 with an interrupt armed gives BRK, in a machine that differs from the one before it by the dots, the
read of the opcode byte, `PC` and `servicing`. -/
theorem stepSubstitutesArmedInterrupt : Obligations.StepSubstitutesArmedInterrupt := by
  unfold Obligations.StepSubstitutesArmedInterrupt
  intro s hf hop harm
  have harmed : (dotsToCpuTick s).lines.armed = true := by
    rw [dotsToCpuTick_armed]
    simpa [Lines.armed, or_assoc] using harm
  have hrun : Ran s (memRead s.cpu.pc (dotsToCpuTick s)).2 [.read s.cpu.pc ((dotsToCpuTick s).peek s.cpu.pc)] :=
    (Ran.dots s).trans (Ran.read s.cpu.pc (dotsToCpuTick s))
  have hlines := (dotsToCpuTick_touched Nowhere s).lines
  have hstep := step_between hf hop
  rw [fetchOpcode_armed harmed, dotsToCpuTick_cpu] at hstep
  refine ⟨_, _, hstep, hrun.touched.trace, (Ran.dots s).peek_eq, rfl, ?_,
    (dotsToCpuTick_touched Nowhere s).pendNmi, ?_⟩
  · exact congrArg (fun l : Lines => { l with servicing := true }) hlines
  · exact hrun.storesNothing _ _

end Sys2Proof.Machine
end

section
/-! PROOFS. The poll of `retire`: what every instruction leaves of the interrupt lines (40_cycle_engine.md R146,
60_exceptions.md R419). -/

namespace Sys2Proof.Machine

/-- The cycles `cs` of instruction `i`, begun in `s`, run to the one that retires; the poll there is gated by the flag
`I` of before the instruction. -/
def RetiresOldI (i : Instr) (cs : List Cycle) (s : State) : Prop :=
  ∃ t, runCycles i cs (deliver (s.begin i)) = .next t ∧ Retired s.cpu.i s t

section

variable {i : Instr} {m : Mode} (hi : i ≠ .brk) (s : State)
include hi

theorem read_retires (hm : m ∈ readModes) (hook : ReadHook) : RetiresOldI i (readCycles m hook) s := by
  obtain ⟨t, hrun, _, _, _, _, _, _, _, _, _, hret⟩ := read_run hm hi hook s
  exact ⟨t, hrun, hret⟩

theorem write_retires (hm : m ∈ storeModes) (value : StoreHook) : RetiresOldI i (writeCycles m value) s := by
  obtain ⟨t, hrun, _, _, _, _, _, _, hret⟩ := write_run hm hi value s
  exact ⟨t, hrun, hret⟩

theorem highAnd_retires (hm : m = .abx ∨ m = .aby) (reg : StoreHook) : RetiresOldI i (highAndCycles m reg) s := by
  obtain ⟨t, _, _, _, _, _, hrun, _, _, _, _, _, hret⟩ := highAnd_run hi hm reg s
  exact ⟨t, hrun, hret⟩

theorem rmw_retires (hm : m ∈ storeModes) {hook : ModifyHook} (hflag : ∀ b r, (hook b r).2.i = r.i) :
    RetiresOldI i (rmwCycles m hook) s := by
  obtain ⟨t, hrun, _, _, _, _, _, _, _, hret⟩ := rmw_run hm hi hook hflag s
  exact ⟨t, hrun, hret⟩

theorem implied_retires (hook : ImpliedHook) : RetiresOldI i (impliedCycles hook) s := by
  obtain ⟨t, hrun, _, _, _, _, _, _, hret⟩ := implied_run hi hook s
  exact ⟨t, hrun, hret⟩

theorem shift_retires (hm : m ≠ .acc → m ∈ storeModes) {hook : ModifyHook} (hflag : ∀ b r, (hook b r).2.i = r.i) :
    RetiresOldI i (shiftCycles m hook) s := by
  unfold shiftCycles
  split
  · exact implied_retires hi s _
  · next hacc => exact rmw_retires hi s (hm hacc) hflag

theorem nop_retires (hm : m ≠ .imp → m ∈ readModes) : RetiresOldI i (cyclesNop m) s := by
  unfold cyclesNop
  split
  · exact implied_retires hi s _
  · next himp => exact read_retires hi s (hm himp) _

theorem branch_retires {cond : Cpu → Bool} (hcond : ∀ r p, cond { r with pc := p } = cond r) :
    RetiresOldI i (branchCycles cond) s := by
  obtain ⟨t, hrun, _, _, _, _, _, _, _, _, hret⟩ := branch_run hi hcond s
  exact ⟨t, hrun, hret⟩

theorem jmp_retires (m : Mode) : RetiresOldI i (cyclesJmp m) s := by
  unfold cyclesJmp
  split
  · obtain ⟨t, _, _, _, _, hrun, _, _, _, _, _, hret⟩ := jump_indirect_run hi s
    exact ⟨t, hrun, hret⟩
  · obtain ⟨t, _, _, hrun, _, _, _, _, _, hret⟩ := jump_absolute_run hi s
    exact ⟨t, hrun, hret⟩

theorem jsr_retires : RetiresOldI i cyclesJsr s := by
  obtain ⟨t, _, _, _, hrun, _, _, _, _, _, _, _, _, hret⟩ := jsr_run hi s
  exact ⟨t, hrun, hret⟩

theorem rts_retires : RetiresOldI i cyclesRts s := by
  obtain ⟨t, _, _, _, _, _, hrun, _, _, _, _, _, hret⟩ := rts_run hi s
  exact ⟨t, hrun, hret⟩

theorem push_retires (value : Cpu → Byte) :
    RetiresOldI i [goes fun s => dummyRead s.cpu.pc s, retires fun s => push (value s.cpu) s] s := by
  obtain ⟨t, _, hrun, _, _, _, _, _, _, hret⟩ := push_run hi value s
  exact ⟨t, hrun, hret⟩

theorem pull_retires (result : Byte → Cpu → Cpu) :
    RetiresOldI i [goes fun s => dummyRead s.cpu.pc s, goes fun s => (stackDummy s).incS,
      retires fun s => let (byte, s) := stackRead s; s.mapCpu (result byte)] s := by
  obtain ⟨t, _, _, _, hrun, _, _, _, _, _, hret⟩ := pull_run hi result s
  exact ⟨t, hrun, hret⟩

/-- RTI restores `I` in its fourth cycle, before the one that polls (R419). -/
theorem rti_retires : ∃ t, runCycles i exceptionReturn (deliver (s.begin i)) = .next t ∧ Retired t.cpu.i s t := by
  obtain ⟨t, _, _, p, _, _, hrun, _, hcpu, _, _, _, hret⟩ := rti_run hi s
  have hflag : t.cpu.i = bitOf p 2 := by rw [hcpu]; rfl
  exact ⟨t, hrun, hflag ▸ hret⟩

/-- Every instruction but BRK and RTI polls with the flag `I` of before it: no cycle of these before the last one writes
`I`. -/
theorem cyclesOf_retires (hrti : i ≠ .rti) (hsent : i.sentinel = false) (hmode : i.modeOk = true) :
    RetiresOldI i (cyclesOf i) s := by
  cases i
  case brk => exact absurd rfl hi
  case rti => exact absurd rfl hrti
  case lda | ldx | ldy | adc | sbc | and | ora | eor | cmp | cpx | cpy | bit | lax | anc | alr | arr | lxa | sbx =>
    exact read_retires hi s (mem_readModes hmode rfl rfl) _
  case sta | stx | sty | sax => exact write_retires hi s (mem_storeModes hmode (.inl rfl) rfl) _
  case shy | shx => exact highAnd_retires hi s (by decide) _
  case inc | dec | slo | rla | sre | rra | dcp | isc =>
    exact rmw_retires hi s (mem_storeModes hmode (.inr rfl) rfl) fun _ _ => rfl
  case asl | lsr | rol | ror =>
    exact shift_retires hi s (fun hacc => mem_storeModes hmode (.inr (congrArg some (if_neg hacc))) rfl) fun _ _ => rfl
  case tax | tay | txa | tya | tsx | txs | inx | iny | dex | dey | clc | sec | cli | sei | clv | cld | sed =>
    exact implied_retires hi s _
  case nop => exact nop_retires hi s fun himp => mem_readModes hmode (congrArg some (if_neg himp)) rfl
  case bpl | bmi | bvc | bvs | bcc | bcs | bne | beq => exact branch_retires hi s fun _ _ => rfl
  case jmp m => exact jmp_retires hi s m
  case jsr => exact jsr_retires hi s
  case rts => exact rts_retires hi s
  case pha => exact push_retires hi s fun r => r.a
  case php => exact push_retires hi s fun r => r.packP true
  case pla => exact pull_retires hi s hookLda
  case plp => exact pull_retires hi s fun byte r => r.unpackP byte
  case jam | ane | sha | tas | las => cases hsent

end

/-- An instruction that is no sentinel and not the BRK sequence retires with a poll; RTI's sees the restored `I`, which
is the one it leaves. -/
theorem exec_retired {i : Instr} {s t : State} (h : exec i s = .next t) (hsent : i.sentinel = false) (hi : i ≠ .brk) :
    Retired (if i = .rti then t.cpu.i else s.cpu.i) s t := by
  obtain ⟨⟨hmode, -⟩, ⟨hsent', -⟩ | hrun⟩ := exec_cases h
  · exact absurd (hsent.symm.trans hsent') Bool.false_ne_true
  by_cases hrti : i = .rti
  · subst hrti
    obtain ⟨u, hu, hret⟩ := rti_retires hi s
    cases hu.symm.trans hrun
    exact hret
  · obtain ⟨u, hu, hret⟩ := cyclesOf_retires hi s hrti hsent hmode
    cases hu.symm.trans hrun
    rwa [if_neg hrti]

/-- The BRK sequence ends with no instruction in progress and the interrupt lines acknowledged. -/
theorem exec_brk_ended {s t : State} (h : exec .brk s = .next t) :
    (t.micro.curOp = none ∧ t.micro.cyc = 0) ∧ Acknowledged s.lines t.lines := by
  obtain ⟨-, ⟨hsent, -⟩ | hrun⟩ := exec_cases h
  · cases hsent
  obtain ⟨u, _, _, _, _, _, _, hu, _, _, _, _, _, _, hmicro, hack, _⟩ := entry_run s
  cases hu.symm.trans hrun
  exact ⟨hmicro, hack⟩

/-- Settles O46: the BRK sequence acknowledges and does not poll; every other instruction polls, by its class. -/
theorem retirePollsTheLines : Obligations.RetirePollsTheLines := by
  unfold Obligations.RetirePollsTheLines
  intro i s t h hsent
  by_cases hi : i = .brk
  · subst hi
    obtain ⟨⟨hop, hcyc⟩, hack⟩ := exec_brk_ended h
    exact ⟨hop, hcyc, fun hne => absurd rfl hne, fun _ => hack.armed⟩
  · have hret := exec_retired h hsent hi
    obtain ⟨hop, hcyc⟩ := hret.curOp
    exact ⟨hop, hcyc, fun _ => ⟨hret.armReset, hret.armIrq, hret.armNmi⟩, fun hbrk => absurd hbrk hi⟩

end Sys2Proof.Machine
end

section
/-! PROOFS. An opcode byte's entry of class `read`, `write` or `implied` executes as its class does, with its own hook
(40_cycle_engine.md R147 to R165). -/

namespace Sys2Proof.Machine

theorem not_sentinel_of_opClass {i : Instr} {c : OpClass} (hclass : i.opClass = some c) : i.sentinel = false := by
  by_contra hs
  obtain ⟨_, rfl⟩ | rfl | ⟨_, rfl⟩ | rfl | rfl :=
    Laws.RoundTrip.sentinel_iff.mp (Bool.eq_true_of_not_eq_false hs) <;> cases hclass

/-- An entry of the table that has a class is executed by its cycles. -/
theorem exec_entry {b : Byte} {i : Instr} (htable : optable b = i) {c : OpClass} (hclass : i.opClass = some c)
    (s : State) : exec i s = runCycles i (cyclesOf i) (deliver (s.begin i)) := by
  have hw : WellFormed i := htable ▸ Laws.RoundTrip.optable_wellFormed b
  rw [exec_eq, not_sentinel_of_opClass hclass, if_neg Bool.false_ne_true, runInstr_wf hw]

section

variable {b : Byte} {i : Instr} (htable : optable b = i) (s : State)
include htable

theorem exec_read_done {m : Mode} {hook : ReadHook} (hclass : i.opClass = some .read) (hm : i.mode = some m)
    (hcycles : cyclesOf i = readCycles m hook) : ∃ t, exec i s = .next t ∧ ReadDone m hook s t := by
  have hi : i ≠ .brk := by rintro rfl; cases hclass
  obtain ⟨hmode, -⟩ : WellFormed i := htable ▸ Laws.RoundTrip.optable_wellFormed b
  rw [exec_entry htable hclass, hcycles]
  exact read_run (mem_readModes hmode hclass hm) hi hook s

/-- The stored value is taken after the operand bytes are fetched, so it must not depend on `PC`. -/
theorem exec_write_done {m : Mode} {value : StoreHook} (hclass : i.opClass = some .write) (hm : i.mode = some m)
    (hcycles : cyclesOf i = writeCycles m value) (hvalue : ∀ r, value (r.fetched m) = value r) :
    ∃ t, exec i s = .next t ∧ WriteDone m (storeAddr i m s) (value s.cpu) s t := by
  have hi : i ≠ .brk := by rintro rfl; cases hclass
  obtain ⟨hmode, -⟩ : WellFormed i := htable ▸ Laws.RoundTrip.optable_wellFormed b
  rw [exec_entry htable hclass, hcycles, ← hvalue]
  exact write_run (mem_storeModes hmode (.inl hclass) hm) hi value s

theorem exec_implied_done {hook : ImpliedHook} (hclass : i.opClass = some .implied)
    (hcycles : cyclesOf i = impliedCycles hook) : ∃ t, exec i s = .next t ∧ ImpliedDone hook s t := by
  have hi : i ≠ .brk := by rintro rfl; cases hclass
  rw [exec_entry htable hclass, hcycles]
  exact implied_run hi hook s

end

/-! ## The entries of one kind -/

/-- The entries of a kind of class `read`, given by their bytes and modes. -/
theorem read_entries_done {entries : List (Byte × Mode)} (kind : Mode → Instr) {hook : ReadHook}
    (htable : ∀ e ∈ entries, optable e.1 = kind e.2) (hclass : ∀ m, (kind m).opClass = some .read)
    (hmode : ∀ m, (kind m).mode = some m) (hcycles : ∀ m, cyclesOf (kind m) = readCycles m hook) :
    ∀ e ∈ entries, optable e.1 = kind e.2 ∧ ∀ s, ∃ t, exec (kind e.2) s = .next t ∧ ReadDone e.2 hook s t :=
  fun e he => ⟨htable e he, fun s => exec_read_done (htable e he) s (hclass e.2) (hmode e.2) (hcycles e.2)⟩

/-- The entries of a kind of class `write`, given by their bytes and modes. -/
theorem write_entries_done {entries : List (Byte × Mode)} (kind : Mode → Instr) {value : StoreHook}
    (htable : ∀ e ∈ entries, optable e.1 = kind e.2) (hclass : ∀ m, (kind m).opClass = some .write)
    (hmode : ∀ m, (kind m).mode = some m) (hcycles : ∀ m, cyclesOf (kind m) = writeCycles m value)
    (hvalue : ∀ m r, value (r.fetched m) = value r) :
    ∀ e ∈ entries, optable e.1 = kind e.2 ∧ ∀ s, ∃ t, exec (kind e.2) s = .next t ∧
      WriteDone e.2 (storeAddr (kind e.2) e.2 s) (value s.cpu) s t :=
  fun e he => ⟨htable e he, fun s =>
    exec_write_done (htable e he) s (hclass e.2) (hmode e.2) (hcycles e.2) (hvalue e.2)⟩

/-- The entry of a kind of class `implied`. -/
theorem implied_entry_done {b : Byte} {i : Instr} (htable : optable b = i) {hook : ImpliedHook}
    (hclass : i.opClass = some .implied) (hcycles : cyclesOf i = impliedCycles hook) :
    optable b = i ∧ ∀ s, ∃ t, exec i s = .next t ∧ ImpliedDone hook s t :=
  ⟨htable, fun s => exec_implied_done htable s hclass hcycles⟩

end Sys2Proof.Machine
end

section
/-! PROOFS. Loads, stores and transfers, in every encoding (41_load_store_transfer.md). -/

namespace Sys2Proof.Machine

/-- Settles O13: each byte of the lists is an entry of class `read` whose hook is the load. -/
theorem loadsCopyTheOperand : Obligations.LoadsCopyTheOperand := by
  unfold Obligations.LoadsCopyTheOperand
  refine ⟨?lda, ?ldx, ?ldy⟩
  case lda =>
    exact read_entries_done .lda (hook := hookLda) (by decide) (fun _ => rfl) (fun _ => rfl) (fun _ => rfl)
  case ldx =>
    exact read_entries_done .ldx (hook := hookLdx) (by decide) (fun _ => rfl) (fun _ => rfl) (fun _ => rfl)
  case ldy =>
    exact read_entries_done .ldy (hook := hookLdy) (by decide) (fun _ => rfl) (fun _ => rfl) (fun _ => rfl)

/-- Settles O14: each byte of the lists is an entry of class `write`, and fetching operand bytes leaves the stored
register as it was. -/
theorem storesWriteTheRegister : Obligations.StoresWriteTheRegister := by
  unfold Obligations.StoresWriteTheRegister
  refine ⟨?sta, ?stx, ?sty⟩
  case sta =>
    exact write_entries_done .sta (value := fun r => r.a) (by decide) (fun _ => rfl) (fun _ => rfl) (fun _ => rfl)
      fun _ _ => rfl
  case stx =>
    exact write_entries_done .stx (value := fun r => r.x) (by decide) (fun _ => rfl) (fun _ => rfl) (fun _ => rfl)
      fun _ _ => rfl
  case sty =>
    exact write_entries_done .sty (value := fun r => r.y) (by decide) (fun _ => rfl) (fun _ => rfl) (fun _ => rfl)
      fun _ _ => rfl

/-- Settles O15: each byte is an entry of class `implied` whose hook is the transfer. -/
theorem transfersCopyARegister : Obligations.TransfersCopyARegister := by
  unfold Obligations.TransfersCopyARegister
  refine ⟨?tax, ?tay, ?txa, ?tya, ?tsx, ?txs⟩
  case tax => exact implied_entry_done (hook := hookTax) rfl rfl rfl
  case tay => exact implied_entry_done (hook := hookTay) rfl rfl rfl
  case txa => exact implied_entry_done (hook := hookTxa) rfl rfl rfl
  case tya => exact implied_entry_done (hook := hookTya) rfl rfl rfl
  case tsx => exact implied_entry_done (hook := hookTsx) rfl rfl rfl
  case txs => exact implied_entry_done (hook := hookTxs) rfl rfl rfl

end Sys2Proof.Machine
end

section
/-! PROOFS. Arithmetic, logic, compare and bit test, in every encoding (42_alu_compare.md). -/

namespace Sys2Proof.Machine

/-! ## The two arithmetic primitives of the model -/

theorem negative_eq_masked (b : Byte) : negative b = decide (b &&& 0x80 ≠ 0) := by
  have hmask : b &&& 0x80 = if b.getLsbD 7 then BitVec.twoPow 8 7 else 0 := BitVec.and_twoPow b 7
  rw [hmask, negative, bitOf]
  cases b.getLsbD 7 <;> rfl

theorem bitNat_eq_toNat (b : Bool) : bitNat b = b.toNat := by cases b <;> rfl

theorem Cpu.add8_eq_addWithCarry (r : Cpu) (m : Byte) : r.add8 m = addWithCarry r m := by
  simp only [Cpu.add8, addWithCarry, Cpu.setNZ, bitNat_eq_toNat, negative_eq_masked (_ &&& _)]
  rfl

theorem Cpu.cmp8_eq_compareWith (r : Cpu) (reg m : Byte) : r.cmp8 reg m = compareWith r reg m := rfl

theorem hookAdc_eq_addWithCarry : hookAdc = fun M r => addWithCarry r M :=
  funext₂ fun M r => r.add8_eq_addWithCarry M

theorem hookSbc_eq_addWithCarry : hookSbc = fun M r => addWithCarry r (M ^^^ 0xFF) :=
  funext₂ fun M r => r.add8_eq_addWithCarry (M ^^^ 0xFF)

/-! ## The statements -/

/-- Settles O16: each byte of the lists is an entry of class `read` whose hook is R220's addition, for SBC of the
complemented operand. -/
theorem adcAndSbcAddWithCarry : Obligations.AdcAndSbcAddWithCarry := by
  unfold Obligations.AdcAndSbcAddWithCarry
  refine ⟨?adc, ?sbc⟩
  case adc =>
    rw [← hookAdc_eq_addWithCarry]
    exact read_entries_done .adc (by decide) (fun _ => rfl) (fun _ => rfl) (fun _ => rfl)
  case sbc =>
    rw [← hookSbc_eq_addWithCarry]
    have htable : ∀ e ∈ [((0xE9 : Byte), Mode.imm, 0), (0xE5, .zp, 0), (0xF5, .zpx, 0), (0xED, .abs, 0),
        (0xFD, .abx, 0), (0xF9, .aby, 0), (0xE1, .izx, 0), (0xF1, .izy, 0), (0xEB, .imm, 1)],
        optable e.1 = .sbc e.2.1 e.2.2 := by decide
    exact fun e he => ⟨htable e he, fun s => exec_read_done (htable e he) s rfl rfl rfl⟩

/-- Settles O17: each byte of the lists is an entry of class `read` whose hook is the bitwise operation. -/
theorem logicCombinesBitwise : Obligations.LogicCombinesBitwise := by
  unfold Obligations.LogicCombinesBitwise
  refine ⟨?and, ?ora, ?eor⟩
  case and =>
    exact read_entries_done .and (hook := hookAnd) (by decide) (fun _ => rfl) (fun _ => rfl) (fun _ => rfl)
  case ora =>
    exact read_entries_done .ora (hook := hookOra) (by decide) (fun _ => rfl) (fun _ => rfl) (fun _ => rfl)
  case eor =>
    exact read_entries_done .eor (hook := hookEor) (by decide) (fun _ => rfl) (fun _ => rfl) (fun _ => rfl)

/-- Settles O18: each byte of the lists is an entry of class `read` whose hook is R221's comparison. -/
theorem comparesSetTheFlags : Obligations.ComparesSetTheFlags := by
  unfold Obligations.ComparesSetTheFlags
  simp only [← Cpu.cmp8_eq_compareWith]
  refine ⟨?cmp, ?cpx, ?cpy⟩
  case cmp =>
    exact read_entries_done .cmp (hook := hookCmp) (by decide) (fun _ => rfl) (fun _ => rfl) (fun _ => rfl)
  case cpx =>
    exact read_entries_done .cpx (hook := hookCpx) (by decide) (fun _ => rfl) (fun _ => rfl) (fun _ => rfl)
  case cpy =>
    exact read_entries_done .cpy (hook := hookCpy) (by decide) (fun _ => rfl) (fun _ => rfl) (fun _ => rfl)

/-- Settles O19: both bytes are entries of class `read` whose hook is the bit test. -/
theorem bitTestsTheOperand : Obligations.BitTestsTheOperand := by
  unfold Obligations.BitTestsTheOperand
  exact read_entries_done .bit (hook := hookBit) (by decide) (fun _ => rfl) (fun _ => rfl) (fun _ => rfl)

end Sys2Proof.Machine
end

section
/-! PROOFS. Overflow and carry of ADC and SBC as signed and unsigned integer arithmetic (42_alu_compare.md R220, R223,
R231). -/

namespace Sys2Proof.Machine

/-! ## `ADD8` adds integers -/

section

variable (r : Cpu) (m : Byte)

theorem Cpu.add8_a : (r.add8 m).a = r.a + m + (if r.c then 1 else 0) := by
  apply BitVec.eq_of_toNat_eq
  cases hc : r.c <;> simp [Cpu.add8, Cpu.setNZ, bitNat, hc]

theorem Cpu.add8_c : (r.add8 m).c = true ↔ 255 < r.a.toNat + m.toNat + r.c.toNat := by
  rw [← bitNat_eq_toNat]
  exact decide_eq_true_iff

/-- R220's exclusive-or rule read on the sign bits: equal in the operands, another one in the result. -/
theorem Cpu.add8_v_iff_msb : (r.add8 m).v = true ↔ r.a.msb = m.msb ∧ r.a.msb ≠ (r.add8 m).a.msb := by
  have hv : (r.add8 m).v = (~~~(r.a ^^^ m) &&& (r.a ^^^ (r.add8 m).a)).msb := (BitVec.msb_eq_getLsbD_last _).symm
  rw [hv]
  simp

/-- The sign-bit rule says that the signed sum does not fit a byte. -/
theorem Cpu.add8_v_iff : (r.add8 m).v = true ↔
    r.a.toInt + m.toInt + r.c.toNat < -128 ∨ 127 < r.a.toInt + m.toInt + r.c.toNat := by
  have hsum : (r.add8 m).a.toNat = (r.a.toNat + m.toNat + bitNat r.c) % 256 := BitVec.toNat_ofNat ..
  rw [bitNat_eq_toNat] at hsum
  have hcarry := Bool.toNat_le r.c
  rw [Cpu.add8_v_iff_msb]
  simp only [BitVec.toInt_eq_toNat_cond, BitVec.msb_eq_decide, ne_eq, decide_eq_decide]
  omega

end

/-! ## `ADD8` of the complemented operand subtracts -/

section

variable (r : Cpu) (m : Byte)

theorem complement_eq_not : m ^^^ 0xFF = ~~~m := BitVec.xor_allOnes

theorem complement_toInt : (m ^^^ 0xFF).toInt = -m.toInt - 1 := by
  rw [complement_eq_not, BitVec.toInt_eq_toNat_cond, BitVec.toInt_eq_toNat_cond, BitVec.toNat_not]
  omega

theorem Cpu.add8_complement_a : (r.add8 (m ^^^ 0xFF)).a = r.a - m - (if r.c then 0 else 1) := by
  rw [Cpu.add8_a, complement_eq_not, BitVec.not_eq_neg_add]
  cases r.c <;> simp [BitVec.sub_eq_add_neg, BitVec.add_assoc]

theorem Cpu.add8_complement_c : (r.add8 (m ^^^ 0xFF)).c = true ↔
    (0 : Int) ≤ r.a.toNat - m.toNat - (1 - r.c.toNat) := by
  rw [Cpu.add8_c, complement_eq_not, BitVec.toNat_not]
  omega

theorem Cpu.add8_complement_v_iff : (r.add8 (m ^^^ 0xFF)).v = true ↔
    r.a.toInt - m.toInt - (1 - r.c.toNat) < -128 ∨ 127 < r.a.toInt - m.toInt - (1 - r.c.toNat) := by
  rw [Cpu.add8_v_iff, complement_toInt]
  omega

end

/-! ## The statement -/

/-- Settles O42: ADC leaves the register file of `ADD8`, SBC that of `ADD8` of the complemented operand, and these are
the integer sum and difference. -/
theorem overflowIsSignedOverflow : Obligations.OverflowIsSignedOverflow := by
  unfold Obligations.OverflowIsSignedOverflow
  have hadc : ∀ m ∈ [Mode.imm, .zp, .zpx, .abs, .abx, .aby, .izx, .izy],
      optable (Instr.adc m).opcode = .adc m := by decide
  have hsbc : ∀ m ∈ [Mode.imm, .zp, .zpx, .abs, .abx, .aby, .izx, .izy],
      optable (Instr.sbc m 0).opcode = .sbc m 0 := by decide
  intro m hm s
  constructor
  · obtain ⟨t, hrun, l, ea, M, -, htrace, hcpu, -⟩ := exec_read_done (hook := hookAdc) (hadc m hm) s rfl rfl rfl
    refine ⟨t, l, ea, M, hrun, htrace, ?_⟩
    rw [hcpu]
    exact ⟨Cpu.add8_v_iff _ M, Cpu.add8_a _ M, Cpu.add8_c _ M⟩
  · obtain ⟨t, hrun, l, ea, M, -, htrace, hcpu, -⟩ := exec_read_done (hook := hookSbc) (hsbc m hm) s rfl rfl rfl
    refine ⟨t, l, ea, M, hrun, htrace, ?_⟩
    rw [hcpu]
    exact ⟨Cpu.add8_complement_v_iff _ M, Cpu.add8_complement_a _ M, Cpu.add8_complement_c _ M⟩

end Sys2Proof.Machine
end

section
/-! PROOFS. An opcode byte's entry of class `rmw`, and the two classes of a shift, execute as their class does, with
their own hook (40_cycle_engine.md R150, R152 to R163). -/

namespace Sys2Proof.Machine

/-- The poll is gated by the flag `I` of before, so the modification must not write it. -/
theorem exec_rmw_done {b : Byte} {i : Instr} (htable : optable b = i) (s : State) {m : Mode} {hook : ModifyHook}
    (hclass : i.opClass = some .rmw) (hm : i.mode = some m) (hcycles : cyclesOf i = rmwCycles m hook)
    (hflag : ∀ old r, (hook old r).2.i = r.i) :
    ∃ t, exec i s = .next t ∧ RmwDone m (storeAddr i m s) hook s t := by
  have hi : i ≠ .brk := by rintro rfl; cases hclass
  obtain ⟨hmode, -⟩ : WellFormed i := htable ▸ Laws.RoundTrip.optable_wellFormed b
  rw [exec_entry htable hclass, hcycles]
  exact rmw_run (mem_storeModes hmode (.inr hclass) hm) hi hook hflag s

/-! ## The entries of one kind -/

section

variable (kind : Mode → Instr) {hook : ModifyHook} (hmode : ∀ m, (kind m).mode = some m)
  (hflag : ∀ old r, (hook old r).2.i = r.i)
include hmode hflag

/-- The entries of a kind of class `rmw`, given by their bytes and modes. -/
theorem rmw_entries_done {entries : List (Byte × Mode)} (htable : ∀ e ∈ entries, optable e.1 = kind e.2)
    (hclass : ∀ m, (kind m).opClass = some .rmw) (hcycles : ∀ m, cyclesOf (kind m) = rmwCycles m hook) :
    ∀ e ∈ entries, optable e.1 = kind e.2 ∧ ∀ s, ∃ t, exec (kind e.2) s = .next t ∧
      RmwDone e.2 (storeAddr (kind e.2) e.2 s) hook s t :=
  fun e he => ⟨htable e he, fun s =>
    exec_rmw_done (htable e he) s (hclass e.2) (hmode e.2) (hcycles e.2) hflag⟩

/-- The entries of a kind of shift: in memory of class `rmw`, and on the accumulator of class `implied`. -/
theorem shift_entries_done {entries : List (Byte × Mode)} {b : Byte}
    (htable : ∀ e ∈ entries, optable e.1 = kind e.2 ∧ e.2 ≠ .acc) (hacc : optable b = kind .acc)
    (hclass : ∀ m, (kind m).opClass = some (if m = .acc then .implied else .rmw))
    (hcycles : ∀ m, cyclesOf (kind m) = shiftCycles m hook) :
    (∀ e ∈ entries, optable e.1 = kind e.2 ∧ ∀ s, ∃ t, exec (kind e.2) s = .next t ∧
      RmwDone e.2 (storeAddr (kind e.2) e.2 s) hook s t) ∧
    (optable b = kind .acc ∧ ∀ s, ∃ t, exec (kind .acc) s = .next t ∧ ImpliedDone (onAccumulator hook) s t) := by
  constructor
  · intro e he
    obtain ⟨hentry, hmem⟩ := htable e he
    have hclass' : (kind e.2).opClass = some .rmw := by rw [hclass, if_neg hmem]
    have hcycles' : cyclesOf (kind e.2) = rmwCycles e.2 hook := by rw [hcycles, shiftCycles, if_neg hmem]
    exact ⟨hentry, fun s => exec_rmw_done hentry s hclass' (hmode e.2) hcycles' hflag⟩
  · exact implied_entry_done hacc (hclass .acc) (hcycles .acc)

end

end Sys2Proof.Machine
end

section
/-! PROOFS. Shifts, rotates, increments and decrements, in every encoding (43_shift_incdec.md). -/

namespace Sys2Proof.Machine

/-! ## The carry rotated in -/

theorem rotateLeft_fst (r : Cpu) (m : Byte) : (r.rotateLeft m).1 = (m <<< 1) ||| (if r.c then 1 else 0) := by
  unfold Cpu.rotateLeft
  cases r.c <;> rfl

theorem rotateRight_fst (r : Cpu) (m : Byte) : (r.rotateRight m).1 = (m >>> 1) ||| (if r.c then 0x80 else 0) := by
  unfold Cpu.rotateRight
  cases r.c <;> rfl

theorem hookRol_apply (m : Byte) (r : Cpu) :
    hookRol m r = withNZ ((m <<< 1) ||| (if r.c then 1 else 0), { r with c := m.getLsbD 7 }) := by
  rw [← rotateLeft_fst]
  rfl

theorem hookRor_apply (m : Byte) (r : Cpu) :
    hookRor m r = withNZ ((m >>> 1) ||| (if r.c then 0x80 else 0), { r with c := m.getLsbD 0 }) := by
  rw [← rotateRight_fst]
  rfl

/-! ## The statements -/

/-- Settles O20: each byte is an entry of its shift, of class `rmw` in memory and `implied` on the accumulator; the hook
of each is the shift of the statement, for the rotates by the equations of the carry rotated in. -/
theorem shiftsMoveOneBit : Obligations.ShiftsMoveOneBit := by
  unfold Obligations.ShiftsMoveOneBit
  intro asl lsr rol ror onA
  have hasl : hookAsl = asl := rfl
  have hlsr : hookLsr = lsr := rfl
  have hrol : hookRol = rol := funext₂ hookRol_apply
  have hror : hookRor = ror := funext₂ hookRor_apply
  rw [← hasl, ← hlsr, ← hrol, ← hror]
  refine and_assoc.mp ⟨?asl, and_assoc.mp ⟨?lsr, and_assoc.mp ⟨?rol, ?ror⟩⟩⟩
  case asl =>
    exact shift_entries_done .asl (fun _ => rfl) (fun _ _ => rfl) (by decide) rfl (fun _ => rfl) fun _ => rfl
  case lsr =>
    exact shift_entries_done .lsr (fun _ => rfl) (fun _ _ => rfl) (by decide) rfl (fun _ => rfl) fun _ => rfl
  case rol =>
    exact shift_entries_done .rol (fun _ => rfl) (fun _ _ => rfl) (by decide) rfl (fun _ => rfl) fun _ => rfl
  case ror =>
    exact shift_entries_done .ror (fun _ => rfl) (fun _ _ => rfl) (by decide) rfl (fun _ => rfl) fun _ => rfl

/-- Settles O21: each byte of the lists is an entry of class `rmw` whose hook counts the byte. -/
theorem incAndDecChangeMemory : Obligations.IncAndDecChangeMemory := by
  unfold Obligations.IncAndDecChangeMemory
  refine ⟨?inc, ?dec⟩
  case inc =>
    exact rmw_entries_done .inc (hook := hookInc) (fun _ => rfl) (fun _ _ => rfl) (by decide) (fun _ => rfl)
      fun _ => rfl
  case dec =>
    exact rmw_entries_done .dec (hook := hookDec) (fun _ => rfl) (fun _ _ => rfl) (by decide) (fun _ => rfl)
      fun _ => rfl

/-- Settles O22: each byte is an entry of class `implied` whose hook counts the register. -/
theorem indexRegistersCount : Obligations.IndexRegistersCount := by
  unfold Obligations.IndexRegistersCount
  refine ⟨?inx, ?iny, ?dex, ?dey⟩
  case inx => exact implied_entry_done (hook := hookInx) rfl rfl rfl
  case iny => exact implied_entry_done (hook := hookIny) rfl rfl rfl
  case dex => exact implied_entry_done (hook := hookDex) rfl rfl rfl
  case dey => exact implied_entry_done (hook := hookDey) rfl rfl rfl

end Sys2Proof.Machine
end

section
/-! PROOFS. The flag instructions and the no-operations, in every encoding (44_flag_nop.md; 47_undocumented.md R345). -/

namespace Sys2Proof.Machine

/-- Settles O23: each byte is an entry of class `implied` whose hook sets or clears the flag. -/
theorem flagInstructionsSetOneFlag : Obligations.FlagInstructionsSetOneFlag := by
  unfold Obligations.FlagInstructionsSetOneFlag
  refine ⟨?clc, ?sec, ?cli, ?sei, ?clv, ?cld, ?sed⟩
  case clc => exact implied_entry_done (hook := hookClc) rfl rfl rfl
  case sec => exact implied_entry_done (hook := hookSec) rfl rfl rfl
  case cli => exact implied_entry_done (hook := hookCli) rfl rfl rfl
  case sei => exact implied_entry_done (hook := hookSei) rfl rfl rfl
  case clv => exact implied_entry_done (hook := hookClv) rfl rfl rfl
  case cld => exact implied_entry_done (hook := hookCld) rfl rfl rfl
  case sed => exact implied_entry_done (hook := hookSed) rfl rfl rfl

/-! ## No-operations, by their class -/

/-- The no-operations with no operand, given by their bytes and variants, are entries of class `implied`. -/
theorem nop_implied_entries_done {entries : List (Byte × Nat)} (htable : ∀ e ∈ entries, optable e.1 = .nop .imp e.2) :
    ∀ e ∈ entries, optable e.1 = .nop .imp e.2 ∧ ∀ s, ∃ t, exec (.nop .imp e.2) s = .next t ∧
      ImpliedDone (fun r => r) s t :=
  fun e he => implied_entry_done (htable e he) rfl rfl

/-- The no-operations with an operand, given by their bytes, modes and variants, are entries of class `read` that drop
the operand byte. -/
theorem nop_read_entries_done {entries : List (Byte × Mode × Nat)}
    (htable : ∀ e ∈ entries, optable e.1 = .nop e.2.1 e.2.2 ∧ e.2.1 ≠ .imp) :
    ∀ e ∈ entries, optable e.1 = .nop e.2.1 e.2.2 ∧ ∀ s, ∃ t, exec (.nop e.2.1 e.2.2) s = .next t ∧
      ReadDone e.2.1 (fun _ r => r) s t := by
  intro e he
  obtain ⟨hentry, hmode⟩ := htable e he
  have hclass : (Instr.nop e.2.1 e.2.2).opClass = some .read := congrArg some (if_neg hmode)
  exact ⟨hentry, fun s => exec_read_done hentry s hclass rfl (if_neg hmode)⟩

/-- Settles O24: the seven bytes with no operand are entries of class `implied`, the others of class `read`, and the hook
of both is the identity on the registers. -/
theorem nopsChangeNothing : Obligations.NopsChangeNothing := by
  unfold Obligations.NopsChangeNothing
  refine ⟨?implied, ?read⟩
  case implied => exact nop_implied_entries_done (by decide)
  case read => exact nop_read_entries_done (by decide)

end Sys2Proof.Machine
end

section
/-! PROOFS. Branches and jumps, in every encoding (45_branch_jump.md R280 to R290). -/

namespace Sys2Proof.Machine

/-- A branch instruction taken when `flag` has the value `want` (45_branch_jump.md R280). -/
theorem branch_entry_done {b : Byte} {i : Instr} (htable : optable b = i) (hclass : i.opClass = some .branch)
    {cond flag : Cpu → Bool} {want : Bool} (hcycles : cyclesOf i = branchCycles cond)
    (hcond : ∀ r, (flag r == want) = cond r) (hpc : ∀ r p, cond { r with pc := p } = cond r) :
    optable b = i ∧ ∀ s, ∃ t, exec i s = .next t ∧ BranchDone (flag s.cpu == want) s t := by
  have hi : i ≠ .brk := by rintro rfl; cases hclass
  refine ⟨htable, fun s => ?_⟩
  rw [exec_entry htable hclass, hcycles, hcond]
  exact branch_run hi hpc s

/-- Settles O25: each byte is an entry of class `branch` whose condition reads the flag and not `PC`. -/
theorem branchesFollowTheirFlag : Obligations.BranchesFollowTheirFlag := by
  unfold Obligations.BranchesFollowTheirFlag
  refine ⟨?bpl, ?bmi, ?bvc, ?bvs, ?bcc, ?bcs, ?bne, ?beq⟩
  case bpl => exact branch_entry_done (flag := Cpu.n) rfl rfl rfl (fun r => beq_false r.n) fun _ _ => rfl
  case bmi => exact branch_entry_done (flag := Cpu.n) rfl rfl rfl (fun r => beq_true r.n) fun _ _ => rfl
  case bvc => exact branch_entry_done (flag := Cpu.v) rfl rfl rfl (fun r => beq_false r.v) fun _ _ => rfl
  case bvs => exact branch_entry_done (flag := Cpu.v) rfl rfl rfl (fun r => beq_true r.v) fun _ _ => rfl
  case bcc => exact branch_entry_done (flag := Cpu.c) rfl rfl rfl (fun r => beq_false r.c) fun _ _ => rfl
  case bcs => exact branch_entry_done (flag := Cpu.c) rfl rfl rfl (fun r => beq_true r.c) fun _ _ => rfl
  case bne => exact branch_entry_done (flag := Cpu.z) rfl rfl rfl (fun r => beq_false r.z) fun _ _ => rfl
  case beq => exact branch_entry_done (flag := Cpu.z) rfl rfl rfl (fun r => beq_true r.z) fun _ _ => rfl

/-- Settles O26: the entries of JMP execute by the cycles of their mode. -/
theorem jumpsLoadThePc : Obligations.JumpsLoadThePc := by
  unfold Obligations.JumpsLoadThePc
  refine ⟨⟨rfl, fun s => ?absolute⟩, ⟨rfl, fun s => ?indirect⟩⟩
  case absolute =>
    rw [exec_entry (b := 0x4C) (i := .jmp .abs) rfl rfl]
    exact jump_absolute_run (by decide) s
  case indirect =>
    rw [exec_entry (b := 0x6C) (i := .jmp .ind) rfl rfl]
    exact jump_indirect_run (by decide) s

end Sys2Proof.Machine
end

section
/-! PROOFS. Subroutine call and return (45_branch_jump.md R291 to R293). -/

namespace Sys2Proof.Machine

/-- Settles O27: JSR executes by its own cycles. -/
theorem jsrPushesAndJumps : Obligations.JsrPushesAndJumps := by
  unfold Obligations.JsrPushesAndJumps
  refine ⟨rfl, fun s => ?_⟩
  obtain ⟨t, low, d, high, hrun, htrace, hcpu, hreads, hhigh, heffects, hstores, hpage, hlow, hret⟩ :=
    jsr_run (i := .jsr) (by decide) s
  rw [exec_entry (b := 0x20) (i := .jsr) rfl rfl]
  exact ⟨t, low, d, high, hrun, htrace, hcpu, hreads, hhigh, hpage, hlow, hstores, heffects, hret⟩

/-- Settles O28: RTS executes by its own cycles. -/
theorem rtsPullsAndAddsOne : Obligations.RtsPullsAndAddsOne := by
  unfold Obligations.RtsPullsAndAddsOne
  refine ⟨rfl, fun s => ?_⟩
  rw [exec_entry (b := 0x60) (i := .rts) rfl rfl]
  exact rts_run (by decide) s

/-! ## The stack as memory -/

/-- A stack slot is RAM, so on a known board it is plain memory. -/
theorem plainAt_stackSlot {s : State} (hs : s.KnownBoard) (x : Byte) : s.PlainAt (stackSlot x) :=
  have hram := stackSlot_low x
  ⟨hs, .inl (by omega)⟩

/-- On a known board a stack slot reads as its RAM cell. -/
theorem peek_stackSlot {s : State} (hs : s.KnownBoard) (x : Byte) :
    s.peek (stackSlot x) = s.ram.read (stackSlot x).toNat := by
  have hram := stackSlot_low x
  rw [peek_known hs (by omega), internalValue, region_ram (by omega), Nat.mod_eq_of_lt hram]

/-- On a known board a read of a stack slot that is in a trace gave the byte of its RAM cell. -/
theorem ReadsMemory.stack_eq_ram {s : State} {l : List BusAccess} (h : ReadsMemory s l) (hs : s.KnownBoard) {x v : Byte}
    (hread : .read (stackSlot x) v ∈ l) : v = s.ram.read (stackSlot x).toNat :=
  (h _ v hread (plainAt_stackSlot hs x)).trans (peek_stackSlot hs x)

/-! ## RTS after JSR -/

/-- Settles O29: RTS pulls the two bytes that JSR left in the stack's RAM cells, which make up the address of JSR's
third byte again. -/
theorem rtsReturnsWhereJsrCameFrom : Obligations.RtsReturnsWhereJsrCameFrom := by
  unfold Obligations.RtsReturnsWhereJsrCameFrom
  intro s hs
  obtain ⟨-, hjsr⟩ := jsrPushesAndJumps
  obtain ⟨-, hrts⟩ := rtsPullsAndAddsOne
  obtain ⟨t, _, _, _, hrun, _, hcpu, _, _, hpage, hlow, hstores, _, _⟩ := hjsr s
  obtain ⟨u, _, _, low, high, _, hrun', _, hcpu', hreads, _⟩ := hrts t
  have ht : t.KnownBoard := KnownBoard.of_cart (hstores.cart hs) hs
  have hslot1 : t.cpu.s + 1 = s.cpu.s - 1 := by rw [hcpu]; bv_omega
  have hslot2 : t.cpu.s + 2 = s.cpu.s := by rw [hcpu]; bv_omega
  have hpulledLow : low = (s.cpu.pc + 1).setWidth 8 := calc
    low = t.ram.read (stackSlot (t.cpu.s + 1)).toNat := hreads.stack_eq_ram ht (by simp)
    _ = (s.cpu.pc + 1).setWidth 8 := by rw [hslot1, hlow]
  have hpulledHigh : high = page (s.cpu.pc + 1) := calc
    high = t.ram.read (stackSlot (t.cpu.s + 2)).toNat := hreads.stack_eq_ram ht (by simp)
    _ = page (s.cpu.pc + 1) := by rw [hslot2, hpage]
  refine ⟨t, u, hrun, hrun', ?_⟩
  rw [hcpu', hslot2, hpulledLow, hpulledHigh, page_append_lo, hcpu, BitVec.add_assoc]
  rfl

end Sys2Proof.Machine
end

section
/-! PROOFS. The stack instructions, BRK and RTI (46_stack_system.md R310 to R315; 60_exceptions.md R411
to R416). -/

namespace Sys2Proof.Machine

/-! ## The status byte (10_state.md R27) -/

/-- The sum of the flags' weights is the status byte, over the seven flags it holds. -/
theorem packP_eq_statusByte (r : Cpu) (b : Bool) : r.packP b = statusByte r b := by
  have hflags : ∀ n v b d i z c : Bool,
      BitVec.ofNat 8 (bitNat n * 128 + bitNat v * 64 + 32 + bitNat b * 16 + bitNat d * 8 + bitNat i * 4 + bitNat z * 2 +
        bitNat c) =
      BitVec.ofBool n ++ BitVec.ofBool v ++ 1#1 ++ BitVec.ofBool b ++ BitVec.ofBool d ++ BitVec.ofBool i ++
        BitVec.ofBool z ++ BitVec.ofBool c := by decide
  exact hflags r.n r.v b r.d r.i r.z r.c

/-! ## Pushes and pulls -/

section

variable {b : Byte} {i : Instr} (htable : optable b = i) (hclass : i.opClass = some .special) (hi : i ≠ .brk)
include htable hclass hi

/-- An entry that executes by the cycles of a push. -/
theorem exec_push {value : Cpu → Byte}
    (hcycles : cyclesOf i = [goes fun s => dummyRead s.cpu.pc s, retires fun s => push (value s.cpu) s]) (s : State) :
    ∃ t, exec i s = .next t ∧ ∃ d, Trace s t [.read s.cpu.pc d, .write (stackSlot s.cpu.s) (value s.cpu)] ∧
      t.cpu = { s.cpu with s := s.cpu.s - 1 } ∧ t.ram.read (stackSlot s.cpu.s).toNat = value s.cpu ∧
      StoresCells [(stackSlot s.cpu.s).toNat] s t ∧ ReadsMemory s [.read s.cpu.pc d] ∧
      ReadEffects s t [.read s.cpu.pc d] ∧ Retired s.cpu.i s t := by
  obtain ⟨t, d, hrun, htrace, hcpu, hreads, heffects, hstores, hcell, hret⟩ := push_run hi value s
  rw [exec_entry htable hclass, hcycles]
  exact ⟨t, hrun, d, htrace, hcpu, hcell, hstores, hreads, heffects, hret⟩

/-- An entry that executes by the cycles of a pull. -/
theorem exec_pull {result : Byte → Cpu → Cpu}
    (hcycles : cyclesOf i = [goes fun s => dummyRead s.cpu.pc s, goes fun s => (stackDummy s).incS,
      retires fun s => let (byte, s) := stackRead s; s.mapCpu (result byte)]) (s : State) :
    ∃ t, exec i s = .next t ∧ ∃ d d' v,
      let l := [.read s.cpu.pc d, .read (stackSlot s.cpu.s) d', .read (stackSlot (s.cpu.s + 1)) v]
      Trace s t l ∧ t.cpu = result v { s.cpu with s := s.cpu.s + 1 } ∧ ReadsMemory s l ∧ ReadEffects s t l ∧
      StoresNothing s t ∧ Retired s.cpu.i s t := by
  obtain ⟨t, d, d', v, hrun, hdone⟩ := pull_run hi result s
  rw [exec_entry htable hclass, hcycles]
  exact ⟨t, hrun, d, d', v, hdone⟩

end

/-- Settles O30: both execute by the cycles of a push, PHA of `A` and PHP of the status byte. -/
theorem pushesStoreOneByte : Obligations.PushesStoreOneByte := by
  unfold Obligations.PushesStoreOneByte
  refine ⟨⟨rfl, ?pha⟩, ⟨rfl, fun s => ?php⟩⟩
  case pha => exact exec_push (b := 0x48) (value := Cpu.a) rfl rfl (by decide) rfl
  case php =>
    rw [← packP_eq_statusByte]
    exact exec_push (b := 0x08) (value := fun r => r.packP true) rfl rfl (by decide) rfl s

/-- Settles O31: both execute by the cycles of a pull; the model's `unpackP` is the statement's `withStatus` by
definition. -/
theorem pullsLoadOneByte : Obligations.PullsLoadOneByte := by
  unfold Obligations.PullsLoadOneByte
  refine ⟨⟨rfl, ?pla⟩, ⟨rfl, ?plp⟩⟩
  case pla => exact exec_pull (b := 0x68) (result := hookLda) rfl rfl (by decide) rfl
  case plp => exact exec_pull (b := 0x28) (result := fun v r => withStatus r v) rfl rfl (by decide) rfl

/-! ## Taking an exception and returning from it -/

/-- The BRK sequence outside reset pushes the address and the status and loads the vector, and acknowledges the
interrupt lines. -/
theorem exec_brk_taken {s : State} (hreset : s.lines.isReset = false) : ∃ t, exec .brk s = .next t ∧
    ExceptionTaken (if s.lines.servicing then s.cpu.pc else s.cpu.pc + 1) (statusByte s.cpu (!s.lines.servicing))
      s.lines.vector s t ∧
    Acknowledged s.lines t.lines ∧
    (nmiServiced s.lines = false → s.lines.pendNmi = true → t.lines.pendNmi = true) ∧
    (nmiServiced s.lines = true → s.ppu.nmiEnable = false → t.lines.pendNmi = false) := by
  obtain ⟨t, d, _, _, _, low, high, hrun, htrace, hcpu, hvector, heffects, hstores, hcells, hmicro, hack, hkept, hcleared,
    hfaulted, hk, hframes⟩ := entry_run s
  obtain ⟨hpage, hlow, hstatus⟩ := hcells hreset
  rw [hreset] at htrace heffects hstores
  rw [packP_eq_statusByte] at htrace heffects hstatus
  have hended : SequenceEnded s t := ⟨hmicro, hack.armed, hack.servicing, hfaulted, hk, hframes⟩
  rw [exec_entry (b := 0x00) (i := .brk) rfl rfl]
  exact ⟨t, hrun, ⟨d, low, high, htrace, hcpu, hvector, hpage, hlow, hstatus, hstores, heffects, hended⟩, hack, hkept,
    hcleared⟩

/-- Settles O32: with no interrupt being serviced the sequence is that of BRK, and its acknowledgment withdraws no
pending flag. -/
theorem brkTakesItsException : Obligations.BrkTakesItsException := by
  unfold Obligations.BrkTakesItsException
  refine ⟨rfl, fun s hservicing => ?_⟩
  have hreset : s.lines.isReset = false := by simp [Lines.isReset, hservicing]
  have hnmi : nmiServiced s.lines = false := by simp [nmiServiced, hservicing]
  have hvector : s.lines.vector = 0xFFFE := by simp [Lines.vector, hservicing]
  obtain ⟨t, hrun, htaken, hack, hkept, -⟩ := exec_brk_taken hreset
  rw [hservicing, hvector] at htaken
  refine ⟨t, hrun, htaken, ?pendReset, ?pendIrq, hkept hnmi⟩
  case pendReset => simp [hack.pendReset, hreset]
  case pendIrq => simp [hack.pendIrq, hservicing]

/-- Settles O35: RTI executes by its own cycles, whose last one polls with the `I` that an earlier one restored. -/
theorem rtiRestoresFlagsAndPc : Obligations.RtiRestoresFlagsAndPc := by
  unfold Obligations.RtiRestoresFlagsAndPc
  refine ⟨rfl, fun s => ?_⟩
  rw [exec_entry (b := 0x40) (i := .rti) rfl rfl]
  exact rti_run (by decide) s

end Sys2Proof.Machine
end

section
/-! PROOFS. The undocumented composites of loads, stores, shifts and arithmetic, in every encoding (47_undocumented.md
R330 to R342). -/

namespace Sys2Proof.Machine

/-! ## The hooks that use the carry -/

theorem hookRla_apply (m : Byte) (r : Cpu) :
    hookRla m r = composite ((m <<< 1) ||| (if r.c then 1 else 0), { r with c := m.getLsbD 7 }) hookAnd := by
  rw [← rotateLeft_fst]
  rfl

theorem hookRra_apply (m : Byte) (r : Cpu) :
    hookRra m r = composite ((m >>> 1) ||| (if r.c then 0x80 else 0), { r with c := m.getLsbD 0 })
      fun v r => addWithCarry r v := by
  rw [← rotateRight_fst, ← hookAdc_eq_addWithCarry]
  rfl

theorem hookIsc_apply (m : Byte) (r : Cpu) :
    hookIsc m r = composite (m + 1, r) fun v r => addWithCarry r (v ^^^ 0xFF) := by
  rw [← hookSbc_eq_addWithCarry]
  rfl

/-- The byte that ARR puts in `A` is that of a ROR of `A & M` (47_undocumented.md R340). -/
theorem hookArr_apply (m : Byte) (r : Cpu) :
    hookArr m r =
      let x := ((r.a &&& m) >>> 1) ||| (if r.c then 0x80 else 0)
      { r with a := x, z := decide (x = 0), n := x.getLsbD 7, c := x.getLsbD 6,
               v := x.getLsbD 6 ^^ x.getLsbD 5 } := by
  rw [← rotateRight_fst]
  rfl

/-! ## The entries of a composite -/

/-- The entries of a read-modify-write composite: their bytes stand at the same distances from the first one in every
kind. -/
theorem composite_entries_done {modes : List (Byte × Mode)} (first : Byte) (kind : Mode → Instr) {hook : ModifyHook}
    (htable : ∀ e ∈ modes, optable (first + e.1) = kind e.2) (hclass : ∀ m, (kind m).opClass = some .rmw)
    (hmode : ∀ m, (kind m).mode = some m) (hcycles : ∀ m, cyclesOf (kind m) = rmwCycles m hook)
    (hflag : ∀ old r, (hook old r).2.i = r.i) :
    ∀ e ∈ modes, optable (first + e.1) = kind e.2 ∧ ∀ s, ∃ t, exec (kind e.2) s = .next t ∧
      RmwDone e.2 (storeAddr (kind e.2) e.2 s) hook s t :=
  fun e he => ⟨htable e he, fun s =>
    exec_rmw_done (htable e he) s (hclass e.2) (hmode e.2) (hcycles e.2) hflag⟩

/-- The entry of an immediate composite. -/
theorem immediate_entry_done {b : Byte} {i : Instr} (htable : optable b = i) {hook : ReadHook}
    (hclass : i.opClass = some .read) (hmode : i.mode = some .imm) (hcycles : cyclesOf i = readCycles .imm hook) :
    optable b = i ∧ ∀ s, ∃ t, exec i s = .next t ∧ ReadDone .imm hook s t :=
  ⟨htable, fun s => exec_read_done htable s hclass hmode hcycles⟩

/-! ## The statements -/

/-- Settles O37: each byte of the lists is an entry of class `rmw` whose hook is the composite of the statement, by
definition or by the equations of the hooks that use the carry. -/
theorem compositesModifyThenOperate : Obligations.CompositesModifyThenOperate := by
  unfold Obligations.CompositesModifyThenOperate
  intro modes setA
  refine ⟨?slo, ?rla, ?sre, ?rra, ?dcp, ?isc⟩
  case slo =>
    exact composite_entries_done 0x00 .slo (hook := hookSlo) (by decide) (fun _ => rfl) (fun _ => rfl) (fun _ => rfl)
      fun _ _ => rfl
  case rla =>
    exact composite_entries_done 0x20 .rla (by decide) (fun _ => rfl) (fun _ => rfl)
      (fun m => congrArg (rmwCycles m) (funext₂ hookRla_apply)) fun _ _ => rfl
  case sre =>
    exact composite_entries_done 0x40 .sre (hook := hookSre) (by decide) (fun _ => rfl) (fun _ => rfl) (fun _ => rfl)
      fun _ _ => rfl
  case rra =>
    exact composite_entries_done 0x60 .rra (by decide) (fun _ => rfl) (fun _ => rfl)
      (fun m => congrArg (rmwCycles m) (funext₂ hookRra_apply)) fun _ _ => rfl
  case dcp =>
    exact composite_entries_done 0xC0 .dcp (hook := hookDcp) (by decide) (fun _ => rfl) (fun _ => rfl) (fun _ => rfl)
      fun _ _ => rfl
  case isc =>
    exact composite_entries_done 0xE0 .isc (by decide) (fun _ => rfl) (fun _ => rfl)
      (fun m => congrArg (rmwCycles m) (funext₂ hookIsc_apply)) fun _ _ => rfl

/-- Settles O38: each byte of the lists is an entry of its class; fetching operand bytes leaves what SAX stores as it
was. -/
theorem saxStoresAndLaxLoadsBoth : Obligations.SaxStoresAndLaxLoadsBoth := by
  unfold Obligations.SaxStoresAndLaxLoadsBoth
  refine ⟨?sax, ?lax⟩
  case sax =>
    exact write_entries_done .sax (value := fun r => r.a &&& r.x) (by decide) (fun _ => rfl) (fun _ => rfl)
      (fun _ => rfl) fun _ _ => rfl
  case lax =>
    exact read_entries_done .lax (hook := hookLax) (by decide) (fun _ => rfl) (fun _ => rfl) (fun _ => rfl)

/-- Settles O39: each byte is an entry of class `read` in immediate mode whose hook is the formula of D22. -/
theorem immediateComposites : Obligations.ImmediateComposites := by
  unfold Obligations.ImmediateComposites
  refine ⟨?anc, ?alr, ?arr, ?lxa, ?sbx⟩
  case anc =>
    have htable : ∀ e ∈ [((0x0B : Byte), 0), (0x2B, 1)], optable e.1 = .anc e.2 := by decide
    exact fun e he => immediate_entry_done (hook := hookAnc) (htable e he) rfl rfl rfl
  case alr => exact immediate_entry_done (hook := hookAlr) rfl rfl rfl rfl
  case arr =>
    exact immediate_entry_done rfl rfl rfl (congrArg (readCycles .imm) (funext₂ hookArr_apply))
  case lxa => exact immediate_entry_done (hook := hookLxa) rfl rfl rfl rfl
  case sbx => exact immediate_entry_done (hook := hookSbx) rfl rfl rfl rfl

end Sys2Proof.Machine
end

section
/-! PROOFS. SHY and SHX store their register AND the operand's high byte plus 1 (47_undocumented.md R343, R344). -/

namespace Sys2Proof.Machine

/-- What SHY and SHX leave in mode `m` when `reg` is the register stored. -/
def HighAndDone (m : Mode) (reg : Byte) (s t : State) : Prop :=
  ∃ base low high index d,
    let byte := reg &&& (high + 1)
    let ea := if 256 ≤ low.toNat + index.toNat then byte ++ (low + index) else indexedAddr low high index
    let l := base ++ [.read (uncarriedAddr low high index) d]
    BaseTrace m s.cpu base low high index ∧ Trace s t (l ++ [.write ea byte]) ∧ t.cpu = s.cpu.fetched m ∧
      ReadsMemory s l ∧ StoresAt ea byte s t l ∧ Retired s.cpu.i s t

/-- The entry of SHY or SHX; the stored register is taken after the operand bytes are fetched. -/
theorem highAnd_entry_done {b : Byte} {i : Instr} (htable : optable b = i) (hclass : i.opClass = some .write) {m : Mode}
    (hm : m = .abx ∨ m = .aby) {reg : StoreHook} (hcycles : cyclesOf i = highAndCycles m reg) :
    optable b = i ∧ ∀ s, ∃ t, exec i s = .next t ∧ HighAndDone m (reg (s.cpu.fetched m)) s t := by
  have hi : i ≠ .brk := by rintro rfl; cases hclass
  refine ⟨htable, fun s => ?_⟩
  obtain ⟨t, base, low, high, index, d, hrun, hdone⟩ := highAnd_run hi hm reg s
  rw [exec_entry htable hclass, hcycles]
  exact ⟨t, hrun, base, low, high, index, d, hdone⟩

/-- Settles O40: each byte is the entry of an instruction that executes by the cycles that store a register AND the high
byte plus 1, and fetching operand bytes leaves the register as it was. -/
theorem shyAndShxStoreHighAnd : Obligations.ShyAndShxStoreHighAnd := by
  unfold Obligations.ShyAndShxStoreHighAnd
  refine ⟨?shy, ?shx⟩
  case shy => exact highAnd_entry_done (reg := fun r => r.y) rfl rfl (.inl rfl) rfl
  case shx => exact highAnd_entry_done (reg := fun r => r.x) rfl rfl (.inr rfl) rfl

end Sys2Proof.Machine
end

section
/-! PROOFS. The sentinel entries stop the machine (47_undocumented.md R347, 60_exceptions.md R420, 40_cycle_engine.md
R145). -/

namespace Sys2Proof.Machine

/-- An opcode byte's sentinel entry raises `UnimplementedOpcode` of that byte. -/
theorem exec_sentinel_entry {b : Byte} {i : Instr} (htable : optable b = i) (hsentinel : i.sentinel = true)
    (s : State) : exec i s = .next (deliver (s.raiseUnimplemented b)) := by
  subst htable
  rw [exec_eq, if_pos hsentinel, runSentinel, if_pos (Laws.RoundTrip.optable_wellFormed b),
    Laws.RoundTrip.opcode_optable]

theorem raiseUnimplemented_storesNothing (op : Byte) (s : State) :
    StoresNothing s (deliver (s.raiseUnimplemented op)) where
  ram := fun _ _ => rfl
  oam := fun _ => rfl
  palette := fun _ => rfl
  cart := fun _ => rfl
  pads := SamePads.refl s
  controls := ⟨SameCtrl.refl s, SameMask.refl s, rfl, rfl, rfl⟩

/-- A faulted machine has no step (60_exceptions.md R420). -/
theorem step_faulted {s : State} (h : s.faulted = true) : step s = .fault (.unimplementedOpcode s.faultOpcode) :=
  if_pos h

/-- Settles O41: each of the bytes is a sentinel entry, which leaves the machine as it was but for the fault and the
delivery of the event. -/
theorem sentinelsStopTheMachine : Obligations.SentinelsStopTheMachine := by
  unfold Obligations.SentinelsStopTheMachine
  intro e he
  obtain ⟨htable, hsentinel⟩ : optable e.1 = e.2 ∧ e.2.sentinel = true := by
    revert e
    decide
  refine ⟨htable, fun s => ⟨deliver (s.raiseUnimplemented e.1), exec_sentinel_entry htable hsentinel s, ?_⟩⟩
  have hevent := deliver_touched Nowhere (s.raiseUnimplemented e.1)
  exact ⟨rfl, rfl, rfl, rfl, hevent.trace, raiseUnimplemented_storesNothing e.1 s, hevent.lines, hevent.pendNmi,
    step_faulted rfl⟩

end Sys2Proof.Machine
end

section
/-! PROOFS. The calls of the environment, the faulted machine, and the progress of every other one (60_exceptions.md R401
to R403, R420, R421). -/

namespace Sys2Proof.Machine

/-- Settles O7: both functions ask first whether the machine is faulted, and `Reset()` leaves the answer as it is. -/
theorem faultedMachineHasNoStep : Obligations.FaultedMachineHasNoStep := by
  unfold Obligations.FaultedMachineHasNoStep
  exact fun s h => ⟨step_faulted h, if_pos h, step_faulted (s := s.callReset) h⟩

/-- Settles O47: each call is the record update that the statement writes out. -/
theorem lineCallsSetTheirFlags : Obligations.LineCallsSetTheirFlags := by
  unfold Obligations.LineCallsSetTheirFlags
  exact fun s => ⟨rfl, rfl, rfl, rfl, rfl, rfl⟩

/-! ## Every list of cycles that is run ends with one that retires -/

/-- The last cycle retires whatever the machine. -/
def EndsRetiring (cs : List Cycle) : Prop := ∃ init f, cs = init ++ [retires f]

theorem endsRetiring_append {init cs : List Cycle} (h : EndsRetiring cs) : EndsRetiring (init ++ cs) := by
  obtain ⟨init', f, rfl⟩ := h
  exact ⟨init ++ init', f, (List.append_assoc ..).symm⟩

theorem endsRetiring_cons {c : Cycle} {cs : List Cycle} (h : EndsRetiring cs) : EndsRetiring (c :: cs) :=
  endsRetiring_append (init := [c]) h

theorem endsRetiring_singleton (f : State → State) : EndsRetiring [retires f] := ⟨[], f, rfl⟩

theorem EndsRetiring.drop {cs : List Cycle} (h : EndsRetiring cs) {n : Nat} (hn : cs.drop n ≠ []) :
    EndsRetiring (cs.drop n) := by
  obtain ⟨init, f, rfl⟩ := h
  have hle : n ≤ init.length := by
    by_contra hlt
    exact hn (List.drop_eq_nil_of_le (by simp; omega))
  rw [List.drop_append_of_le_length hle]
  exact endsRetiring_append (endsRetiring_singleton f)

/-- Such a list runs to a next state. -/
theorem EndsRetiring.runCycles {cs : List Cycle} (h : EndsRetiring cs) (i : Instr) (s : State) :
    ∃ t, runCycles i cs s = .next t := by
  obtain ⟨init, f, rfl⟩ := h
  induction init generalizing s with
  | nil => exact ⟨_, runCycles_retires i f [] s⟩
  | cons c init ih =>
    simp only [List.cons_append, Machine.runCycles]
    cases c (dotsToCpuTick s) with
    | go u => exact ih (deliver u.nextCycle)
    | retire u => exact ⟨_, rfl⟩

theorem readCycles_endsRetiring (m : Mode) (hook : ReadHook) : EndsRetiring (readCycles m hook) := by
  unfold readCycles
  split
  · exact endsRetiring_singleton _
  · split
    · exact endsRetiring_append (endsRetiring_cons (endsRetiring_singleton _))
    · exact endsRetiring_append (endsRetiring_singleton _)

theorem rmwCycles_endsRetiring (m : Mode) (hook : ModifyHook) : EndsRetiring (rmwCycles m hook) :=
  endsRetiring_append (endsRetiring_cons (endsRetiring_cons (endsRetiring_singleton _)))

theorem shiftCycles_endsRetiring (m : Mode) (hook : ModifyHook) : EndsRetiring (shiftCycles m hook) := by
  unfold shiftCycles
  split
  · exact endsRetiring_singleton _
  · exact rmwCycles_endsRetiring m hook

theorem nopCycles_endsRetiring (m : Mode) : EndsRetiring (cyclesNop m) := by
  unfold cyclesNop
  split
  · exact endsRetiring_singleton _
  · exact readCycles_endsRetiring m _

theorem jmpCycles_endsRetiring (m : Mode) : EndsRetiring (cyclesJmp m) := by
  unfold cyclesJmp
  split
  · exact ⟨jumpIndirectCycles.take 3, _, rfl⟩
  · exact ⟨jumpAbsoluteCycles.take 1, _, rfl⟩

theorem cyclesOf_endsRetiring {i : Instr} (hs : i.sentinel = false) : EndsRetiring (cyclesOf i) := by
  cases i
  case lda m | ldx m | ldy m | adc m | sbc m _ | and m | ora m | eor m | cmp m | cpx m | cpy m | bit m | lax m =>
    exact readCycles_endsRetiring m _
  case anc | alr | arr | lxa | sbx => exact readCycles_endsRetiring .imm _
  case sta | stx | sty | sax | shy | shx => exact endsRetiring_append (endsRetiring_singleton _)
  case inc m | dec m | slo m | rla m | sre m | rra m | dcp m | isc m => exact rmwCycles_endsRetiring m _
  case asl m | lsr m | rol m | ror m => exact shiftCycles_endsRetiring m _
  case tax | tay | txa | tya | tsx | txs | inx | iny | dex | dey | clc | sec | cli | sei | clv | cld | sed =>
    exact endsRetiring_singleton _
  case nop m _ => exact nopCycles_endsRetiring m
  case bpl | bmi | bvc | bvs | bcc | bcs | bne | beq => exact ⟨[_, _], _, rfl⟩
  case jmp m => exact jmpCycles_endsRetiring m
  case jsr | rts | rti => exact ⟨[_, _, _, _], _, rfl⟩
  case brk => exact ⟨[_, _, _, _, _], _, rfl⟩
  case pha | php => exact ⟨[_], _, rfl⟩
  case pla | plp => exact ⟨[_, _], _, rfl⟩
  case jam | ane | sha | tas | las => cases hs

/-! ## Progress -/

/-- Every entry of the table completes: a sentinel raises its fault, any other one retires. -/
theorem exec_completes {i : Instr} (hw : WellFormed i) (s : State) : ∃ t, exec i s = .next t := by
  rw [exec_eq]
  split
  · exact ⟨_, if_pos hw⟩
  · next hs =>
    rw [runInstr_wf hw]
    exact (cyclesOf_endsRetiring (Bool.eq_false_iff.mpr hs)).runCycles i _

theorem fetchOpcode_wellFormed (s : State) : WellFormed (fetchOpcode s).1 := by
  cases h : s.lines.armed
  · rw [fetchOpcode_unarmed h]
    exact Laws.RoundTrip.optable_wellFormed _
  · rw [fetchOpcode_armed h]
    exact ⟨rfl, Nat.zero_lt_one⟩

/-- Cycles are left to an instruction only where it is no sentinel, which has none. -/
theorem not_sentinel_of_cyclesFrom {i : Instr} {n : Nat} (h : cyclesFrom i n ≠ []) : i.sentinel = false := by
  by_contra hs
  refine h (List.eq_nil_iff_forall_not_mem.mpr fun c hc => ?_)
  obtain ⟨_, rfl⟩ | rfl | ⟨_, rfl⟩ | rfl | rfl := Laws.RoundTrip.sentinel_iff.mp (Bool.eq_true_of_not_eq_false hs) <;>
    exact List.not_mem_nil (cyclesFrom_subset c hc)

theorem cyclesFrom_endsRetiring {i : Instr} {n : Nat} (h : cyclesFrom i n ≠ []) : EndsRetiring (cyclesFrom i n) := by
  have hends := cyclesOf_endsRetiring (not_sentinel_of_cyclesFrom h)
  unfold cyclesFrom at h ⊢
  split at h
  · next hcond => rw [if_pos hcond]; exact hends.drop h
  · exact absurd rfl h

/-- Settles O12: the cycles left to an instruction in progress end with one that retires, and the fetch gives an entry of
the table, which completes. -/
theorem liveStepsComplete : Obligations.LiveStepsComplete := by
  unfold Obligations.LiveStepsComplete
  rintro s ⟨hinv, hf⟩
  cases hop : s.micro.curOp with
  | none =>
    rw [step_between hf hop]
    exact exec_completes (fetchOpcode_wellFormed _) _
  | some i =>
    obtain ⟨-, -, hcycles⟩ := hinv.inProgress i hop
    have hstep : step s = resume i s := by simp [step, hf, hop]
    rw [hstep]
    exact (cyclesFrom_endsRetiring hcycles).runCycles i s

end Sys2Proof.Machine
end

section
/-! PROOFS. Interrupts and reset: what the sequence does when it services one, and what leaves a pending flag alone
(60_exceptions.md R410 to R413, R416). -/

namespace Sys2Proof.Machine

/-- Settles O33: outside reset the sequence takes its exception; which vector, and which pending flag is cleared, is
`vector`'s and `acknowledge`'s order. -/
theorem nmiAndIrqAreTaken : Obligations.NmiAndIrqAreTaken := by
  unfold Obligations.NmiAndIrqAreTaken
  intro s hservicing hreset
  have hnot : s.lines.isReset = false := by simp [Lines.isReset, hreset]
  obtain ⟨t, hrun, htaken, hack, hkept, hcleared⟩ := exec_brk_taken hnot
  have hpend : t.lines.pendReset = s.lines.pendReset := by simp [hack.pendReset, hnot]
  rw [hservicing] at htaken
  refine ⟨fun hnmi => ?nmi, fun hnmi => ?irq⟩
  case nmi =>
    have hvector : s.lines.vector = 0xFFFA := by simp [Lines.vector, hservicing, hreset, hnmi]
    rw [hvector] at htaken
    exact ⟨t, hrun, htaken, hpend, by simp [hack.pendIrq, hnmi],
      hcleared (by simp [nmiServiced, hservicing, hreset, hnmi])⟩
  case irq =>
    have hvector : s.lines.vector = 0xFFFE := by simp [Lines.vector, hreset, hnmi]
    rw [hvector] at htaken
    exact ⟨t, hrun, htaken, hpend, by simp [hack.pendIrq, hservicing, hreset, hnmi],
      hkept (by simp [nmiServiced, hnmi])⟩

/-- Settles O45: a sentinel's stop and the poll keep the pending flags, and the BRK instruction acknowledges none. -/
theorem onlyServicingClearsPending : Obligations.OnlyServicingClearsPending := by
  unfold Obligations.OnlyServicingClearsPending
  intro i s t h hnot
  by_cases hi : i = .brk
  · subst hi
    obtain ⟨-, hbrk⟩ := brkTakesItsException
    obtain ⟨u, hu, -, hpend⟩ := hbrk s (hnot.resolve_left fun hne => hne rfl)
    cases hu.symm.trans h
    exact hpend
  cases hs : i.sentinel
  · exact (exec_retired h hs hi).pending
  · obtain ⟨hw, -⟩ := exec_cases h
    rw [exec_eq, if_pos hs, runSentinel, if_pos hw] at h
    cases h
    exact ⟨rfl, rfl, (deliver_touched Nowhere (s.raiseUnimplemented i.opcode)).pendNmi⟩

/-! ## Reset -/

/-- Reads compose: the effects of the second run are those of the first machine's registers, as long as the first run
left what says whether the PPU renders. -/
theorem ReadEffects.trans {s t u : State} {l l' : List BusAccess} (h : ReadEffects s t l) (hm : SameMask s t)
    (h' : ReadEffects t u l') : ReadEffects s u (l ++ l') where
  ppu := fun hl => by
    obtain ⟨hw, hb, hv⟩ := h.ppu fun a v hv => hl a v (List.mem_append_left _ hv)
    obtain ⟨hw', hb', hv'⟩ := h'.ppu fun a v hv => hl a v (List.mem_append_right _ hv)
    exact ⟨hw'.trans hw, hb'.trans hb, fun hr => (hv' (hm.rendering.trans hr)).trans (hv hr)⟩
  count0 := fun hl => (h'.count0 fun v hv => hl v (List.mem_append_right _ hv)).trans
    (h.count0 fun v hv => hl v (List.mem_append_left _ hv))
  count1 := fun hl => (h'.count1 fun v hv => hl v (List.mem_append_right _ hv)).trans
    (h.count1 fun v hv => hl v (List.mem_append_left _ hv))

theorem StoresCells.trans {cells : List Nat} {s t u : State} (h : StoresCells cells s t) (h' : StoresCells cells t u) :
    StoresCells cells s u where
  ram := fun a ha => (h'.ram a ha).trans (h.ram a ha)
  oam := fun a => (h'.oam a).trans (h.oam a)
  palette := fun a => (h'.palette a).trans (h.palette a)
  cart := fun hs => (h'.cart (KnownBoard.of_cart (h.cart hs) hs)).trans (h.cart hs)
  pads := h.pads.trans h'.pads
  controls :=
    ⟨h.controls.ctrl.trans h'.controls.ctrl, h.controls.mask.trans h'.controls.mask,
      h'.controls.oamAddr.trans h.controls.oamAddr, h'.controls.scroll.trans h.controls.scroll,
      h'.controls.fineX.trans h.controls.fineX⟩

/-- The machine in which the reset sequence starts: T1 has read the opcode byte and discarded it. -/
def resetFetched (s : State) : State :=
  let u := dotsToCpuTick s.callReset
  { (memRead s.cpu.pc u).2 with
    cpu := { s.cpu with pc := if u.peek s.cpu.pc = 0x00 then s.cpu.pc + 1 else s.cpu.pc }
    lines := { u.lines with servicing := true } }

/-- After `Reset()` a step is the BRK sequence: `Reset()` arms itself and leaves no instruction in progress. -/
theorem step_callReset {s : State} (hf : s.faulted = false) : step s.callReset = exec .brk (resetFetched s) := by
  have harmed : (dotsToCpuTick s.callReset).lines.armed = true := dotsToCpuTick_armed s.callReset
  rw [step_between (s := s.callReset) hf rfl, fetchOpcode_armed harmed, dotsToCpuTick_cpu]
  rfl

theorem resetFetched_ran (s : State) : Ran s.callReset (memRead s.cpu.pc (dotsToCpuTick s.callReset)).2
    [.read s.cpu.pc ((dotsToCpuTick s.callReset).peek s.cpu.pc)] :=
  (Ran.dots s.callReset).trans (Ran.read s.cpu.pc (dotsToCpuTick s.callReset))

/-- `Reset()` is what the lines say is being serviced. -/
theorem resetFetched_lines (s : State) : (resetFetched s).lines =
    { s.callReset.lines with servicing := true, pendNmi := (dotsToCpuTick s.callReset).lines.pendNmi } :=
  congrArg (fun l : Lines => { l with servicing := true }) (dotsToCpuTick_touched Nowhere s.callReset).lines

theorem resetFetched_storesNothing (s : State) : StoresNothing s (resetFetched s) :=
  have h := (resetFetched_ran s).storesNothing (resetFetched s).cpu (resetFetched s).lines
  { h with controls := { h.controls with } }

theorem resetFetched_board {s : State} (hs : s.KnownBoard) : (resetFetched s).KnownBoard :=
  KnownBoard.of_cart ((resetFetched_storesNothing s).cart hs) hs

theorem resetFetched_readEffects (s : State) :
    ReadEffects s (resetFetched s) [.read s.cpu.pc ((dotsToCpuTick s.callReset).peek s.cpu.pc)] :=
  have h := (resetFetched_ran s).touched.effects fun _ h => h.elim
  ⟨h.ppu, h.count0, h.count1⟩

/-- The vectors lie in the cartridge. -/
theorem resetFetched_peek {s : State} (hs : s.KnownBoard) {a : Addr} (ha : 0x4020 ≤ a.toNat) :
    (resetFetched s).peek a = s.peek a := by
  rw [peek_plain _ (.inr ha), peek_plain _ (.inr ha), (resetFetched_storesNothing s).cart hs, if_neg (by omega),
    if_neg (by omega)]

/-- Settles O34: T1's read, then the shared sequence with the reset being serviced, which reads where it would push. -/
theorem resetSequenceRuns : Obligations.ResetSequenceRuns := by
  unfold Obligations.ResetSequenceRuns
  intro s hf
  have hlines := resetFetched_lines s
  have hstores := resetFetched_storesNothing s
  obtain ⟨hfault, hopcode⟩ := (resetFetched_ran s).touched.faulted
  have hservicing : (resetFetched s).lines.servicing = true := rfl
  have hreset : (resetFetched s).lines.isReset = true := by rw [hlines]; rfl
  have hvector : (resetFetched s).lines.vector = 0xFFFC := by rw [hlines]; rfl
  have hnmi : nmiServiced (resetFetched s).lines = false := by rw [hlines]; rfl
  obtain ⟨t, d0, d1, d2, d3, low, high, hrun, htrace, hcpu, hread, heffects, hstores', -, hmicro, hack, hkept, -,
    ⟨hfault', hopcode'⟩, hk, hframes⟩ := entry_run (resetFetched s)
  simp only [hreset, hservicing, hvector, stackAccess, if_true] at htrace heffects hread hstores'
  refine ⟨t, (dotsToCpuTick s.callReset).peek s.cpu.pc, d0, d1, d2, d3, low, high, ?step, ?trace, hcpu, ?vector,
    hstores.trans hstores', (resetFetched_readEffects s).trans hstores.controls.mask heffects, ?ended, ?pendReset,
    ?pendIrq, ?pendNmi⟩
  case step =>
    rw [step_callReset hf, exec_entry (b := 0x00) (i := .brk) rfl rfl]
    exact hrun
  case trace => exact Trace.trans (s := s) (resetFetched_ran s).touched.trace htrace
  case vector =>
    intro hs
    obtain ⟨hlow, hhigh⟩ := hread (resetFetched_board hs)
    exact ⟨hlow.trans (resetFetched_peek hs (by decide)), hhigh.trans (resetFetched_peek hs (by decide))⟩
  case ended =>
    exact ⟨hmicro, hack.armed, hack.servicing, ⟨hfault'.trans hfault, hopcode'.trans hopcode⟩, hk,
      (resetFetched_ran s).touched.frames.trans hframes⟩
  case pendReset => simp [hack.pendReset, hreset]
  case pendIrq => rw [hack.pendIrq, hlines]; simp
  case pendNmi => exact fun hp => hkept hnmi ((dotsToCpuTick_touched Nowhere s.callReset).pendNmi hp)

/-! ## RTI after an exception -/

/-- The flags of a status byte are those that went into it. -/
theorem withStatus_statusByte (r r' : Cpu) (b : Bool) : withStatus r' (statusByte r b) =
    { r' with n := r.n, v := r.v, d := r.d, i := r.i, z := r.z, c := r.c } := by
  have hbits : ∀ n v b d i z c : Bool,
      let x := BitVec.ofBool n ++ BitVec.ofBool v ++ 1#1 ++ BitVec.ofBool b ++ BitVec.ofBool d ++ BitVec.ofBool i ++
        BitVec.ofBool z ++ BitVec.ofBool c
      x.getLsbD 7 = n ∧ x.getLsbD 6 = v ∧ x.getLsbD 3 = d ∧ x.getLsbD 2 = i ∧ x.getLsbD 1 = z ∧ x.getLsbD 0 = c := by
    decide
  obtain ⟨hn, hv, hd, hi, hz, hc⟩ := hbits r.n r.v b r.d r.i r.z r.c
  unfold withStatus statusByte
  rw [hn, hv, hd, hi, hz, hc]

/-- Settles O36: RTI pulls the three bytes that the sequence left in the stack's RAM cells. -/
theorem rtiUndoesTheException : Obligations.RtiUndoesTheException := by
  unfold Obligations.RtiUndoesTheException
  intro s hs hnot
  have hreset : s.lines.isReset = false := by
    rcases hnot with h | h <;> simp [Lines.isReset, h]
  obtain ⟨t, hrun, htaken, -⟩ := exec_brk_taken hreset
  obtain ⟨_, _, _, -, hcpu, -, hpage, hlow, hstatus, hstores, -⟩ := htaken
  obtain ⟨-, hrti⟩ := rtiRestoresFlagsAndPc
  obtain ⟨u, _, _, p, low, high, hrun', -, hcpu', hreads, -⟩ := hrti t
  have ht : t.KnownBoard := KnownBoard.of_cart (hstores.cart hs) hs
  have hslot1 : t.cpu.s + 1 = s.cpu.s - 2 := by rw [hcpu]; bv_omega
  have hslot2 : t.cpu.s + 2 = s.cpu.s - 1 := by rw [hcpu]; bv_omega
  have hslot3 : t.cpu.s + 3 = s.cpu.s := by rw [hcpu]; bv_omega
  have hp := hreads.stack_eq_ram ht (x := t.cpu.s + 1) (v := p) (by simp)
  have hl := hreads.stack_eq_ram ht (x := t.cpu.s + 2) (v := low) (by simp)
  have hh := hreads.stack_eq_ram ht (x := t.cpu.s + 3) (v := high) (by simp)
  rw [hslot1, hstatus] at hp
  rw [hslot2, hlow] at hl
  rw [hslot3, hpage] at hh
  refine ⟨t, u, hrun, hrun', ?_⟩
  rw [hcpu', hslot3, hp, hl, hh, page_append_lo, withStatus_statusByte, hcpu]

end Sys2Proof.Machine
end

section
/-! PROOFS. What the cycles of an instruction leave of its progress, whatever its mode (40_cycle_engine.md R142, R148). -/

namespace Sys2Proof.Machine

/-- The instruction in progress and its cycle, the loop's counter and the fault bit are the same. -/
structure SameProgress (s t : State) : Prop where
  curOp : t.micro.curOp = s.micro.curOp
  cyc : t.micro.cyc = s.micro.cyc
  k : t.k = s.k
  faulted : t.faulted = s.faulted

theorem memRead_sameProgress (a : Addr) (s : State) : SameProgress s (memRead a s).2 := by
  constructor <;> simp

theorem memWrite_sameProgress (a : Addr) (v : Byte) (s : State) : SameProgress s (memWrite a v s) where
  curOp := congrArg Micro.curOp (memWrite_micro a v s)
  cyc := congrArg Micro.cyc (memWrite_micro a v s)
  k := memWrite_k a v s
  faulted := (memWrite_touched a v s).faulted.1

/-- A change of registers and operand latches. -/
theorem SameProgress.regs {s t : State} (h : SameProgress s t) (r : Cpu) {m : Micro}
    (hop : m.curOp = t.micro.curOp) (hcyc : m.cyc = t.micro.cyc) :
    SameProgress s { t with cpu := r, micro := m } :=
  ⟨hop.trans h.curOp, hcyc.trans h.cyc, h.k, h.faulted⟩

/-- A cycle that leaves the instruction's progress to its `Tick()`. -/
def KeepsProgress (c : Cycle) : Prop := ∀ s, SameProgress s (c s).state

theorem fixHigh_sameProgress (s : State) : SameProgress s (fixHigh s) := by
  have hread := memRead_sameProgress s.micro.al s
  unfold fixHigh
  dsimp only
  split
  · exact hread.regs _ rfl rfl
  · exact hread

theorem AddrStep.keepsProgress {f : State → State} (hf : AddrStep f) : KeepsProgress (goes f) := fun s => by
  cases hf with
  | fetchLow | fetchHigh | fetchHighIndexed | fetchPointer =>
    exact (memRead_sameProgress s.cpu.pc s).regs _ rfl rfl
  | indexZeroPage => exact (memRead_sameProgress s.micro.al s).regs _ rfl rfl
  | indexPointer | pointerLow => exact (memRead_sameProgress (zeroPage s.micro.ol) s).regs _ rfl rfl
  | pointerHigh | pointerHighIndexed => exact (memRead_sameProgress (zeroPage (s.micro.ol + 1)) s).regs _ rfl rfl
  | fixHigh => exact fixHigh_sameProgress s

theorem readOperand_keepsProgress (hook : ReadHook) : KeepsProgress (readOperand hook) :=
  fun s => (memRead_sameProgress s.micro.al s).regs _ rfl rfl

theorem readCycles_keepsProgress (m : Mode) (hook : ReadHook) : ∀ c ∈ readCycles m hook, KeepsProgress c := by
  refine readCycles_forall (fun _ => AddrStep.keepsProgress) (fun s => ?imm) (fun s => ?fix)
    (readOperand_keepsProgress hook) m
  case imm => exact (memRead_sameProgress s.cpu.pc s).regs _ rfl rfl
  case fix =>
    unfold readOperandOrFix
    split
    · exact fixHigh_sameProgress s
    · exact readOperand_keepsProgress hook s

theorem writeCycles_keepsProgress (m : Mode) (value : StoreHook) : ∀ c ∈ writeCycles m value, KeepsProgress c := by
  refine storeCycles_forall (fun _ => AddrStep.keepsProgress) (List.forall_mem_singleton.mpr fun s => ?_) m
  exact memWrite_sameProgress s.micro.al (value s.cpu) s

theorem highAndCycles_keepsProgress (m : Mode) (reg : StoreHook) : ∀ c ∈ highAndCycles m reg, KeepsProgress c := by
  refine storeCycles_forall (fun _ => AddrStep.keepsProgress) (List.forall_mem_singleton.mpr fun s => ?_) m
  exact memWrite_sameProgress (if s.micro.bx then word _ (lo s.micro.al) else s.micro.al) _ s

theorem rmwCycles_keepsProgress (m : Mode) (hook : ModifyHook) : ∀ c ∈ rmwCycles m hook, KeepsProgress c := by
  refine storeCycles_forall (fun _ => AddrStep.keepsProgress) ?_ m
  simp only [List.forall_mem_cons]
  exact ⟨fun s => (memRead_sameProgress s.micro.al s).regs _ rfl rfl,
    fun s => (memWrite_sameProgress s.micro.al s.micro.ol s).regs _ rfl rfl,
    fun s => memWrite_sameProgress s.micro.al s.micro.ol s, by simp⟩

theorem impliedCycles_keepsProgress (hook : ImpliedHook) : ∀ c ∈ impliedCycles hook, KeepsProgress c :=
  List.forall_mem_singleton.mpr fun s => (memRead_sameProgress s.cpu.pc s).regs _ rfl rfl

theorem shiftCycles_keepsProgress (m : Mode) (hook : ModifyHook) : ∀ c ∈ shiftCycles m hook, KeepsProgress c := by
  unfold shiftCycles
  split
  · exact impliedCycles_keepsProgress _
  · exact rmwCycles_keepsProgress m hook

theorem nopCycles_keepsProgress (m : Mode) : ∀ c ∈ cyclesNop m, KeepsProgress c := by
  unfold cyclesNop
  split
  · exact impliedCycles_keepsProgress _
  · exact readCycles_keepsProgress m _

theorem branchCycles_keepsProgress (cond : Cpu → Bool) : ∀ c ∈ branchCycles cond, KeepsProgress c := by
  have hread := fun s : State => memRead_sameProgress s.cpu.pc s
  simp only [branchCycles, List.forall_mem_cons]
  refine ⟨fun s => ?fetch, fun s => ?taken, fun s => (hread s).regs _ rfl rfl, by simp⟩
  case fetch =>
    unfold branchFetch
    dsimp only
    split <;> exact (hread s).regs _ rfl rfl
  case taken =>
    unfold branchTaken
    dsimp only
    split <;> exact (hread s).regs _ rfl rfl

theorem jmpCycles_keepsProgress (m : Mode) : ∀ c ∈ cyclesJmp m, KeepsProgress c := by
  have hread := fun s : State => memRead_sameProgress s.cpu.pc s
  unfold cyclesJmp
  split <;> simp only [jumpIndirectCycles, jumpAbsoluteCycles, List.forall_mem_cons]
  · exact ⟨AddrStep.fetchLow.keepsProgress, AddrStep.fetchHigh.keepsProgress,
      fun s => (memRead_sameProgress s.micro.al s).regs _ rfl rfl,
      fun s => (memRead_sameProgress (word (hi s.micro.al) (lo s.micro.al + 1)) s).regs _ rfl rfl, by simp⟩
  · exact ⟨fun s => (hread s).regs _ rfl rfl, fun s => (hread s).regs _ rfl rfl, by simp⟩

/-! ## The stack cycles -/

theorem stackRead_sameProgress (s : State) : SameProgress s (stackRead s).2 := memRead_sameProgress _ s

theorem push_sameProgress (v : Byte) (s : State) : SameProgress s (push v s) :=
  (memWrite_sameProgress (stackAddr s.cpu.s) v s).regs _ rfl rfl

theorem dummyPc_keepsProgress : KeepsProgress (goes fun s => dummyRead s.cpu.pc s) :=
  fun s => memRead_sameProgress s.cpu.pc s

/-- T3 of every pull. -/
theorem stackDummyInc_keepsProgress : KeepsProgress (goes fun s => (stackDummy s).incS) :=
  fun s => (stackRead_sameProgress s).regs _ rfl rfl

theorem jsrCycles_keepsProgress : ∀ c ∈ cyclesJsr, KeepsProgress c := by
  simp only [cyclesJsr, List.forall_mem_cons]
  exact ⟨fun s => (memRead_sameProgress s.cpu.pc s).regs _ rfl rfl, stackRead_sameProgress,
    fun s => push_sameProgress _ s, fun s => push_sameProgress _ s,
    fun s => (memRead_sameProgress s.cpu.pc s).regs _ rfl rfl, by simp⟩

theorem rtsCycles_keepsProgress : ∀ c ∈ cyclesRts, KeepsProgress c := by
  simp only [cyclesRts, List.forall_mem_cons]
  exact ⟨dummyPc_keepsProgress, stackDummyInc_keepsProgress, fun s => (stackRead_sameProgress s).regs _ rfl rfl,
    fun s => (stackRead_sameProgress s).regs _ rfl rfl, fun s => (memRead_sameProgress s.cpu.pc s).regs _ rfl rfl,
    by simp⟩

/-- The cycles of PHA and PHP. -/
theorem pushCycles_keepsProgress (value : Cpu → Byte) :
    ∀ c ∈ [goes fun s => dummyRead s.cpu.pc s, retires fun s => push (value s.cpu) s], KeepsProgress c := by
  simp only [List.forall_mem_cons]
  exact ⟨dummyPc_keepsProgress, fun s => push_sameProgress _ s, by simp⟩

/-- The cycles of PLA and PLP. -/
theorem pullCycles_keepsProgress (result : Byte → Cpu → Cpu) :
    ∀ c ∈ [goes fun s => dummyRead s.cpu.pc s, goes fun s => (stackDummy s).incS,
      retires fun s => let (byte, s) := stackRead s; s.mapCpu (result byte)], KeepsProgress c := by
  simp only [List.forall_mem_cons]
  exact ⟨dummyPc_keepsProgress, stackDummyInc_keepsProgress, fun s => (stackRead_sameProgress s).regs _ rfl rfl,
    by simp⟩

theorem exceptionReturn_keepsProgress : ∀ c ∈ exceptionReturn, KeepsProgress c := by
  simp only [exceptionReturn, List.forall_mem_cons]
  exact ⟨dummyPc_keepsProgress, stackDummyInc_keepsProgress, fun s => (stackRead_sameProgress s).regs _ rfl rfl,
    fun s => (stackRead_sameProgress s).regs _ rfl rfl, fun s => (stackRead_sameProgress s).regs _ rfl rfl, by simp⟩

theorem exceptionPush_sameProgress (v : Byte) (s : State) : SameProgress s (exceptionPush v s) := by
  unfold exceptionPush
  split
  · exact (stackRead_sameProgress s).regs _ rfl rfl
  · exact push_sameProgress v s

theorem exceptionPadding_sameProgress (s : State) : SameProgress s (exceptionPadding s) := by
  have hread := memRead_sameProgress s.cpu.pc s
  unfold exceptionPadding
  dsimp only
  split
  · exact hread
  · exact hread.regs _ rfl rfl

theorem exceptionVectorLow_sameProgress (s : State) : SameProgress s (exceptionVectorLow s) :=
  have hread := memRead_sameProgress s.lines.vector { s.setAl s.lines.vector with lines := s.lines.acknowledge }
  ⟨hread.curOp, hread.cyc, hread.k, hread.faulted⟩

theorem exceptionVectorHigh_sameProgress (s : State) : SameProgress s (exceptionVectorHigh s) :=
  have hread := memRead_sameProgress (s.micro.al + 1) s
  ⟨hread.curOp, hread.cyc, hread.k, hread.faulted⟩

theorem exceptionEntry_keepsProgress : ∀ c ∈ exceptionEntry, KeepsProgress c := by
  simp only [exceptionEntry, List.forall_mem_cons]
  exact ⟨exceptionPadding_sameProgress, fun s => exceptionPush_sameProgress _ s,
    fun s => exceptionPush_sameProgress _ s, fun s => exceptionPush_sameProgress _ s, exceptionVectorLow_sameProgress,
    exceptionVectorHigh_sameProgress, by simp⟩

theorem cyclesOf_keepsProgress (i : Instr) : ∀ c ∈ cyclesOf i, KeepsProgress c := by
  cases i
  case lda m | ldx m | ldy m | adc m | sbc m _ | and m | ora m | eor m | cmp m | cpx m | cpy m | bit m | lax m =>
    exact readCycles_keepsProgress m _
  case anc | alr | arr | lxa | sbx => exact readCycles_keepsProgress .imm _
  case sta m | stx m | sty m | sax m => exact writeCycles_keepsProgress m _
  case inc m | dec m | slo m | rla m | sre m | rra m | dcp m | isc m => exact rmwCycles_keepsProgress m _
  case asl m | lsr m | rol m | ror m => exact shiftCycles_keepsProgress m _
  case tax | tay | txa | tya | tsx | txs | inx | iny | dex | dey | clc | sec | cli | sei | clv | cld | sed =>
    exact impliedCycles_keepsProgress _
  case nop m _ => exact nopCycles_keepsProgress m
  case bpl | bmi | bvc | bvs | bcc | bcs | bne | beq => exact branchCycles_keepsProgress _
  case jmp m => exact jmpCycles_keepsProgress m
  case jsr => exact jsrCycles_keepsProgress
  case rts => exact rtsCycles_keepsProgress
  case rti => exact exceptionReturn_keepsProgress
  case brk => exact exceptionEntry_keepsProgress
  case pha => exact pushCycles_keepsProgress fun r => r.a
  case php => exact pushCycles_keepsProgress fun r => r.packP true
  case pla => exact pullCycles_keepsProgress hookLda
  case plp => exact pullCycles_keepsProgress fun byte r => r.unpackP byte
  case shy | shx => exact highAndCycles_keepsProgress _ _
  case jam | ane | sha | tas | las => exact List.forall_mem_nil _

end Sys2Proof.Machine
end

section
/-! PROOFS. A step is the tick loop run until its instruction retires (65_ppu.md R505, R506; 40_cycle_engine.md R142). -/

namespace Sys2Proof.Machine

/-! ## Four iterations of the loop are one `Tick()` -/

theorem loopSteps_add (m n : Nat) {s t : State} (h : loopSteps m s = .next t) :
    loopSteps (m + n) s = loopSteps n t := by
  induction m generalizing s with
  | zero =>
    cases h
    rw [Nat.zero_add]
  | succ m ih =>
    rw [Nat.succ_add]
    simp only [loopSteps] at h ⊢
    cases e : loopStep s with
    | next u => rw [e] at h; exact ih h
    | fault r => rw [e] at h; cases h
    | refused r => rw [e] at h; cases h

@[simp] theorem dotIteration_k (s : State) : (dotIteration s).k = s.k + 1 :=
  congrArg (· + 1) (ppuTick_kept s).k

theorem loopSteps_one (s : State) : loopSteps 1 s = loopStep s := by
  simp only [loopSteps]
  cases loopStep s <;> rfl

/-- From any place in the loop the dots that are left, and the CPU's `Tick()` with its event. -/
theorem loopSteps_eq_tick (n : Nat) {s : State} (hk : s.k + (n + 1) = 4) : loopSteps (n + 1) s = tick s := by
  induction n generalizing s with
  | zero =>
    have hdots : dotsToCpuTick s = { dotIteration s with k := 0 } := by
      rw [dotsToCpuTick, show Config.dotsPerCpuCycle - s.k = 1 by simp only [Config.dotsPerCpuCycle]; omega]
      rfl
    rw [loopSteps_one, loopStep, if_pos (by rw [dotIteration_k]; exact hk), tick, hdots]
  | succ n ih =>
    have hdots : dotsToCpuTick s = dotsToCpuTick (dotIteration s) := by
      unfold dotsToCpuTick
      rw [dotIteration_k, show Config.dotsPerCpuCycle - s.k = (Config.dotsPerCpuCycle - (s.k + 1)) + 1 by
        simp only [Config.dotsPerCpuCycle]; omega]
      rfl
    have hloop : loopStep s = .next (dotIteration s) :=
      if_neg (by rw [dotIteration_k]; simp only [Config.dotsPerCpuCycle]; omega)
    rw [loopSteps, hloop, tick, hdots]
    exact ih (by rw [dotIteration_k]; omega)

theorem loopSteps_tick {s : State} (hk : s.k < 4) : loopSteps (4 - s.k) s = tick s := by
  obtain ⟨n, hn⟩ : ∃ n, 4 - s.k = n + 1 := ⟨3 - s.k, by omega⟩
  rw [hn]
  exact loopSteps_eq_tick n (by omega)

/-! ## The `Tick()`s of an instruction -/

/-- The tick loop goes from `s` to `t` with `n` bus accesses, in four iterations for each, less the dots already
worked. -/
def LoopRuns (n : Nat) (s t : State) : Prop :=
  t.busLog.length = s.busLog.length + n ∧ loopSteps (4 * n - s.k) s = .next t

/-- One `Tick()`. -/
theorem LoopRuns.tick {s u : State} (hk : s.k < 4) (htick : tick s = .next u)
    (hlog : u.busLog.length = s.busLog.length + 1) : LoopRuns 1 s u :=
  ⟨hlog, (loopSteps_tick hk).trans htick⟩

/-- One `Tick()`, after which the loop's counter is 0, and what follows it. -/
theorem LoopRuns.cons {n : Nat} {s u t : State} (hs : s.k < 4) (h : LoopRuns 1 s u) (hu : u.k = 0)
    (h' : LoopRuns n u t) : LoopRuns (n + 1) s t := by
  obtain ⟨hlog, hsteps⟩ := h
  obtain ⟨hlog', hsteps'⟩ := h'
  refine ⟨by omega, ?_⟩
  rw [show 4 * (n + 1) - s.k = (4 * 1 - s.k) + (4 * n - u.k) by omega, loopSteps_add _ _ hsteps]
  exact hsteps'

theorem dotsToCpuTick_busLog (s : State) : (dotsToCpuTick s).busLog = s.busLog := (dotsToCpuTick_touched Nowhere s).trace

theorem dotsToCpuTick_faulted (s : State) : (dotsToCpuTick s).faulted = s.faulted :=
  (dotsToCpuTick_touched Nowhere s).faulted.1

/-- The next cycle's list is the rest of this one's. -/
theorem cyclesFrom_succ {i : Instr} {n : Nat} {c : Cycle} {cs : List Cycle} (h : cyclesFrom i n = c :: cs) :
    cyclesFrom i (n + 1) = cs := by
  unfold cyclesFrom at h ⊢
  split at h
  · next hcond =>
    obtain ⟨hw, hn⟩ := hcond
    rw [if_pos ⟨hw, by omega⟩, show n + 1 - 2 = (n - 2) + 1 by omega, ← List.tail_drop, h]
    rfl
  · cases h

theorem cyclesFrom_two {i : Instr} (hw : WellFormed i) : cyclesFrom i 2 = cyclesOf i := if_pos ⟨hw, Nat.le_refl 2⟩

/-- The CPU's `Tick()` in the middle of an instruction is its next cycle. -/
theorem tick_cycle {i : Instr} {c : Cycle} {cs : List Cycle} {s : State} (hf : s.faulted = false)
    (hop : s.micro.curOp = some i) (hcs : cyclesFrom i s.micro.cyc = c :: cs) :
    tick s = .next (deliver (cpuCycle i c (dotsToCpuTick s))) := by
  simp [tick, cpuTick, dotsToCpuTick_faulted, hf, hop, hcs]

/-- The cycles left to an instruction in progress, run by the loop. -/
theorem runCycles_loopRuns {i : Instr} {cs : List Cycle} {s t : State} (hf : s.faulted = false)
    (hop : s.micro.curOp = some i) (hcs : cyclesFrom i s.micro.cyc = cs) (hk : s.k < 4)
    (hrun : runCycles i cs s = .next t) : ∃ n, 1 ≤ n ∧ LoopRuns n s t := by
  induction cs generalizing s with
  | nil => cases hrun
  | cons c cs ih =>
    have hc : c ∈ cyclesOf i := cyclesFrom_subset c (hcs ▸ List.mem_cons_self)
    have hkept := cyclesOf_keepsProgress i c hc (dotsToCpuTick s)
    obtain ⟨access, hlog⟩ := cyclesOf_busLog hc (dotsToCpuTick s)
    have htick := tick_cycle hf hop hcs
    have hone : LoopRuns 1 s (deliver (cpuCycle i c (dotsToCpuTick s))) := by
      refine .tick hk htick ?_
      rw [deliver_busLog, cpuCycle_busLog, hlog, dotsToCpuTick_busLog]
      rfl
    unfold cpuCycle at hone
    simp only [runCycles] at hrun
    cases e : c (dotsToCpuTick s) with
    | retire u =>
      rw [e] at hone hrun
      cases hrun
      exact ⟨1, Nat.le_refl 1, hone⟩
    | go u =>
      rw [e] at hone hrun hkept
      have hcyc : u.micro.cyc = s.micro.cyc := hkept.cyc.trans (congrArg Micro.cyc (dotsToCpuTick_micro s))
      have hop' : u.micro.curOp = some i := (hkept.curOp.trans (congrArg Micro.curOp (dotsToCpuTick_micro s))).trans hop
      have hku : u.k = 0 := hkept.k
      have hfu : u.faulted = false := (hkept.faulted.trans (dotsToCpuTick_faulted s)).trans hf
      have hcs' : cyclesFrom i (deliver u.nextCycle).micro.cyc = cs := by
        show cyclesFrom i (u.micro.cyc + 1) = cs
        rw [hcyc]
        exact cyclesFrom_succ hcs
      obtain ⟨n, -, hrest⟩ := ih (s := deliver u.nextCycle) hfu hop' hcs'
        (by show u.k < 4; omega) hrun
      exact ⟨n + 1, Nat.le_add_left 1 n, hone.cons hk hku hrest⟩

/-! ## The opcode fetch -/

/-- What T1's fetch leaves of the instruction's progress. -/
theorem fetchOpcode_sameProgress (s : State) : SameProgress s (fetchOpcode s).2 := by
  have hread := memRead_sameProgress s.cpu.pc s
  cases h : s.lines.armed
  · rw [fetchOpcode_unarmed h]
    exact hread.regs _ rfl rfl
  · rw [fetchOpcode_armed h]
    exact ⟨hread.curOp, hread.cyc, hread.k, hread.faulted⟩

/-- The CPU's `Tick()` between two instructions is T1. -/
theorem tick_fetch {i : Instr} {s u : State} (hf : s.faulted = false) (hop : s.micro.curOp = none)
    (hfetch : fetchOpcode (dotsToCpuTick s) = (i, u)) :
    tick s = .next (deliver (if i.sentinel then u.raiseUnimplemented i.opcode else u.begin i)) := by
  simp [tick, cpuTick, dotsToCpuTick_faulted, hf, hop, hfetch]

theorem exec_loopRuns {i : Instr} {s u t : State} (hf : s.faulted = false) (hop : s.micro.curOp = none)
    (hk : s.k < 4) (hfetch : fetchOpcode (dotsToCpuTick s) = (i, u)) (hexec : exec i u = .next t) :
    ∃ n, 1 ≤ n ∧ LoopRuns n s t := by
  have hkept := fetchOpcode_sameProgress (dotsToCpuTick s)
  have hlog := fetchOpcode_busLog (dotsToCpuTick s)
  rw [hfetch] at hkept hlog
  have htick := tick_fetch hf hop hfetch
  have hone : LoopRuns 1 s (deliver (if i.sentinel then u.raiseUnimplemented i.opcode else u.begin i)) := by
    refine .tick hk htick ?_
    have hu : u.busLog.length = s.busLog.length + 1 := by
      rw [hlog, dotsToCpuTick_busLog]
      rfl
    rw [← hu]
    split <;> rfl
  have hw : WellFormed i := by
    have h := fetchOpcode_wellFormed (dotsToCpuTick s)
    rwa [hfetch] at h
  rw [exec_eq] at hexec
  cases hs : i.sentinel
  case true =>
    rw [hs, if_pos rfl] at hone hexec
    rw [runSentinel, if_pos hw] at hexec
    cases hexec
    exact ⟨1, Nat.le_refl 1, hone⟩
  case false =>
    rw [hs, if_neg Bool.false_ne_true] at hone hexec
    rw [runInstr_wf hw] at hexec
    have hku : u.k = 0 := hkept.k
    have hfu : u.faulted = false := (hkept.faulted.trans (dotsToCpuTick_faulted s)).trans hf
    obtain ⟨n, -, hrest⟩ := runCycles_loopRuns (s := deliver (u.begin i)) hfu rfl (cyclesFrom_two hw)
      (by show u.k < 4; omega) hexec
    exact ⟨n + 1, Nat.le_add_left 1 n, hone.cons hk hku hrest⟩

/-- Settles O8: T1 and each later cycle of a step is one `Tick()` of the loop, which makes one bus access. -/
theorem stepIsTheTickLoop : Obligations.StepIsTheTickLoop := by
  unfold Obligations.StepIsTheTickLoop
  intro s t hk hstep
  suffices h : ∃ n, 1 ≤ n ∧ LoopRuns n s t by
    obtain ⟨n, hn, hlog, hsteps⟩ := h
    exact ⟨n, hlog, hn, hsteps⟩
  have hf : s.faulted = false := by
    by_contra h
    rw [step_faulted (Bool.eq_true_of_not_eq_false h)] at hstep
    cases hstep
  cases hop : s.micro.curOp with
  | none =>
    rw [step_between hf hop] at hstep
    exact exec_loopRuns hf hop hk rfl hstep
  | some i =>
    have hresume : runCycles i (cyclesFrom i s.micro.cyc) s = .next t := by
      simpa [step, hf, hop, resume] using hstep
    exact runCycles_loopRuns hf hop rfl hk hresume

end Sys2Proof.Machine
end

section
/-! PROOFS. The PPU's registers as the CPU bus sees them, and the PPU bus behind PPUDATA (65_ppu.md R510 to R513, R520
to R529). -/

namespace Sys2Proof.Machine

/-! ## Bit fields -/

theorem getLsbD_setBits {m : Nat} (w mask val : BitVec m) (j : Nat) :
    (setBits w mask val).getLsbD j = if mask.getLsbD j then val.getLsbD j else w.getLsbD j := by
  simp only [setBits, BitVec.getLsbD_or, BitVec.getLsbD_and, BitVec.getLsbD_not]
  by_cases hj : j < m
  · cases mask.getLsbD j <;> simp [hj]
  · simp [hj, BitVec.getLsbD_of_ge _ _ (Nat.le_of_not_lt hj)]

/-- A field inside the mask is that of the new value. -/
theorem extractLsb'_setBits_of_selected {m : Nat} (w mask val : BitVec m) {a n : Nat}
    (h : ∀ j < n, mask.getLsbD (a + j) = true) : (setBits w mask val).extractLsb' a n = val.extractLsb' a n := by
  ext j hj
  simp only [BitVec.getElem_extractLsb', getLsbD_setBits, h j hj, if_true]

/-- A field outside the mask is that of the old value. -/
theorem extractLsb'_setBits_of_kept {m : Nat} (w mask val : BitVec m) {a n : Nat}
    (h : ∀ j < n, mask.getLsbD (a + j) = false) : (setBits w mask val).extractLsb' a n = w.extractLsb' a n := by
  ext j hj
  simp only [BitVec.getElem_extractLsb', getLsbD_setBits, h j hj, Bool.false_eq_true, if_false]

/-- The field of a byte that is put at bit `k` of a 15-bit register. -/
theorem extractLsb'_setWidth_shiftLeft (b : Byte) (k n : Nat) (h : k + n ≤ 15) :
    (b.setWidth 15 <<< k).extractLsb' k n = b.extractLsb' 0 n := by
  ext j hj
  simp [show k + j < 15 by omega]

theorem extractLsb'_setWidth (b : Byte) (a n : Nat) (h : a + n ≤ 15) :
    (b.setWidth 15).extractLsb' a n = b.extractLsb' a n := by
  ext j hj
  simp [show a + j < 15 by omega]

theorem extractLsb'_shiftRight (b : Byte) (k n : Nat) : (b >>> k).extractLsb' 0 n = b.extractLsb' k n := by
  ext j hj
  simp

/-! ## What the CPU's access to a register is -/

theorem memRead_fst_ppuReg {a : Addr} {n : Nat} (h : SelectsPpuReg a n) (s : State) :
    (memRead a s).1 = ppuRegValue n s &&& s.cart.cpuValue a := by
  rw [memRead_fst, peek_ppu h.1, h.2]

theorem memRead_ppuReg {a : Addr} {n : Nat} (h : SelectsPpuReg a n) (s : State) :
    (memRead a s).2.ppu = (ppuRegAfterRead n s).ppu := by
  rw [memRead_snd, internalAfterRead_ppu h.1, h.2]

theorem memWrite_ppuReg {a : Addr} {n : Nat} (h : SelectsPpuReg a n) (v : Byte) (s : State) :
    (memWrite a v s).ppu = (ppuRegWrite n v s).ppu := by
  rw [memWrite_eq, internalWrite_ppu h.1, h.2]

theorem memWrite_ppuReg_cart {a : Addr} {n : Nat} (h : SelectsPpuReg a n) (v : Byte) (s : State) :
    (memWrite a v s).cart = (ppuRegWrite n v s).cart.cpuAfterWrite a v := by
  rw [memWrite_eq, internalWrite_ppu h.1, h.2]

/-! ## PPUCTRL and PPUMASK -/

theorem ctrlMask_getLsbD {j : Nat} (h10 : j ≠ 10) (h11 : j ≠ 11) : (0x0C00 : BitVec 15).getLsbD j = false := by
  by_cases hj : j < 15
  · interval_cases j <;> trivial
  · exact BitVec.getLsbD_of_ge _ _ (by omega)

/-- Settles O51: the two writes are the record updates of the statement, and PPUCTRL's field of `t` is bits 10 and 11
of its mask. -/
theorem ctrlAndMaskMapTheirBits : Obligations.CtrlAndMaskMapTheirBits := by
  unfold Obligations.CtrlAndMaskMapTheirBits
  refine ⟨fun s a v h => ?_, fun s a v h => memWrite_ppuReg h v s⟩
  simp only [memWrite_ppuReg h]
  refine ⟨rfl, ?_, fun j h10 h11 => ?_⟩
  · exact (extractLsb'_setBits_of_selected _ _ _ (by decide)).trans (extractLsb'_setWidth_shiftLeft v 10 2 (by omega))
  · exact (getLsbD_setBits _ _ _ j).trans (if_neg (by rw [ctrlMask_getLsbD h10 h11]; exact Bool.false_ne_true))

/-! ## PPUSTATUS and the OAM registers -/

/-- PPUSTATUS as its three flags over five zero bits (D33). -/
theorem statusValue_eq (p : Ppu) :
    p.statusValue =
      BitVec.ofBool p.vblank ++ BitVec.ofBool p.sprite0Hit ++ BitVec.ofBool p.spriteOverflow ++ 0#5 := by
  unfold Ppu.statusValue
  generalize p.vblank = vb, p.sprite0Hit = hit, p.spriteOverflow = full
  revert vb hit full
  decide

/-- Settles O52: each register's read value, read effect and write, as the register file gives them. -/
theorem statusAndOamRegisters : Obligations.StatusAndOamRegisters := by
  unfold Obligations.StatusAndOamRegisters
  refine fun s a => ⟨fun h => ⟨?_, memRead_ppuReg h s, fun v => memWrite_ppuReg h v s⟩,
    fun h v => memWrite_ppuReg h v s,
    fun h => ⟨memRead_fst_ppuReg h s, memRead_ppuReg h s, fun v => ?_⟩, fun n hn h => ?_⟩
  · rw [memRead_fst_ppuReg h, ← statusValue_eq]
    rfl
  · rw [memWrite_ppuReg h]
    exact ⟨rfl, fun j => Memory.read_write _ _ j v⟩
  · rw [memRead_fst_ppuReg h, memRead_ppuReg h]
    simp only [List.mem_cons, List.not_mem_nil, or_false] at hn
    obtain rfl | rfl | rfl | rfl | rfl := hn <;> exact ⟨rfl, rfl⟩

/-! ## PPUSCROLL and PPUADDR -/

theorem writeScroll_first {p : Ppu} (h : p.w = false) (v : Byte) :
    p.writeScroll v =
      { p with t := setBits p.t 0x001F ((v >>> 3).setWidth 15), x := v.setWidth 3, w := true } := by
  rw [Ppu.writeScroll, if_neg (by rw [h]; exact Bool.false_ne_true)]

theorem writeScroll_second {p : Ppu} (h : p.w = true) (v : Byte) :
    p.writeScroll v =
      { p with
        t := setBits (setBits p.t 0x7000 (v.setWidth 15 <<< 12)) 0x03E0 ((v >>> 3).setWidth 15 <<< 5)
        w := false } := by
  rw [Ppu.writeScroll, if_pos h]

theorem writeAddr_first {p : Ppu} (h : p.w = false) (v : Byte) :
    p.writeAddr v = { p with t := setBits p.t 0x7F00 ((v &&& 0x3F).setWidth 15 <<< 8), w := true } := by
  rw [Ppu.writeAddr, if_neg (by rw [h]; exact Bool.false_ne_true)]

theorem writeAddr_second {p : Ppu} (h : p.w = true) (v : Byte) :
    p.writeAddr v =
      { p with t := setBits p.t 0x00FF (v.setWidth 15), v := setBits p.t 0x00FF (v.setWidth 15), w := false } := by
  rw [Ppu.writeAddr, if_pos h]

theorem setWidth_eq_low3 (b : Byte) : b.setWidth 3 = b.extractLsb' 0 3 := by
  ext j hj
  simp

/-- The six low bits of a byte, masked or not. -/
theorem extractLsb'_and_low6 (b : Byte) : (b &&& 0x3F).extractLsb' 0 6 = b.extractLsb' 0 6 := by
  ext j hj
  interval_cases j <;> simp

/-- Settles O53: each write keeps the fields of `t` outside its mask and fills those inside it. -/
theorem scrollAndAddrShareTheToggle : Obligations.ScrollAndAddrShareTheToggle := by
  unfold Obligations.ScrollAndAddrShareTheToggle
  refine fun s a v => ⟨fun h hw => ?_, fun h hw => ?_, fun h hw => ?_, fun h hw => ?_⟩
  · have hq : (memWrite a v s).ppu = _ := (memWrite_ppuReg h v s).trans (writeScroll_first hw v)
    simp only [hq]
    refine ⟨?_, ?_, extractLsb'_setBits_of_kept _ _ _ (by decide)⟩
    · rw [setWidth_eq_low3]
    · rw [extractLsb'_setBits_of_selected _ _ _ (by decide), extractLsb'_setWidth _ _ _ (by omega),
        extractLsb'_shiftRight]
  · have hq : (memWrite a v s).ppu = _ := (memWrite_ppuReg h v s).trans (writeScroll_second hw v)
    simp only [hq]
    refine ⟨trivial, ?_, ?_, ?_, ?_⟩
    · rw [extractLsb'_setBits_of_kept _ _ _ (by decide), extractLsb'_setBits_of_selected _ _ _ (by decide),
        extractLsb'_setWidth_shiftLeft _ _ _ (by omega)]
    · rw [extractLsb'_setBits_of_selected _ _ _ (by decide), extractLsb'_setWidth_shiftLeft _ _ _ (by omega),
        extractLsb'_shiftRight]
    · rw [extractLsb'_setBits_of_kept _ _ _ (by decide), extractLsb'_setBits_of_kept _ _ _ (by decide)]
    · rw [extractLsb'_setBits_of_kept _ _ _ (by decide), extractLsb'_setBits_of_kept _ _ _ (by decide)]
  · have hq : (memWrite a v s).ppu = _ := (memWrite_ppuReg h v s).trans (writeAddr_first hw v)
    simp only [hq]
    refine ⟨trivial, ?_, ?_, extractLsb'_setBits_of_kept _ _ _ (by decide)⟩
    · rw [extractLsb'_setBits_of_selected _ _ _ (by decide), extractLsb'_setWidth_shiftLeft _ _ _ (by omega),
        extractLsb'_and_low6]
    · rw [getLsbD_setBits]
      simp
  · have hq : (memWrite a v s).ppu = _ := (memWrite_ppuReg h v s).trans (writeAddr_second hw v)
    simp only [hq]
    refine ⟨trivial, ?_, extractLsb'_setBits_of_kept _ _ _ (by decide)⟩
    rw [extractLsb'_setBits_of_selected _ _ _ (by decide), extractLsb'_setWidth _ _ _ (by omega)]
    exact BitVec.extractLsb'_eq_self

/-! ## PPUDATA -/

/-- A write on the PPU bus changes the palette or the cartridge. -/
theorem ppuBusWrite_ppu (a : Addr) (v : Byte) (s : State) :
    (ppuBusWrite a v s).ppu = { s.ppu with palette := (ppuBusWrite a v s).ppu.palette } := by
  unfold ppuBusWrite
  split <;> rfl

theorem ppuDataWrite_ppu (v : Byte) (s : State) :
    (ppuDataWrite v s).ppu = { (ppuBusWrite s.ppu.dataAddr v s).ppu with v := s.ppu.nextV } := by
  have hv : (ppuBusWrite s.ppu.dataAddr v s).ppu.nextV = s.ppu.nextV := by rw [ppuBusWrite_ppu]; rfl
  rw [ppuDataWrite, hv]

theorem ppuBusWrite_knownBoard {s : State} (hs : s.KnownBoard) (a : Addr) (v : Byte) :
    (ppuBusWrite a v s).KnownBoard := by
  unfold ppuBusWrite
  split
  · exact hs
  · cases hc : s.cart with
    | mapper st => exact absurd hc (hs st)
    | absent => intro st; simp [Cart.ppuAfterWrite]
    | flat prg vram => intro st; simp [Cart.ppuAfterWrite]

/-- Settles O54: the two sides of 0x3F00 are the two branches of the read value and of the buffered address. -/
theorem ppuDataIsBuffered : Obligations.PpuDataIsBuffered := by
  unfold Obligations.PpuDataIsBuffered
  intro s a h
  have hread : (memRead a s).2.ppu =
      { s.ppu with readBuffer := ppuBusValue s s.ppu.bufferAddr, v := s.ppu.nextV } := by
    rw [memRead_ppuReg h, ppuRegAfterRead, ppuDataAfterRead_eq]
  refine ⟨fun v => ⟨?_, fun hs => ?_⟩, fun hb => ?_, fun hb => ?_⟩
  · exact (memWrite_ppuReg h v s).trans (ppuDataWrite_ppu v s)
  · exact (memWrite_ppuReg_cart h v s).trans (Cart.cpuAfterWrite_known (ppuBusWrite_knownBoard hs _ v) a v)
  · have hbuffer : s.ppu.bufferAddr = s.ppu.dataAddr - 0x1000 := if_pos hb
    have hvalue : ppuDataValue s = ppuBusValue s s.ppu.dataAddr := if_pos hb
    refine ⟨?_, hread.trans (by rw [hbuffer]; rfl)⟩
    rw [memRead_fst_ppuReg h, ppuRegValue, hvalue]
    rfl
  · have hbuffer : s.ppu.bufferAddr = s.ppu.dataAddr := if_neg (Nat.not_le.mpr hb)
    have hvalue : ppuDataValue s = s.ppu.readBuffer := if_neg (Nat.not_le.mpr hb)
    refine ⟨?_, hread.trans (by rw [hbuffer]; rfl)⟩
    rw [memRead_fst_ppuReg h, ppuRegValue, hvalue]

/-! ## The PPU bus -/

theorem ppuTarget_of_palette {a : Addr} (h : 0x3F00 ≤ (a &&& 0x3FFF).toNat) :
    ppuTarget a = .palette (paletteIndex (a &&& 0x3FFF)) := if_pos h

theorem ppuTarget_mirror {a : Addr} (h : 0x3000 ≤ (a &&& 0x3FFF).toNat) (h' : (a &&& 0x3FFF).toNat < 0x3F00) :
    ppuTarget a = .cartridge ((a &&& 0x3FFF) - 0x1000) := (if_neg (Nat.not_le.mpr h')).trans (if_pos h)

theorem ppuTarget_cartridge {a : Addr} (h : (a &&& 0x3FFF).toNat < 0x3000) :
    ppuTarget a = .cartridge (a &&& 0x3FFF) :=
  (if_neg (by omega)).trans (if_neg (Nat.not_le.mpr h))

theorem ppuTarget_below_palette {a : Addr} (h : (a &&& 0x3FFF).toNat < 0x3F00) : ∃ b, ppuTarget a = .cartridge b := by
  by_cases h3 : 0x3000 ≤ (a &&& 0x3FFF).toNat
  · exact ⟨_, ppuTarget_mirror h3 h⟩
  · exact ⟨_, ppuTarget_cartridge (Nat.lt_of_not_le h3)⟩

theorem ppuBusValue_palette {s : State} {a : Addr} {i : Nat} (h : ppuTarget a = .palette i) :
    ppuBusValue s a = s.ppu.palette.read i := by rw [ppuBusValue, h]

theorem ppuBusValue_cartridge {s : State} {a b : Addr} (h : ppuTarget a = .cartridge b) :
    ppuBusValue s a = s.cart.ppuValue b := by rw [ppuBusValue, h]

theorem ppuBusWrite_palette {s : State} {a : Addr} {i : Nat} (h : ppuTarget a = .palette i) (v : Byte) :
    ppuBusWrite a v s = { s with ppu := { s.ppu with palette := s.ppu.palette.write i v } } := by
  rw [ppuBusWrite, h]

theorem ppuBusWrite_cartridge {s : State} {a b : Addr} (h : ppuTarget a = .cartridge b) (v : Byte) :
    ppuBusWrite a v s = { s with cart := s.cart.ppuAfterWrite b v } := by rw [ppuBusWrite, h]

/-- Settles O55: the decode of the address, and the access to each of its two targets. -/
theorem ppuBusDecodesTheMap : Obligations.PpuBusDecodesTheMap := by
  unfold Obligations.PpuBusDecodesTheMap
  refine fun s a => ⟨fun h => ?_, fun h h' => ?_, fun h => ?_, fun hcart h => ?_⟩
  · have e := ppuTarget_of_palette h
    refine ⟨ppuBusValue_palette e, fun v => ?_⟩
    rw [ppuBusWrite_palette e]
    exact ⟨rfl, fun j => Memory.read_write _ _ j v⟩
  · have e := ppuTarget_mirror h h'
    exact ⟨ppuBusValue_cartridge e, ppuBusWrite_cartridge e⟩
  · have e := ppuTarget_cartridge h
    exact ⟨ppuBusValue_cartridge e, ppuBusWrite_cartridge e⟩
  · obtain ⟨b, e⟩ := ppuTarget_below_palette h
    refine ⟨?_, fun v => ?_⟩
    · rw [ppuBusValue_cartridge e, hcart]
      rfl
    · rw [ppuBusWrite_cartridge e, hcart, Cart.ppuAfterWrite, ← hcart]

end Sys2Proof.Machine
end

section
/-! PROOFS. One dot: the position, the event, and what no dot changes (65_ppu.md R506, R530, R560 to R562). -/

namespace Sys2Proof.Machine

/-- The PPU after a dot with its event: its work, the advance, and the two flags of the event taken back. -/
theorem dotIteration_ppu (s : State) :
    (dotIteration s).ppu = { (dotWork s).ppu.advance with nmiRequested := false, frameComplete := false } := rfl

theorem dotIteration_ppuKept (s : State) : PpuKept s.ppu (dotIteration s).ppu :=
  (ppuTick_kept s).ppu.trans (by constructor <;> simp [dotIteration])

/-- The position that a dot's work leaves is the one it found, so the advance is from there. -/
theorem dotIteration_position (s : State) :
    ((dotIteration s).ppu.scanline, (dotIteration s).ppu.dot, (dotIteration s).ppu.oddFrame) =
      (if s.ppu.scanline = 261 ∧ s.ppu.dot = 339 ∧ s.ppu.oddFrame = true ∧ (s.ppu.showBg = true ∨ s.ppu.showSp = true)
      then (0, 0, !s.ppu.oddFrame)
      else if s.ppu.dot = 340 then
        if s.ppu.scanline = 261 then (0, 0, !s.ppu.oddFrame) else (s.ppu.scanline + 1, 0, s.ppu.oddFrame)
      else (s.ppu.scanline, s.ppu.dot + 1, s.ppu.oddFrame)) := by
  have hw := dotWork_event s
  have h := advance_position (dotWork s).ppu
  simp only [hw.scanline, hw.dot, hw.oddFrame, (dotWork_kept s).rendering, renderingEnabled_iff] at h
  exact h

/-- The status latches after a dot are those that its work leaves. -/
theorem dotIteration_status (s : State) :
    (dotIteration s).ppu.vblank = (dotWork s).ppu.vblank ∧
    (dotIteration s).ppu.sprite0Hit = (dotWork s).ppu.sprite0Hit ∧
    (dotIteration s).ppu.spriteOverflow = (dotWork s).ppu.spriteOverflow := by
  obtain ⟨hv, h0, ho, -, -⟩ := advance_event (dotWork s).ppu
  exact ⟨hv, h0, ho⟩

theorem dotIteration_pendNmi (s : State) : (dotIteration s).lines.pendNmi =
    (s.lines.pendNmi || s.ppu.nmiRequested || (decide (s.ppu.scanline = 241 ∧ s.ppu.dot = 1) && s.ppu.nmiEnable)) := by
  obtain ⟨-, -, -, hn, -⟩ := advance_event (dotWork s).ppu
  show ((dotWork s).lines.pendNmi || (dotWork s).ppu.advance.nmiRequested) = _
  rw [(dotWork_kept s).lines, hn, (dotWork_event s).nmiRequested]
  by_cases h : s.ppu.scanline = 241 ∧ s.ppu.dot = 1
  · rw [if_pos h, decide_eq_true h, Bool.true_and, Bool.or_assoc]
  · rw [if_neg h, decide_eq_false h, Bool.false_and, Bool.or_false]

theorem dotIteration_frames (s : State) : (dotIteration s).frames =
    s.frames + (if s.ppu.frameComplete = true ∨ (s.ppu.scanline = 241 ∧ s.ppu.dot = 1) then 1 else 0) := by
  obtain ⟨-, -, -, -, hf⟩ := advance_event (dotWork s).ppu
  show (if (dotWork s).ppu.advance.frameComplete then (dotWork s).frames + 1 else (dotWork s).frames) = _
  rw [(dotWork_kept s).frames, hf, (dotWork_event s).frameComplete]
  by_cases h : s.ppu.scanline = 241 ∧ s.ppu.dot = 1
  · rw [if_pos h, if_pos rfl, if_pos (.inr h)]
  · rw [if_neg h]
    by_cases hc : s.ppu.frameComplete = true
    · rw [if_pos hc, if_pos (.inl hc)]
    · rw [if_neg hc, if_neg (not_or.mpr ⟨hc, h⟩)]
      rfl

/-- After what a dot keeps, the event changes the PPU, the pending NMI and the frame count alone. -/
theorem DotKept.deliver_eq {s t : State} (h : DotKept s t) :
    { deliver t with k := t.k + 1 } = { s with
      ppu := (deliver t).ppu, cart := t.cart, frames := (deliver t).frames, k := s.k + 1
      lines := { s.lines with pendNmi := (deliver t).lines.pendNmi } } := by
  rw [← h.cpu, ← h.micro, ← h.lines, ← h.faulted, ← h.faultOpcode, ← h.ram, ← h.ctl, ← h.k, ← h.busLog]
  rfl

/-- Settles O58: the event's fields from the dot's work and the advance, the frame from what each of them keeps. -/
theorem dotsAdvanceAndRaiseTheEvent : Obligations.DotsAdvanceAndRaiseTheEvent := by
  unfold Obligations.DotsAdvanceAndRaiseTheEvent
  intro s
  obtain ⟨hv, h0, ho⟩ := dotIteration_status s
  have hw := dotWork_event s
  exact ⟨dotIteration_position s, hv.trans hw.vblank, h0.trans hw.sprite0Hit, ho.trans hw.spriteOverflow,
    dotIteration_pendNmi s, dotIteration_frames s, rfl, rfl, (dotIteration_ppuKept s).eq, (ppuTick_kept s).deliver_eq⟩

end Sys2Proof.Machine
end

section
/-! PROOFS. The work of a dot by its position, and the background fetches (65_ppu.md R522, R531, R540 to R544). -/

namespace Sys2Proof.Machine

/-! ## The sprite pass as a function of the picture -/

/-- A picture after one pixel of a sprite. -/
def spritePixelPainted (s : State) (o : Sprite) (r c : Nat) (m : Memory) : Memory :=
  if spritePattern s o r c ≠ 0 ∧ o.x.toNat + c ≤ 255 ∧ o.y.toNat + 1 + r ≤ 239 then
    m.write (pixelKey (o.y.toNat + 1 + r) (o.x.toNat + c))
      (colourCode s (BitVec.ofNat 16 (0x3F10 + (o.attr.toNat % 4) * 4 + spritePattern s o r c)))
  else m

/-- A picture after a whole sprite. -/
def spritePainted (s : State) (m : Memory) (n : Nat) : Memory :=
  (List.range s.ppu.spriteHeight).foldl (fun m r =>
    (List.range 8).foldl (fun m c => spritePixelPainted s (s.ppu.sprite n) r c m) m) m

/-- The picture after the sprite pass. -/
def spritesPainted (s : State) : Memory :=
  if s.ppu.showSp then (List.range 64).reverse.foldl (spritePainted s) s.ppu.framebuffer else s.ppu.framebuffer

theorem foldl_withFramebuffer {α : Type} {s : State} {f : State → α → State} {g : Memory → α → Memory}
    (h : ∀ m a, f (s.withFramebuffer m) a = s.withFramebuffer (g m a)) (l : List α) (m : Memory) :
    l.foldl f (s.withFramebuffer m) = s.withFramebuffer (l.foldl g m) := by
  induction l generalizing m with
  | nil => rfl
  | cons a l ih => rw [List.foldl_cons, List.foldl_cons, h, ih]

/-- No pattern or colour is read from the picture. -/
theorem paintSpritePixel_withFramebuffer (o : Sprite) (r c : Nat) (s : State) (m : Memory) :
    paintSpritePixel o r c (s.withFramebuffer m) = s.withFramebuffer (spritePixelPainted s o r c m) := by
  have hp : spritePattern (s.withFramebuffer m) o r c = spritePattern s o r c := rfl
  unfold paintSpritePixel spritePixelPainted
  dsimp only
  rw [hp]
  split <;> rfl

theorem paintSprite_withFramebuffer (s : State) (m : Memory) (n : Nat) :
    paintSprite (s.withFramebuffer m) n = s.withFramebuffer (spritePainted s m n) :=
  foldl_withFramebuffer (fun m r => foldl_withFramebuffer (fun m c =>
    paintSpritePixel_withFramebuffer (s.ppu.sprite n) r c s m) (List.range 8) m) (List.range s.ppu.spriteHeight) m

/-- The sprite pass changes the picture alone. -/
theorem spritePass_eq (s : State) : spritePass s = s.withFramebuffer (spritesPainted s) := by
  unfold spritePass spritesPainted
  split
  · exact foldl_withFramebuffer (paintSprite_withFramebuffer s) _ s.ppu.framebuffer
  · rfl

/-! ## The dot of a render line -/

/-- The part of a dot's work that is the shift and the fetch step. -/
def fetchDot (d : Nat) (s : State) : State :=
  if InFetchDots d then fetchStep d { s with ppu := s.ppu.shift } else s

/-- The picture after the background pixel of a render line's dot. -/
def backgroundPicture (sl d : Nat) (s : State) : Memory :=
  if InFetchDots d ∧ sl ≤ 239 ∧ d ≤ 256 then (backgroundPixel sl d s).ppu.framebuffer else s.ppu.framebuffer

/-- The machine after the scroll updates of a render line's dot. -/
def State.scrolled (s : State) (sl d : Nat) : State := { s with ppu := scrollUpdate sl d s.ppu }

theorem fetchDot_withFramebuffer (d : Nat) (s : State) (m : Memory) :
    fetchDot d (s.withFramebuffer m) = (fetchDot d s).withFramebuffer m := by
  unfold fetchDot
  split
  · exact fetchStep_withFramebuffer d { s with ppu := s.ppu.shift } m
  · rfl

theorem fetchDot_vblankEnd (d : Nat) (s : State) : fetchDot d (vblankEnd s) = vblankEnd (fetchDot d s) := by
  unfold fetchDot
  split
  · exact fetchStep_vblankEnd d { s with ppu := s.ppu.shift }
  · rfl

/-- The pixel is written from the shifters before the shift, and nothing later in the dot writes the picture. -/
theorem renderDot_eq (sl d : Nat) (s : State) :
    renderDot sl d s = ((fetchDot d s).withFramebuffer (backgroundPicture sl d s)).scrolled sl d := by
  by_cases hd : InFetchDots d
  · have hw : inFetchWindow d = true := (inFetchWindow_iff d).mpr hd
    by_cases hv : sl ≤ 239 ∧ d ≤ 256
    · have hpic : backgroundPicture sl d s = (backgroundPixel sl d s).ppu.framebuffer := if_pos ⟨hd, hv⟩
      rw [← fetchDot_withFramebuffer, hpic, fetchDot, if_pos hd, renderDot, if_pos hw, if_pos hv]
      rfl
    · have hpic : backgroundPicture sl d s = s.ppu.framebuffer := if_neg fun h => hv h.2
      rw [← fetchDot_withFramebuffer, hpic, fetchDot, if_pos hd, renderDot, if_pos hw, if_neg hv]
      rfl
  · have hw : ¬ inFetchWindow d = true := fun h => hd ((inFetchWindow_iff d).mp h)
    have hpic : backgroundPicture sl d s = s.ppu.framebuffer := if_neg fun h => hd h.1
    rw [hpic, fetchDot, if_neg hd, renderDot, if_neg hw]
    rfl

/-! ## The work of a dot, by its position (65_ppu.md R531) -/

/-- The dots at which the picture's background is written. -/
abbrev VisibleDot (p : Ppu) : Prop := p.scanline ≤ 239 ∧ 1 ≤ p.dot ∧ p.dot ≤ 256

/-- The dot at which the vertical blank starts. -/
abbrev VblankDot (p : Ppu) : Prop := p.scanline = 241 ∧ p.dot = 1

/-- The last part of a dot's work. -/
def lineWork (sl d : Nat) (s : State) : State :=
  if s.ppu.renderingEnabled then
    if sl ≤ 239 ∨ sl = 261 then renderDot sl d s else s
  else
    if sl ≤ 239 ∧ 1 ≤ d ∧ d ≤ 256 then backdropPixel sl d s else s

theorem lineWork_rendering {sl d : Nat} {s : State} (hsl : sl ≤ 239 ∨ sl = 261)
    (he : s.ppu.showBg = true ∨ s.ppu.showSp = true) : lineWork sl d s = renderDot sl d s := by
  rw [lineWork, if_pos ((renderingEnabled_iff _).mpr he), if_pos hsl]

theorem lineWork_backdrop {sl d : Nat} {s : State} (hv : sl ≤ 239 ∧ 1 ≤ d ∧ d ≤ 256)
    (he : ¬ (s.ppu.showBg = true ∨ s.ppu.showSp = true)) : lineWork sl d s = backdropPixel sl d s := by
  rw [lineWork, if_neg (mt (renderingEnabled_iff _).mp he), if_pos hv]

theorem lineWork_idle {sl d : Nat} {s : State} (hv : ¬ (sl ≤ 239 ∧ 1 ≤ d ∧ d ≤ 256))
    (hr : ¬ ((sl ≤ 239 ∨ sl = 261) ∧ (s.ppu.showBg = true ∨ s.ppu.showSp = true))) : lineWork sl d s = s := by
  by_cases he : s.ppu.showBg = true ∨ s.ppu.showSp = true
  · rw [lineWork, if_pos ((renderingEnabled_iff _).mpr he), if_neg fun hsl => hr ⟨hsl, he⟩]
  · rw [lineWork, if_neg (mt (renderingEnabled_iff _).mp he), if_neg hv]

theorem dotWork_vblankDot {s : State} (h : VblankDot s.ppu) : dotWork s = vblankStart s := by
  obtain ⟨hsl, hd⟩ := h
  show lineWork s.ppu.scanline s.ppu.dot _ = _
  rw [if_neg (by omega), if_pos ⟨hsl, hd⟩, lineWork_idle (by omega) (by omega)]

theorem dotWork_elsewhere {s : State} (h : ¬ VblankDot s.ppu) :
    dotWork s = lineWork s.ppu.scanline s.ppu.dot
      (if s.ppu.scanline = 261 ∧ s.ppu.dot = 1 then vblankEnd s else s) := by
  show lineWork s.ppu.scanline s.ppu.dot _ = _
  rw [if_neg h]

/-- What the work of a dot is. -/
theorem dotWork_cases (s : State) :
    (VblankDot s.ppu ∧ dotWork s = vblankStart s) ∨
    (Rendering s.ppu ∧ dotWork s = renderDot s.ppu.scanline s.ppu.dot
      (if s.ppu.scanline = 261 ∧ s.ppu.dot = 1 then vblankEnd s else s)) ∨
    (VisibleDot s.ppu ∧ ¬ Rendering s.ppu ∧ dotWork s = backdropPixel s.ppu.scanline s.ppu.dot s) ∨
    (¬ VblankDot s.ppu ∧ ¬ Rendering s.ppu ∧ ¬ VisibleDot s.ppu ∧ (dotWork s = s ∨ dotWork s = vblankEnd s)) := by
  by_cases h1 : VblankDot s.ppu
  · exact .inl ⟨h1, dotWork_vblankDot h1⟩
  rw [dotWork_elsewhere h1]
  by_cases hr : Rendering s.ppu
  · refine .inr (.inl ⟨hr, lineWork_rendering hr.1 ?_⟩)
    split <;> exact hr.2
  by_cases hv : VisibleDot s.ppu
  · have he : ¬ (s.ppu.showBg = true ∨ s.ppu.showSp = true) := fun he => hr ⟨.inl hv.1, he⟩
    rw [if_neg (by have := hv.1; omega)]
    exact .inr (.inr (.inl ⟨hv, hr, lineWork_backdrop hv he⟩))
  · refine .inr (.inr (.inr ⟨h1, hr, hv, ?_⟩))
    split
    · exact .inr (lineWork_idle hv hr)
    · exact .inl (lineWork_idle hv hr)

/-! ## The background pipeline -/

/-- The latches, the shifters and the cartridge are the same. -/
structure SamePipeline (s t : State) : Prop where
  cart : t.cart = s.cart
  ntByte : t.ppu.ntByte = s.ppu.ntByte
  atByte : t.ppu.atByte = s.ppu.atByte
  atBits : t.ppu.atBits = s.ppu.atBits
  patLo : t.ppu.patLo = s.ppu.patLo
  patHi : t.ppu.patHi = s.ppu.patHi
  shPatLo : t.ppu.shPatLo = s.ppu.shPatLo
  shPatHi : t.ppu.shPatHi = s.ppu.shPatHi
  shPalCur : t.ppu.shPalCur = s.ppu.shPalCur
  shPalNext : t.ppu.shPalNext = s.ppu.shPalNext

theorem SamePipeline.refl (s : State) : SamePipeline s s := ⟨rfl, rfl, rfl, rfl, rfl, rfl, rfl, rfl, rfl, rfl⟩

theorem SamePipeline.trans {s t u : State} (h : SamePipeline s t) (h' : SamePipeline t u) : SamePipeline s u :=
  ⟨h'.1.trans h.1, h'.2.trans h.2, h'.3.trans h.3, h'.4.trans h.4, h'.5.trans h.5, h'.6.trans h.6, h'.7.trans h.7,
    h'.8.trans h.8, h'.9.trans h.9, h'.10.trans h.10⟩

theorem samePipeline_withFramebuffer (s : State) (m : Memory) : SamePipeline s (s.withFramebuffer m) :=
  ⟨rfl, rfl, rfl, rfl, rfl, rfl, rfl, rfl, rfl, rfl⟩

theorem samePipeline_vblankEnd (s : State) : SamePipeline s (vblankEnd s) :=
  ⟨rfl, rfl, rfl, rfl, rfl, rfl, rfl, rfl, rfl, rfl⟩

theorem samePipeline_vblankStart (s : State) : SamePipeline s (vblankStart s) := by
  unfold vblankStart
  rw [spritePass_eq]
  exact ⟨rfl, rfl, rfl, rfl, rfl, rfl, rfl, rfl, rfl, rfl⟩

/-- The scroll updates write `v` alone. -/
theorem scrollUpdate_eq (sl d : Nat) (p : Ppu) : scrollUpdate sl d p = { p with v := (scrollUpdate sl d p).v } := by
  unfold scrollUpdate
  split
  · rfl
  · split
    · rfl
    · split <;> rfl

theorem samePipeline_scrolled (s : State) (sl d : Nat) : SamePipeline s (s.scrolled sl d) := by
  unfold State.scrolled
  rw [scrollUpdate_eq]
  exact ⟨rfl, rfl, rfl, rfl, rfl, rfl, rfl, rfl, rfl, rfl⟩

theorem samePipeline_renderDot (sl d : Nat) (s : State) : SamePipeline (fetchDot d s) (renderDot sl d s) := by
  rw [renderDot_eq]
  exact (samePipeline_withFramebuffer _ _).trans (samePipeline_scrolled _ sl d)

/-- After its work, a dot changes the position and the event alone. -/
theorem samePipeline_dotIteration (s : State) : SamePipeline (dotWork s) (dotIteration s) := by
  unfold dotIteration ppuTick
  dsimp only
  rw [advance_eq]
  exact ⟨rfl, rfl, rfl, rfl, rfl, rfl, rfl, rfl, rfl, rfl⟩

theorem not_rendering_of_vblankDot {p : Ppu} (h : VblankDot p) : ¬ Rendering p := by
  rintro ⟨hsl, -⟩
  have := h.1
  omega

/-- The pipeline after a dot's work: the shift and the fetch step of a render line, or as it was. -/
theorem samePipeline_dotWork (s : State) :
    SamePipeline (if Rendering s.ppu then fetchDot s.ppu.dot s else s) (dotWork s) := by
  obtain ⟨h, e⟩ | ⟨hr, e⟩ | ⟨-, hr, e⟩ | ⟨-, hr, -, e | e⟩ := dotWork_cases s
  · rw [if_neg (not_rendering_of_vblankDot h), e]
    exact samePipeline_vblankStart s
  · rw [if_pos hr, e]
    split
    · refine SamePipeline.trans ?_ (samePipeline_renderDot _ _ _)
      rw [fetchDot_vblankEnd]
      exact samePipeline_vblankEnd _
    · exact samePipeline_renderDot _ _ _
  · rw [if_neg hr, e]
    exact samePipeline_withFramebuffer _ _
  · rw [if_neg hr, e]
    exact .refl s
  · rw [if_neg hr, e]
    exact samePipeline_vblankEnd s

/-! ## The fetch step, by its offset in the group of eight -/

theorem bitNat_mul (b : Bool) (n : Nat) : bitNat b * n = if b then n else 0 := by
  cases b
  · exact Nat.zero_mul n
  · exact Nat.one_mul n

/-- Fine Y is the field of three bits above bit 11. -/
theorem toNat_fineY (v : BitVec 15) : (v >>> 12).toNat = (v.extractLsb' 12 3).toNat := by
  rw [BitVec.toNat_ushiftRight, BitVec.extractLsb'_toNat, Nat.shiftRight_eq_div_pow]
  have := v.isLt
  omega

theorem patternAddr_eq (p : Ppu) : patternAddr p = BitVec.ofNat 16
    ((if p.bgTable then 0x1000 else 0) + p.ntByte.toNat * 16 + (p.v.extractLsb' 12 3).toNat) := by
  rw [patternAddr, bitNat_mul, toNat_fineY]

/-- How far the byte of four tiles is shifted down: 4 in the lower half of its square, and 2 in the right half. -/
theorem attributeShift_eq (v : BitVec 15) :
    (((v >>> 4) &&& 4) ||| (v &&& 2)).toNat = v.toNat / 16 % 8 / 4 * 4 + v.toNat % 4 / 2 * 2 := by
  have h4 : (v >>> 4) &&& (4 : BitVec 15) = if (v >>> 4).getLsbD 2 then 4 else 0 := BitVec.and_twoPow (v >>> 4) 2
  have h2 : v &&& 2 = if v.getLsbD 1 then 2 else 0 := BitVec.and_twoPow v 1
  have hbits : ∀ b b' : Bool, ((if b then 4 else 0 : BitVec 15) ||| (if b' then 2 else 0)).toNat =
      b.toNat * 4 + b'.toNat * 2 := by decide
  have hy : ((v >>> 4).getLsbD 2).toNat = v.toNat / 2 ^ 6 % 2 :=
    (congrArg Bool.toNat (BitVec.getLsbD_ushiftRight v 4 2)).trans (Nat.toNat_testBit v.toNat 6)
  have hx : (v.getLsbD 1).toNat = v.toNat / 2 ^ 1 % 2 := Nat.toNat_testBit v.toNat 1
  rw [h4, h2, hbits, hy, hx]
  omega

theorem attributeBits_eq (v : BitVec 15) (b : Byte) :
    attributeBits v b = BitVec.ofNat 2 (b.toNat / 2 ^ (v.toNat / 16 % 8 / 4 * 4 + v.toNat % 4 / 2 * 2) % 4) := by
  apply BitVec.eq_of_toNat_eq
  rw [attributeBits, attributeShift_eq, BitVec.toNat_setWidth, BitVec.toNat_ushiftRight, Nat.shiftRight_eq_div_pow,
    BitVec.toNat_ofNat]
  omega

/-- The reload moves a shifter's high byte down and puts the new byte below it. -/
theorem setBits_low_eq_append (sh : BitVec 16) (b : Byte) :
    setBits sh 0x00FF (b.setWidth 16) = sh.extractLsb' 8 8 ++ b := by
  ext j hj
  have hmask : ∀ j < 16, (0x00FF : BitVec 16).getLsbD j = decide (j < 8) := by decide
  rw [← BitVec.getLsbD_eq_getElem, ← BitVec.getLsbD_eq_getElem, getLsbD_setBits, hmask j hj, BitVec.getLsbD_append]
  by_cases h8 : j < 8
  · simp [h8, hj]
  · simp [h8, show j - 8 < 8 by omega, show 8 + (j - 8) = j by omega]

/-- Settles O56: the fetch step by the cases of its offset, and the dot machine by `samePipeline_dotWork`. -/
theorem fetchesFillTheShifters : Obligations.FetchesFillTheShifters := by
  unfold Obligations.FetchesFillTheShifters
  refine ⟨fun s d => ⟨fun h => ?_, fun h => ?_, fun h => ?_, fun h => ?_, fun h => ?_, fun h => ?_, rfl⟩, fun s => ?_⟩
  · simp only [fetchStep, h, ppuBusRead_eq]
    rfl
  · simp only [fetchStep, h, ppuBusRead_eq, attributeBits_eq]
    rfl
  · simp only [fetchStep, h, ppuBusRead_eq, patternAddr_eq]
  · simp only [fetchStep, h, ppuBusRead_eq, patternAddr_eq, BitVec.ofNat_add]
    rfl
  · simp only [fetchStep, h, Ppu.reload, setBits_low_eq_append]
  · obtain h | h | h := h <;> simp only [fetchStep, h]
  · have hf : (if Rendering s.ppu ∧ InFetchDots s.ppu.dot then fetchStep s.ppu.dot { s with ppu := s.ppu.shift } else s) =
        if Rendering s.ppu then fetchDot s.ppu.dot s else s := by
      unfold fetchDot
      rw [ite_and]
    obtain ⟨hc, h1, h2, h3, h4, h5, h6, h7, h8, h9⟩ :=
      (samePipeline_dotWork s).trans (samePipeline_dotIteration s)
    dsimp only
    rw [hf]
    exact ⟨hc, h1, h2, h3, h4, h5, h6, h7, h8, h9⟩

end Sys2Proof.Machine
end

section
/-! PROOFS. The scroll updates of `v`, field by field and by position (65_ppu.md R531, R546, R550 to R552). -/

namespace Sys2Proof.Machine

/-! ## Fields of `v` -/

@[simp] theorem setBits_zero {m : Nat} (w mask : BitVec m) : setBits w mask 0 = w &&& ~~~mask := by
  rw [setBits, BitVec.ofNat_eq_ofNat, BitVec.zero_and, BitVec.or_zero]

/-- Flipping a bit outside a field leaves the field. -/
theorem extractLsb'_xor_of_kept {m : Nat} (w mask : BitVec m) {a n : Nat}
    (h : ∀ j < n, mask.getLsbD (a + j) = false) : (w ^^^ mask).extractLsb' a n = w.extractLsb' a n := by
  ext j hj
  simp only [BitVec.getElem_extractLsb', BitVec.getLsbD_xor, h j hj, Bool.xor_false]

/-- A register masked to one field is the field at its place. -/
theorem and_fieldMask (v mask : BitVec 15) (k n : Nat)
    (h : ∀ j < 15, mask.getLsbD j = decide (k ≤ j ∧ j < k + n)) :
    v &&& mask = (v.extractLsb' k n).setWidth 15 <<< k := by
  ext j hj
  rw [BitVec.getElem_and, ← BitVec.getLsbD_eq_getElem, ← BitVec.getLsbD_eq_getElem, h j hj]
  by_cases hk : k ≤ j
  · simp [hk, hj, show (j < k + n) ↔ (j - k < n) by omega, show k + (j - k) = j by omega,
      Bool.and_comm]
  · simp [hk]

theorem extractLsb'_congr {u v : BitVec 15} {a n : Nat} (h : u.toNat / 2 ^ a % 2 ^ n = v.toNat / 2 ^ a % 2 ^ n) :
    u.extractLsb' a n = v.extractLsb' a n := by
  apply BitVec.eq_of_toNat_eq
  rw [BitVec.extractLsb'_toNat, BitVec.extractLsb'_toNat, Nat.shiftRight_eq_div_pow, Nat.shiftRight_eq_div_pow, h]

theorem extractLsb'_eq_add_one {u v : BitVec 15} {a n : Nat}
    (h : u.toNat / 2 ^ a % 2 ^ n = (v.toNat / 2 ^ a % 2 ^ n + 1) % 2 ^ n) :
    u.extractLsb' a n = v.extractLsb' a n + 1 := by
  apply BitVec.eq_of_toNat_eq
  rw [BitVec.toNat_add, BitVec.extractLsb'_toNat, BitVec.extractLsb'_toNat, Nat.shiftRight_eq_div_pow,
    Nat.shiftRight_eq_div_pow, h]
  simp

theorem getLsbD_congr {u v : BitVec 15} {a : Nat} (h : u.toNat / 2 ^ a % 2 = v.toNat / 2 ^ a % 2) :
    u.getLsbD a = v.getLsbD a := by
  rw [BitVec.getLsbD, BitVec.getLsbD, Nat.testBit_eq_decide_div_mod_eq, Nat.testBit_eq_decide_div_mod_eq, h]

theorem extractLsb'_ne {v : BitVec 15} {a n : Nat} {f : BitVec n} (h : v.extractLsb' a n ≠ f) :
    v.toNat / 2 ^ a % 2 ^ n ≠ f.toNat := fun e => h (BitVec.eq_of_toNat_eq (by
      rw [BitVec.extractLsb'_toNat, Nat.shiftRight_eq_div_pow, e]))

/-! ## The coarse-X increment -/

theorem coarseX_full_iff (v : BitVec 15) : v &&& 0x001F = 31 ↔ v.extractLsb' 0 5 = 31 := by
  have hf : ∀ f : BitVec 5, f.setWidth 15 <<< 0 = (31 : BitVec 15) ↔ f = 31 := by decide
  rw [and_fieldMask v 0x001F 0 5 (by decide), hf]

theorem incCoarseX_wrap {v : BitVec 15} (h : v.extractLsb' 0 5 = 31) :
    incCoarseX v = setBits v 0x001F 0 ^^^ 0x0400 := by
  rw [incCoarseX, if_pos ((coarseX_full_iff v).mpr h), setBits_zero]

theorem incCoarseX_step {v : BitVec 15} (h : v.extractLsb' 0 5 ≠ 31) : (incCoarseX v).toNat = v.toNat + 1 := by
  have hx : v.toNat / 2 ^ 0 % 2 ^ 5 ≠ 31 := extractLsb'_ne h
  have hv := v.isLt
  rw [incCoarseX, if_neg (mt (coarseX_full_iff v).mp h), BitVec.toNat_add]
  show (v.toNat + 1) % 2 ^ 15 = v.toNat + 1
  omega

theorem incCoarseX_fields (v : BitVec 15) :
    (incCoarseX v).extractLsb' 0 5 = v.extractLsb' 0 5 + 1 ∧
    (incCoarseX v).getLsbD 10 = (v.getLsbD 10 ^^ (v.extractLsb' 0 5 == 31)) ∧
    (incCoarseX v).extractLsb' 5 5 = v.extractLsb' 5 5 ∧ (incCoarseX v).getLsbD 11 = v.getLsbD 11 ∧
    (incCoarseX v).extractLsb' 12 3 = v.extractLsb' 12 3 := by
  by_cases h : v.extractLsb' 0 5 = 31
  · rw [incCoarseX_wrap h, h]
    refine ⟨?_, ?_, ?_, ?_, ?_⟩
    · rw [extractLsb'_xor_of_kept _ _ (by decide), extractLsb'_setBits_of_selected _ _ _ (by decide)]
      rfl
    · rw [BitVec.getLsbD_xor, getLsbD_setBits]
      rfl
    · rw [extractLsb'_xor_of_kept _ _ (by decide), extractLsb'_setBits_of_kept _ _ _ (by decide)]
    · rw [BitVec.getLsbD_xor, getLsbD_setBits]
      exact Bool.xor_false _
    · rw [extractLsb'_xor_of_kept _ _ (by decide), extractLsb'_setBits_of_kept _ _ _ (by decide)]
  · have e := incCoarseX_step h
    have hx : v.toNat / 2 ^ 0 % 2 ^ 5 ≠ 31 := extractLsb'_ne h
    refine ⟨extractLsb'_eq_add_one ?_, ?_, extractLsb'_congr ?_, getLsbD_congr ?_, extractLsb'_congr ?_⟩
    · omega
    · rw [beq_false_of_ne h, Bool.xor_false]
      exact getLsbD_congr (by omega)
    · omega
    · omega
    · omega

/-! ## The Y increment -/

theorem fineY_full_iff (v : BitVec 15) : v &&& 0x7000 = 0x7000 ↔ v.extractLsb' 12 3 = 7 := by
  have hf : ∀ f : BitVec 3, f.setWidth 15 <<< 12 = (0x7000 : BitVec 15) ↔ f = 7 := by decide
  rw [and_fieldMask v 0x7000 12 3 (by decide), hf]

theorem coarseY_eq_iff (v : BitVec 15) (y : BitVec 5) :
    v &&& (0x03E0 : BitVec 15) = y.setWidth 15 <<< 5 ↔ v.extractLsb' 5 5 = y := by
  have hf : ∀ f f' : BitVec 5, f.setWidth 15 <<< 5 = (f'.setWidth 15 <<< 5 : BitVec 15) ↔ f = f' := by decide
  rw [and_fieldMask v 0x03E0 5 5 (by decide), hf]

/-- The step of coarse Y once fine Y has wrapped. -/
def incCoarseY (v : BitVec 15) : BitVec 15 :=
  if v.extractLsb' 5 5 = 29 then setBits v 0x03E0 0 ^^^ 0x0800
  else if v.extractLsb' 5 5 = 31 then setBits v 0x03E0 0
  else v + 0x0020

theorem incY_step {v : BitVec 15} (h : v.extractLsb' 12 3 ≠ 7) : incY v = v + 0x1000 :=
  if_pos (mt (fineY_full_iff v).mp h)

theorem incY_wrap {v : BitVec 15} (h : v.extractLsb' 12 3 = 7) : incY v = incCoarseY (setBits v 0x7000 0) := by
  rw [incY, if_neg (not_not.mpr ((fineY_full_iff v).mpr h)), incCoarseY, setBits_zero, setBits_zero]
  simp only [← coarseY_eq_iff]
  rfl

theorem incCoarseY_fields (v : BitVec 15) :
    (incCoarseY v).extractLsb' 12 3 = v.extractLsb' 12 3 ∧
    (incCoarseY v).extractLsb' 5 5 = (if v.extractLsb' 5 5 = 29 then 0 else v.extractLsb' 5 5 + 1) ∧
    (incCoarseY v).getLsbD 11 = (v.getLsbD 11 ^^ (v.extractLsb' 5 5 == 29)) ∧
    (incCoarseY v).extractLsb' 0 5 = v.extractLsb' 0 5 ∧ (incCoarseY v).getLsbD 10 = v.getLsbD 10 := by
  unfold incCoarseY
  by_cases h29 : v.extractLsb' 5 5 = 29
  · rw [if_pos h29, if_pos h29, h29]
    refine ⟨?_, ?_, ?_, ?_, ?_⟩
    · rw [extractLsb'_xor_of_kept _ _ (by decide), extractLsb'_setBits_of_kept _ _ _ (by decide)]
    · rw [extractLsb'_xor_of_kept _ _ (by decide), extractLsb'_setBits_of_selected _ _ _ (by decide)]
      rfl
    · rw [BitVec.getLsbD_xor, getLsbD_setBits]
      rfl
    · rw [extractLsb'_xor_of_kept _ _ (by decide), extractLsb'_setBits_of_kept _ _ _ (by decide)]
    · rw [BitVec.getLsbD_xor, getLsbD_setBits]
      exact Bool.xor_false _
  rw [if_neg h29, if_neg h29, beq_false_of_ne h29, Bool.xor_false]
  by_cases h31 : v.extractLsb' 5 5 = 31
  · rw [if_pos h31, h31]
    refine ⟨extractLsb'_setBits_of_kept _ _ _ (by decide), ?_, getLsbD_setBits _ _ _ 11,
      extractLsb'_setBits_of_kept _ _ _ (by decide), getLsbD_setBits _ _ _ 10⟩
    rw [extractLsb'_setBits_of_selected _ _ _ (by decide)]
    rfl
  · rw [if_neg h31]
    have hy : v.toNat / 2 ^ 5 % 2 ^ 5 ≠ 31 := extractLsb'_ne h31
    have e : (v + 0x0020).toNat = v.toNat + 32 := by
      have hv := v.isLt
      rw [BitVec.toNat_add]
      show (v.toNat + 32) % 2 ^ 15 = v.toNat + 32
      omega
    exact ⟨extractLsb'_congr (by omega), extractLsb'_eq_add_one (by omega), getLsbD_congr (by omega),
      extractLsb'_congr (by omega), getLsbD_congr (by omega)⟩

theorem incY_fields (v : BitVec 15) :
    (incY v).extractLsb' 12 3 = v.extractLsb' 12 3 + 1 ∧
    (incY v).extractLsb' 5 5 = (if v.extractLsb' 12 3 ≠ 7 then v.extractLsb' 5 5
      else if v.extractLsb' 5 5 = 29 then 0 else v.extractLsb' 5 5 + 1) ∧
    (incY v).getLsbD 11 = (v.getLsbD 11 ^^ (v.extractLsb' 12 3 == 7 && v.extractLsb' 5 5 == 29)) ∧
    (incY v).extractLsb' 0 5 = v.extractLsb' 0 5 ∧ (incY v).getLsbD 10 = v.getLsbD 10 := by
  by_cases h : v.extractLsb' 12 3 = 7
  · obtain ⟨hf, hy, hb, hx, ha⟩ := incCoarseY_fields (setBits v 0x7000 0)
    have ky : (setBits v 0x7000 0).extractLsb' 5 5 = v.extractLsb' 5 5 :=
      extractLsb'_setBits_of_kept _ _ _ (by decide)
    rw [incY_wrap h, if_neg (not_not.mpr h), h]
    refine ⟨hf.trans ?_, by rw [hy, ky], ?_, hx.trans (extractLsb'_setBits_of_kept _ _ _ (by decide)),
      ha.trans (getLsbD_setBits _ _ _ 10)⟩
    · rw [extractLsb'_setBits_of_selected _ _ _ (by decide)]
      rfl
    · rw [hb, ky, getLsbD_setBits]
      rfl
  · rw [incY_step h, if_pos h, beq_false_of_ne h, Bool.false_and, Bool.xor_false]
    have hy : v.toNat / 2 ^ 12 % 2 ^ 3 ≠ 7 := extractLsb'_ne h
    have e : (v + 0x1000).toNat = v.toNat + 4096 := by
      have hv := v.isLt
      rw [BitVec.toNat_add]
      show (v.toNat + 4096) % 2 ^ 15 = v.toNat + 4096
      omega
    exact ⟨extractLsb'_eq_add_one (by omega), extractLsb'_congr (by omega), getLsbD_congr (by omega),
      extractLsb'_congr (by omega), getLsbD_congr (by omega)⟩

/-! ## The updates by position -/

theorem fetchDot_kept (d : Nat) (s : State) : DotKept s (fetchDot d s) := by
  unfold fetchDot
  split
  · exact (DotKept.of_ppu (by constructor <;> simp [Ppu.shift])).trans (fetchStep_kept d { s with ppu := s.ppu.shift })
  · exact .refl s

theorem fetchDot_v (d : Nat) (s : State) : (fetchDot d s).ppu.v =
    if InFetchDots d ∧ (d - 1) % 8 = 7 then incCoarseX s.ppu.v else s.ppu.v := by
  unfold fetchDot
  rw [ite_and]
  split
  · exact fetchStep_v d { s with ppu := s.ppu.shift }
  · rfl

/-- The scroll updates of a render line's dot, after the coarse-X increment of its fetch step. -/
theorem renderDot_v (sl d : Nat) (s : State) : (renderDot sl d s).ppu.v =
    if d = 256 then incY (fetchDot d s).ppu.v else if d = 257 then copyHorizontal (fetchDot d s).ppu.v s.ppu.t
    else if sl = 261 ∧ 280 ≤ d ∧ d ≤ 304 then copyVertical (fetchDot d s).ppu.v s.ppu.t else (fetchDot d s).ppu.v := by
  rw [renderDot_eq, ← (fetchDot_kept d s).ppu.scroll]
  exact scrollUpdate_v sl d _

theorem dotIteration_v (s : State) : (dotIteration s).ppu.v = (dotWork s).ppu.v := advance_v (dotWork s).ppu

theorem dotWork_v_of_not_rendering {s : State} (h : ¬ Rendering s.ppu) : (dotWork s).ppu.v = s.ppu.v := by
  obtain ⟨-, e⟩ | ⟨hr, -⟩ | ⟨-, -, e⟩ | ⟨-, -, -, e | e⟩ := dotWork_cases s
  · rw [e, vblankStart_v]
  · exact absurd hr h
  · rw [e]
    rfl
  · rw [e]
  · rw [e]
    rfl

theorem dotWork_v_of_rendering {s : State} (h : Rendering s.ppu) :
    (dotWork s).ppu.v = (renderDot s.ppu.scanline s.ppu.dot s).ppu.v := by
  obtain ⟨hv, -⟩ | ⟨-, e⟩ | ⟨-, hr, -⟩ | ⟨-, hr, -⟩ := dotWork_cases s
  · exact absurd h (not_rendering_of_vblankDot hv)
  · rw [e]
    split
    · rw [renderDot_v, renderDot_v, fetchDot_vblankEnd]
      rfl
    · rfl
  · exact absurd h hr
  · exact absurd h hr

/-- Settles O57: the fields of each update, and `v` by position from the render line's dot. -/
theorem scrollUpdatesByFieldAndDot : Obligations.ScrollUpdatesByFieldAndDot := by
  unfold Obligations.ScrollUpdatesByFieldAndDot
  refine ⟨fun v t => ⟨incCoarseX_fields v, incY_fields v, ?_, ?_⟩, fun s => ⟨?_, ?_⟩⟩
  · exact ⟨extractLsb'_setBits_of_selected _ _ _ (by decide), getLsbD_setBits _ _ _ 10,
      extractLsb'_setBits_of_kept _ _ _ (by decide), getLsbD_setBits _ _ _ 11,
      extractLsb'_setBits_of_kept _ _ _ (by decide)⟩
  · exact ⟨extractLsb'_setBits_of_kept _ _ _ (by decide), getLsbD_setBits _ _ _ 10,
      extractLsb'_setBits_of_selected _ _ _ (by decide), getLsbD_setBits _ _ _ 11,
      extractLsb'_setBits_of_selected _ _ _ (by decide)⟩
  · rw [dotIteration_v]
    by_cases h : Rendering s.ppu
    · rw [dotWork_v_of_rendering h, renderDot_v, fetchDot_v]
      have hr : ∀ q : Prop, (Rendering s.ppu ∧ q) = q := fun q => propext (and_iff_right h)
      simp only [hr]
    · rw [dotWork_v_of_not_rendering h, if_neg (mt And.left h), if_neg (mt And.left h), if_neg (mt And.left h),
        if_neg (mt And.left h)]
  · have hk := dotIteration_ppuKept s
    exact ⟨hk.scroll, hk.fineX, hk.toggle⟩

end Sys2Proof.Machine
end

section
/-! PROOFS. The picture: the pixel of a visible dot, and the sprite pass (65_ppu.md R545, R560, R570). -/

namespace Sys2Proof.Machine

/-! ## The picture by position -/

theorem dotIteration_framebuffer (s : State) :
    (dotIteration s).ppu.framebuffer = (dotWork s).ppu.framebuffer := by
  rw [dotIteration_ppu, advance_eq]

theorem renderDot_framebuffer (sl d : Nat) (s : State) :
    (renderDot sl d s).ppu.framebuffer = backgroundPicture sl d s := by
  rw [renderDot_eq]
  exact scrollUpdate_framebuffer sl d _

theorem vblankStart_framebuffer (s : State) :
    (vblankStart s).ppu.framebuffer = (spritePass s).ppu.framebuffer := by
  have h := congrArg (fun t : State => t.ppu.framebuffer) (spritePass_withVblank s true)
  exact h

theorem dotWork_framebuffer_elsewhere {s : State} (h : ¬ VblankDot s.ppu) (hv : ¬ VisibleDot s.ppu) :
    (dotWork s).ppu.framebuffer = s.ppu.framebuffer := by
  obtain ⟨h', -⟩ | ⟨-, e⟩ | ⟨hv', -⟩ | ⟨-, -, -, e | e⟩ := dotWork_cases s
  · exact absurd h' h
  · have hpic : ∀ t, backgroundPicture s.ppu.scanline s.ppu.dot t = t.ppu.framebuffer := fun t =>
      if_neg fun ⟨hd, hsl, hd'⟩ => hv ⟨hsl, by omega, hd'⟩
    rw [e, renderDot_framebuffer, hpic]
    split <;> rfl
  · exact absurd hv' hv
  · rw [e]
  · rw [e]
    rfl

/-! ## The pixel of a visible dot -/

theorem backgroundIndex_eq (p : Ppu) : backgroundIndex p =
    if p.showBg = false ∨
      (p.shPatHi.getLsbD (15 - p.x.toNat)).toNat * 2 + (p.shPatLo.getLsbD (15 - p.x.toNat)).toNat = 0 then 0
    else p.shPalCur.toNat * 4 +
      ((p.shPatHi.getLsbD (15 - p.x.toNat)).toNat * 2 + (p.shPatLo.getLsbD (15 - p.x.toNat)).toNat) := by
  unfold backgroundIndex
  simp only [bitNat_eq_toNat]
  exact if_congr or_comm rfl rfl

/-- With the background off, and so with rendering off, the pixel is the backdrop, which is entry 0. -/
theorem dotWork_framebuffer_visible {s : State} (hv : VisibleDot s.ppu) :
    (dotWork s).ppu.framebuffer = s.ppu.framebuffer.write (s.ppu.scanline * 256 + (s.ppu.dot - 1))
      (colourCode s (0x3F00 + BitVec.ofNat 16 (backgroundIndex s.ppu))) := by
  obtain ⟨h, -⟩ | ⟨-, e⟩ | ⟨-, hr, e⟩ | ⟨-, -, hv', -⟩ := dotWork_cases s
  · have := h.1
    have := hv.1
    omega
  · obtain ⟨hsl, hd, hd'⟩ := hv
    rw [e, if_neg (by omega), renderDot_framebuffer, backgroundPicture, if_pos ⟨.inl ⟨hd, hd'⟩, hsl, hd'⟩,
      backgroundPixel, BitVec.ofNat_add]
    rfl
  · have hbg : s.ppu.showBg = false := Bool.eq_false_of_not_eq_true fun hb => hr ⟨.inl hv.1, .inl hb⟩
    have hi : backgroundIndex s.ppu = 0 := if_pos (.inr hbg)
    rw [e, hi]
    rfl
  · exact absurd hv hv'

/-- Settles O59: the one write of the dot, read back. -/
theorem visibleDotWritesItsPixel : Obligations.VisibleDotWritesItsPixel := by
  unfold Obligations.VisibleDotWritesItsPixel
  intro s hsl hd hd' p bit pattern index k
  rw [dotIteration_framebuffer, dotWork_framebuffer_visible ⟨hsl, hd, hd'⟩, backgroundIndex_eq]
  exact Memory.read_write _ _ k _

/-! ## Painters of one pixel -/

/-- The painter `g` of pictures gives the pixel `k` the code `c`, or leaves it as it was. -/
def PaintsAt (g : Memory → Memory) (k : Nat) (c : Option Byte) : Prop := ∀ m, (g m).read k = c.getD (m.read k)

/-- Of a list of painters the last that reaches the pixel is seen. -/
theorem foldl_paintsAt {α : Type} {g : Memory → α → Memory} {k : Nat} {c : α → Option Byte}
    (h : ∀ a, PaintsAt (g · a) k (c a)) (l : List α) :
    PaintsAt (fun m => l.foldl g m) k (l.reverse.findSome? c) := by
  induction l with
  | nil => exact fun _ => rfl
  | cons a l ih =>
    intro m
    have hrest : (l.foldl g (g m a)).read k = _ := ih (g m a)
    have hfirst : (g m a).read k = _ := h a m
    show (l.foldl g (g m a)).read k = _
    rw [hrest, hfirst, List.reverse_cons, List.findSome?_append, List.findSome?_singleton]
    cases l.reverse.findSome? c <;> rfl

/-- The code that row `r` and column `c` of a sprite give to the pixel `k`. -/
def spritePixelAt (s : State) (o : Sprite) (k r c : Nat) : Option Byte :=
  if spritePattern s o r c ≠ 0 ∧ o.x.toNat + c ≤ 255 ∧ o.y.toNat + 1 + r ≤ 239 ∧
      k = pixelKey (o.y.toNat + 1 + r) (o.x.toNat + c) then
    some (colourCode s (BitVec.ofNat 16 (0x3F10 + (o.attr.toNat % 4) * 4 + spritePattern s o r c)))
  else none

/-- The code that sprite `n` gives to the pixel `k`. -/
def spriteAt (s : State) (k n : Nat) : Option Byte :=
  (List.range s.ppu.spriteHeight).reverse.findSome? fun r =>
    (List.range 8).reverse.findSome? (spritePixelAt s (s.ppu.sprite n) k r)

theorem spritePixelPainted_paintsAt (s : State) (o : Sprite) (k r c : Nat) :
    PaintsAt (spritePixelPainted s o r c) k (spritePixelAt s o k r c) := by
  intro m
  unfold spritePixelPainted spritePixelAt
  by_cases h : spritePattern s o r c ≠ 0 ∧ o.x.toNat + c ≤ 255 ∧ o.y.toNat + 1 + r ≤ 239
  · rw [if_pos h, Memory.read_write]
    by_cases hk : k = pixelKey (o.y.toNat + 1 + r) (o.x.toNat + c)
    · rw [if_pos hk, if_pos ⟨h.1, h.2.1, h.2.2, hk⟩]
      rfl
    · rw [if_neg hk, if_neg fun e => hk e.2.2.2]
      rfl
  · rw [if_neg h, if_neg fun e => h ⟨e.1, e.2.1, e.2.2.1⟩]
    rfl

theorem spritePainted_paintsAt (s : State) (k n : Nat) : PaintsAt (spritePainted s · n) k (spriteAt s k n) :=
  foldl_paintsAt (fun r => foldl_paintsAt (fun c => spritePixelPainted_paintsAt s (s.ppu.sprite n) k r c)
    (List.range 8)) (List.range s.ppu.spriteHeight)

/-- The pass paints entry 0 last, so the covering sprite of lowest number is seen. -/
theorem spritesPainted_read {s : State} (h : s.ppu.showSp = true) (k : Nat) :
    (spritesPainted s).read k = ((List.range 64).findSome? (spriteAt s k)).getD (s.ppu.framebuffer.read k) := by
  rw [spritesPainted, if_pos h]
  have := foldl_paintsAt (spritePainted_paintsAt s k) (List.range 64).reverse s.ppu.framebuffer
  rw [List.reverse_reverse] at this
  exact this

/-! ## The covering sprite -/

theorem spritePatternAddr_eq (p : Ppu) (o : Sprite) (rr : Nat) : spritePatternAddr p o rr = BitVec.ofNat 16
    ((if p.sprite16 then o.tile.toNat % 2 * 0x1000 + (o.tile.toNat / 2 * 2 + rr / 8) * 16
      else (if p.spTable then 0x1000 else 0) + o.tile.toNat * 16) + rr % 8) := by
  rw [spritePatternAddr, bitNat_mul]

/-- A sprite covers a pixel where one of its rows and columns, inside the picture, is not transparent there. -/
theorem spriteCovers_iff (s : State) (n row column p : Nat) : SpriteCovers s n row column p ↔
    ∃ r c, r < s.ppu.spriteHeight ∧ c < 8 ∧ row = (s.ppu.sprite n).y.toNat + 1 + r ∧
      column = (s.ppu.sprite n).x.toNat + c ∧ row ≤ 239 ∧ column ≤ 255 ∧ p ≠ 0 ∧
      p = spritePattern s (s.ppu.sprite n) r c := by
  unfold SpriteCovers spritePattern
  simp only [spritePatternAddr_eq, bitNat_eq_toNat, BitVec.ofNat_add]
  rfl

theorem spritePixelAt_of_hit {s : State} {o : Sprite} {row column r c : Nat} (hp : spritePattern s o r c ≠ 0)
    (hrow : row = o.y.toNat + 1 + r) (hcol : column = o.x.toNat + c) (hr : row ≤ 239) (hc : column ≤ 255) :
    spritePixelAt s o (row * 256 + column) r c =
      some (colourCode s (BitVec.ofNat 16 (0x3F10 + (o.attr.toNat % 4) * 4 + spritePattern s o r c))) := by
  subst hrow hcol
  exact if_pos ⟨hp, hc, hr, rfl⟩

/-- A row and column of a sprite that reach a pixel are those of the pixel. -/
theorem hit_of_spritePixelAt {s : State} {o : Sprite} {row column r c : Nat} (hc : column ≤ 255)
    (h : spritePixelAt s o (row * 256 + column) r c ≠ none) :
    spritePattern s o r c ≠ 0 ∧ row = o.y.toNat + 1 + r ∧ column = o.x.toNat + c := by
  unfold spritePixelAt pixelKey at h
  split at h
  · next e =>
    obtain ⟨hp, hx, -, hk⟩ := e
    exact ⟨hp, by omega, by omega⟩
  · exact absurd rfl h

/-- A list of options whose members are all `none` or one value, which occurs. -/
theorem findSome?_eq_some_of_forall {α β : Type} {f : α → Option β} {l : List α} {a : α} {b : β} (ha : a ∈ l)
    (hf : f a = some b) (h : ∀ x ∈ l, f x ≠ none → x = a) : l.findSome? f = some b := by
  cases e : l.findSome? f with
  | none => exact absurd (List.findSome?_eq_none_iff.mp e a ha) (by rw [hf]; exact Option.some_ne_none b)
  | some b' =>
    obtain ⟨x, hx, hfx⟩ := List.exists_of_findSome?_eq_some e
    rw [← hfx, h x hx (by rw [hfx]; exact Option.some_ne_none b'), hf]

theorem spriteAt_of_covers {s : State} {n row column p : Nat} (h : SpriteCovers s n row column p) :
    spriteAt s (row * 256 + column) n =
      some (colourCode s (BitVec.ofNat 16 (0x3F10 + (s.ppu.oam.read (4 * n + 2)).toNat % 4 * 4 + p))) := by
  obtain ⟨r, c, hr, hc, hrow, hcol, hrow', hcol', hp, rfl⟩ := (spriteCovers_iff s n row column p).mp h
  have hpixel := spritePixelAt_of_hit hp hrow hcol hrow' hcol'
  have hcolumns := findSome?_eq_some_of_forall (l := (List.range 8).reverse)
    (List.mem_reverse.mpr (List.mem_range.mpr hc)) hpixel fun c' _ h' => by
      obtain ⟨-, -, hcol''⟩ := hit_of_spritePixelAt hcol' h'
      omega
  refine findSome?_eq_some_of_forall (List.mem_reverse.mpr (List.mem_range.mpr hr)) hcolumns fun r' _ h' => ?_
  obtain ⟨v, hv⟩ := Option.ne_none_iff_exists'.mp h'
  obtain ⟨c', -, hc'⟩ := List.exists_of_findSome?_eq_some hv
  obtain ⟨-, hrow'', -⟩ := hit_of_spritePixelAt hcol' (by rw [hc']; exact Option.some_ne_none v)
  omega

theorem spriteAt_of_not_covers {s : State} {n row column : Nat} (hrow : row ≤ 239) (hcol : column ≤ 255)
    (h : ∀ p, ¬ SpriteCovers s n row column p) : spriteAt s (row * 256 + column) n = none := by
  refine List.findSome?_eq_none_iff.mpr fun r hr => List.findSome?_eq_none_iff.mpr fun c hc => ?_
  by_contra hne
  obtain ⟨hp, hrow', hcol'⟩ := hit_of_spritePixelAt hcol hne
  exact h _ ((spriteCovers_iff s n row column _).mpr ⟨r, c, List.mem_range.mp (List.mem_reverse.mp hr),
    List.mem_range.mp (List.mem_reverse.mp hc), hrow', hcol', hrow, hcol, hp, rfl⟩)

/-- The first member of a range with an answer gives it. -/
theorem findSome?_range_eq_some {β : Type} {f : Nat → Option β} {N n : Nat} {b : β} (hn : n < N) (hf : f n = some b)
    (h : ∀ m < n, f m = none) : (List.range N).findSome? f = some b := by
  obtain ⟨j, rfl⟩ : ∃ j, N = n + (j + 1) := ⟨N - n - 1, by omega⟩
  have hfirst : (List.range n).findSome? f = none :=
    List.findSome?_eq_none_iff.mpr fun m hm => h m (List.mem_range.mp hm)
  rw [List.range_add, List.findSome?_append, hfirst, List.range_succ_eq_map, List.map_cons, List.findSome?_cons,
    Nat.add_zero, hf]
  rfl

/-- Settles O60: the pass as the search for the lowest covering sprite, and the picture by position. -/
theorem spritePassPaintsLowestSprite : Obligations.SpritePassPaintsLowestSprite := by
  unfold Obligations.SpritePassPaintsLowestSprite
  refine ⟨fun s => ⟨fun h => if_neg (by rw [h]; exact Bool.false_ne_true), fun h row column hrow hcol => ?_⟩,
    fun s => ⟨fun hsl hd => ?_, fun h hv => ?_⟩⟩
  · have hread : (spritePass s).ppu.framebuffer.read (row * 256 + column) = _ :=
      (congrArg (fun t : State => t.ppu.framebuffer.read _) (spritePass_eq s)).trans (spritesPainted_read h _)
    rw [hread]
    refine ⟨fun n p hn hc hlow => ?_, fun hnone => ?_⟩
    · rw [findSome?_range_eq_some hn (spriteAt_of_covers hc) fun m hm => spriteAt_of_not_covers hrow hcol (hlow m hm)]
      rfl
    · rw [List.findSome?_eq_none_iff.mpr fun n hn => spriteAt_of_not_covers hrow hcol (hnone n (List.mem_range.mp hn))]
      rfl
  · rw [dotIteration_framebuffer, dotWork_vblankDot ⟨hsl, hd⟩, vblankStart_framebuffer]
  · rw [dotIteration_framebuffer, dotWork_framebuffer_elsewhere h hv]

end Sys2Proof.Machine
end
